-- ==== Sys2Proof/Word.lean ====
section
/-! DEFINITION. The word types of the ZQ-960 and their plainest helpers (R3, R4, R34). -/

namespace Sys2Proof

/-- One byte of storage. -/
abbrev Byte := BitVec 8

/-- A 64-bit scalar register, address or CSR value (R23). -/
abbrev Word := BitVec 64

/-- A table of values by number: the entries that differ from the default, by rising key. -/
abbrev Tab (α : Type) := List (Nat × α)

end Sys2Proof
end

