-- ==== Sys2Proof/Config.lean ====
section
/-! DEFINITION. What one part fixes and what the manual leaves open: constants with no body, so that a claim holds whatever
they are. -/

namespace Sys2Proof.Config

/-- The value that a read of a byte of HBM or of a vault, not written since reset, returns (R24): by address and by the
number of the read (DESIGN CHOICE: notes/assumptions/3.md). -/
opaque undefByte : Nat → Nat → BitVec 8

/-- Whether such a read delivers poisoned data (R24) (DESIGN CHOICE: notes/assumptions/3.md). -/
opaque undefPoison : Nat → Nat → Bool

/-- What a byte of another device holds before this device has written it (R470; DESIGN CHOICE: notes/assumptions/3.md). -/
opaque remoteByte : Nat → Nat → BitVec 8

/-- How many of the flits that a port keeps its far end has accepted, when it asks for a retransmission or is given up (R474): what
the far end has received, this device does not know (DESIGN CHOICE: notes/assumptions/10.md). -/
opaque acceptedFlits : Nat → Nat

/-- Whether the response to an access of a number was on a port that is given up (R474): this device does not know
(DESIGN CHOICE: notes/assumptions/73.md). -/
opaque responseLost : Nat → Nat → Bool

/-- The scale of a block of an MX slot that a gather of single elements fills (R84, R89): the manual states none (DESIGN CHOICE: notes/assumptions/17.md). -/
opaque gatherScale : Nat → BitVec 8

/-- The tval of an illegal-instruction or breakpoint exception of an episode context (R452): RISC-V lets it be zero or not (DESIGN CHOICE: notes/assumptions/43.md). -/
opaque excTval : Nat → BitVec 64

/-- An episode identifier proposed for a START (R464): the manual says only that it is new (DESIGN CHOICE: notes/assumptions/12.md). -/
opaque freeEid : Nat → BitVec 16

/-- The code by which the density mode register reports 32 MiB for each channel (R479): the manual gives no code (DESIGN CHOICE: notes/assumptions/61.md). -/
opaque densityCode : BitVec 8

/-- The fused SHA-256 of the accepted public modulus (R500) (DESIGN CHOICE: notes/assumptions/74.md). -/
opaque keyHash : BitVec 256

/-- The modulus of the identity key (R501) (DESIGN CHOICE: notes/assumptions/74.md). -/
opaque identityModulus : BitVec 3072

/-- The identity key's RSASSA-PKCS1-v1_5 signature over a SHA-256 digest (R501): the private key is not observable (DESIGN CHOICE: notes/assumptions/74.md). -/
opaque identitySign : BitVec 256 → BitVec 3072

/-- The signed service record that firmware writes for a vacancy map (R495): its layout is not architectural (DESIGN CHOICE: notes/assumptions/74.md). -/
opaque serviceRecord : BitVec 192 → BitVec 4096

/-- The IDCODE of the test access port (R493): the manual gives no value (DESIGN CHOICE: notes/assumptions/74.md). -/
opaque idcode : BitVec 32

/-- The value at the boundary cells that SAMPLE/PRELOAD captures (R493) (DESIGN CHOICE: notes/assumptions/74.md). -/
opaque boundary : Nat → BitVec 64

end Sys2Proof.Config
end

