-- ==== Sys2Proof/Syntax.lean ====
section
/-! DEFINITION. The syntax of the ZQ-960: the fields of its words (R123 to R139) and one constructor of `Instr` for every
row of spec/opcode_table.json, the instructions of the three word widths and the part's events alike. -/

namespace Sys2Proof

/-- The guard field K (R123). -/
abbrev Guard := BitVec 3
/-- A 5-bit register field: g0–g31 on the AP, e0–e15 on C0, or a predicate number (R123). -/
abbrev Reg := BitVec 5
/-- A ring number q0–q31 (R125). -/
abbrev Port := BitVec 5
/-- The logical number of a core, 0–191 (R15). -/
abbrev CoreNum := BitVec 8
/-- An episode context number, 0–479 (R450). -/
abbrev CtxNum := BitVec 9

/-- The element formats of R33. -/
inductive Fmt where
  | int8 | uint8 | int16 | int32 | int64 | fp32 | fp16 | bf16 | e4m3 | e5m2 | mxfp4 | mxfp8 | code4 | code3
  deriving DecidableEq, Repr

/-- The rounding modes of R46. -/
inductive RMode where
  | rne | rtz | rup | rdn
  deriving DecidableEq, Repr

/-- The engines of a core, by the codes of R20. -/
inductive Eng where
  | ap | c0 | c1 | c2 | c3 | su | ce
  deriving DecidableEq, Repr

/-- An operand of a vector word (R134): the four KINDs with their INDEX and STRIDE. -/
inductive VOp where
  /-- KIND 00: a vector register or predicate, with its step code per repeat. -/
  | reg (idx : BitVec 6) (step : BitVec 2)
  /-- KIND 01: a port. -/
  | port (q : Port)
  /-- KIND 10: a C0 register broadcast. -/
  | bc (e : BitVec 4)
  /-- KIND 11: the word's IMM16. -/
  | imm
  deriving DecidableEq, Repr

/-- A TOK field (R141): engine codes, 0 for none. -/
structure Tok where
  dst : BitVec 3
  s1 : BitVec 3
  s2 : BitVec 3
  s3 : BitVec 3
  deriving DecidableEq, Repr

/-- The fields of a vector word other than OP (R133). -/
structure VWord where
  s : Bool
  lb : Bool
  lat : BitVec 4
  rep : BitVec 4
  d : VOp
  a : VOp
  b : VOp
  ty : Fmt
  pg : BitVec 4
  zm : Bool
  tok : Tok
  mod : BitVec 11
  imm : BitVec 16
  deriving DecidableEq, Repr

/-- The fields of a matrix word other than OP (R139). -/
structure MWord where
  s : Bool
  lb : Bool
  pin : Bool
  stamp : BitVec 32
  aport : Port
  bport : Port
  cport : Port
  acct : BitVec 4
  kgrp : BitVec 8
  ta : Bool
  tb : Bool
  amode : BitVec 2
  bar : BitVec 6
  ben : Bool
  tok : Tok
  ofmt : BitVec 4
  ornd : BitVec 2
  osat : Bool
  oshift : BitVec 6
  mext : BitVec 8
  next : BitVec 8
  imm : BitVec 16
  deriving DecidableEq, Repr

/-- The agents whose accesses are translated (R425): an AP, a stream of an SU, a CE, or the admission reads of R380. -/
inductive Agent where
  | ap (l : CoreNum)
  | su (l : CoreNum) (n : BitVec 4)
  | ce (l : CoreNum)
  | admission
  deriving DecidableEq, Repr

/-- A register with no behaviour of its own: one of diagnostic space (R503), or a host control register (R481). -/
inductive RegAddr where
  | diag (a : BitVec 24)
  | host (off : BitVec 8)
  deriving DecidableEq, Repr

/-- The mode registers that R479 names. -/
inductive ModeReg where
  | vendor | revision | density | readLatency | writeLatency | drive | termination
  | other (n : BitVec 8)
  deriving DecidableEq, Repr

/-- What a request through a converting page tells the home (R116, R473): the page's entry with the frame's local address, its level,
and the first delivered byte (DESIGN CHOICE: notes/assumptions/48.md). -/
structure FlitPage where
  pte : BitVec 128
  lvl : Nat
  va : Nat
  deriving DecidableEq, Repr

/-- A fault that the home has met (R429, R182): its code, its granule and the lock there
(DESIGN CHOICE: notes/assumptions/48.md). -/
structure FlitFault where
  code : BitVec 8
  granule : BitVec 52
  lock : BitVec 4
  deriving DecidableEq, Repr

/-- A Bukuvo flit (R473): its header fields and its payload bits, coded or raw (R476). -/
structure Flit where
  kind : BitVec 4
  ddev : BitVec 9
  sdev : BitVec 9
  score : CoreNum
  fmt : BitVec 4
  raw : Bool
  len : BitVec 8
  addr : BitVec 52
  tag : BitVec 32
  /-- The operation of a kind 5 flit: an AMO operation of R185, or 15 for CAS. -/
  op : BitVec 4
  /-- The width of a kind 5 flit: true for 64 bits. -/
  wide : Bool
  opnd : Word
  cmp : Word
  /-- The bytes that a write stores. -/
  mask : BitVec 224
  /-- The converting page of a request. -/
  page : Option FlitPage
  /-- The tag key of a request that is compared with locks (R429). -/
  key : Option (BitVec 4)
  /-- Poison that the request's read meets is a fault (R182). -/
  strict : Bool
  /-- The bytes of the data that are poisoned. -/
  marks : BitVec 224
  /-- The flags of a conversion and the partial-block writes that a response reports (R115, R116). -/
  acf : BitVec 5
  rmw : Bool
  /-- The fault that a response reports in place of an effect. -/
  fault : Option FlitFault
  payload : List Bool
  /-- Whether the CRC of R474 holds. -/
  crcOk : Bool
  deriving DecidableEq, Repr

/-- What a fast-scan read names (R493, R503). -/
inductive ScanAddr where
  | mem (pa : Nat)
  | diag (a : BitVec 24)
  | csr (l : CoreNum) (n : BitVec 12)
  deriving DecidableEq, Repr

/-- What the signed firmware does on a service core, as the rules name it (R423, R425, R432, R437, R442, R446, R469, R110,
R416, R389, R24, R428). -/
inductive FirmwareAction where
  /-- Takes the oldest record of a die's fault queue (R425). -/
  | takeFault (die : Bool)
  /-- Writes bytes of physical memory: page tables, initialised regions (R24, R423). -/
  | writeMem (pa : Nat) (bytes : List Byte)
  /-- Copies a frame (R432). -/
  | copyMem (src dst len : Nat)
  /-- Writes TVEC_AP and TVEC_C0 of a core (R437). -/
  | setTvec (l : CoreNum) (ap c0 : Word)
  /-- Writes WDOG_LIMIT of a core (R442). -/
  | setWdog (l : CoreNum) (limit : BitVec 32)
  /-- Writes WS_REFBASE (R110). -/
  | setRefBase (v : Word)
  /-- Writes DEV_ID (R469). -/
  | setDevId (v : Word)
  /-- Writes SHADOW_CFG.SLOTS of a core (R446). -/
  | setShadow (l : CoreNum) (slots : BitVec 6)
  /-- Sets the physical base of the ASID table (R416). -/
  | setAsidBase (pa : BitVec 52)
  /-- Reads the hot list of a stack (R431). -/
  | readHotList (stack : BitVec 3)
  /-- Maps a core out, and its vault with it or not (R495). -/
  | mapOut (l : CoreNum) (vault : Bool)
  /-- A service core reads a register of diagnostic space into one of its registers (R503). -/
  | readDiag (k : BitVec 2) (rd : BitVec 5) (a : BitVec 24)
  /-- A service core executes the RV64 instruction at its pc (R10, R450). -/
  | hart (k : BitVec 2)
  /-- Any other M-mode instruction, with no effect that a rule of the manual describes. -/
  | other
  deriving DecidableEq, Repr

/-- One instruction word or one event of the part: one constructor for each row of spec/opcode_table.json. -/
inductive Instr where
  /-- ADD (R170). Writes A + B to D. -/
  | add (k : Guard) (d a b : Reg)
  /-- SUB (R170). Writes A − B to D. -/
  | sub (k : Guard) (d a b : Reg)
  /-- AND (R170). Writes the bitwise AND of A and B to D. -/
  | and (k : Guard) (d a b : Reg)
  /-- OR (R170). Writes the bitwise OR of A and B to D. -/
  | or (k : Guard) (d a b : Reg)
  /-- XOR (R170). Writes the bitwise XOR of A and B to D. -/
  | xor (k : Guard) (d a b : Reg)
  /-- ANDN (R170). Writes A AND NOT B to D. -/
  | andn (k : Guard) (d a b : Reg)
  /-- SHL (R170). Shifts A left by B[5:0]. -/
  | shl (k : Guard) (d a b : Reg)
  /-- SHR (R170). Shifts A right logically by B[5:0]. -/
  | shr (k : Guard) (d a b : Reg)
  /-- SRA (R170). Shifts A right arithmetically by B[5:0]. -/
  | sra (k : Guard) (d a b : Reg)
  /-- MIN (R170). Writes the signed minimum of A and B. -/
  | min (k : Guard) (d a b : Reg)
  /-- MAX (R170). Writes the signed maximum of A and B. -/
  | max (k : Guard) (d a b : Reg)
  /-- MINU (R170). Writes the unsigned minimum of A and B. -/
  | minu (k : Guard) (d a b : Reg)
  /-- MAXU (R170). Writes the unsigned maximum of A and B. -/
  | maxu (k : Guard) (d a b : Reg)
  /-- SLT (R170). Writes 1 when A is less than B, signed. -/
  | slt (k : Guard) (d a b : Reg)
  /-- SLTU (R170). Writes 1 when A is less than B, unsigned. -/
  | sltu (k : Guard) (d a b : Reg)
  /-- SEQ (R170). Writes 1 when A equals B. -/
  | seq (k : Guard) (d a b : Reg)
  /-- MUL (R170). Writes the low 64 bits of the product of A and B. -/
  | mul (k : Guard) (d a b : Reg)
  /-- MULH (R170). Writes the high half of the signed product. -/
  | mulh (k : Guard) (d a b : Reg)
  /-- MULHU (R170). Writes the high half of the unsigned product. -/
  | mulhu (k : Guard) (d a b : Reg)
  /-- DIV (R171). Signed division truncating toward zero, never trapping. -/
  | div (k : Guard) (d a b : Reg)
  /-- DIVU (R171). Unsigned division, never trapping. -/
  | divu (k : Guard) (d a b : Reg)
  /-- REM (R171). Signed remainder with the sign of A. -/
  | rem (k : Guard) (d a b : Reg)
  /-- REMU (R171). Unsigned remainder. -/
  | remu (k : Guard) (d a b : Reg)
  /-- CLZ (R170). Counts the leading zero bits of A. -/
  | clz (k : Guard) (d a : Reg)
  /-- CTZ (R170). Counts the trailing zero bits of A. -/
  | ctz (k : Guard) (d a : Reg)
  /-- POPC (R170). Counts the one bits of A. -/
  | popc (k : Guard) (d a : Reg)
  /-- BEXT (R172). Extracts a bit field of A chosen by B. -/
  | bext (k : Guard) (d a b : Reg)
  /-- BINS (R172). Inserts low bits of A into a field of D chosen by B. -/
  | bins (k : Guard) (d a b : Reg)
  /-- KCMP_EQ (R175). Sets predicate kD when A equals B. -/
  | kcmpEq (k : Guard) (d a b : Reg)
  /-- KCMP_NE (R175). Sets predicate kD when A differs from B. -/
  | kcmpNe (k : Guard) (d a b : Reg)
  /-- KCMP_LT (R175). Sets predicate kD when A < B signed. -/
  | kcmpLt (k : Guard) (d a b : Reg)
  /-- KCMP_GE (R175). Sets predicate kD when A ≥ B signed. -/
  | kcmpGe (k : Guard) (d a b : Reg)
  /-- KCMP_LTU (R175). Sets predicate kD when A < B unsigned. -/
  | kcmpLtu (k : Guard) (d a b : Reg)
  /-- KCMP_GEU (R175). Sets predicate kD when A ≥ B unsigned. -/
  | kcmpGeu (k : Guard) (d a b : Reg)
  /-- KAND (R175). Writes kA AND kB to kD. -/
  | kand (k : Guard) (d a b : Reg)
  /-- KOR (R175). Writes kA OR kB to kD. -/
  | kor (k : Guard) (d a b : Reg)
  /-- KNOT (R175). Writes NOT kA to kD. -/
  | knot (k : Guard) (d a : Reg)
  /-- ADDI (R173). Writes A plus a sign-extended immediate. -/
  | addi (k : Guard) (d a : Reg) (imm : BitVec 12)
  /-- ANDI (R173). Writes A AND the immediate. -/
  | andi (k : Guard) (d a : Reg) (imm : BitVec 12)
  /-- ORI (R173). Writes A OR the immediate. -/
  | ori (k : Guard) (d a : Reg) (imm : BitVec 12)
  /-- XORI (R173). Writes A XOR the immediate. -/
  | xori (k : Guard) (d a : Reg) (imm : BitVec 12)
  /-- SHLI (R173). Shifts A left by an immediate count. -/
  | shli (k : Guard) (d a : Reg) (n : BitVec 6)
  /-- SHRI (R173). Shifts A right logically by an immediate count. -/
  | shri (k : Guard) (d a : Reg) (n : BitVec 6)
  /-- SRAI (R173). Shifts A right arithmetically by an immediate count. -/
  | srai (k : Guard) (d a : Reg) (n : BitVec 6)
  /-- SLTI (R173). Writes 1 when A is below the immediate, signed. -/
  | slti (k : Guard) (d a : Reg) (imm : BitVec 12)
  /-- LUI (R174). Writes IMM17 × 2^12 to D. -/
  | lui (k : Guard) (d : Reg) (imm : BitVec 17)
  /-- ADDPC (R174). Writes PC + IMM17 × 2^12 to D. -/
  | addpc (k : Guard) (d : Reg) (imm : BitVec 17)
  /-- LD (R179). Loads n bytes at A + OFF10 × n, sign-extended. -/
  | ld (k : Guard) (d a : Reg) (off : BitVec 10) (size : BitVec 2)
  /-- LDU (R179). Loads n bytes at A + OFF10 × n, zero-extended. -/
  | ldu (k : Guard) (d a : Reg) (off : BitVec 10) (size : BitVec 2)
  /-- ST (R179). Stores the low n bytes of S at A + OFF10 × n. -/
  | st (k : Guard) (d a : Reg) (off : BitVec 10) (size : BitVec 2)
  /-- LDX (R179). Loads n bytes at A + B × n. -/
  | ldx (k : Guard) (d a b : Reg) (zx : Bool) (size : BitVec 2)
  /-- STX (R179). Stores n bytes at A + B × n. -/
  | stx (k : Guard) (d a b : Reg) (size : BitVec 2)
  /-- LDA (R184). Acquiring load at a scope, ordering every younger access after it. -/
  | lda (k : Guard) (d a : Reg) (sc : BitVec 3) (zx : Bool) (size : BitVec 2)
  /-- STL (R184). Releasing store at a scope, waiting for older accesses to perform. -/
  | stl (k : Guard) (d a : Reg) (sc : BitVec 3) (size : BitVec 2)
  /-- AMO_W (R185). 32-bit indivisible read-modify-write at a scope, returning the old value. -/
  | amoW (k : Guard) (d a b : Reg) (sc : BitVec 3) (fn : BitVec 4)
  /-- AMO_D (R185). 64-bit indivisible read-modify-write at a scope, returning the old value. -/
  | amoD (k : Guard) (d a b : Reg) (sc : BitVec 3) (fn : BitVec 4)
  /-- CAS (R186). Compare-and-swap at a scope, returning the old value. -/
  | cas (k : Guard) (d a b : Reg) (sc : BitVec 3) (wide : Bool)
  /-- FENCE (R188). Orders older accesses, performed at a scope, before younger ones. -/
  | fence (k : Guard) (sc : BitVec 3)
  /-- QALIGN (R183). Holds younger loads until older stores have performed at core scope. -/
  | qalign (k : Guard)
  /-- B (R189). Branches by OFF22 words when the guard is true. -/
  | b (k : Guard) (off : BitVec 22)
  /-- BK (R189). Branches when the predicate named by K is 0. -/
  | bk (k : Guard) (off : BitVec 22)
  /-- BCC_EQ (R190). Branches when D equals A. -/
  | bccEq (k : Guard) (d a : Reg) (imm : BitVec 12)
  /-- BCC_NE (R190). Branches when D differs from A. -/
  | bccNe (k : Guard) (d a : Reg) (imm : BitVec 12)
  /-- BCC_LT (R190). Branches when D < A signed. -/
  | bccLt (k : Guard) (d a : Reg) (imm : BitVec 12)
  /-- BCC_GE (R190). Branches when D ≥ A signed. -/
  | bccGe (k : Guard) (d a : Reg) (imm : BitVec 12)
  /-- BCC_LTU (R190). Branches when D < A unsigned. -/
  | bccLtu (k : Guard) (d a : Reg) (imm : BitVec 12)
  /-- BCC_GEU (R190). Branches when D ≥ A unsigned. -/
  | bccGeu (k : Guard) (d a : Reg) (imm : BitVec 12)
  /-- JAL (R189). Jumps by IMM17 words and writes the return address to D. -/
  | jal (k : Guard) (d : Reg) (imm : BitVec 17)
  /-- JALR (R189). Jumps to A + imm and writes the return address to D. -/
  | jalr (k : Guard) (d a : Reg) (imm : BitVec 12)
  /-- LOOP (R192). Opens a hardware loop level over the following body, or skips it for a count of 0. -/
  | loop (k : Guard) (a : Reg) (imm : BitVec 12)
  /-- BRQ (R198). Pops a branch outcome from another engine and branches on it. -/
  | brq (k : Guard) (d : Reg) (imm : BitVec 12)
  /-- BQPUSH (R197). Pushes a predicate into a branch-outcome queue. -/
  | bqpush (k : Guard) (d a : Reg)
  /-- TKSIG (R201). Pushes a token to an engine once every older word has retired. -/
  | tksig (k : Guard) (d : Reg)
  /-- TKWAIT (R202). Waits for and pops a token from an engine. -/
  | tkwait (k : Guard) (d : Reg)
  /-- SCFG (R228). Checks and loads a stream descriptor into a CLOSED stream register. -/
  | scfg (k : Guard) (n : BitVec 4) (a : Reg)
  /-- SOPEN (R228). Opens a stream on its ring after the sharing checks. -/
  | sopen (k : Guard) (n : BitVec 4)
  /-- SCLOSE (R95). Closes a stream, completing begun writes and discarding fetched-ahead data. -/
  | sclose (k : Guard) (n : BitVec 4)
  /-- SEOS (R98). Requests a bind-off slot after the last data slot. -/
  | seos (k : Guard) (n : BitVec 4)
  /-- SMARK (R96). Sets the stitch marker to the start of a given output slot. -/
  | smark (k : Guard) (n : BitVec 4) (a : Reg)
  /-- SREWIND (R97). Reopens the stream at its stitch marker. -/
  | srewind (k : Guard) (n : BitVec 4)
  /-- SFORK_G (R99). Copies a stream into another register with a different ring. -/
  | sforkG (k : Guard) (n : BitVec 4) (q : Port) (a : Reg)
  /-- SFORK_T (R228). Makes a CLOSED stream tee into a second ring. -/
  | sforkT (k : Guard) (n : BitVec 4) (q : Port)
  /-- SSTAT (R228). Writes a stream's status word to a register. -/
  | sstat (k : Guard) (n : BitVec 4) (a : Reg)
  /-- SSAVE (R101). Writes a stream save record and closes the stream. -/
  | ssave (k : Guard) (n : BitVec 4) (a : Reg)
  /-- SREST (R101). Restores a stream register from a save record. -/
  | srest (k : Guard) (n : BitVec 4) (a : Reg)
  /-- SWAIT (R229). Waits until a stream condition holds. -/
  | swait (k : Guard) (n : BitVec 4) (c : BitVec 2)
  /-- SBASE (R228). Writes a stream's BASE, reopening a DONE stream. -/
  | sbase (k : Guard) (n : BitVec 4) (a : Reg)
  /-- RCFG (R231). Configures or unconfigures a ring. -/
  | rcfg (k : Guard) (q : Port) (a : Reg)
  /-- RHEAD (R232). Writes a snapshot of a ring's head side to a register. -/
  | rhead (k : Guard) (q : Port) (a : Reg)
  /-- RTAIL (R232). Writes a snapshot of a ring's tail side to a register. -/
  | rtail (k : Guard) (q : Port) (a : Reg)
  /-- RPOP (R233). Consumes and frees the whole head slot of a ring for the AP. -/
  | rpop (k : Guard) (q : Port) (a : Reg)
  /-- RPUSH (R234). Marks the tail slot of a ring full, as data or as a bind-off. -/
  | rpush (k : Guard) (q : Port) (a : Reg)
  /-- RWAIT (R235). Waits until a ring condition holds. -/
  | rwait (k : Guard) (q : Port) (c : BitVec 2)
  /-- COPY (R239). Hands a copy descriptor to the copy engine and retires. -/
  | copy (k : Guard) (a : Reg)
  /-- COPYW (R239). Hands a copy to the copy engine and waits for its STATUS. -/
  | copyw (k : Guard) (d a : Reg)
  /-- WSLOAD (R240). Hands the copy engine a transfer into the weight store. -/
  | wsload (k : Guard) (a : Reg)
  /-- SPAWN (R244). Pushes a child record to the core its placement names. -/
  | spawn (k : Guard) (d a : Reg)
  /-- EXIT (R246). Ends the record and releases its reference to its join object. -/
  | exit (k : Guard)
  /-- JOIN (R247). Ends the record, leaving a continuation on a join object. -/
  | join (k : Guard) (a b : Reg)
  /-- PARK (R248). Ends the record and places an image in the wait table. -/
  | park (k : Guard) (a : Reg)
  /-- WAITF (R249). Polls memory for a value, parking the record on a watch if allowed. -/
  | waitf (k : Guard) (d a b : Reg)
  /-- APPEND (R251). Appends an item to a compaction list. -/
  | append (k : Guard) (d a b : Reg)
  /-- TAKE (R252). Removes the oldest item of a list, waiting or returning all ones at termination. -/
  | take (k : Guard) (d a : Reg)
  /-- QUIET (R254). Reads the launch's termination state. -/
  | quiet (k : Guard) (d : Reg)
  /-- BARINIT (R257). Initialises a barrier object with EXPECT. -/
  | barinit (k : Guard) (a b : Reg)
  /-- BARARR (R258). Arrives at a barrier phase with status bits. -/
  | bararr (k : Guard) (d a b : Reg)
  /-- BARWAIT (R259). Waits for a barrier phase to end and reads its status. -/
  | barwait (k : Guard) (d a b : Reg)
  /-- BARSTAT (R260). Reads PHASE and ARRC of a barrier object. -/
  | barstat (k : Guard) (d a : Reg)
  /-- MBPUT (R263). Posts a message image to an action mailbox. -/
  | mbput (k : Guard) (d a b : Reg)
  /-- MBGET (R264). Takes the oldest message of an observation or reward mailbox. -/
  | mbget (k : Guard) (d a b : Reg)
  /-- MBPEEK (R265). Reads a mailbox's occupancy and release state. -/
  | mbpeek (k : Guard) (d a : Reg)
  /-- CSRR (R203). Reads a CSR into a register. -/
  | csrr (k : Guard) (d : Reg) (n : BitVec 12)
  /-- CSRW (R204). Writes a register into a CSR under its access type and privilege. -/
  | csrw (k : Guard) (d : Reg) (n : BitVec 12)
  /-- CSRX (R204). Exchanges a register with a CSR. -/
  | csrx (k : Guard) (d : Reg) (n : BitVec 12)
  /-- TRAP (R206). Raises the breakpoint trap with a code. -/
  | trap (k : Guard) (code : BitVec 12)
  /-- TRET (R207). Returns from handler mode once both AP and C0 have executed it. -/
  | tret (k : Guard)
  /-- HALT (R208). Stops the AP and C0 once nothing is in flight. -/
  | halt (k : Guard)
  /-- TICK (R209). Writes the current global tick to D. -/
  | tick (k : Guard) (d : Reg)
  /-- TLBINV (R213). Invalidates translations of an ASID in the issuing core. -/
  | tlbinv (k : Guard) (d : Reg) (n : BitVec 12)
  /-- ASIDRET (R214). Begins the retirement of an ASID. -/
  | asidret (k : Guard) (d : Reg)
  /-- SPCFG (R216). Installs a new scratchpad partition. -/
  | spcfg (k : Guard) (d : Reg)
  /-- SYNCG (R217). Sets the sync-group mask and ease, joining lockstep if C0 is a member. -/
  | syncg (k : Guard) (mask : BitVec 4) (ease : BitVec 8)
  /-- LOOPC (R220). Performs C0's loop close and branches while it continues. -/
  | loopc (k : Guard) (off : BitVec 22)
  /-- ROTCLR (R219). Resets the rotating base of C1 and/or C2. -/
  | rotclr (k : Guard) (mask : BitVec 2)
  /-- EASE (R218). Sets the declared ease of one elastic command buffer. -/
  | ease (k : Guard) (d : Reg) (n : BitVec 8)
  /-- VADD (R276). Integer element-wise add, wrapping or saturating. -/
  | vadd (w : VWord)
  /-- VSUB (R276). Integer element-wise subtract. -/
  | vsub (w : VWord)
  /-- VMUL (R276). Integer element-wise multiply. -/
  | vmul (w : VWord)
  /-- VMULH (R276). High half of the integer element-wise product. -/
  | vmulh (w : VWord)
  /-- VMAC (R276). Integer multiply-accumulate into D. -/
  | vmac (w : VWord)
  /-- VMIN (R276). Integer element-wise minimum. -/
  | vmin (w : VWord)
  /-- VMAX (R276). Integer element-wise maximum. -/
  | vmax (w : VWord)
  /-- VABS (R276). Integer element-wise absolute value. -/
  | vabs (w : VWord)
  /-- VNEG (R276). Integer element-wise negation. -/
  | vneg (w : VWord)
  /-- VAND (R276). Bitwise AND of elements. -/
  | vand (w : VWord)
  /-- VOR (R276). Bitwise OR of elements. -/
  | vor (w : VWord)
  /-- VXOR (R276). Bitwise XOR of elements. -/
  | vxor (w : VWord)
  /-- VSHL (R276). Element-wise left shift. -/
  | vshl (w : VWord)
  /-- VSHR (R276). Element-wise logical right shift. -/
  | vshr (w : VWord)
  /-- VSRA (R276). Element-wise arithmetic right shift. -/
  | vsra (w : VWord)
  /-- VQSHR (R278). Rounding shift right and narrow into a parted destination. -/
  | vqshr (w : VWord)
  /-- VQMUL (R276). Fixed-point QMul of INT32 elements. -/
  | vqmul (w : VWord)
  /-- VSAT (R277). Clamps elements to the range of a narrower format. -/
  | vsat (w : VWord)
  /-- VFADD (R279). Floating-point add, rounded once. -/
  | vfadd (w : VWord)
  /-- VFSUB (R279). Floating-point subtract. -/
  | vfsub (w : VWord)
  /-- VFMUL (R279). Floating-point multiply. -/
  | vfmul (w : VWord)
  /-- VFMA (R279). Fused multiply-add A × B + D. -/
  | vfma (w : VWord)
  /-- VFMS (R279). Fused multiply-subtract A × B − D. -/
  | vfms (w : VWord)
  /-- VFMIN (R280). Floating-point minimum with NaN passing. -/
  | vfmin (w : VWord)
  /-- VFMAX (R280). Floating-point maximum with NaN passing. -/
  | vfmax (w : VWord)
  /-- VFRCP (R279). Correctly rounded reciprocal. -/
  | vfrcp (w : VWord)
  /-- VFRSQ (R279). Correctly rounded reciprocal square root. -/
  | vfrsq (w : VWord)
  /-- VFEXP2 (R279). Correctly rounded power of two. -/
  | vfexp2 (w : VWord)
  /-- VFLOG2 (R279). Correctly rounded base-2 logarithm. -/
  | vflog2 (w : VWord)
  /-- VFABS (R279). Clears the sign of each element. -/
  | vfabs (w : VWord)
  /-- VFNEG (R279). Inverts the sign of each element. -/
  | vfneg (w : VWord)
  /-- VCMP (R281). Integer comparison into a predicate. -/
  | vcmp (w : VWord)
  /-- VFCMP (R281). Floating-point comparison into a predicate. -/
  | vfcmp (w : VWord)
  /-- VSEL (R282). Selects A or B per element by the guard. -/
  | vsel (w : VWord)
  /-- VMOV (R282). Copies elements of A to D. -/
  | vmov (w : VWord)
  /-- VBCAST (R282). Broadcasts element k of A. -/
  | vbcast (w : VWord)
  /-- VPERM (R282). Permutes A by indices in B. -/
  | vperm (w : VWord)
  /-- VSHUF (R283). Applies a fixed shuffle pattern. -/
  | vshuf (w : VWord)
  /-- VSLIDE (R282). Slides the concatenation of A and B by s elements. -/
  | vslide (w : VWord)
  /-- VPACK (R284). Narrows integer elements of A and B to half width. -/
  | vpack (w : VWord)
  /-- VUNPK (R284). Widens one half of A's integer elements. -/
  | vunpk (w : VWord)
  /-- VREDADD (R286). Integer sum reduction of active elements. -/
  | vredadd (w : VWord)
  /-- VREDMAX (R287). Maximum reduction of active elements. -/
  | vredmax (w : VWord)
  /-- VREDMIN (R287). Minimum reduction of active elements. -/
  | vredmin (w : VWord)
  /-- VFREDADD (R288). Floating-point tree sum reduction to FP32. -/
  | vfredadd (w : VWord)
  /-- VSCAN (R289). Integer prefix sum. -/
  | vscan (w : VWord)
  /-- VCVT (R290). Converts elements between formats. -/
  | vcvt (w : VWord)
  /-- VXPAND (R291). Expands packed codes through a table register. -/
  | vxpand (w : VWord)
  /-- VMXQ (R293). Quantises elements into MX blocks. -/
  | vmxq (w : VWord)
  /-- VMXD (R294). Expands MX blocks into elements. -/
  | vmxd (w : VWord)
  /-- VPART (R295). Lists element indices by outcome key, with counts and starts. -/
  | vpart (w : VWord)
  /-- VCOMP (R296). Compacts active elements to the front. -/
  | vcomp (w : VWord)
  /-- VEXPD (R296). Expands leading elements into active positions. -/
  | vexpd (w : VWord)
  /-- VGATH (R298). Gathers scratchpad elements through lanes. -/
  | vgath (w : VWord)
  /-- VSCAT (R299). Scatters elements to the private AP region through lanes. -/
  | vscat (w : VWord)
  /-- VPUSH (R302). Pushes one 256-byte unit into a ring. -/
  | vpush (w : VWord)
  /-- VPUSH_BOFF (R303). Pushes a whole bind-off slot with a count. -/
  | vpushBoff (w : VWord)
  /-- PAND (R304). Predicate AND. -/
  | pand (w : VWord)
  /-- POR (R304). Predicate OR. -/
  | por (w : VWord)
  /-- PXOR (R304). Predicate XOR. -/
  | pxor (w : VWord)
  /-- PNOT (R304). Predicate NOT. -/
  | pnot (w : VWord)
  /-- PCNT (R305). Counts set governing predicate bits. -/
  | pcnt (w : VWord)
  /-- PFIRST (R305). Keeps only the first set governing element. -/
  | pfirst (w : VWord)
  /-- TWROW (R308). Writes a row of a tile register. -/
  | twrow (w : VWord)
  /-- TRCOL (R308). Reads a column of a tile register. -/
  | trcol (w : VWord)
  /-- TCLR (R308). Clears a tile register. -/
  | tclr (w : VWord)
  /-- VJMP (R311). Vector branch: always, on loop close, or on BOF. -/
  | vjmp (w : VWord)
  /-- VBRQ (R312). Pops a branch outcome from the AP and branches on it. -/
  | vbrq (w : VWord)
  /-- VBRP (R313). Branches on a predicate test and may push the outcome to the AP. -/
  | vbrp (w : VWord)
  /-- MMA (R330). One tile step of matrix multiply into an accumulator tile. -/
  | mma (w : MWord)
  /-- MZERO (R332). Zeroes a region of an accumulator tile. -/
  | mzero (w : MWord)
  /-- MFILL (R332). Fills a tile region from ring slots. -/
  | mfill (w : MWord)
  /-- MDRAIN (R335). Converts a tile region and writes it into ring slots. -/
  | mdrain (w : MWord)
  /-- MADD (R332). Adds ring elements into a tile region. -/
  | madd (w : MWord)
  /-- MSCALE (R333). Scales a tile region by per-row or per-column multipliers. -/
  | mscale (w : MWord)
  /-- MCOPY (R334). Copies or transposes a tile region into another tile. -/
  | mcopy (w : MWord)
  /-- MCFG (R346). Sets a port's MPFMT format entry. -/
  | mcfg (w : MWord)
  /-- MSTAT (R347). Writes MSTAT_C3 and the tick into a ring slot. -/
  | mstat (w : MWord)
  /-- MWAIT (R345). Waits for the end of C3's last barrier phase and reads its status. -/
  | mwait (w : MWord)
  /-- MTOK (R348). Pops and pushes tokens after earlier C3 words retire. -/
  | mtok (w : MWord)
  /-- MBAR (R344). Arrives at a barrier with an immediate status. -/
  | mbar (w : MWord)
  /-- MJMP (R350). Matrix branch, optionally pushing the outcome to the AP. -/
  | mjmp (w : MWord)
  /-- MBRQ (R351). Pops a branch outcome from the AP and branches on it. -/
  | mbrq (w : MWord)
  /-- VECTOR_RESULT_LANDING (R143). A vector repeat's result lands, its flags are ORed and its token pushed. -/
  | vectorResultLanding (l : CoreNum) (c2 : Bool) (n : Nat)
  /-- LOCKSTEP_RENDEZVOUS (R152). Members of a sync group that all wait at S-words enter a lockstep region. -/
  | lockstepRendezvous (l : CoreNum)
  /-- MATRIX_WORD_START (R316). A C3 word starts on its unit once slots, tiles and STAMP allow. -/
  | matrixWordStart (l : CoreNum) (n : Nat)
  /-- MATRIX_WORD_RETIREMENT (R315). A C3 word retires, landing results, ORing status and pushing its token. -/
  | matrixWordRetirement (l : CoreNum) (n : Nat)
  /-- BARRIER_REQUEST_AT_HOME (R261). A remote barrier request or arrival reaches the home core and is performed. -/
  | barrierRequestAtHome (n : Nat)
  /-- BARRIER_PHASE_REPLY (R343). A refusal reply for a C3 arrival returns and raises the barrier-phase trap. -/
  | barrierPhaseReply (n : Nat)
  /-- BARWAIT_REPOLL (R261). A waiter beyond the 64th repeats its read at the home every 64 ticks. -/
  | barwaitRepoll (l : CoreNum) (c3 : Bool)
  /-- STREAM_START (R88). A stream pops its TKW token and begins generating elements. -/
  | streamStart (l : CoreNum) (n : BitVec 4)
  /-- STREAM_SLOT_COMMIT (R85). A filling stream commits its next slot in order. -/
  | streamSlotCommit (l : CoreNum) (n : BitVec 4)
  /-- BIND_OFF_COMMIT (R98). A requested bind-off slot is committed once its target slot is empty. -/
  | bindOffCommit (l : CoreNum) (n : BitVec 4)
  /-- STREAM_SLOT_DRAIN (R86). A ring-to-memory or scatter stream frees a slot once its writes perform at device scope. -/
  | streamSlotDrain (l : CoreNum) (n : BitVec 4)
  /-- REMOTE_SLOT_TRANSFER (R87). A ring-to-remote-ring stream moves one slot into the remote ring. -/
  | remoteSlotTransfer (l : CoreNum) (n : BitVec 4)
  /-- PAGE_WALK (R418). A page walk completes with a translation or a fault. -/
  | pageWalk (a : Agent)
  /-- FAULT_RECORD_WRITE (R425). An agent writes a fault record once its die's fault queue has room. -/
  | faultRecordWrite (a : Agent)
  /-- RETRY (R426). Service firmware answers a 0x01 record and the agent walks again. -/
  | retry (seq : Word)
  /-- KILL_RESPONSE (R426). Service firmware answers a 0x01 record by killing the task. -/
  | killResponse (seq : Word) (cause : BitVec 8)
  /-- SHOOTDOWN (R422). Service firmware invalidates translations device-wide. -/
  | shootdown (asid : Option (BitVec 12)) (va : Option (BitVec 48))
  /-- ASID_RETIREMENT (R214). A retiring ASID's entries are dropped everywhere once no launch holds it, clearing BUSY. -/
  | asidRetirement
  /-- COPY_TRANSFER_START (R237). The copy engine pops TKW and starts its oldest accepted transfer. -/
  | copyTransferStart (l : CoreNum)
  /-- COPY_TRANSFER_COMPLETE (R237). A transfer's writes perform; STATUS is written and TKS pushed. -/
  | copyTransferComplete (l : CoreNum)
  /-- REFRESH_WINDOW_START (R109). A weight-store refresh window begins, blocking one bank group. -/
  | refreshWindowStart
  /-- REFRESH_WINDOW_END (R109). A refresh window ends and waiting accesses proceed. -/
  | refreshWindowEnd
  /-- ACCESS_PERFORM (R355). A home performs an access that has reached it. -/
  | accessPerform (n : Nat)
  /-- ACKNOWLEDGEMENT (R361). An off-die acknowledgement returns, decrementing ACK_OUT. -/
  | acknowledgement (l : CoreNum)
  /-- HOT_LIST_WRITE (R431). At each interval end a controller writes its hot list and clears its sketch. -/
  | hotListWrite (stack : BitVec 3)
  /-- ADMISSION (R380). The device takes a launch entry, checks it and admits or rejects the launch. -/
  | admission
  /-- ROOT_RECORD_PUSH (R381). An admitted launch's root record is pushed once queue space exists. -/
  | rootRecordPush (lid : BitVec 16)
  /-- GANG_ADMISSION (R404). When every claimed core is free, the head gang is bound, configured and pushed. -/
  | gangAdmission
  /-- COMPLETION_ENTRY_WRITE (R483). The device writes a completion entry once the ring has room and advances CQ_TAIL. -/
  | completionEntryWrite
  /-- RECORD_EXAMINE (R391). A record entering the SRAM queue is examined and parked or spilled if ineligible. -/
  | recordExamine (l : CoreNum)
  /-- RECORD_SELECTION (R392). A free core selects and starts an eligible record. -/
  | recordSelection (l : CoreNum)
  /-- RECORD_RETIREMENT (R245). An ended record retires once its clusters, streams and copies finish. -/
  | recordRetirement (l : CoreNum)
  /-- CONTINUATION_PUSH (R246). A join reaching zero pushes its continuation once queue space exists. -/
  | continuationPush (l : CoreNum)
  /-- DETECTOR_COPY_UPDATE (R410). Die 1's termination detector copy takes an update from die 0. -/
  | detectorCopyUpdate
  /-- WATCH_WAKE (R249). A write to a watched line makes a parked WAITF record eligible. -/
  | watchWake (l : CoreNum) (n : Nat)
  /-- REPLAN_EVENT (R411). The skew monitor raises a re-plan event when a group finishes too early. -/
  | replanEvent (lid : BitVec 16)
  /-- LAUNCH_END (R412). A launch with no work left ends, releasing its lists and lease. -/
  | launchEnd (lid : BitVec 16)
  /-- TASK_KILL (R433). A launch is killed on every core that holds its records. -/
  | taskKill
  /-- PREEMPTION_STOP (R396). A higher-priority eligible record makes a core stop its resident launch. -/
  | preemptionStop (l : CoreNum)
  /-- HANDLER_STOP_LIMIT (R398). A pre-emption held in handler mode forces a save after 2^20 ticks. -/
  | handlerStopLimit (l : CoreNum)
  /-- CONTEXT_SAVE (R447). After the drain, the context-save engine saves the core's state. -/
  | contextSave (l : CoreNum)
  /-- CONTEXT_RESTORE (R397). A saved context is restored when the core may resume it. -/
  | contextRestore (l : CoreNum)
  /-- TRAP_ENTRY (R435). A raised trap stops the engines and enters handler mode. -/
  | trapEntry (l : CoreNum)
  /-- WATCHDOG (R442). WDOG_CNT reaches its limit and raises the watchdog trap. -/
  | watchdog (l : CoreNum)
  /-- HPC_C3_WRITE (R441). A handler write of HPC_C3 starts C3 fetching handler code. -/
  | hpcC3Write (l : CoreNum)
  /-- CLS_CLEAR (R489). Writing CLR to CLS_CTL zeroes every classifier counter. -/
  | clsClear (l : CoreNum)
  /-- REGISTER_WRITE (R6). A write to a register with no behaviour of its own, under its access type. -/
  | registerWrite (r : RegAddr) (v : Word)
  /-- ACTIVATE (R479). Host port LPDDR6 activate command. -/
  | activate (ch : BitVec 2)
  /-- PRECHARGE (R479). Host port LPDDR6 precharge command. -/
  | precharge (ch : BitVec 2)
  /-- READ (R486). Host read of the host window. -/
  | read (off : BitVec 28) (n : Nat)
  /-- WRITE (R486). Host write to the host window. -/
  | write (off : BitVec 28) (bytes : List Byte)
  /-- WRITE_WITH_BYTE_MASK (R479). Host masked write to the host window. -/
  | writeWithByteMask (off : BitVec 28) (bytes : List (Option Byte))
  /-- REFRESH (R479). Host refresh command, accepted with no effect. -/
  | refresh (ch : BitVec 2)
  /-- SELF_REFRESH (R479). Host self-refresh command, accepted with no effect. -/
  | selfRefresh (ch : BitVec 2)
  /-- POWER_DOWN_ENTRY (R479). Host power-down entry, accepted with no effect. -/
  | powerDownEntry (ch : BitVec 2)
  /-- POWER_DOWN_EXIT (R479). Host power-down exit, accepted with no effect. -/
  | powerDownExit (ch : BitVec 2)
  /-- MODE_REGISTER_READ (R479). Host read of a mode register. -/
  | modeRegisterRead (ch : BitVec 2) (r : ModeReg)
  /-- MODE_REGISTER_WRITE (R479). Host write of a mode register, applied or ignored. -/
  | modeRegisterWrite (ch : BitVec 2) (r : ModeReg) (v : BitVec 8)
  /-- TRAINING_SEQUENCE (R479). A host port training sequence. -/
  | trainingSequence (ch : BitVec 2)
  /-- LQ_TAIL_WRITE (R486). Host advances the launch queue tail, releasing earlier writes. -/
  | lqTailWrite (v : BitVec 32)
  /-- CQ_HEAD_WRITE (R481). Host frees completion entries. -/
  | cqHeadWrite (v : BitVec 32)
  /-- SQ_TAIL_WRITE (R486). Host advances the service command tail. -/
  | sqTailWrite (v : BitVec 32)
  /-- SR_HEAD_WRITE (R481). Host frees service responses. -/
  | srHeadWrite (v : BitVec 32)
  /-- KILL (R485). Service command killing a launch with cause 0x07. -/
  | kill
  /-- BIND (R465). Service command binding an episode context to a launch. -/
  | bind
  /-- START (R464). Service command starting an episode from a descriptor. -/
  | start
  /-- STOP (R465). Service command ending an episode with TERM 6. -/
  | stop
  /-- TAGSET (R428). Service command writing memory tag locks. -/
  | tagset
  /-- EPREAD (R468). Service command returning EPSTAT and EPCNT of a context. -/
  | epread
  /-- MAPOUT (R495). Service command mapping a core, and optionally its vault, out. -/
  | mapout
  /-- RESTART (R496). Service command resetting a halted core so it can run again. -/
  | restart
  /-- ATTEST (R501). Service command writing a signed attestation report. -/
  | attest
  /-- IDKEY (R501). Service command writing the identity modulus. -/
  | idkey
  /-- DREAD (R501). Service command returning a diagnostic register. -/
  | dread
  /-- OVFSET (R485). Service command setting a core's overflow ring. -/
  | ovfset
  /-- PARTITION_CREATE (R448). Firmware command creating a partition. -/
  | partitionCreate (p : BitVec 3) (cores : List CoreNum) (asids : List (BitVec 12))
  /-- PARTITION_HALT (R448). Firmware command stopping a running partition. -/
  | partitionHalt (p : BitVec 3)
  /-- PARTITION_SAVE (R448). Firmware command saving a halted partition. -/
  | partitionSave (p : BitVec 3)
  /-- PARTITION_RESTORE (R448). Firmware command restoring or resuming a partition. -/
  | partitionRestore (p : BitVec 3)
  /-- PARTITION_DESTROY (R448). Firmware command killing a partition's launches and freeing it. -/
  | partitionDestroy (p : BitVec 3)
  /-- EPISODE_CORE_INSTRUCTION (R451). An episode context executes an RV64 instruction. -/
  | episodeCoreInstruction (n : BitVec 6)
  /-- ACT_TAKE (R460). A context's load of ACT_TAKE makes the next delivered action current. -/
  | actTake (x : CtxNum)
  /-- OBS_BELL (R461). A doorbell store posting the observation buffer. -/
  | obsBell (x : CtxNum)
  /-- REW_BELL (R461). A doorbell store posting the reward buffer. -/
  | rewBell (x : CtxNum)
  /-- ACTION_EXAMINATION (R459). An action message is examined and delivered, discarded or truncating. -/
  | actionExamination (x : CtxNum)
  /-- STEP_WATCHDOG (R463). The step timer reaches STEPWD and ends the episode with TERM 2. -/
  | stepWatchdog (x : CtxNum)
  /-- EPISODE_BUDGET (R463). The episode budget expires and ends the episode with TERM 3. -/
  | episodeBudget (x : CtxNum)
  /-- CONTEXT_EXCEPTION (R452). An exception suspends a context and is reported to a service core. -/
  | contextException (x : CtxNum)
  /-- SUSPENDED_CONTEXT_END (R466). Firmware ends a suspended context with a TERM 5 message. -/
  | suspendedContextEnd (x : CtxNum)
  /-- SCRUB (R457). OWN windows of an ended context are zeroed and SCRB cleared. -/
  | scrub (x : CtxNum)
  /-- CONTEXT_SWITCH (R453). An episode core switches to the next ready context. -/
  | contextSwitch (n : BitVec 6)
  /-- FLIT_RECEIVE (R473). A port receives a flit and performs, answers or forwards it. -/
  | flitReceive (port : BitVec 4) (f : Flit)
  /-- FLIT_RETRANSMIT (R474). A bad CRC makes a link retransmit a flit and its successors. -/
  | flitRetransmit (port : BitVec 4)
  /-- PORT_TRAINING (R472). Firmware trains a port and writes its route table. -/
  | portTraining (port : BitVec 4) (routes : List (Nat × List (BitVec 4)))
  /-- PORT_REMOVAL (R474). A failed port is removed from the route table, killing tasks with lost flits. -/
  | portRemoval (port : BitVec 4)
  /-- DEVICE_RESET (R27). RESET_N resets the device and holds the global tick at 0. -/
  | deviceReset
  /-- BOOT_LEN_WRITE (R500). Host writes BOOT.LEN, starting image verification. -/
  | bootLenWrite (v : BitVec 32)
  /-- IMAGE_VERIFICATION (R500). Verification of the boot image ends, refusing it or running the body. -/
  | imageVerification
  /-- VACANCY_MAP_WRITE (R19). Firmware writes the vacancy map and READY is set. -/
  | vacancyMapWrite (map : BitVec 192)
  /-- FREEZE (R493). A low level on FRZ_N freezes every clock domain. -/
  | freeze
  /-- FREEZE_AT_TICK (R493). The armed FRZ_TICK is reached and the package freezes. -/
  | freezeAtTick
  /-- BYPASS (R493). IEEE 1149.1 BYPASS instruction. -/
  | bypass
  /-- IDCODE (R493). IEEE 1149.1 IDCODE instruction. -/
  | idcode
  /-- SAMPLE_PRELOAD (R493). IEEE 1149.1 SAMPLE/PRELOAD instruction. -/
  | samplePreload
  /-- EXTEST (R493). IEEE 1149.1 EXTEST instruction. -/
  | extest
  /-- FAST_SCAN_READ (R493). Reads state, HBM or vaults through the fast scan port. -/
  | fastScanRead (a : ScanAddr)
  /-- SENSOR_TRIP (R499). A security sensor trips, latching ALARM and taking its SEC action. -/
  | sensorTrip (n : BitVec 2)
  /-- TAGHIST_CLEAR (R494). Writing CLR clears a die's tag history capture. -/
  | taghistClear (die : Bool)
  /-- DUTY_SET (R502). Firmware sets DUTY to keep power at or below CAP. -/
  | dutySet (d : BitVec 7) (watts : BitVec 16)
  /-- BLOCK_GATING (R492). Firmware gates an idle block after its trace buffer drains. -/
  | blockGating (b : BitVec 5)
  /-- GATING_TIMEOUT (R492). The 20 µs drain limit expires and gating proceeds, counting lost records. -/
  | gatingTimeout (b : BitVec 5)
  /-- BLOCK_POWER_UP (R492). A gated block is powered again and writes a loss record. -/
  | blockPowerUp (b : BitVec 5)
  /-- TRACE_SAMPLE (R490). Each core writes a classifier sample every 2^SAMPLOG ticks. -/
  | traceSample
  /-- RESET_RELEASE (R27). Reset is released and the global tick becomes 1 on both dies, after which the boot ROM waits for an image. -/
  | resetRelease
  /-- SERVICE_CORE_INSTRUCTION (R450). A service core executes an instruction of the signed firmware in M-mode, including taking fault records, writing page tables, copying frames for migration, initialising regions and writing trap vectors. -/
  | serviceCoreInstruction (a : FirmwareAction)
  deriving DecidableEq, Repr

end Sys2Proof
end

