-- ==== Sys2Proof/WellFormed.lean ====
section
/-! DEFINITION. Which words are well formed: the limits of R121 that the word itself shows (R120 to R140, R223, R272 to
R313, R327 to R350). Limits that depend on the fetching engine or on the state stand with the meanings. -/

namespace Sys2Proof

/-- Element width in bits (R33); a code's own width for the packed formats. -/
def Fmt.width : Fmt → Nat
  | .int8 => 8 | .uint8 => 8 | .int16 => 16 | .int32 => 32 | .int64 => 64
  | .fp32 => 32 | .fp16 => 16 | .bf16 => 16 | .e4m3 => 8 | .e5m2 => 8
  | .mxfp4 => 4 | .mxfp8 => 8 | .code4 => 4 | .code3 => 3

/-- The format of a code of R33; none for 0xE and 0xF. -/
def Fmt.ofCode (c : BitVec 4) : Option Fmt :=
  match c.toNat with
  | 0 => some .int8 | 1 => some .uint8 | 2 => some .int16 | 3 => some .int32 | 4 => some .int64
  | 5 => some .fp32 | 6 => some .fp16 | 7 => some .bf16 | 8 => some .e4m3 | 9 => some .e5m2
  | 10 => some .mxfp4 | 11 => some .mxfp8 | 12 => some .code4 | 13 => some .code3 | _ => none

/-- The code of a format (R33). -/
def Fmt.code : Fmt → BitVec 4
  | .int8 => 0 | .uint8 => 1 | .int16 => 2 | .int32 => 3 | .int64 => 4 | .fp32 => 5 | .fp16 => 6 | .bf16 => 7
  | .e4m3 => 8 | .e5m2 => 9 | .mxfp4 => 10 | .mxfp8 => 11 | .code4 => 12 | .code3 => 13

/-- "Int" of R272: TYPE 0x0–0x4. -/
def Fmt.isInt : Fmt → Bool
  | .int8 | .uint8 | .int16 | .int32 | .int64 => true
  | _ => false

/-- "Flt" of R272: TYPE 0x5–0x7. -/
def Fmt.isFlt : Fmt → Bool
  | .fp32 | .fp16 | .bf16 => true
  | _ => false

/-- "Any" of R272: TYPE 0x0–0x9. -/
def Fmt.isAny : Fmt → Bool
  | .mxfp4 | .mxfp8 | .code4 | .code3 => false
  | _ => true

/-- The types a tile word takes (R307). -/
def Fmt.isTile (t : Fmt) : Bool := t.isAny && t != .int64

/-- Elements of a register (R45, R267). -/
def Fmt.lanes (t : Fmt) : Nat := 2048 / t.width

/-- The engine with a code of R20. -/
def Eng.ofCode (c : Nat) : Option Eng :=
  match c with
  | 1 => some .ap | 2 => some .c0 | 3 => some .c1 | 4 => some .c2 | 5 => some .c3 | 6 => some .su | 7 => some .ce
  | _ => none

/-- The code of an engine (R20). -/
def Eng.code : Eng → Nat
  | .ap => 1 | .c0 => 2 | .c1 => 3 | .c2 => 4 | .c3 => 5 | .su => 6 | .ce => 7

/-- The CSR numbers that a chapter allocates (R503). -/
def csrAllocated (n : Nat) : Bool :=
  (0x010 ≤ n && n ≤ 0x014) || (0x040 ≤ n && n ≤ 0x045) || (0x060 ≤ n && n ≤ 0x062) || (0x070 ≤ n && n ≤ 0x073) ||
  (0x080 ≤ n && n ≤ 0x08A) || (0x090 ≤ n && n ≤ 0x091) || (0x0A0 ≤ n && n ≤ 0x0A1) || (0x0A3 ≤ n && n ≤ 0x0A6) ||
  (0x0B0 ≤ n && n ≤ 0x0B3) || (0x0C0 ≤ n && n ≤ 0x0CE) || (0x0D0 ≤ n && n ≤ 0x0D4) || (0x0E0 ≤ n && n ≤ 0x0E1) ||
  (0x100 ≤ n && n ≤ 0x13F) || (0x200 ≤ n && n ≤ 0x21B) || (0x300 ≤ n && n ≤ 0x3D3)

/-- A field that names a predicate accepts 0–7 (R123). -/
def isK (r : Reg) : Bool := r.toNat < 8

/-- A SCOPE field is 0–4 (R126). -/
def isScope (sc : BitVec 3) : Bool := sc.toNat ≤ 4

/-! ### Vector words -/

/-- The step that a STRIDE code means (R134). -/
def stepOf (st : BitVec 2) : Nat :=
  match st.toNat with
  | 0 => 0 | 1 => 1 | 2 => 2 | _ => 4

/-- A vector register operand whose index stays at most 63 over the repeats (R134, R158). -/
def VWord.okV (w : VWord) : VOp → Bool
  | .reg i st => i.toNat + w.rep.toNat * stepOf st ≤ 63
  | _ => false

/-- A predicate operand whose index stays at most 15 over the repeats (R134, R158). -/
def VWord.okP (w : VWord) : VOp → Bool
  | .reg i st => i.toNat + w.rep.toNat * stepOf st ≤ 15
  | _ => false

/-- A predicate destination: never p0 (R134). -/
def VWord.okPd (w : VWord) : VOp → Bool
  | .reg i st => i != 0 && w.okP (.reg i st)
  | _ => false

/-- A register or a port. -/
def VWord.okVQ (w : VWord) : VOp → Bool
  | .port _ => true
  | o => w.okV o

/-- Any of the four KINDs. -/
def VWord.okVQEI (w : VWord) : VOp → Bool
  | .port _ | .bc _ | .imm => true
  | o => w.okV o

/-- An operand field that the instruction does not use is 0 (R272). -/
def VOp.unused (o : VOp) : Bool := o == .reg 0 0

/-- PART, MOD[9:7] (R269). -/
def VWord.part (w : VWord) : Nat := (w.mod.toNat / 128) % 8

/-- The latency bound L = LAT + 1 (R133). -/
def VWord.bound (w : VWord) : Nat := w.lat.toNat + 1

/-- MOD has no bit outside `m` (R136). -/
def VWord.modIn (w : VWord) (m : Nat) : Bool := w.mod &&& ~~~(BitVec.ofNat 11 m) == 0

/-- IMM16 is 0 unless an operand is of KIND 11 (R136). -/
def VWord.immOk (w : VWord) : Bool := w.a == .imm || w.b == .imm || w.imm == 0

/-- The minimum bound of VFADD to VFMS (R279). -/
def fltMinL (t : Fmt) : Nat := if t == .fp32 then 4 else 3

/-- Two-source words over registers (R276, R279). -/
def VWord.okBin (w : VWord) (ty : Fmt → Bool) (m minL : Nat) : Bool :=
  w.okV w.d && w.okVQEI w.a && w.okVQEI w.b && ty w.ty && w.modIn m && w.immOk && minL ≤ w.bound

/-- One-source words over registers. -/
def VWord.okUn (w : VWord) (ty : Fmt → Bool) (m minL : Nat) : Bool :=
  w.okV w.d && w.okVQEI w.a && w.b.unused && ty w.ty && w.modIn m && w.immOk && minL ≤ w.bound

/-- Reductions (R285). -/
def VWord.okRed (w : VWord) (ty : Fmt → Bool) (m minL : Nat) : Bool :=
  w.okV w.d && w.okVQ w.a && w.b.unused && ty w.ty && w.modIn m && w.imm == 0 && !w.zm && minL ≤ w.bound

/-- Predicate logic (R304). -/
def VWord.okPred (w : VWord) (useB : Bool) : Bool :=
  w.okPd w.d && w.okP w.a && (if useB then w.okP w.b else w.b.unused) && w.ty == .int8 && w.modIn 0 && w.imm == 0

/-- What VJMP, VBRQ and VBRP share (R310). -/
def VWord.okBranch (w : VWord) : Bool :=
  w.rep == 0 && w.lat == 0 && w.pg == 0 && !w.zm && w.d.unused && w.b.unused

/-- VSAT's format code G (R277). -/
def VWord.okSat (w : VWord) : Bool :=
  match Fmt.ofCode (w.mod.setWidth 4) with
  | some g => (w.mod.toNat % 16) < 4 && g.width ≤ w.ty.width && g != w.ty
  | none => false

/-- VQSHR's result format and PART (R278). -/
def VWord.okQshr (w : VWord) : Bool :=
  match Fmt.ofCode (w.mod.setWidth 4) with
  | some g => (g == .int8 || g == .uint8 || g == .int16 || (g == .int32 && w.ty == .int64)) &&
      w.part ≤ w.ty.width / g.width - 1
  | none => false

/-- VCVT's source format and PART (R290). -/
def VWord.okCvt (w : VWord) : Bool :=
  match Fmt.ofCode (w.mod.setWidth 4) with
  | some g => g.isAny && g != w.ty &&
      (if w.ty.width < g.width then w.part ≤ g.width / w.ty.width - 1
       else if g.width < w.ty.width then w.part ≤ w.ty.width / g.width - 1
       else w.part == 0)
  | none => false

/-- Blocks of a register in MX layout (R292). -/
def mxBlocks (mx8 : Bool) : Nat := if mx8 then 7 else 15

/-- A branch-free row index that stays below 64 (R307). -/
def VWord.okTileIdx (w : VWord) : Bool := (w.imm.toNat % 64) + w.rep.toNat ≤ 63 && w.imm.toNat < 64

/-- The tile words' PART (R307). -/
def VWord.okTilePart (w : VWord) : Bool := w.part ≤ w.ty.lanes / 64 - 1

/-! ### Matrix words -/

/-- What every matrix word obeys: STAMP and BAR only with PIN and BEN (R139), PIN and BEN only where R327 says so. -/
def MWord.okCommon (w : MWord) (pin ben : Bool) : Bool :=
  (w.pin || w.stamp == 0) && (w.ben || w.bar == 0) && (pin || !w.pin) && (ben || !w.ben)

/-- The drain fields are 0 (R327). -/
def MWord.noDrain (w : MWord) : Bool := w.ofmt == 0 && w.ornd == 0 && !w.osat && w.oshift == 0

/-- KGRP, TA, TB and AMODE are 0 (R327). -/
def MWord.noArray (w : MWord) : Bool := w.kgrp == 0 && !w.ta && !w.tb && w.amode == 0

/-- MEXT and NEXT are 0 (R327). -/
def MWord.noExt (w : MWord) : Bool := w.mext == 0 && w.next == 0

/-- The port fields are 0 (R327). -/
def MWord.noPorts (w : MWord) : Bool := w.aport == 0 && w.bport == 0 && w.cport == 0

/-- MDRAIN's static limits (R335, R336, R337). -/
def MWord.okDrain (w : MWord) : Bool :=
  match Fmt.ofCode w.ofmt with
  | none => false
  | some f =>
    f != .int64 && f != .code4 && f != .code3 &&
    (if f.isInt then
       if w.imm.getLsbD 0 then w.ornd == 0 && !w.osat else !w.osat
     else if f == .mxfp4 || f == .mxfp8 then (w.next.toNat + 1) % 32 == 0 && !w.osat && !w.ta
     else true)

/-- Whether an instruction word keeps the limits that the word itself shows. Events carry no word and are well formed. -/
def wf : Instr → Bool
  | .kcmpEq _ d _ _ | .kcmpNe _ d _ _ | .kcmpLt _ d _ _ | .kcmpGe _ d _ _ | .kcmpLtu _ d _ _ | .kcmpGeu _ d _ _ => isK d
  | .kand _ d a b | .kor _ d a b => isK d && isK a && isK b
  | .knot _ d a => isK d && isK a
  | .lda _ _ _ sc _ _ | .stl _ _ _ sc _ | .cas _ _ _ _ sc _ | .fence _ sc => isScope sc
  | .amoW _ _ _ _ sc fn | .amoD _ _ _ _ sc fn => isScope sc && fn.toNat ≤ 8
  | .bk k _ => k != 0
  | .loop _ _ imm => imm != 0 && !imm.msb
  | .brq _ d _ => 1 ≤ d.toNat && d.toNat ≤ 5
  | .bqpush _ d a => 1 ≤ d.toNat && d.toNat ≤ 5 && isK a
  | .tksig _ d | .tkwait _ d => 1 ≤ d.toNat && d.toNat ≤ 7
  | .sforkG _ n _ a => a.toNat < 16 && a.toNat != n.toNat
  | .csrr _ _ n | .csrw _ _ n | .csrx _ _ n => csrAllocated n.toNat
  | .ease _ d _ => d.toNat ≤ 4
  -- integer vector words (R276 to R278)
  | .vadd w | .vsub w => w.okBin Fmt.isInt 1 2
  | .vmul w | .vmac w => w.okBin Fmt.isInt 1 4
  | .vmulh w => w.okBin Fmt.isInt 0 4
  | .vmin w | .vmax w | .vand w | .vor w | .vxor w | .vshr w | .vsra w => w.okBin Fmt.isInt 0 2
  | .vabs w | .vneg w => w.okUn Fmt.isInt 1 2
  | .vshl w => w.okBin Fmt.isInt 1 2
  | .vqshr w => w.okBin (fun t => t == .int32 || t == .int64) 0x38F 3 && w.okQshr
  | .vqmul w => w.okBin (fun t => t == .int32) 0 4
  | .vsat w => w.okUn Fmt.isInt 0xF 2 && w.okSat
  -- floating-point vector words (R279)
  | .vfadd w | .vfsub w | .vfmul w | .vfma w | .vfms w => w.okBin Fmt.isFlt 3 (fltMinL w.ty)
  | .vfmin w | .vfmax w => w.okBin Fmt.isFlt 0 2
  | .vfrcp w | .vfrsq w => w.okUn Fmt.isFlt 3 6
  | .vfexp2 w | .vflog2 w => w.okUn Fmt.isFlt 3 8
  | .vfabs w | .vfneg w => w.okUn Fmt.isFlt 0 2
  -- comparisons (R281)
  | .vcmp w => w.okPd w.d && w.okVQEI w.a && w.okVQEI w.b && w.ty.isInt && w.modIn 7 && w.mod.toNat ≤ 5 && w.immOk && 2 ≤ w.bound
  | .vfcmp w => w.okPd w.d && w.okVQEI w.a && w.okVQEI w.b && w.ty.isFlt && w.modIn 7 && w.immOk && 2 ≤ w.bound
  -- movement (R282 to R284)
  | .vsel w => w.okBin Fmt.isAny 0 2 && !w.zm
  | .vmov w => w.okUn Fmt.isAny 0 1
  | .vbcast w => w.okV w.d && w.okV w.a && w.b.unused && w.ty.isAny && w.modIn 0 && w.imm.toNat < w.ty.lanes && 2 ≤ w.bound
  | .vperm w => w.okV w.d && w.okVQ w.a && w.okVQ w.b && w.ty.isAny && w.modIn 0 && w.imm == 0 && 3 ≤ w.bound
  | .vshuf w => w.okV w.d && w.okVQ w.a && (if w.mod.toNat < 4 then w.okVQ w.b else w.b.unused) && w.ty.isAny &&
      w.mod.toNat ≤ 5 && w.imm == 0 && 3 ≤ w.bound
  | .vslide w => w.okV w.d && w.okVQ w.a && w.okVQ w.b && w.ty.isAny && w.modIn 0 && w.imm.toNat ≤ w.ty.lanes && 2 ≤ w.bound
  | .vpack w => w.okV w.d && w.okVQ w.a && w.okVQ w.b && (w.ty == .int16 || w.ty == .int32 || w.ty == .int64) &&
      w.modIn 3 && (w.mod.getLsbD 0 || !w.mod.getLsbD 1) && w.imm == 0 && 2 ≤ w.bound
  | .vunpk w => w.okV w.d && w.okVQ w.a && w.b.unused && (w.ty == .int16 || w.ty == .int32 || w.ty == .int64) &&
      w.modIn 0x382 && w.part ≤ 1 && w.imm == 0 && 2 ≤ w.bound
  -- reductions and scans (R285 to R289)
  | .vredadd w => w.okRed Fmt.isInt 3 6
  | .vredmax w | .vredmin w => w.okRed (fun t => t.isInt || t.isFlt) 1 6
  | .vfredadd w => w.okRed Fmt.isFlt 1 8
  | .vscan w => w.okV w.d && w.okVQ w.a && w.okVQEI w.b && w.ty.isInt && w.modIn 3 && w.immOk && !w.zm && 8 ≤ w.bound
  -- conversions (R290 to R294)
  | .vcvt w => w.okV w.d && w.okVQ w.a && w.b.unused && w.ty.isAny && w.modIn 0x3FF && w.okCvt && w.imm == 0 && 4 ≤ w.bound
  | .vxpand w => w.okV w.d && w.okVQ w.a && w.okV w.b && (w.ty == .e4m3 || w.ty == .e5m2 || w.ty == .bf16) && w.modIn 0x381 &&
      (w.part + 1) * w.ty.lanes ≤ (if w.mod.getLsbD 0 then 680 else 512) && w.imm == 0 && 3 ≤ w.bound
  | .vmxq w => w.okV w.d && w.okVQ w.a && w.b.unused && w.ty.isFlt && w.modIn 0x387 &&
      (w.part + 1) * (w.ty.lanes / 32) ≤ mxBlocks (w.mod.getLsbD 0) && w.pg == 0 && !w.zm && w.imm == 0 && 6 ≤ w.bound
  | .vmxd w => w.okV w.d && w.okVQ w.a && w.b.unused && (w.ty.isFlt || (w.ty == .e4m3 && !w.mod.getLsbD 0)) && w.modIn 0x3C7 &&
      (w.part + 1) * (w.ty.lanes / 32) ≤ mxBlocks (w.mod.getLsbD 0) && w.imm == 0 && 4 ≤ w.bound
  -- partition and compaction (R295, R296)
  | .vpart w => w.okV w.d && w.okVQ w.a && w.okV w.b && (w.ty == .int8 || w.ty == .uint8 || w.ty == .int16 || w.ty == .int32) &&
      w.modIn 0xF && !w.zm && w.imm == 0 && 6 ≤ w.bound
  | .vcomp w | .vexpd w => w.okV w.d && w.okVQ w.a && w.b.unused && w.ty.isAny && w.modIn 0 && w.imm == 0 && 4 ≤ w.bound
  -- gathers, scatters and pushes (R297 to R303)
  | .vgath w => w.okV w.d && w.okVQ w.a && (match w.b with | .bc _ => true | _ => false) && w.ty.isAny && w.modIn 0x380 &&
      w.part ≤ w.ty.lanes / (min 64 w.ty.lanes) - 1 && 4 ≤ w.bound
  | .vscat w => w.okV w.d && w.okVQEI w.a && (match w.b with | .bc _ => true | _ => false) && w.ty.isAny && w.modIn 0x380 &&
      w.part ≤ w.ty.lanes / (min 64 w.ty.lanes) - 1 && w.immOk && !w.zm && 4 ≤ w.bound
  | .vpush w => (match w.d with | .port _ => true | _ => false) && w.okVQEI w.a && w.b.unused && w.ty.isAny && w.mod == 0 &&
      w.immOk && 2 ≤ w.bound
  | .vpushBoff w => (match w.d with | .port _ => true | _ => false) && w.okV w.a && w.b.unused && w.ty.isAny && w.mod == 1 &&
      w.imm == 0 && w.rep == 0 && w.pg == 0 && !w.zm && 2 ≤ w.bound
  -- predicates (R304, R305)
  | .pand w | .por w | .pxor w => w.okPred true
  | .pnot w => w.okPred false
  | .pcnt w => w.okV w.d && w.okP w.a && w.b.unused && w.ty.isAny && w.modIn 0 && w.imm == 0 && !w.zm && 2 ≤ w.bound
  | .pfirst w => w.okPd w.d && w.okP w.a && w.b.unused && w.ty.isAny && w.modIn 0 && w.imm == 0 && !w.zm && 2 ≤ w.bound
  -- tile registers (R307)
  | .twrow w => w.d.unused && w.okVQEI w.a && w.b.unused && w.ty.isTile && w.modIn 0x383 && w.okTilePart && w.okTileIdx && 2 ≤ w.bound
  | .trcol w => w.okV w.d && w.a.unused && w.b.unused && w.ty.isTile && w.modIn 0x383 && w.okTilePart && w.okTileIdx && 3 ≤ w.bound
  | .tclr w => w.d.unused && w.a.unused && w.b.unused && w.ty == .int8 && w.modIn 3 && w.rep == 0 && w.pg == 0 && !w.zm && w.imm == 0 && 2 ≤ w.bound
  -- control flow (R310 to R313)
  | .vjmp w => w.okBranch && w.a.unused && w.ty == .int8 && w.mod.toNat ≤ 2 && (w.mod.toNat != 1 || w.lb)
  | .vbrq w => w.okBranch && w.a.unused && w.ty == .int8 && w.mod == 0
  | .vbrp w => w.okBranch && w.okP w.a && w.ty.isAny && w.modIn 0xF && (!w.mod.getLsbD 3 || (w.mod.getLsbD 2 && w.imm == 0))
  -- matrix words (R327 to R350)
  | .mma w => w.okCommon true true && w.noDrain && w.kgrp.toNat < 4 && w.amode != 3 && (w.amode == 2 || w.cport == 0) && w.imm == 0
  | .mzero w => w.okCommon true true && w.noDrain && w.noArray && w.noPorts && w.imm == 0
  | .mfill w | .madd w => w.okCommon true true && w.noDrain && w.noArray && w.bport == 0 && w.cport == 0 && w.imm == 0
  | .mdrain w => w.okCommon true true && w.aport == 0 && w.bport == 0 && w.kgrp == 0 && !w.tb && w.amode == 0 && w.imm.toNat ≤ 1 && w.okDrain
  | .mscale w => w.okCommon true true && w.noDrain && w.noArray && w.bport == 0 && w.cport == 0 && w.imm.toNat ≤ 1
  | .mcopy w => w.okCommon true true && w.noDrain && w.kgrp == 0 && !w.tb && w.amode == 0 && w.noPorts && w.imm.toNat < 16
  | .mcfg w => w.okCommon false false && w.noDrain && w.noArray && w.noPorts && w.noExt && w.acct == 0 && w.imm.toNat < 512 &&
      w.imm.toNat / 32 ≤ 13
  | .mstat w => w.okCommon false false && w.noDrain && w.noArray && w.aport == 0 && w.bport == 0 && w.noExt && w.acct == 0 && w.imm.toNat ≤ 1
  | .mwait w => w.okCommon false false && w.noDrain && w.noArray && w.noPorts && w.noExt && w.acct == 0 && w.imm.toNat < 64
  | .mtok w => w.okCommon true false && w.noDrain && w.noArray && w.noPorts && w.noExt && w.acct == 0 && w.imm == 0
  | .mbar w => w.okCommon true true && w.ben && w.noDrain && w.noArray && w.noPorts && w.noExt && w.acct == 0
  | .mjmp w => w.okCommon false false && w.noDrain && w.kgrp == 0 && w.noPorts && w.noExt && w.acct == 0 && w.amode != 3 &&
      (w.amode != 1 || w.lb) && (!w.ta || (w.tb && w.imm == 0))
  | .mbrq w => w.okCommon false false && w.noDrain && w.noArray && w.noPorts && w.noExt && w.acct == 0
  -- words whose every field value is legal, and the events
  | .add .. | .sub .. | .and .. | .or .. | .xor .. | .andn .. | .shl .. | .shr .. | .sra .. | .min .. | .max ..
  | .minu .. | .maxu .. | .slt .. | .sltu .. | .seq .. | .mul .. | .mulh .. | .mulhu .. | .div .. | .divu .. | .rem ..
  | .remu .. | .clz .. | .ctz .. | .popc .. | .bext .. | .bins .. | .addi .. | .andi .. | .ori .. | .xori ..
  | .shli .. | .shri .. | .srai .. | .slti .. | .lui .. | .addpc .. | .ld .. | .ldu .. | .st .. | .ldx .. | .stx ..
  | .qalign .. | .b .. | .bccEq .. | .bccNe .. | .bccLt .. | .bccGe .. | .bccLtu .. | .bccGeu .. | .jal .. | .jalr ..
  | .scfg .. | .sopen .. | .sclose .. | .seos .. | .smark .. | .srewind .. | .sforkT .. | .sstat .. | .ssave ..
  | .srest .. | .swait .. | .sbase .. | .rcfg .. | .rhead .. | .rtail .. | .rpop .. | .rpush .. | .rwait .. | .copy ..
  | .copyw .. | .wsload .. | .spawn .. | .exit .. | .join .. | .park .. | .waitf .. | .append .. | .take ..
  | .quiet .. | .barinit .. | .bararr .. | .barwait .. | .barstat .. | .mbput .. | .mbget .. | .mbpeek .. | .trap ..
  | .tret .. | .halt .. | .tick .. | .tlbinv .. | .asidret .. | .spcfg .. | .syncg .. | .loopc .. | .rotclr ..
  | .vectorResultLanding .. | .lockstepRendezvous .. | .matrixWordStart .. | .matrixWordRetirement ..
  | .barrierRequestAtHome .. | .barrierPhaseReply .. | .barwaitRepoll .. | .streamStart .. | .streamSlotCommit ..
  | .bindOffCommit .. | .streamSlotDrain .. | .remoteSlotTransfer .. | .pageWalk .. | .faultRecordWrite .. | .retry ..
  | .killResponse .. | .shootdown .. | .asidRetirement | .copyTransferStart .. | .copyTransferComplete ..
  | .refreshWindowStart | .refreshWindowEnd | .accessPerform .. | .acknowledgement .. | .hotListWrite .. | .admission
  | .rootRecordPush .. | .gangAdmission | .completionEntryWrite | .recordExamine .. | .recordSelection ..
  | .recordRetirement .. | .continuationPush .. | .detectorCopyUpdate | .watchWake .. | .replanEvent ..
  | .launchEnd .. | .taskKill | .preemptionStop .. | .handlerStopLimit .. | .contextSave .. | .contextRestore ..
  | .trapEntry .. | .watchdog .. | .hpcC3Write .. | .clsClear .. | .registerWrite .. | .activate .. | .precharge ..
  | .read .. | .write .. | .writeWithByteMask .. | .refresh .. | .selfRefresh .. | .powerDownEntry ..
  | .powerDownExit .. | .modeRegisterRead .. | .modeRegisterWrite .. | .trainingSequence .. | .lqTailWrite ..
  | .cqHeadWrite .. | .sqTailWrite .. | .srHeadWrite .. | .kill | .bind | .start | .stop | .tagset | .epread | .mapout
  | .restart | .attest | .idkey | .dread | .ovfset | .partitionCreate .. | .partitionHalt .. | .partitionSave ..
  | .partitionRestore .. | .partitionDestroy .. | .episodeCoreInstruction .. | .actTake .. | .obsBell .. | .rewBell ..
  | .actionExamination .. | .stepWatchdog .. | .episodeBudget .. | .contextException .. | .suspendedContextEnd ..
  | .scrub .. | .contextSwitch .. | .flitReceive .. | .flitRetransmit .. | .portTraining .. | .portRemoval ..
  | .deviceReset | .bootLenWrite .. | .imageVerification | .vacancyMapWrite .. | .freeze | .freezeAtTick | .bypass
  | .idcode | .samplePreload | .extest | .fastScanRead .. | .sensorTrip .. | .taghistClear .. | .dutySet ..
  | .blockGating .. | .gatingTimeout .. | .blockPowerUp .. | .traceSample | .resetRelease | .serviceCoreInstruction .. => true

end Sys2Proof
end

