-- ==== Sys2Proof/Decode.lean ====
section
/-! DEFINITION. Decoding and encoding of the three word widths (R120, R124, R125, R129 to R134, R138 to R141), total on any
bits: a word that no row of the opcode maps matches, or that has a nonzero reserved or unused field, is refused. -/

namespace Sys2Proof

/-! ### Scalar formats (R124) -/

/-- Format SR. -/
def encSR (op : BitVec 7) (d a b : Reg) (fn : BitVec 7) (k : Guard) : BitVec 32 := op ++ d ++ a ++ b ++ fn ++ k
/-- Format SI. -/
def encSI (op : BitVec 7) (d a : Reg) (imm : BitVec 12) (k : Guard) : BitVec 32 := op ++ d ++ a ++ imm ++ k
/-- Format SM. -/
def encSM (op : BitVec 7) (d a : Reg) (off : BitVec 10) (size : BitVec 2) (k : Guard) : BitVec 32 := op ++ d ++ a ++ off ++ size ++ k
/-- Format SA. -/
def encSA (op : BitVec 7) (d a b : Reg) (sc : BitVec 3) (fn : BitVec 4) (k : Guard) : BitVec 32 := op ++ d ++ a ++ b ++ sc ++ fn ++ k
/-- Format SB. -/
def encSB (op : BitVec 7) (off : BitVec 22) (k : Guard) : BitVec 32 := op ++ off ++ k
/-- Format SU. -/
def encSU (op : BitVec 7) (d : Reg) (imm : BitVec 17) (k : Guard) : BitVec 32 := op ++ d ++ imm ++ k
/-- Format SS. -/
def encSS (op : BitVec 7) (n : BitVec 4) (q : Port) (a : Reg) (fn : BitVec 8) (k : Guard) : BitVec 32 := op ++ n ++ q ++ a ++ fn ++ k
/-- Format SX. -/
def encSX (op : BitVec 7) (d : Reg) (n : BitVec 12) (fn : BitVec 5) (k : Guard) : BitVec 32 := op ++ d ++ n ++ fn ++ k

/-- The 32-bit word of a scalar instruction (R129 to R132, R205, R223); none for every other instruction. -/
def encodeScalar : Instr → Option (BitVec 32)
  | .add k d a b => some (encSR 0x01 d a b 0 k)
  | .sub k d a b => some (encSR 0x01 d a b 1 k)
  | .and k d a b => some (encSR 0x01 d a b 2 k)
  | .or k d a b => some (encSR 0x01 d a b 3 k)
  | .xor k d a b => some (encSR 0x01 d a b 4 k)
  | .andn k d a b => some (encSR 0x01 d a b 5 k)
  | .shl k d a b => some (encSR 0x01 d a b 6 k)
  | .shr k d a b => some (encSR 0x01 d a b 7 k)
  | .sra k d a b => some (encSR 0x01 d a b 8 k)
  | .min k d a b => some (encSR 0x01 d a b 9 k)
  | .max k d a b => some (encSR 0x01 d a b 10 k)
  | .minu k d a b => some (encSR 0x01 d a b 11 k)
  | .maxu k d a b => some (encSR 0x01 d a b 12 k)
  | .slt k d a b => some (encSR 0x01 d a b 13 k)
  | .sltu k d a b => some (encSR 0x01 d a b 14 k)
  | .seq k d a b => some (encSR 0x01 d a b 15 k)
  | .mul k d a b => some (encSR 0x01 d a b 16 k)
  | .mulh k d a b => some (encSR 0x01 d a b 17 k)
  | .mulhu k d a b => some (encSR 0x01 d a b 18 k)
  | .div k d a b => some (encSR 0x01 d a b 19 k)
  | .divu k d a b => some (encSR 0x01 d a b 20 k)
  | .rem k d a b => some (encSR 0x01 d a b 21 k)
  | .remu k d a b => some (encSR 0x01 d a b 22 k)
  | .clz k d a => some (encSR 0x01 d a 0 23 k)
  | .ctz k d a => some (encSR 0x01 d a 0 24 k)
  | .popc k d a => some (encSR 0x01 d a 0 25 k)
  | .bext k d a b => some (encSR 0x01 d a b 26 k)
  | .bins k d a b => some (encSR 0x01 d a b 27 k)
  | .kcmpEq k d a b => some (encSR 0x02 d a b 0 k)
  | .kcmpNe k d a b => some (encSR 0x02 d a b 1 k)
  | .kcmpLt k d a b => some (encSR 0x02 d a b 2 k)
  | .kcmpGe k d a b => some (encSR 0x02 d a b 3 k)
  | .kcmpLtu k d a b => some (encSR 0x02 d a b 4 k)
  | .kcmpGeu k d a b => some (encSR 0x02 d a b 5 k)
  | .kand k d a b => some (encSR 0x02 d a b 8 k)
  | .kor k d a b => some (encSR 0x02 d a b 9 k)
  | .knot k d a => some (encSR 0x02 d a 0 10 k)
  | .addi k d a imm => some (encSI 0x04 d a imm k)
  | .andi k d a imm => some (encSI 0x05 d a imm k)
  | .ori k d a imm => some (encSI 0x06 d a imm k)
  | .xori k d a imm => some (encSI 0x07 d a imm k)
  | .shli k d a n => some (encSI 0x08 d a (0#6 ++ n) k)
  | .shri k d a n => some (encSI 0x09 d a (0#6 ++ n) k)
  | .srai k d a n => some (encSI 0x0A d a (0#6 ++ n) k)
  | .slti k d a imm => some (encSI 0x0B d a imm k)
  | .lui k d imm => some (encSU 0x0C d imm k)
  | .addpc k d imm => some (encSU 0x0D d imm k)
  | .jal k d imm => some (encSU 0x28 d imm k)
  | .ld k d a off size => some (encSM 0x10 d a off size k)
  | .ldu k d a off size => some (encSM 0x11 d a off size k)
  | .st k d a off size => some (encSM 0x12 d a off size k)
  | .ldx k d a b zx size => some (encSR 0x13 d a b (0#4 ++ BitVec.ofBool zx ++ size) k)
  | .stx k d a b size => some (encSR 0x14 d a b (0#5 ++ size) k)
  | .lda k d a sc zx size => some (encSA 0x18 d a 0 sc (0#1 ++ BitVec.ofBool zx ++ size) k)
  | .stl k d a sc size => some (encSA 0x19 d a 0 sc (0#2 ++ size) k)
  | .amoW k d a b sc fn => some (encSA 0x1A d a b sc fn k)
  | .amoD k d a b sc fn => some (encSA 0x1B d a b sc fn k)
  | .cas k d a b sc wide => some (encSA 0x1C d a b sc (0#3 ++ BitVec.ofBool wide) k)
  | .fence k sc => some (encSA 0x1D 0 0 0 sc 0 k)
  | .qalign k => some (encSA 0x1E 0 0 0 0 0 k)
  | .b k off => some (encSB 0x20 off k)
  | .bk k off => some (encSB 0x21 off k)
  | .bccEq k d a imm => some (encSI 0x22 d a imm k)
  | .bccNe k d a imm => some (encSI 0x23 d a imm k)
  | .bccLt k d a imm => some (encSI 0x24 d a imm k)
  | .bccGe k d a imm => some (encSI 0x25 d a imm k)
  | .bccLtu k d a imm => some (encSI 0x26 d a imm k)
  | .bccGeu k d a imm => some (encSI 0x27 d a imm k)
  | .jalr k d a imm => some (encSI 0x29 d a imm k)
  | .loop k a imm => some (encSI 0x2A 0 a imm k)
  | .brq k d imm => some (encSI 0x2B d 0 imm k)
  | .bqpush k d a => some (encSR 0x2C d a 0 0 k)
  | .tksig k d => some (encSR 0x30 d 0 0 0 k)
  | .tkwait k d => some (encSR 0x31 d 0 0 0 k)
  | .scfg k n a => some (encSS 0x38 n 0 a 0 k)
  | .sopen k n => some (encSS 0x38 n 0 0 1 k)
  | .sclose k n => some (encSS 0x38 n 0 0 2 k)
  | .seos k n => some (encSS 0x38 n 0 0 3 k)
  | .smark k n a => some (encSS 0x38 n 0 a 4 k)
  | .srewind k n => some (encSS 0x38 n 0 0 5 k)
  | .sforkG k n q a => some (encSS 0x38 n q a 6 k)
  | .sforkT k n q => some (encSS 0x38 n q 0 7 k)
  | .sstat k n a => some (encSS 0x38 n 0 a 8 k)
  | .ssave k n a => some (encSS 0x38 n 0 a 9 k)
  | .srest k n a => some (encSS 0x38 n 0 a 10 k)
  | .swait k n c => some (encSS 0x38 n 0 (0#3 ++ c) 11 k)
  | .sbase k n a => some (encSS 0x38 n 0 a 12 k)
  | .rcfg k q a => some (encSS 0x39 0 q a 0 k)
  | .rhead k q a => some (encSS 0x39 0 q a 1 k)
  | .rtail k q a => some (encSS 0x39 0 q a 2 k)
  | .rpop k q a => some (encSS 0x39 0 q a 3 k)
  | .rpush k q a => some (encSS 0x39 0 q a 4 k)
  | .rwait k q c => some (encSS 0x39 0 q (0#3 ++ c) 5 k)
  | .copy k a => some (encSR 0x3C 0 a 0 0 k)
  | .copyw k d a => some (encSR 0x3C d a 0 1 k)
  | .wsload k a => some (encSR 0x3C 0 a 0 2 k)
  | .spawn k d a => some (encSR 0x40 d a 0 0 k)
  | .exit k => some (encSR 0x40 0 0 0 1 k)
  | .join k a b => some (encSR 0x40 0 a b 2 k)
  | .park k a => some (encSR 0x40 0 a 0 3 k)
  | .waitf k d a b => some (encSR 0x40 d a b 4 k)
  | .append k d a b => some (encSR 0x40 d a b 5 k)
  | .take k d a => some (encSR 0x40 d a 0 6 k)
  | .quiet k d => some (encSR 0x40 d 0 0 7 k)
  | .barinit k a b => some (encSR 0x44 0 a b 0 k)
  | .bararr k d a b => some (encSR 0x44 d a b 1 k)
  | .barwait k d a b => some (encSR 0x44 d a b 2 k)
  | .barstat k d a => some (encSR 0x44 d a 0 3 k)
  | .mbput k d a b => some (encSR 0x48 d a b 0 k)
  | .mbget k d a b => some (encSR 0x48 d a b 1 k)
  | .mbpeek k d a => some (encSR 0x48 d a 0 2 k)
  | .csrr k d n => some (encSX 0x50 d n 0 k)
  | .csrw k d n => some (encSX 0x50 d n 1 k)
  | .csrx k d n => some (encSX 0x50 d n 2 k)
  | .trap k code => some (encSX 0x51 0 code 0 k)
  | .tret k => some (encSX 0x51 0 0 1 k)
  | .halt k => some (encSX 0x51 0 0 2 k)
  | .tick k d => some (encSX 0x51 d 0 3 k)
  | .tlbinv k d n => some (encSX 0x51 d n 4 k)
  | .asidret k d => some (encSX 0x51 d 0 5 k)
  | .spcfg k d => some (encSX 0x51 d 0 6 k)
  | .syncg k mask ease => some (encSI 0x58 0 0 (ease ++ mask) k)
  | .loopc k off => some (encSB 0x59 off k)
  | .rotclr k mask => some (encSI 0x5A 0 0 (0#10 ++ mask) k)
  | .ease k d n => some (encSI 0x5B d 0 (0#4 ++ n) k)
  | .vadd .. | .vsub .. | .vmul .. | .vmulh .. | .vmac .. | .vmin .. | .vmax .. | .vabs .. | .vneg .. | .vand ..
  | .vor .. | .vxor .. | .vshl .. | .vshr .. | .vsra .. | .vqshr .. | .vqmul .. | .vsat .. | .vfadd .. | .vfsub ..
  | .vfmul .. | .vfma .. | .vfms .. | .vfmin .. | .vfmax .. | .vfrcp .. | .vfrsq .. | .vfexp2 .. | .vflog2 ..
  | .vfabs .. | .vfneg .. | .vcmp .. | .vfcmp .. | .vsel .. | .vmov .. | .vbcast .. | .vperm .. | .vshuf ..
  | .vslide .. | .vpack .. | .vunpk .. | .vredadd .. | .vredmax .. | .vredmin .. | .vfredadd .. | .vscan .. | .vcvt ..
  | .vxpand .. | .vmxq .. | .vmxd .. | .vpart .. | .vcomp .. | .vexpd .. | .vgath .. | .vscat .. | .vpush ..
  | .vpushBoff .. | .pand .. | .por .. | .pxor .. | .pnot .. | .pcnt .. | .pfirst .. | .twrow .. | .trcol ..
  | .tclr .. | .vjmp .. | .vbrq .. | .vbrp .. | .mma .. | .mzero .. | .mfill .. | .mdrain .. | .madd .. | .mscale ..
  | .mcopy .. | .mcfg .. | .mstat .. | .mwait .. | .mtok .. | .mbar .. | .mjmp .. | .mbrq .. | .vectorResultLanding ..
  | .lockstepRendezvous .. | .matrixWordStart .. | .matrixWordRetirement .. | .barrierRequestAtHome ..
  | .barrierPhaseReply .. | .barwaitRepoll .. | .streamStart .. | .streamSlotCommit .. | .bindOffCommit ..
  | .streamSlotDrain .. | .remoteSlotTransfer .. | .pageWalk .. | .faultRecordWrite .. | .retry .. | .killResponse ..
  | .shootdown .. | .asidRetirement | .copyTransferStart .. | .copyTransferComplete .. | .refreshWindowStart
  | .refreshWindowEnd | .accessPerform .. | .acknowledgement .. | .hotListWrite .. | .admission | .rootRecordPush ..
  | .gangAdmission | .completionEntryWrite | .recordExamine .. | .recordSelection .. | .recordRetirement ..
  | .continuationPush .. | .detectorCopyUpdate | .watchWake .. | .replanEvent .. | .launchEnd .. | .taskKill
  | .preemptionStop .. | .handlerStopLimit .. | .contextSave .. | .contextRestore .. | .trapEntry .. | .watchdog ..
  | .hpcC3Write .. | .clsClear .. | .registerWrite .. | .activate .. | .precharge .. | .read .. | .write ..
  | .writeWithByteMask .. | .refresh .. | .selfRefresh .. | .powerDownEntry .. | .powerDownExit ..
  | .modeRegisterRead .. | .modeRegisterWrite .. | .trainingSequence .. | .lqTailWrite .. | .cqHeadWrite ..
  | .sqTailWrite .. | .srHeadWrite .. | .kill | .bind | .start | .stop | .tagset | .epread | .mapout | .restart
  | .attest | .idkey | .dread | .ovfset | .partitionCreate .. | .partitionHalt .. | .partitionSave ..
  | .partitionRestore .. | .partitionDestroy .. | .episodeCoreInstruction .. | .actTake .. | .obsBell .. | .rewBell ..
  | .actionExamination .. | .stepWatchdog .. | .episodeBudget .. | .contextException .. | .suspendedContextEnd ..
  | .scrub .. | .contextSwitch .. | .flitReceive .. | .flitRetransmit .. | .portTraining .. | .portRemoval ..
  | .deviceReset | .bootLenWrite .. | .imageVerification | .vacancyMapWrite .. | .freeze | .freezeAtTick | .bypass
  | .idcode | .samplePreload | .extest | .fastScanRead .. | .sensorTrip .. | .taghistClear .. | .dutySet ..
  | .blockGating .. | .gatingTimeout .. | .blockPowerUp .. | .traceSample | .resetRelease | .serviceCoreInstruction .. => none

/-- The fields of a scalar word put into the instruction that OP and FN select (R129, R130). -/
def parseScalar (w : BitVec 32) : Option Instr :=
  let f (lo n : Nat) : BitVec n := w.extractLsb' lo n
  let k : Guard := f 0 3
  let d : Reg := f 20 5
  let a : Reg := f 15 5
  let b : Reg := f 10 5
  match (f 25 7).toNat with
  | 0x01 =>
    match (f 3 7).toNat with
    | 0x00 => some (.add k d a b)
    | 0x01 => some (.sub k d a b)
    | 0x02 => some (.and k d a b)
    | 0x03 => some (.or k d a b)
    | 0x04 => some (.xor k d a b)
    | 0x05 => some (.andn k d a b)
    | 0x06 => some (.shl k d a b)
    | 0x07 => some (.shr k d a b)
    | 0x08 => some (.sra k d a b)
    | 0x09 => some (.min k d a b)
    | 0x0A => some (.max k d a b)
    | 0x0B => some (.minu k d a b)
    | 0x0C => some (.maxu k d a b)
    | 0x0D => some (.slt k d a b)
    | 0x0E => some (.sltu k d a b)
    | 0x0F => some (.seq k d a b)
    | 0x10 => some (.mul k d a b)
    | 0x11 => some (.mulh k d a b)
    | 0x12 => some (.mulhu k d a b)
    | 0x13 => some (.div k d a b)
    | 0x14 => some (.divu k d a b)
    | 0x15 => some (.rem k d a b)
    | 0x16 => some (.remu k d a b)
    | 0x17 => some (.clz k d a)
    | 0x18 => some (.ctz k d a)
    | 0x19 => some (.popc k d a)
    | 0x1A => some (.bext k d a b)
    | 0x1B => some (.bins k d a b)
    | _ => none
  | 0x02 =>
    match (f 3 7).toNat with
    | 0x00 => some (.kcmpEq k d a b)
    | 0x01 => some (.kcmpNe k d a b)
    | 0x02 => some (.kcmpLt k d a b)
    | 0x03 => some (.kcmpGe k d a b)
    | 0x04 => some (.kcmpLtu k d a b)
    | 0x05 => some (.kcmpGeu k d a b)
    | 0x08 => some (.kand k d a b)
    | 0x09 => some (.kor k d a b)
    | 0x0A => some (.knot k d a)
    | _ => none
  | 0x04 => some (.addi k d a (f 3 12))
  | 0x05 => some (.andi k d a (f 3 12))
  | 0x06 => some (.ori k d a (f 3 12))
  | 0x07 => some (.xori k d a (f 3 12))
  | 0x08 => some (.shli k d a (f 3 6))
  | 0x09 => some (.shri k d a (f 3 6))
  | 0x0A => some (.srai k d a (f 3 6))
  | 0x0B => some (.slti k d a (f 3 12))
  | 0x0C => some (.lui k d (f 3 17))
  | 0x0D => some (.addpc k d (f 3 17))
  | 0x28 => some (.jal k d (f 3 17))
  | 0x10 => some (.ld k d a (f 5 10) (f 3 2))
  | 0x11 => some (.ldu k d a (f 5 10) (f 3 2))
  | 0x12 => some (.st k d a (f 5 10) (f 3 2))
  | 0x13 => some (.ldx k d a b (w.getLsbD 5) (f 3 2))
  | 0x14 => some (.stx k d a b (f 3 2))
  | 0x18 => some (.lda k d a (f 7 3) (w.getLsbD 5) (f 3 2))
  | 0x19 => some (.stl k d a (f 7 3) (f 3 2))
  | 0x1A => some (.amoW k d a b (f 7 3) (f 3 4))
  | 0x1B => some (.amoD k d a b (f 7 3) (f 3 4))
  | 0x1C => some (.cas k d a b (f 7 3) (w.getLsbD 3))
  | 0x1D => some (.fence k (f 7 3))
  | 0x1E => some (.qalign k)
  | 0x20 => some (.b k (f 3 22))
  | 0x21 => some (.bk k (f 3 22))
  | 0x22 => some (.bccEq k d a (f 3 12))
  | 0x23 => some (.bccNe k d a (f 3 12))
  | 0x24 => some (.bccLt k d a (f 3 12))
  | 0x25 => some (.bccGe k d a (f 3 12))
  | 0x26 => some (.bccLtu k d a (f 3 12))
  | 0x27 => some (.bccGeu k d a (f 3 12))
  | 0x29 => some (.jalr k d a (f 3 12))
  | 0x2A => some (.loop k a (f 3 12))
  | 0x2B => some (.brq k d (f 3 12))
  | 0x2C => some (.bqpush k d a)
  | 0x30 => some (.tksig k d)
  | 0x31 => some (.tkwait k d)
  | 0x38 =>
    match (f 3 8).toNat with
    | 0x00 => some (.scfg k (f 21 4) (f 11 5))
    | 0x01 => some (.sopen k (f 21 4))
    | 0x02 => some (.sclose k (f 21 4))
    | 0x03 => some (.seos k (f 21 4))
    | 0x04 => some (.smark k (f 21 4) (f 11 5))
    | 0x05 => some (.srewind k (f 21 4))
    | 0x06 => some (.sforkG k (f 21 4) (f 16 5) (f 11 5))
    | 0x07 => some (.sforkT k (f 21 4) (f 16 5))
    | 0x08 => some (.sstat k (f 21 4) (f 11 5))
    | 0x09 => some (.ssave k (f 21 4) (f 11 5))
    | 0x0A => some (.srest k (f 21 4) (f 11 5))
    | 0x0B => some (.swait k (f 21 4) (f 11 2))
    | 0x0C => some (.sbase k (f 21 4) (f 11 5))
    | _ => none
  | 0x39 =>
    match (f 3 8).toNat with
    | 0x00 => some (.rcfg k (f 16 5) (f 11 5))
    | 0x01 => some (.rhead k (f 16 5) (f 11 5))
    | 0x02 => some (.rtail k (f 16 5) (f 11 5))
    | 0x03 => some (.rpop k (f 16 5) (f 11 5))
    | 0x04 => some (.rpush k (f 16 5) (f 11 5))
    | 0x05 => some (.rwait k (f 16 5) (f 11 2))
    | _ => none
  | 0x3C =>
    match (f 3 7).toNat with
    | 0x00 => some (.copy k a)
    | 0x01 => some (.copyw k d a)
    | 0x02 => some (.wsload k a)
    | _ => none
  | 0x40 =>
    match (f 3 7).toNat with
    | 0x00 => some (.spawn k d a)
    | 0x01 => some (.exit k)
    | 0x02 => some (.join k a b)
    | 0x03 => some (.park k a)
    | 0x04 => some (.waitf k d a b)
    | 0x05 => some (.append k d a b)
    | 0x06 => some (.take k d a)
    | 0x07 => some (.quiet k d)
    | _ => none
  | 0x44 =>
    match (f 3 7).toNat with
    | 0x00 => some (.barinit k a b)
    | 0x01 => some (.bararr k d a b)
    | 0x02 => some (.barwait k d a b)
    | 0x03 => some (.barstat k d a)
    | _ => none
  | 0x48 =>
    match (f 3 7).toNat with
    | 0x00 => some (.mbput k d a b)
    | 0x01 => some (.mbget k d a b)
    | 0x02 => some (.mbpeek k d a)
    | _ => none
  | 0x50 =>
    match (f 3 5).toNat with
    | 0x00 => some (.csrr k d (f 8 12))
    | 0x01 => some (.csrw k d (f 8 12))
    | 0x02 => some (.csrx k d (f 8 12))
    | _ => none
  | 0x51 =>
    match (f 3 5).toNat with
    | 0x00 => some (.trap k (f 8 12))
    | 0x01 => some (.tret k)
    | 0x02 => some (.halt k)
    | 0x03 => some (.tick k d)
    | 0x04 => some (.tlbinv k d (f 8 12))
    | 0x05 => some (.asidret k d)
    | 0x06 => some (.spcfg k d)
    | _ => none
  | 0x58 => some (.syncg k (f 3 4) (f 7 8))
  | 0x59 => some (.loopc k (f 3 22))
  | 0x5A => some (.rotclr k (f 3 2))
  | 0x5B => some (.ease k d (f 3 8))
  | _ => none

/-- The instruction of a 32-bit scalar word: the parsed one, when it is well formed and its encoding is the word, so that
every reserved or unused bit is 0 (R7, R121). -/
def decodeScalar (w : BitVec 32) : Option Instr :=
  match parseScalar w with
  | some i => if wf i && encodeScalar i == some w then some i else none
  | none => none

/-! ### Vector words (R133, R134, R138, R141) -/

/-- An operand field: KIND, INDEX, STRIDE (R134). -/
def encodeVOp : VOp → BitVec 10
  | .reg i st => 0#2 ++ i ++ st
  | .port q => 1#2 ++ 0#1 ++ q ++ 0#2
  | .bc e => 2#2 ++ 0#2 ++ e ++ 0#2
  | .imm => 3#2 ++ 0#8

/-- The operand of a field, unused bits aside. -/
def parseVOp (x : BitVec 10) : VOp :=
  match (x.extractLsb' 8 2).toNat with
  | 0 => .reg (x.extractLsb' 2 6) (x.extractLsb' 0 2)
  | 1 => .port (x.extractLsb' 2 5)
  | 2 => .bc (x.extractLsb' 2 4)
  | _ => .imm

/-- A TOK field (R141). -/
def encodeTok (t : Tok) : BitVec 12 := t.dst ++ t.s1 ++ t.s2 ++ t.s3

/-- The subfields of a TOK field. -/
def parseTok (x : BitVec 12) : Tok := ⟨x.extractLsb' 9 3, x.extractLsb' 6 3, x.extractLsb' 3 3, x.extractLsb' 0 3⟩

/-- The 96 bits of a vector word (R133). -/
def packV (op : BitVec 8) (w : VWord) : BitVec 96 :=
  BitVec.ofBool w.s ++ BitVec.ofBool w.lb ++ op ++ w.lat ++ w.rep ++ encodeVOp w.d ++ encodeVOp w.a ++ encodeVOp w.b ++
    w.ty.code ++ w.pg ++ BitVec.ofBool w.zm ++ encodeTok w.tok ++ w.mod ++ w.imm

/-- The fields of a vector word; none when TYPE is 0xE or 0xF. -/
def unpackV (x : BitVec 96) : Option VWord :=
  match Fmt.ofCode (x.extractLsb' 44 4) with
  | none => none
  | some ty =>
    some ⟨x.getLsbD 95, x.getLsbD 94, x.extractLsb' 82 4, x.extractLsb' 78 4, parseVOp (x.extractLsb' 68 10),
      parseVOp (x.extractLsb' 58 10), parseVOp (x.extractLsb' 48 10), ty, x.extractLsb' 40 4, x.getLsbD 39,
      parseTok (x.extractLsb' 27 12), x.extractLsb' 16 11, x.extractLsb' 0 16⟩

/-- The 96-bit word of a vector instruction, by the opcode map of R138; none for every other instruction. -/
def encodeVector : Instr → Option (BitVec 96)
  | .vadd w => some (packV 0x01 w)
  | .vsub w => some (packV 0x02 w)
  | .vmul w => some (packV 0x03 w)
  | .vmulh w => some (packV 0x04 w)
  | .vmac w => some (packV 0x05 w)
  | .vmin w => some (packV 0x06 w)
  | .vmax w => some (packV 0x07 w)
  | .vabs w => some (packV 0x08 w)
  | .vneg w => some (packV 0x09 w)
  | .vand w => some (packV 0x0A w)
  | .vor w => some (packV 0x0B w)
  | .vxor w => some (packV 0x0C w)
  | .vshl w => some (packV 0x0D w)
  | .vshr w => some (packV 0x0E w)
  | .vsra w => some (packV 0x0F w)
  | .vqshr w => some (packV 0x10 w)
  | .vqmul w => some (packV 0x11 w)
  | .vsat w => some (packV 0x12 w)
  | .vfadd w => some (packV 0x20 w)
  | .vfsub w => some (packV 0x21 w)
  | .vfmul w => some (packV 0x22 w)
  | .vfma w => some (packV 0x23 w)
  | .vfms w => some (packV 0x24 w)
  | .vfmin w => some (packV 0x25 w)
  | .vfmax w => some (packV 0x26 w)
  | .vfrcp w => some (packV 0x27 w)
  | .vfrsq w => some (packV 0x28 w)
  | .vfexp2 w => some (packV 0x29 w)
  | .vflog2 w => some (packV 0x2A w)
  | .vfabs w => some (packV 0x2B w)
  | .vfneg w => some (packV 0x2C w)
  | .vcmp w => some (packV 0x30 w)
  | .vfcmp w => some (packV 0x31 w)
  | .vsel w => some (packV 0x38 w)
  | .vmov w => some (packV 0x39 w)
  | .vbcast w => some (packV 0x3A w)
  | .vperm w => some (packV 0x3B w)
  | .vshuf w => some (packV 0x3C w)
  | .vslide w => some (packV 0x3D w)
  | .vpack w => some (packV 0x3E w)
  | .vunpk w => some (packV 0x3F w)
  | .vredadd w => some (packV 0x40 w)
  | .vredmax w => some (packV 0x41 w)
  | .vredmin w => some (packV 0x42 w)
  | .vfredadd w => some (packV 0x43 w)
  | .vscan w => some (packV 0x44 w)
  | .vcvt w => some (packV 0x48 w)
  | .vxpand w => some (packV 0x49 w)
  | .vmxq w => some (packV 0x4A w)
  | .vmxd w => some (packV 0x4B w)
  | .vpart w => some (packV 0x50 w)
  | .vcomp w => some (packV 0x51 w)
  | .vexpd w => some (packV 0x52 w)
  | .vgath w => some (packV 0x58 w)
  | .vscat w => some (packV 0x59 w)
  | .vpush w => some (packV 0x5A w)
  | .vpushBoff w => some (packV 0x5A w)
  | .pand w => some (packV 0x60 w)
  | .por w => some (packV 0x61 w)
  | .pxor w => some (packV 0x62 w)
  | .pnot w => some (packV 0x63 w)
  | .pcnt w => some (packV 0x64 w)
  | .pfirst w => some (packV 0x65 w)
  | .twrow w => some (packV 0x68 w)
  | .trcol w => some (packV 0x69 w)
  | .tclr w => some (packV 0x6A w)
  | .vjmp w => some (packV 0x70 w)
  | .vbrq w => some (packV 0x71 w)
  | .vbrp w => some (packV 0x72 w)
  | .add .. | .sub .. | .and .. | .or .. | .xor .. | .andn .. | .shl .. | .shr .. | .sra .. | .min .. | .max ..
  | .minu .. | .maxu .. | .slt .. | .sltu .. | .seq .. | .mul .. | .mulh .. | .mulhu .. | .div .. | .divu .. | .rem ..
  | .remu .. | .clz .. | .ctz .. | .popc .. | .bext .. | .bins .. | .kcmpEq .. | .kcmpNe .. | .kcmpLt .. | .kcmpGe ..
  | .kcmpLtu .. | .kcmpGeu .. | .kand .. | .kor .. | .knot .. | .addi .. | .andi .. | .ori .. | .xori .. | .shli ..
  | .shri .. | .srai .. | .slti .. | .lui .. | .addpc .. | .ld .. | .ldu .. | .st .. | .ldx .. | .stx .. | .lda ..
  | .stl .. | .amoW .. | .amoD .. | .cas .. | .fence .. | .qalign .. | .b .. | .bk .. | .bccEq .. | .bccNe ..
  | .bccLt .. | .bccGe .. | .bccLtu .. | .bccGeu .. | .jal .. | .jalr .. | .loop .. | .brq .. | .bqpush .. | .tksig ..
  | .tkwait .. | .scfg .. | .sopen .. | .sclose .. | .seos .. | .smark .. | .srewind .. | .sforkG .. | .sforkT ..
  | .sstat .. | .ssave .. | .srest .. | .swait .. | .sbase .. | .rcfg .. | .rhead .. | .rtail .. | .rpop ..
  | .rpush .. | .rwait .. | .copy .. | .copyw .. | .wsload .. | .spawn .. | .exit .. | .join .. | .park .. | .waitf ..
  | .append .. | .take .. | .quiet .. | .barinit .. | .bararr .. | .barwait .. | .barstat .. | .mbput .. | .mbget ..
  | .mbpeek .. | .csrr .. | .csrw .. | .csrx .. | .trap .. | .tret .. | .halt .. | .tick .. | .tlbinv .. | .asidret ..
  | .spcfg .. | .syncg .. | .loopc .. | .rotclr .. | .ease .. | .mma .. | .mzero .. | .mfill .. | .mdrain ..
  | .madd .. | .mscale .. | .mcopy .. | .mcfg .. | .mstat .. | .mwait .. | .mtok .. | .mbar .. | .mjmp .. | .mbrq ..
  | .vectorResultLanding .. | .lockstepRendezvous .. | .matrixWordStart .. | .matrixWordRetirement ..
  | .barrierRequestAtHome .. | .barrierPhaseReply .. | .barwaitRepoll .. | .streamStart .. | .streamSlotCommit ..
  | .bindOffCommit .. | .streamSlotDrain .. | .remoteSlotTransfer .. | .pageWalk .. | .faultRecordWrite .. | .retry ..
  | .killResponse .. | .shootdown .. | .asidRetirement | .copyTransferStart .. | .copyTransferComplete ..
  | .refreshWindowStart | .refreshWindowEnd | .accessPerform .. | .acknowledgement .. | .hotListWrite .. | .admission
  | .rootRecordPush .. | .gangAdmission | .completionEntryWrite | .recordExamine .. | .recordSelection ..
  | .recordRetirement .. | .continuationPush .. | .detectorCopyUpdate | .watchWake .. | .replanEvent ..
  | .launchEnd .. | .taskKill | .preemptionStop .. | .handlerStopLimit .. | .contextSave .. | .contextRestore ..
  | .trapEntry .. | .watchdog .. | .hpcC3Write .. | .clsClear .. | .registerWrite .. | .activate .. | .precharge ..
  | .read .. | .write .. | .writeWithByteMask .. | .refresh .. | .selfRefresh .. | .powerDownEntry ..
  | .powerDownExit .. | .modeRegisterRead .. | .modeRegisterWrite .. | .trainingSequence .. | .lqTailWrite ..
  | .cqHeadWrite .. | .sqTailWrite .. | .srHeadWrite .. | .kill | .bind | .start | .stop | .tagset | .epread | .mapout
  | .restart | .attest | .idkey | .dread | .ovfset | .partitionCreate .. | .partitionHalt .. | .partitionSave ..
  | .partitionRestore .. | .partitionDestroy .. | .episodeCoreInstruction .. | .actTake .. | .obsBell .. | .rewBell ..
  | .actionExamination .. | .stepWatchdog .. | .episodeBudget .. | .contextException .. | .suspendedContextEnd ..
  | .scrub .. | .contextSwitch .. | .flitReceive .. | .flitRetransmit .. | .portTraining .. | .portRemoval ..
  | .deviceReset | .bootLenWrite .. | .imageVerification | .vacancyMapWrite .. | .freeze | .freezeAtTick | .bypass
  | .idcode | .samplePreload | .extest | .fastScanRead .. | .sensorTrip .. | .taghistClear .. | .dutySet ..
  | .blockGating .. | .gatingTimeout .. | .blockPowerUp .. | .traceSample | .resetRelease | .serviceCoreInstruction .. => none

/-- The vector instruction of an opcode (R138); a push with MOD[0] = 1 is the bind-off push of R303. -/
def vectorOf (op : Nat) (w : VWord) : Option Instr :=
  match op with
  | 0x01 => some (.vadd w)
  | 0x02 => some (.vsub w)
  | 0x03 => some (.vmul w)
  | 0x04 => some (.vmulh w)
  | 0x05 => some (.vmac w)
  | 0x06 => some (.vmin w)
  | 0x07 => some (.vmax w)
  | 0x08 => some (.vabs w)
  | 0x09 => some (.vneg w)
  | 0x0A => some (.vand w)
  | 0x0B => some (.vor w)
  | 0x0C => some (.vxor w)
  | 0x0D => some (.vshl w)
  | 0x0E => some (.vshr w)
  | 0x0F => some (.vsra w)
  | 0x10 => some (.vqshr w)
  | 0x11 => some (.vqmul w)
  | 0x12 => some (.vsat w)
  | 0x20 => some (.vfadd w)
  | 0x21 => some (.vfsub w)
  | 0x22 => some (.vfmul w)
  | 0x23 => some (.vfma w)
  | 0x24 => some (.vfms w)
  | 0x25 => some (.vfmin w)
  | 0x26 => some (.vfmax w)
  | 0x27 => some (.vfrcp w)
  | 0x28 => some (.vfrsq w)
  | 0x29 => some (.vfexp2 w)
  | 0x2A => some (.vflog2 w)
  | 0x2B => some (.vfabs w)
  | 0x2C => some (.vfneg w)
  | 0x30 => some (.vcmp w)
  | 0x31 => some (.vfcmp w)
  | 0x38 => some (.vsel w)
  | 0x39 => some (.vmov w)
  | 0x3A => some (.vbcast w)
  | 0x3B => some (.vperm w)
  | 0x3C => some (.vshuf w)
  | 0x3D => some (.vslide w)
  | 0x3E => some (.vpack w)
  | 0x3F => some (.vunpk w)
  | 0x40 => some (.vredadd w)
  | 0x41 => some (.vredmax w)
  | 0x42 => some (.vredmin w)
  | 0x43 => some (.vfredadd w)
  | 0x44 => some (.vscan w)
  | 0x48 => some (.vcvt w)
  | 0x49 => some (.vxpand w)
  | 0x4A => some (.vmxq w)
  | 0x4B => some (.vmxd w)
  | 0x50 => some (.vpart w)
  | 0x51 => some (.vcomp w)
  | 0x52 => some (.vexpd w)
  | 0x58 => some (.vgath w)
  | 0x59 => some (.vscat w)
  | 0x5A => some (if w.mod.getLsbD 0 then .vpushBoff w else .vpush w)
  | 0x60 => some (.pand w)
  | 0x61 => some (.por w)
  | 0x62 => some (.pxor w)
  | 0x63 => some (.pnot w)
  | 0x64 => some (.pcnt w)
  | 0x65 => some (.pfirst w)
  | 0x68 => some (.twrow w)
  | 0x69 => some (.trcol w)
  | 0x6A => some (.tclr w)
  | 0x70 => some (.vjmp w)
  | 0x71 => some (.vbrq w)
  | 0x72 => some (.vbrp w)
  | _ => none

/-- The instruction of a 96-bit vector word, refused as `decodeScalar` refuses. -/
def decodeVector (x : BitVec 96) : Option Instr :=
  match unpackV x with
  | none => none
  | some w =>
    match vectorOf (x.extractLsb' 86 8).toNat w with
    | some i => if wf i && encodeVector i == some x then some i else none
    | none => none

/-! ### Matrix words (R139, R140) -/

/-- The 192 bits of a matrix word; bits [53:0] are 0. -/
def packM (op : BitVec 8) (w : MWord) : BitVec 192 :=
  BitVec.ofBool w.s ++ BitVec.ofBool w.lb ++ op ++ BitVec.ofBool w.pin ++ w.stamp ++ w.aport ++ w.bport ++ w.cport ++ w.acct ++
    w.kgrp ++ BitVec.ofBool w.ta ++ BitVec.ofBool w.tb ++ w.amode ++ w.bar ++ BitVec.ofBool w.ben ++ encodeTok w.tok ++ w.ofmt ++
    w.ornd ++ BitVec.ofBool w.osat ++ w.oshift ++ w.mext ++ w.next ++ w.imm ++ 0#54

/-- The fields of a matrix word. -/
def unpackM (x : BitVec 192) : MWord :=
  ⟨x.getLsbD 191, x.getLsbD 190, x.getLsbD 181, x.extractLsb' 149 32, x.extractLsb' 144 5, x.extractLsb' 139 5,
    x.extractLsb' 134 5, x.extractLsb' 130 4, x.extractLsb' 122 8, x.getLsbD 121, x.getLsbD 120, x.extractLsb' 118 2,
    x.extractLsb' 112 6, x.getLsbD 111, parseTok (x.extractLsb' 99 12), x.extractLsb' 95 4, x.extractLsb' 93 2,
    x.getLsbD 92, x.extractLsb' 86 6, x.extractLsb' 78 8, x.extractLsb' 70 8, x.extractLsb' 54 16⟩

/-- The 192-bit word of a matrix instruction, by the opcode map of R140; none for every other instruction. -/
def encodeMatrix : Instr → Option (BitVec 192)
  | .mma w => some (packM 0x01 w)
  | .mzero w => some (packM 0x02 w)
  | .mfill w => some (packM 0x03 w)
  | .mdrain w => some (packM 0x04 w)
  | .madd w => some (packM 0x05 w)
  | .mscale w => some (packM 0x06 w)
  | .mcopy w => some (packM 0x07 w)
  | .mcfg w => some (packM 0x08 w)
  | .mstat w => some (packM 0x09 w)
  | .mwait w => some (packM 0x0A w)
  | .mtok w => some (packM 0x0B w)
  | .mbar w => some (packM 0x0C w)
  | .mjmp w => some (packM 0x10 w)
  | .mbrq w => some (packM 0x11 w)
  | .add .. | .sub .. | .and .. | .or .. | .xor .. | .andn .. | .shl .. | .shr .. | .sra .. | .min .. | .max ..
  | .minu .. | .maxu .. | .slt .. | .sltu .. | .seq .. | .mul .. | .mulh .. | .mulhu .. | .div .. | .divu .. | .rem ..
  | .remu .. | .clz .. | .ctz .. | .popc .. | .bext .. | .bins .. | .kcmpEq .. | .kcmpNe .. | .kcmpLt .. | .kcmpGe ..
  | .kcmpLtu .. | .kcmpGeu .. | .kand .. | .kor .. | .knot .. | .addi .. | .andi .. | .ori .. | .xori .. | .shli ..
  | .shri .. | .srai .. | .slti .. | .lui .. | .addpc .. | .ld .. | .ldu .. | .st .. | .ldx .. | .stx .. | .lda ..
  | .stl .. | .amoW .. | .amoD .. | .cas .. | .fence .. | .qalign .. | .b .. | .bk .. | .bccEq .. | .bccNe ..
  | .bccLt .. | .bccGe .. | .bccLtu .. | .bccGeu .. | .jal .. | .jalr .. | .loop .. | .brq .. | .bqpush .. | .tksig ..
  | .tkwait .. | .scfg .. | .sopen .. | .sclose .. | .seos .. | .smark .. | .srewind .. | .sforkG .. | .sforkT ..
  | .sstat .. | .ssave .. | .srest .. | .swait .. | .sbase .. | .rcfg .. | .rhead .. | .rtail .. | .rpop ..
  | .rpush .. | .rwait .. | .copy .. | .copyw .. | .wsload .. | .spawn .. | .exit .. | .join .. | .park .. | .waitf ..
  | .append .. | .take .. | .quiet .. | .barinit .. | .bararr .. | .barwait .. | .barstat .. | .mbput .. | .mbget ..
  | .mbpeek .. | .csrr .. | .csrw .. | .csrx .. | .trap .. | .tret .. | .halt .. | .tick .. | .tlbinv .. | .asidret ..
  | .spcfg .. | .syncg .. | .loopc .. | .rotclr .. | .ease .. | .vadd .. | .vsub .. | .vmul .. | .vmulh .. | .vmac ..
  | .vmin .. | .vmax .. | .vabs .. | .vneg .. | .vand .. | .vor .. | .vxor .. | .vshl .. | .vshr .. | .vsra ..
  | .vqshr .. | .vqmul .. | .vsat .. | .vfadd .. | .vfsub .. | .vfmul .. | .vfma .. | .vfms .. | .vfmin .. | .vfmax ..
  | .vfrcp .. | .vfrsq .. | .vfexp2 .. | .vflog2 .. | .vfabs .. | .vfneg .. | .vcmp .. | .vfcmp .. | .vsel ..
  | .vmov .. | .vbcast .. | .vperm .. | .vshuf .. | .vslide .. | .vpack .. | .vunpk .. | .vredadd .. | .vredmax ..
  | .vredmin .. | .vfredadd .. | .vscan .. | .vcvt .. | .vxpand .. | .vmxq .. | .vmxd .. | .vpart .. | .vcomp ..
  | .vexpd .. | .vgath .. | .vscat .. | .vpush .. | .vpushBoff .. | .pand .. | .por .. | .pxor .. | .pnot ..
  | .pcnt .. | .pfirst .. | .twrow .. | .trcol .. | .tclr .. | .vjmp .. | .vbrq .. | .vbrp ..
  | .vectorResultLanding .. | .lockstepRendezvous .. | .matrixWordStart .. | .matrixWordRetirement ..
  | .barrierRequestAtHome .. | .barrierPhaseReply .. | .barwaitRepoll .. | .streamStart .. | .streamSlotCommit ..
  | .bindOffCommit .. | .streamSlotDrain .. | .remoteSlotTransfer .. | .pageWalk .. | .faultRecordWrite .. | .retry ..
  | .killResponse .. | .shootdown .. | .asidRetirement | .copyTransferStart .. | .copyTransferComplete ..
  | .refreshWindowStart | .refreshWindowEnd | .accessPerform .. | .acknowledgement .. | .hotListWrite .. | .admission
  | .rootRecordPush .. | .gangAdmission | .completionEntryWrite | .recordExamine .. | .recordSelection ..
  | .recordRetirement .. | .continuationPush .. | .detectorCopyUpdate | .watchWake .. | .replanEvent ..
  | .launchEnd .. | .taskKill | .preemptionStop .. | .handlerStopLimit .. | .contextSave .. | .contextRestore ..
  | .trapEntry .. | .watchdog .. | .hpcC3Write .. | .clsClear .. | .registerWrite .. | .activate .. | .precharge ..
  | .read .. | .write .. | .writeWithByteMask .. | .refresh .. | .selfRefresh .. | .powerDownEntry ..
  | .powerDownExit .. | .modeRegisterRead .. | .modeRegisterWrite .. | .trainingSequence .. | .lqTailWrite ..
  | .cqHeadWrite .. | .sqTailWrite .. | .srHeadWrite .. | .kill | .bind | .start | .stop | .tagset | .epread | .mapout
  | .restart | .attest | .idkey | .dread | .ovfset | .partitionCreate .. | .partitionHalt .. | .partitionSave ..
  | .partitionRestore .. | .partitionDestroy .. | .episodeCoreInstruction .. | .actTake .. | .obsBell .. | .rewBell ..
  | .actionExamination .. | .stepWatchdog .. | .episodeBudget .. | .contextException .. | .suspendedContextEnd ..
  | .scrub .. | .contextSwitch .. | .flitReceive .. | .flitRetransmit .. | .portTraining .. | .portRemoval ..
  | .deviceReset | .bootLenWrite .. | .imageVerification | .vacancyMapWrite .. | .freeze | .freezeAtTick | .bypass
  | .idcode | .samplePreload | .extest | .fastScanRead .. | .sensorTrip .. | .taghistClear .. | .dutySet ..
  | .blockGating .. | .gatingTimeout .. | .blockPowerUp .. | .traceSample | .resetRelease | .serviceCoreInstruction .. => none

/-- The matrix instruction of an opcode (R140). -/
def matrixOf (op : Nat) (w : MWord) : Option Instr :=
  match op with
  | 0x01 => some (.mma w)
  | 0x02 => some (.mzero w)
  | 0x03 => some (.mfill w)
  | 0x04 => some (.mdrain w)
  | 0x05 => some (.madd w)
  | 0x06 => some (.mscale w)
  | 0x07 => some (.mcopy w)
  | 0x08 => some (.mcfg w)
  | 0x09 => some (.mstat w)
  | 0x0A => some (.mwait w)
  | 0x0B => some (.mtok w)
  | 0x0C => some (.mbar w)
  | 0x10 => some (.mjmp w)
  | 0x11 => some (.mbrq w)
  | _ => none

/-- The instruction of a 192-bit matrix word, refused as `decodeScalar` refuses. -/
def decodeMatrix (x : BitVec 192) : Option Instr :=
  match matrixOf (x.extractLsb' 182 8).toNat (unpackM x) with
  | some i => if wf i && encodeMatrix i == some x then some i else none
  | none => none

/-! ### Words in memory (R120) -/

/-- The number that little-endian bytes hold (R4). -/
def ofLE : List Byte → Nat
  | [] => 0
  | b :: bs => b.toNat + 256 * ofLE bs

/-- The `n` little-endian bytes of a number (R4). -/
def toLE : Nat → Nat → List Byte
  | 0, _ => []
  | n + 1, x => BitVec.ofNat 8 x :: toLE n (x / 256)

/-- Bytes of a word of an engine (R120); the SU and the CE fetch none. -/
def Eng.wordBytes : Eng → Nat
  | .ap | .c0 => 4
  | .c1 | .c2 => 12
  | .c3 => 24
  | .su | .ce => 0

/-- The instruction that an engine reads from the bytes of one of its words. -/
def decode (e : Eng) (bytes : List Byte) : Option Instr :=
  match e with
  | .ap | .c0 => decodeScalar (BitVec.ofNat 32 (ofLE bytes))
  | .c1 | .c2 => decodeVector (BitVec.ofNat 96 (ofLE bytes))
  | .c3 => decodeMatrix (BitVec.ofNat 192 (ofLE bytes))
  | .su | .ce => none

/-- The bytes of an instruction's word in memory; none for an event, which is no word. -/
def encode (i : Instr) : Option (List Byte) :=
  match encodeScalar i, encodeVector i, encodeMatrix i with
  | some x, _, _ => some (toLE 4 x.toNat)
  | none, some x, _ => some (toLE 12 x.toNat)
  | none, none, some x => some (toLE 24 x.toNat)
  | none, none, none => none

/-- An engine that fetches words of the width that `nbits` table bits give, for a row of the opcode table. -/
def tableEngine (nbits : Nat) : Eng := if nbits ≤ 32 then .ap else if nbits ≤ 96 then .c1 else .c3

/-- The instruction that the decoder reads from a word whose bits are `w`, numbered as spec/opcode_table.json numbers them. -/
def decodeTableWord (nbits w : Nat) : Option Instr :=
  decode (tableEngine nbits) (toLE (tableEngine nbits).wordBytes w)

end Sys2Proof
end

