-- ==== Sys2Proof/Machine/Formats.lean ====
section
/-! DEFINITION. Number formats and arithmetic (R33 to R60): the one home of decoding, rounding, saturation, block
quantisation, the sums of the matrix array and requantisation. Element patterns are natural numbers below 2^width. -/

namespace Sys2Proof.Machine

/-! ### Condition flags (R52) -/

/-- The arithmetic condition field ACF. -/
abbrev Acf := BitVec 5

/-- INV, bit 0 of the ACF (R52). -/
def fINV : Acf := 1
/-- OVF, bit 1 of the ACF (R52). -/
def fOVF : Acf := 2
/-- SAT, bit 2 of the ACF (R52). -/
def fSAT : Acf := 4
/-- NANS, bit 3 of the ACF (R52). -/
def fNANS : Acf := 8
/-- PSN, bit 4 of the ACF (R52). -/
def fPSN : Acf := 16

/-- A flag when a condition holds. -/
def flagIf (c : Bool) (f : Acf) : Acf := if c then f else 0

/-! ### Integers (R34, R35) -/

/-- The value of the low `n` bits of `x` as a two's complement number (R34). -/
def signedOf (n x : Nat) : Int := if x % 2 ^ n < 2 ^ (n - 1) then (x % 2 ^ n : Nat) else ((x % 2 ^ n : Nat) : Int) - (2 ^ n : Nat)

/-- WrapInt of R35. -/
def wrapInt (x : Int) (n : Nat) : Nat := (x % ((2 ^ n : Nat) : Int)).toNat

/-- MaxInt of R34. -/
def maxInt (f : Fmt) : Int :=
  match f with
  | .uint8 => 255
  | f => ((2 ^ (f.width - 1) : Nat) : Int) - 1

/-- MinInt of R34. -/
def minInt (f : Fmt) : Int :=
  match f with
  | .uint8 => 0
  | f => -((2 ^ (f.width - 1) : Nat) : Int)

/-- SatInt of R35: the value clamped to the range of `f`. -/
def satInt (x : Int) (f : Fmt) : Int × Acf :=
  if x > maxInt f then (maxInt f, fSAT) else if x < minInt f then (minInt f, fSAT) else (x, 0)

/-- The value of an element of an integer format (R34). -/
def intOf (f : Fmt) (x : Nat) : Int :=
  match f with
  | .uint8 => (x % 256 : Nat)
  | f => signedOf f.width x

/-- The pattern of SatInt. -/
def satPat (x : Int) (f : Fmt) : Nat × Acf := (wrapInt (satInt x f).1 f.width, (satInt x f).2)

/-! ### Floating-point formats (R36, R37) -/

/-- The floating-point element formats of R36, and binary64, which only the episode cores use (R451). -/
inductive FFmt where
  | fp32 | fp16 | bf16 | e4m3 | e5m2 | e2m1 | fp64
  deriving DecidableEq, Repr

/-- Exponent bits. -/
def FFmt.eb : FFmt → Nat
  | .fp32 | .bf16 => 8 | .fp16 | .e5m2 => 5 | .e4m3 => 4 | .e2m1 => 2 | .fp64 => 11

/-- M(f): fraction bits. -/
def FFmt.mb : FFmt → Nat
  | .fp32 => 23 | .fp16 => 10 | .bf16 => 7 | .e4m3 => 3 | .e5m2 => 2 | .e2m1 => 1 | .fp64 => 52

/-- The exponent bias. -/
def FFmt.bias : FFmt → Nat
  | .fp32 | .bf16 => 127 | .fp16 | .e5m2 => 15 | .e4m3 => 7 | .e2m1 => 1 | .fp64 => 1023

/-- Width in bits. -/
def FFmt.width (f : FFmt) : Nat := 1 + f.eb + f.mb

/-- The magnitude pattern of MaxF(f). -/
def FFmt.maxMag : FFmt → Nat
  | .fp32 => 0x7F7FFFFF | .fp16 => 0x7BFF | .bf16 => 0x7F7F | .e4m3 => 0x7E | .e5m2 => 0x7B | .e2m1 => 7
  | .fp64 => 0x7FEFFFFFFFFFFFFF

/-- CanonNaN(f) (R37); E2M1 has none and never asks for it. -/
def FFmt.canonNaN : FFmt → Nat
  | .fp32 => 0x7FC00000 | .fp16 => 0x7E00 | .bf16 => 0x7FC0 | .e4m3 => 0x7F | .e5m2 => 0x7E | .e2m1 => 0
  | .fp64 => 0x7FF8000000000000

/-- Whether the format holds infinities. -/
def FFmt.hasInf : FFmt → Bool
  | .e4m3 | .e2m1 => false | _ => true

/-- The sign bit set when `s`. -/
def FFmt.signBit (f : FFmt) (s : Bool) : Nat := if s then 2 ^ (f.width - 1) else 0

/-- The pattern of an infinity. -/
def FFmt.inf (f : FFmt) (s : Bool) : Nat := f.signBit s + (2 ^ f.eb - 1) * 2 ^ f.mb

/-- The floating-point format of an element format code. -/
def ffOf : Fmt → FFmt
  | .fp16 => .fp16 | .bf16 => .bf16 | .e4m3 | .mxfp8 => .e4m3 | .e5m2 => .e5m2 | .mxfp4 => .e2m1 | _ => .fp32

/-- An exact value: NaN, ±infinity, or (−1)^s × m × 2^e, where m = 0 is the zero of that sign. -/
inductive FNum where
  | nan
  | inf (s : Bool)
  | fin (s : Bool) (m : Nat) (e : Int)
  deriving DecidableEq, Repr

/-- Whether the value is NaN. -/
def FNum.isNan : FNum → Bool
  | .nan => true | _ => false
/-- Whether the value is an infinity. -/
def FNum.isInf : FNum → Bool
  | .inf _ => true | _ => false
/-- Whether the value is a zero. -/
def FNum.isZero : FNum → Bool
  | .fin _ 0 _ => true | _ => false
/-- The sign; false for NaN. -/
def FNum.sign : FNum → Bool
  | .nan => false | .inf s | .fin s _ _ => s
/-- +0. -/
def FNum.zero : FNum := .fin false 0 0
/-- The exact value of an integer. -/
def FNum.ofInt (x : Int) : FNum := .fin (decide (x < 0)) x.natAbs 0
/-- The value with its sign inverted. -/
def FNum.neg : FNum → FNum
  | .nan => .nan | .inf s => .inf (!s) | .fin s m e => .fin (!s) m e
/-- The value times 2^k. -/
def FNum.scale (k : Int) : FNum → FNum
  | .fin s m e => .fin s m (e + k) | x => x
/-- floor(log2(|x|)) of a nonzero finite value. -/
def FNum.lg : FNum → Int
  | .fin _ m e => (Nat.log2 m : Int) + e | _ => 0

/-- Decode(b, f) of R36, R38 and R40. -/
def decodeF (f : FFmt) (b : Nat) : FNum :=
  let s := b.testBit (f.width - 1)
  let mag := b % 2 ^ (f.width - 1)
  let ef := mag / 2 ^ f.mb
  let fr := mag % 2 ^ f.mb
  if mag > f.maxMag then
    if f.hasInf && fr == 0 then .inf s else .nan
  else if ef == 0 then .fin s fr (1 - (f.bias : Int) - (f.mb : Int))
  else .fin s (2 ^ f.mb + fr) ((ef : Int) - (f.bias : Int) - (f.mb : Int))

/-- The E8M0 scale of R41; none for NaN. -/
def e8m0 (b : Nat) : Option Int := if b % 256 == 255 then none else some ((b % 256 : Nat) - 127 : Int)

/-! ### Rounding (R46 to R48) -/

/-- Rounding as the device does it (R46), and ties to the larger magnitude, which only the episode cores use (R451). -/
inductive Rnd where
  | mode (r : RMode)
  | rmm
  deriving DecidableEq, Repr

/-- RNE. -/
def Rnd.rne : Rnd := .mode .rne

/-- A rounding mode field (R46). -/
def rmodeOf (x : Nat) : RMode :=
  match x % 4 with
  | 0 => .rne | 1 => .rtz | 2 => .rup | _ => .rdn

/-- Whether a magnitude with integer part `n` is rounded up, where `r` of `2^k` is cut off (RoundInt, R47). -/
def roundsUp (rm : Rnd) (s : Bool) (n r k : Nat) : Bool :=
  match rm with
  | .mode .rne => decide (2 * r > 2 ^ k) || (2 * r == 2 ^ k && n % 2 == 1)
  | .mode .rtz => false
  | .mode .rup => !s && r != 0
  | .mode .rdn => s && r != 0
  | .rmm => decide (2 * r ≥ 2 ^ k)

/-- The magnitude of RoundInt(±m × 2^e / 2^q): the rounded count of quanta (R47). -/
def roundQ (rm : Rnd) (s : Bool) (m : Nat) (e q : Int) : Nat :=
  if q ≤ e then m * 2 ^ (e - q).toNat
  else
    let k := (q - e).toNat
    let n := m / 2 ^ k
    let r := m % 2 ^ k
    if r != 0 && roundsUp rm s n r k then n + 1 else n

/-- Overflow of R48. -/
def overflowF (s : Bool) (f : FFmt) (rm : Rnd) (sat : Bool) : Nat × Acf :=
  if sat || f == .e2m1 then (f.signBit s + f.maxMag, fSAT)
  else
    let big := match rm with
      | .mode .rne | .rmm => true
      | .mode .rtz => false
      | .mode .rup => !s
      | .mode .rdn => s
    if !big then (f.signBit s + f.maxMag, fOVF)
    else if f == .e4m3 then (f.canonNaN, fOVF)
    else (f.inf s, fOVF)

/-- RoundInf of R48. -/
def roundInf (s : Bool) (f : FFmt) (sat : Bool) : Nat × Acf :=
  if sat || f == .e2m1 then (f.signBit s + f.maxMag, fSAT)
  else if f == .e4m3 then (f.canonNaN, fOVF)
  else (f.inf s, 0)

/-- Round of R47, for any rounding. The magnitude pattern of n quanta of exponent e − M is (e + bias − 1) × 2^M + n. -/
def roundWith (x : FNum) (f : FFmt) (rm : Rnd) (sat : Bool) : Nat × Acf :=
  match x with
  | .nan => (f.canonNaN, 0)
  | .inf s => roundInf s f sat
  | .fin s m e =>
    if m == 0 then (f.signBit s, 0)
    else
      let x2 := max ((Nat.log2 m : Int) + e) (1 - (f.bias : Int))
      let n := roundQ rm s m e (x2 - (f.mb : Int))
      let mag := (x2 + (f.bias : Int) - 1).toNat * 2 ^ f.mb + n
      if mag > f.maxMag then overflowF s f rm sat else (f.signBit s + mag, 0)

/-- Round(x, f, rm, sat) of R47. -/
def roundF (x : FNum) (f : FFmt) (rm : RMode) (sat : Bool) : Nat × Acf := roundWith x f (.mode rm) sat

/-- RoundInt of an exact value (R47). -/
def roundInt (s : Bool) (m : Nat) (e : Int) (rm : Rnd) : Int :=
  let n := roundQ rm s m e 0
  if s then -(n : Int) else n

/-- A floating value to an integer format (R49). -/
def floatToInt (x : FNum) (f : Fmt) (rm : RMode) : Nat × Acf :=
  match x with
  | .nan => (0, fINV)
  | .inf s => (wrapInt (if s then minInt f else maxInt f) f.width, fSAT)
  | .fin s m e => satPat (roundInt s m e (.mode rm)) f

/-! ### Exact sums and products (R58) -/

/-- The signed mantissa of a value at exponent `e0`, for `e0` at most its own exponent. -/
def FNum.at (e0 : Int) : FNum → Int
  | .fin s m e => let v : Int := (m * 2 ^ (e - e0).toNat : Nat); if s then -v else v
  | _ => 0

/-- The exponent of a finite value. -/
def FNum.exp : FNum → Int
  | .fin _ _ e => e | _ => 0

/-- An exact sum of two finite values; an exactly zero sum of operands with opposite signs is +0 (R58). -/
def FNum.addFin (x y : FNum) : FNum :=
  match x, y with
  | .fin sx 0 _, .fin sy 0 _ => .fin (sx && sy) 0 0
  | _, _ =>
    let e0 := min x.exp y.exp
    let v := x.at e0 + y.at e0
    .fin (decide (v < 0)) v.natAbs e0

/-- The sum and its flags: Inf − Inf is NaN with INV (R58). -/
def FNum.add (x y : FNum) : FNum × Acf :=
  match x, y with
  | .nan, _ | _, .nan => (.nan, 0)
  | .inf s, .inf t => if s == t then (.inf s, 0) else (.nan, fINV)
  | .inf s, _ => (.inf s, 0)
  | _, .inf t => (.inf t, 0)
  | x, y => (x.addFin y, 0)

/-- The product and its flags: 0 × Inf is NaN with INV (R58). -/
def FNum.mul (x y : FNum) : FNum × Acf :=
  match x, y with
  | .nan, _ | _, .nan => (.nan, 0)
  | .inf s, .inf t => (.inf (s != t), 0)
  | .inf s, .fin t m _ => if m == 0 then (.nan, fINV) else (.inf (s != t), 0)
  | .fin s m _, .inf t => if m == 0 then (.nan, fINV) else (.inf (s != t), 0)
  | .fin s m e, .fin t n f => (.fin (s != t) (m * n) (e + f), 0)

/-- A × B + D, with one NaN check over the three operands (R52, R58). -/
def FNum.fma (a b d : FNum) : FNum × Acf :=
  if a.isNan || b.isNan || d.isNan then (.nan, 0)
  else
    let p := a.mul b
    let r := p.1.add d
    (r.1, p.2 ||| r.2)

/-- Comparison of two values that are not NaN: −1, 0 or 1 as x is below, equal to or above y; −0 equals +0 (R59). -/
def FNum.cmp (x y : FNum) : Int :=
  match x, y with
  | .inf s, .inf t => if s == t then 0 else if s then -1 else 1
  | .inf s, _ => if s then -1 else 1
  | _, .inf t => if t then 1 else -1
  | x, y => let e0 := min x.exp y.exp; (x.at e0 - y.at e0).sign

/-! ### Correctly rounded functions (R279)

Each answers the exact value, or a value with one more bit, set when something was cut off, at a precision that rounds the
same (DESIGN CHOICE: notes/assumptions/7.md). -/

/-- Newton's integer square root from a guess not below it. -/
def isqrtFrom : Nat → Nat → Nat → Nat
  | 0, _, x => x
  | k + 1, n, x => let y := (x + n / x) / 2; if y < x then isqrtFrom k n y else x

/-- floor(sqrt(n)). -/
def isqrt (n : Nat) : Nat := if n == 0 then 0 else isqrtFrom 128 n (2 ^ (Nat.log2 n / 2 + 1))

/-- A quotient of two nonzero magnitudes with a last bit set when it is inexact. -/
def quotSticky (s : Bool) (m : Nat) (e : Int) (n : Nat) (f : Int) : FNum :=
  let k := Nat.log2 n + 130 - min (Nat.log2 m) 129
  let q := m * 2 ^ k / n
  .fin s (2 * q + (if q * n == m * 2 ^ k then 0 else 1)) (e - f - (k : Int) - 1)

/-- x / y and its flags: 0/0 and Inf/Inf are NaN with INV. -/
def FNum.div (x y : FNum) : FNum × Acf :=
  match x, y with
  | .nan, _ | _, .nan => (.nan, 0)
  | .inf _, .inf _ => (.nan, fINV)
  | .inf s, .fin t _ _ => (.inf (s != t), 0)
  | .fin s _ _, .inf t => (.fin (s != t) 0 0, 0)
  | .fin s m e, .fin t n f =>
    if n == 0 then (if m == 0 then (.nan, fINV) else (.inf (s != t), 0))
    else if m == 0 then (.fin (s != t) 0 0, 0)
    else (quotSticky (s != t) m e n f, 0)

/-- The square root of a positive magnitude, with a last bit set when it is inexact. -/
def sqrtSticky (m : Nat) (e : Int) : FNum :=
  let m' := if e % 2 == 0 then m else 2 * m
  let e' := if e % 2 == 0 then e else e - 1
  let n := m' * 2 ^ 280
  let r := isqrt n
  .fin false (2 * r + (if r * r == n then 0 else 1)) (e' / 2 - 140 - 1)

/-- 2^(2^−i) for i = 1 .. n as integers over 2^p, by repeated square roots. -/
def exp2Roots (p : Nat) : Nat → Nat → List Nat
  | 0, _ => []
  | n + 1, c => let d := isqrt (c * 2 ^ p); d :: exp2Roots p n d

/-- The product over the set bits of a fraction f of n bits, top bit first (DESIGN CHOICE: notes/assumptions/7.md). -/
def exp2Prod (p f : Nat) : Nat → List Nat → Nat → Nat
  | _, [], acc => acc
  | 0, _, acc => acc
  | n + 1, c :: cs, acc => exp2Prod p f n cs (if f.testBit n then acc * c / 2 ^ p else acc)

/-- 2^x of a finite value; exact for integers, else with the last bit set. Exponents beyond ±4,096 are held there: no
format of the device reaches them (DESIGN CHOICE: notes/assumptions/7.md). -/
def FNum.exp2Fin (s : Bool) (m : Nat) (e : Int) : FNum :=
  let x := FNum.fin s m e
  let n : Int := if 0 ≤ e then x.at 0 else (x.at e) / ((2 ^ (-e).toNat : Nat) : Int)
  if n > 4096 then .fin false 1 4096
  else if n < -4096 then .fin false 1 (-4096)
  else
    let nb := if 0 ≤ e then 0 else (-e).toNat
    let f := if 0 ≤ e then 0 else (x.at e - n * ((2 ^ nb : Nat) : Int)).toNat
    if f == 0 then .fin false 1 n
    else
      let p := 512
      .fin false (2 * exp2Prod p f nb (exp2Roots p nb (2 * 2 ^ p)) (2 ^ p) + 1) (n - (p : Int) - 1)

/-- The bits after the point of log2 of y / 2^p, for 1 ≤ y / 2^p < 2, by repeated squaring (DESIGN CHOICE: notes/assumptions/7.md). -/
def log2Bits (p : Nat) : Nat → Nat → Nat → Nat
  | 0, _, acc => acc
  | n + 1, y, acc =>
    let z := y * y / 2 ^ p
    if z ≥ 2 * 2 ^ p then log2Bits p n (z / 2) (2 * acc + 1) else log2Bits p n z (2 * acc)

/-- log2 of a positive magnitude; exact for powers of two, else with the last bit set (DESIGN CHOICE: notes/assumptions/7.md). -/
def log2Fin (m : Nat) (e : Int) : FNum :=
  let k := Nat.log2 m
  let n : Int := (k : Int) + e
  if m == 2 ^ k then .ofInt n
  else
    let p := 512
    let v : Int := n * ((2 ^ 160 : Nat) : Int) + (log2Bits p 160 (m * 2 ^ p / 2 ^ k) 0 : Nat)
    if v < 0 then .fin true (2 * (v.natAbs - 1) + 1) (-161) else .fin false (2 * v.natAbs + 1) (-161)

/-! ### Blocks and packed codes (R42 to R44, R54, R55) -/

/-- Unpack(d, f, i): code i of packed data, as a number (R42, R44). -/
def unpackCode (d : Nat) (bits i : Nat) : Nat := (d / 2 ^ (bits * i)) % 2 ^ bits

/-- The elements of a list of patterns of a width packed into one number, element 0 lowest (R45). -/
def packElems (w : Nat) : List Nat → Nat
  | [] => 0
  | x :: xs => x % 2 ^ w + 2 ^ w * packElems w xs

/-- The first `n` elements of a width. -/
def elemsOf (w n d : Nat) : List Nat := (List.range n).map fun i => (d / 2 ^ (w * i)) % 2 ^ w

/-- The larger of two magnitudes. -/
def FNum.maxAbs (x y : FNum) : FNum := if FNum.cmp (if x.sign then x.neg else x) (if y.sign then y.neg else y) < 0 then y else x

/-- MXQuant of R54: the scale, the codes and the flags. -/
def mxQuant (x : List FNum) (ef : FFmt) (rm : RMode) : Nat × List Nat × Acf :=
  if x.any fun v => v.isNan || v.isInf then (0xFF, x.map fun _ => 0, fNANS)
  else
    let m := x.foldl FNum.maxAbs FNum.zero
    if m.isZero then (0, x.map fun _ => 0, 0)
    else
      let e := min (max (m.lg - (if ef == .e2m1 then 2 else 8)) (-127)) 127
      let r := x.map fun v => roundF (v.scale (-e)) ef rm true
      ((e + 127).toNat, r.map (·.1), r.foldl (fun a p => a ||| p.2) 0)

/-- MXDequant of R55: the delivered patterns and the flags. -/
def mxDequant (s : Nat) (codes : List Nat) (ef df : FFmt) (rm : RMode) (sat : Bool) : List Nat × Acf :=
  match e8m0 s with
  | none => (codes.map fun _ => df.canonNaN, fNANS)
  | some k =>
    let r := codes.map fun c => roundF ((decodeF ef c).scale k) df rm sat
    (r.map (·.1), r.foldl (fun a p => a ||| p.2) 0)

/-! ### Sums of the matrix array (R56, R57) -/

/-- TruncTZ of a finite value to a multiple of 2^q. -/
def truncTZ (q : Int) : FNum → FNum
  | .fin s m e => if q ≤ e then .fin s m e else .fin s (m / 2 ^ (q - e).toNat) q
  | x => x

/-- The exact sum of finite values. -/
def sumFin (xs : List FNum) : FNum :=
  let e0 := xs.foldl (fun a x => min a x.exp) 0
  let v : Int := xs.foldl (fun a x => a + x.at e0) 0
  .fin (decide (v < 0)) v.natAbs e0

/-- DotGroup of R57; `trunc` for BF16 and FP16. -/
def dotGroup (a b : List FNum) (trunc : Bool) : FNum × Acf :=
  let p := (a.zip b).map fun x => (x.1.mul x.2).1
  if p.any FNum.isNan || (p.any (· == .inf false) && p.any (· == .inf true)) then
    (.nan, flagIf (!(a.any FNum.isNan || b.any FNum.isNan)) fINV)
  else match p.find? FNum.isInf with
    | some v => (v, 0)
    | none =>
      if trunc then
        let nz := p.filter fun x => !x.isZero
        match nz with
        | [] => (FNum.zero, 0)
        | x :: xs =>
          let e := xs.foldl (fun m y => max m y.lg) x.lg
          (sumFin (p.map (truncTZ (e - 40))), 0)
      else (sumFin p, 0)

/-- DotGroupMX of R57. -/
def dotGroupMX (ca : List Nat) (sa : Nat) (cb : List Nat) (sb : Nat) : FNum × Acf :=
  match e8m0 sa, e8m0 sb with
  | some x, some y =>
    let g := dotGroup (ca.map (decodeF .e2m1)) (cb.map (decodeF .e2m1)) false
    (g.1.scale (x + y), g.2)
  | _, _ => (.nan, fNANS)

/-- AccAdd of R57. -/
def accAdd (c : Nat) (g : FNum) : Nat × Acf :=
  let cv := decodeF .fp32 c
  if cv.isNan || g.isNan then (FFmt.canonNaN .fp32, 0)
  else if g.isZero then (c, 0)
  else
    let r := cv.add g
    match r.1 with
    | .nan => (FFmt.canonNaN .fp32, fINV)
    | v => if v.isZero then (0, 0) else roundF v .fp32 .rne false

/-- AccAddInt of R57, on the pattern of an INT32. -/
def accAddInt (c : Nat) (g : Int) : Nat × Acf := satPat (intOf .int32 c + g) .int32

/-! ### Requantisation (R60) -/

/-- QMul of R60. -/
def qMul (a m : Int) : Int × Acf := satInt ((a * m + 2 ^ 30) / 2 ^ 31) .int32

/-- The shift of QShr, before it narrows (R60). -/
def qRound (x : Int) (s : Nat) : Int := if s == 0 then x else (x + ((2 ^ (s - 1) : Nat) : Int)) / ((2 ^ s : Nat) : Int)

/-- QShr of R60. -/
def qShr (x : Int) (s : Nat) (f : Fmt) : Int × Acf := satInt (qRound x s) f

/-! ### Elements of any format as exact values -/

/-- The exact value of an element of an integer or floating-point format. -/
def elemNum (f : Fmt) (x : Nat) : FNum := if f.isInt then .ofInt (intOf f x) else decodeF (ffOf f) x

/-- An exact value, converted to an integer or floating-point format (R47, R49). A conversion from an integer saturates or
rounds by the same rules; −0 becomes the integer 0. -/
def convert (x : FNum) (f : Fmt) (rm : RMode) (sat : Bool) : Nat × Acf :=
  if f.isInt then floatToInt x f rm else roundF x (ffOf f) rm sat

end Sys2Proof.Machine
end

