-- ==== Sys2Proof/Machine/State.lean ====
section
/-! DEFINITION. The state of the ZQ-960 as plain data: every core, the memories, the launches, the episode cluster, the
links, the host port and the package (R23 and the rules cited at each field), the reasons a step can stop, and the state
after reset. -/

namespace Sys2Proof.Machine

/-- The reasons the machine stops for good (DESIGN CHOICE: notes/assumptions/72.md). -/
inductive Fault where
  /-- Raised by `step` once the package has frozen and the schedule is empty: no event takes effect after the freeze tick
  until a device reset (R493). Safe. -/
  | frozen
  deriving DecidableEq, Repr

/-- The reasons the model has no meaning for what it is asked. -/
inductive Refusal where
  /-- Raised by an arm of `exec` whose instruction has no meaning yet: safe. -/
  | notModelled (mnemonic : String)
  deriving DecidableEq, Repr

/-! ### Registers and their elements -/

/-- A vector register or one 256-byte unit: its bits, and one poison mark for each byte (R45, R275). -/
structure VReg where
  bits : BitVec 2048
  psn : BitVec 256
  deriving DecidableEq, Repr

/-- A 32-bit cell of a tile register or an accumulator tile, with its poison mark (R53, R307, R326). -/
structure Elem where
  v : BitVec 32
  psn : Bool
  deriving DecidableEq, Repr

/-- A byte with its poison mark. -/
structure PByte where
  b : Byte
  psn : Bool
  deriving DecidableEq, Repr

/-! ### Rings and streams -/

/-- A ring (R69 to R72). -/
structure Ring where
  /-- Base divided by 256. -/
  base : Nat
  /-- Z divided by 256. -/
  z : Nat
  /-- N; 0 while unconfigured. -/
  n : Nat
  head : Nat
  /-- TAIL, in 256-byte units. -/
  tail : Nat
  /-- The consume cursor. -/
  cur : Nat
  /-- One full/empty bit for each slot. -/
  fe : BitVec 256
  /-- The bind-off bit (R77). -/
  boff : Bool
  /-- Units that vector pushes have landed in slots that are not yet full (R72). -/
  landed : List Nat
  /-- Slots that an MMA has taken and frees later (R319). -/
  kept : List Nat
  /-- Units that vector pushes have claimed in slots that are not yet full (R302). -/
  claims : List Nat
  /-- A bind-off push has claimed its slot and not landed (R303). -/
  boffPend : Bool
  /-- The bind-off slot, while the bind-off bit is set (R77). -/
  boffAt : Nat
  /-- Counts configurations: a push claimed under another one changes no full/empty bit (R302). -/
  gen : Nat
  deriving DecidableEq, Repr

/-- The states of a stream register (R93). -/
inductive SState where
  | closed | opened | stalled | done
  deriving DecidableEq, Repr

/-- A request that waits for banks of a scratchpad (R62): the requester, the banks it asks for and those it waits for, the tick on
which its wait began and the last tick on which it asked. -/
structure BankReq where
  who : Nat
  banks : List Nat
  short : List Nat
  since : Nat
  last : Nat
  deriving DecidableEq, Repr

/-- A translation cached by a TLB (R420): the page's first virtual page number, its level and its entry. -/
structure TlbEnt where
  asid : BitVec 12
  /-- The virtual address shifted right by 15 + 11 × level. -/
  vpn : Nat
  lvl : Nat
  pte : BitVec 128
  /-- The physical address of the entry. -/
  pteAddr : Nat
  deriving DecidableEq, Repr

/-- An entry of a core's walk cache (R420): an ASID table entry (level 3) or a table-pointer entry, and the table it leads to. -/
structure WalkEnt where
  asid : BitVec 12
  lvl : Nat
  /-- The virtual address shifted right by 15 + 11 × level. -/
  vpn : Nat
  base : Nat
  deriving DecidableEq, Repr

/-- Where an agent stands with a fault (R425 to R427). -/
inductive AgentFault where
  /-- None. -/
  | clear
  /-- A record waits for room in the fault queue. -/
  | unsent
  /-- A record of code 0x01 is written and unanswered. -/
  | sent (seq : Nat)
  /-- Firmware answered the record of that number with RETRY: the agent walks again (R426). -/
  | again (seq : Nat)
  deriving DecidableEq, Repr

/-- A read that the SU or the CE has sent to another device (R478): its number, its address, its length and, once the answer has
returned, its data and the flags of its page's conversion. -/
structure FarRead where
  tag : Nat
  ea : Word
  n : Nat
  data : Option (List PByte × BitVec 5)
  deriving DecidableEq, Repr

/-- A slot that a stream has fetched ahead and not committed (R85). -/
structure Ahead where
  bytes : List PByte
  idx : Vector (BitVec 32) 5
  last : Bool
  elems : Nat
  oob : Bool
  acf : BitVec 5
  deriving DecidableEq, Repr

/-- A stream register (R23, R79, R93, R101) and what the SU keeps beside it. -/
structure Stream where
  desc : BitVec 1024
  idx : Vector (BitVec 32) 5
  marker : Vector (BitVec 32) 5
  st : SState
  eosp : Bool
  boe : Bool
  markv : Bool
  oob : Bool
  waitcfg : Bool
  refw : Bool
  fltcnt : BitVec 8
  acf : BitVec 5
  dcount : Word
  /-- The TKW token has been popped, or none is asked for (R88). -/
  started : Bool
  /-- Slots committed since the last TKN token (R88). -/
  tkc : Nat
  /-- A bind-off slot requested and not yet committed (R98). -/
  boPend : Bool
  /-- A bind-off that SBASE found uncommitted, due before the new pass (R98). -/
  boFirst : Bool
  /-- No slot transferred since SOPEN (R321). -/
  firstXfer : Bool
  /-- Sharding descriptor read by SOPEN (R91). -/
  shard : BitVec 512
  /-- Slots fetched ahead, oldest first. -/
  ahead : List Ahead
  /-- The stream TLB (R420). -/
  tlb : List TlbEnt
  flt : AgentFault
  /-- The address the stream is waiting to translate. -/
  fltVa : Word
  /-- The DONE token waits for the bind-off (R88). -/
  doneTok : Bool
  /-- Tokens to push once their FIFO has room (R88). -/
  owed : Nat
  /-- Reads that are with another device for the slot at hand (R478). -/
  far : List FarRead
  /-- The writes of slot HEAD have departed, and it is committed once they have been performed (R86): whether an element of it was
  out of bounds. -/
  wrote : Option Bool
  /-- Runs of that slot that have been written, and whether poison has left the core with them (R361, R497). -/
  sent : Nat
  sentPsn : Bool
  /-- SCLOSE or SSAVE waits for that slot: no new slot is taken (R95). -/
  closing : Bool
  /-- The tick on which the iteration at hand began: the oldest is the head of the SU's queue (R487). -/
  openedAt : Nat
  deriving DecidableEq, Repr

/-! ### The queues of the access processor -/

/-- What an entry of the AP's queues does (R183). -/
inductive QKind where
  | ld (zx : Bool) | st | lda (sc : Nat) (zx : Bool) | stl (sc : Nat)
  | amo (sc fn : Nat) | cas (sc : Nat) (cmp : Word) | fence (sc : Nat) | qalign
  /-- A TKSIG that waits for older words to retire; it takes no entry (R201). -/
  | sig (dst : Nat)
  deriving DecidableEq, Repr

/-- An entry of the AP's load queue, store queue or both (R183). -/
structure QEnt where
  /-- Its number: older entries have lower ones. -/
  id : Nat
  kind : QKind
  ea : Word
  n : Nat
  data : Word
  dst : Reg
  /-- All of its bytes have departed. -/
  departed : Bool
  /-- Bytes that have departed, from the lowest on: a misaligned access departs byte by byte, and one over two pages in two parts
  (R178). -/
  sent : Nat
  /-- Bytes of its value that have returned, and the value that they make. -/
  back : Nat
  got : Nat
  deriving DecidableEq, Repr

/-- An access that has left its core for a home off its die (R359, R361): one of the AP's, of the SU's or of the CE's. -/
structure Transit where
  /-- The queue entry of an access of the AP. -/
  id : Nat
  /-- Its own number, which its flits carry (R473). -/
  tag : Nat
  core : Nat
  lid : BitVec 16
  asid : BitVec 12
  eng : Eng
  /-- The stream register of an access of the SU. -/
  strm : Nat
  kind : QKind
  ea : Word
  n : Nat
  /-- The place of its bytes within a misaligned access of the AP. -/
  off : Nat
  data : Word
  dst : Reg
  /-- What a write stores; what a read of the SU or the CE has returned, and the flags of its page's conversion. -/
  bytes : List PByte
  acf : BitVec 5
  /-- FMT of the elements that it moves (R473). -/
  fmt : BitVec 4
  /-- Its translation: for each part the leaf, its level, the address and the bytes. -/
  parts : List (BitVec 128 × Nat × Nat × Nat)
  key : Nat
  /-- Home on another device. -/
  remote : Bool
  /-- Of its request flits, those that no response has answered, by number (R473). -/
  left : List Nat
  /-- What responses have returned, each with the number of its request, and the partial-block writes that they report (R116). -/
  got : List (Nat × List PByte)
  rmw : Nat
  /-- The home has performed it; the value or the acknowledgement is on its way. -/
  performed : Bool
  /-- The tick on which it left, and then the one on which its home performed it. -/
  since : Nat
  /-- The value that its register receives. -/
  val : Word
  deriving DecidableEq, Repr

/-- A transfer that the CE has accepted (R236). -/
structure Xfer where
  src : Word
  dst : Word
  len : Nat
  tkw : Nat
  tks : Nat
  /-- Scratchpad offset of the descriptor. -/
  off : Nat
  wsl : Bool
  /-- The TKW token has been popped and the transfer runs. -/
  started : Bool
  /-- Source bytes read. -/
  pos : Nat
  /-- Destination bytes written. -/
  wpos : Nat
  /-- Bytes read and not yet written. -/
  buf : List Byte
  acf : BitVec 5
  /-- Its copy fault, 0 for none (R238). -/
  cflt : BitVec 3
  /-- STATUS is written and the TKS token is still to push. -/
  ended : Bool
  /-- COPYW's destination register. -/
  ret : Option Reg
  /-- Reads that are with another device for the unit at hand (R478). -/
  far : List FarRead
  deriving DecidableEq, Repr

/-! ### The vector and matrix clusters -/

/-- A write of a vector repeat that has not landed (R143). -/
inductive VWrite where
  /-- Bytes of a physical vector register. -/
  | vreg (n : Nat) (val : VReg) (mask : BitVec 256)
  /-- Bits of a physical predicate. -/
  | pred (n : Nat) (val mask : BitVec 256)
  /-- Cells of the tile registers. -/
  | cells (cs : List (Nat × Elem))
  /-- A unit pushed into a ring (R302): its position u, plus 65,536 times the 256-byte granule of the scratchpad it claimed. -/
  | unit (q u gen : Nat) (val : VReg)
  /-- A bind-off slot, with the scratchpad bytes it claimed (R302, R303). -/
  | boff (q slot gen off n : Nat) (count : Word)
  /-- Scattered scratchpad bytes (R299). -/
  | scat (bs : List (Nat × PByte))
  deriving DecidableEq, Repr

/-- A repeat of a vector word in flight. -/
structure VFlight where
  c2 : Bool
  /-- The word it belongs to. -/
  word : Nat
  issued : Nat
  due : Nat
  writes : List VWrite
  acf : BitVec 5
  oob : Bool
  tok : BitVec 3
  /-- Its position in a lockstep region, and the landing bound L (R156). -/
  pos : Option Nat
  deriving DecidableEq, Repr

/-- A slot's bytes as a matrix word took them. -/
structure SlotData where
  bytes : List PByte
  boff : Bool
  deriving DecidableEq, Repr

/-- A C3 word that has issued and not retired (R315 to R319). -/
structure C3Flight where
  op : Nat
  w : MWord
  /-- The word's bits, for a trap. -/
  word : BitVec 192
  pc : Word
  /-- Format entries of APORT, BPORT and CPORT at issue (R320). -/
  fa : BitVec 4
  fb : BitVec 4
  fc : BitVec 4
  handler : Bool
  started : Bool
  start : Nat
  /-- First tick on which every other start condition held (R339). -/
  u : Option Nat
  /-- Slots taken, in order, by port: A, B, C. -/
  slots : List SlotData
  bof : Bool
  smiss : Bool
  /-- Ring slots taken that are freed when the array's occupancy ends (R319). -/
  keep : List (Nat × Nat)
  /-- The earliest tick of its retirement. -/
  due : Nat
  /-- Slots that a drain or MSTAT has still to write. -/
  out : Option (List (List PByte))
  acf : BitVec 5
  deriving DecidableEq, Repr

/-- An engine that fetches words: AP, C0, C1, C2 or C3. -/
structure EngSt where
  pc : Word
  /-- LC and EC (R221); unused on the AP. -/
  lc : BitVec 32
  ec : BitVec 8
  /-- The next repeat of the word at the head, and that word's number. -/
  rep : Nat
  word : Nat
  /-- The engine waits at an S-word for a rendezvous (R152). -/
  atS : Bool
  inRegion : Bool
  pos : Nat
  /-- The position at the beginning of this tick. -/
  pos0 : Nat
  /-- C0 has executed its SYNCG or the engine its TRET and waits (R153, R207). -/
  holds : Bool
  /-- The tick before which the engine issues nothing more of this word (R161, R300). -/
  notBefore : Nat
  /-- Ready to issue at the least position of its region on this tick, and let go with the others (R154). -/
  ready : Bool
  granted : Bool
  /-- Ready on this tick but for the ticks that its banks take (R161). -/
  slow : Bool
  /-- After a stop: the next word has still to show whether it is an S-word (R157, R439). -/
  rejoin : Bool
  /-- The word whose repeats are issuing. -/
  cur : Option (BitVec 192)
  deriving DecidableEq, Repr

/-! ### Records, barriers and core state -/

/-- A task record (R384). -/
structure Rec where
  sel : BitVec 8
  depth : BitVec 5
  fp : Word
  jaddr : Word
  wid : Word
  cond : Word
  a0 : Word
  a1 : Word
  a2 : Word
  deriving DecidableEq, Repr

/-- A record in a queue (R389): its launch, its entry tick and, where WAITF parked it, the line it watches and whether a
write has been performed there (R249). -/
structure QRec where
  img : Rec
  lid : BitVec 16
  entry : Nat
  watch : Option Nat
  woken : Bool
  /-- WATCH_WAKE has made it eligible. -/
  awake : Bool
  /-- Examined on entering the SRAM queue, and held there by a wait overflow (R391). -/
  examined : Bool
  held : Bool
  /-- Its place in the order in which records entered queues (R389). -/
  seq : Nat
  /-- Who pushed it, for the order of pushes of one tick (R389): 0 its own core's AP, c + 1 another core c, 1,000 admission. -/
  org : Nat
  deriving DecidableEq, Repr

/-- How a record ended (R245). -/
inductive EndKind where
  | exit
  /-- EXIT has released the last reference of its join object, whose continuation is still to be read (R246). -/
  | cont
  | join (addr : Word) (img : Rec)
  /-- JOIN has written its continuation and has still to release its reference (R247). -/
  | joined (addr : Word) (img : Rec)
  | park (img : Rec)
  /-- WAITF parks its record: the line watched, and whether a write has been performed there since (R249). -/
  | waitf (line : Nat) (woken : Bool)
  deriving DecidableEq, Repr

/-- Where the engines' code lies: address and length, AP then C0 to C3 (R382). -/
structure Code where
  base : Word
  len : Nat
  deriving DecidableEq, Repr

/-- The running record (R386). -/
structure Running where
  img : Rec
  lid : BitVec 16
  code : Vector Code 5
  eprio : BitVec 2
  ended : Option EndKind
  /-- A word of C0 to C3 has issued (R249). -/
  epIssued : Bool
  /-- The record waits in TAKE: it does not count in LIVE (R253). -/
  inTake : Bool
  /-- The record has retired: its streams are CLOSED, and its join action follows (R245). -/
  retired : Bool
  deriving DecidableEq, Repr

/-- A trap that has been raised and not yet entered (R435). -/
structure Trap where
  cause : BitVec 8
  eng : Eng
  code : BitVec 12
  pc : Word
  word : BitVec 192
  /-- The raising engine resumes at the next word (a breakpoint) or its own. -/
  epc : Word
  /-- The tick on which it was raised. -/
  tick : Nat
  deriving DecidableEq, Repr

/-- A barrier waiter registered at a home (R259, R345). -/
structure Waiter where
  core : Nat
  c3 : Bool
  obj : Nat
  phase : BitVec 32
  /-- Among the 64 that a flip notifies; otherwise it repeats its read every 64 ticks (R261). -/
  registered : Bool
  since : Nat
  deriving DecidableEq, Repr

/-- What a queue head of a core does on this tick, for the classifier (R487). -/
inductive HeadClass where
  | issue | flag | busy | empty
  deriving DecidableEq, Repr

/-- The waits of the AP, and of C3 at an MWAIT, that outlive one attempt. -/
inductive ApWait where
  | none
  /-- WAITF has polled this many times (R249). -/
  | polling (n : Nat)
  /-- COPYW waits for its transfer (R239). -/
  | copyw
  /-- BARWAIT is registered (R259). -/
  | barrier
  /-- TAKE waits on its list (R252). -/
  | take
  /-- TAKE has completed at TERM (R253): it returns 2^64 − 1. -/
  | termed
  /-- A remote barrier request is on its way (R261). -/
  | remote
  /-- The home has answered a barrier word: its value, or a refusal that is a barrier-phase trap or a stream-state fault. -/
  | got (v : Word)
  | refused (phase : Bool)
  deriving DecidableEq, Repr

/-- What the fault machinery holds while a trap handler runs (R438, R441). -/
structure Handler where
  /-- Six FIFOs of R438, by 8 × from + to. -/
  fifo : Tab Nat
  reserved : Tab Nat
  hpc : Word
  /-- C3 fetches handler code at this address. -/
  c3pc : Option Word
  hmstat : BitVec 8
  entered : Nat
  /-- A write of HPC_C3 has asked C3 to fetch there (R441). -/
  start : Bool
  /-- Both the AP and C0 have executed TRET: user mode begins with the next tick (R207). -/
  leave : Bool
  deriving DecidableEq, Repr

/-- The state of one core that a context save takes (R23, R443). -/
structure Ctxt where
  apRegs : Vector Word 32
  kap : Vector Bool 8
  kc0 : Vector Bool 8
  eRegs : Vector Word 16
  engs : Vector EngSt 5
  handlerMode : Bool
  asid : BitVec 12
  streams : Vector Stream 16
  rings : Vector Ring 32
  rgnend : Nat
  baren : Bool
  fifo : Tab Nat
  fifoRes : Tab Nat
  /-- Branch-outcome queues, oldest entry first, each with the tick of its push (R197). -/
  boq : Tab (List (Bool × Nat))
  mask : BitVec 4
  ease : Vector (BitVec 8) 5
  /-- A mask and ease values that a SYNCG or EASE has issued and that wait for a rendezvous (R153). -/
  maskNext : Option (BitVec 4)
  easeNext : Vector (Option (BitVec 8)) 5
  /-- A stop has ended, and the members whose next words are S-words are to meet at once (R157, R439). -/
  meet : Bool
  v1 : Vector VReg 64
  v2 : Vector VReg 64
  p1 : Vector (BitVec 256) 16
  p2 : Vector (BitVec 256) 16
  rb1 : BitVec 5
  rb2 : BitVec 5
  tiles : Tab Elem
  acc : Tab Elem
  accLimit : Nat
  hmm : Bool
  loops : Vector (Word × BitVec 32 × BitVec 11 × Bool) 2
  tcause : BitVec 24
  tpc : Word
  tword : BitVec 192
  epc : Vector Word 5
  tvecAp : Word
  tvecC0 : Word
  vstat1 : BitVec 7
  vstat2 : BitVec 7
  mstatCtl : Bool
  mstat : BitVec 64
  mpfmt : Vector (BitVec 4) 32
  mbph : Tab (BitVec 41)
  convRmw : Word
  convAcf : BitVec 5
  cls : Tab Nat
  clsHold : Bool
  /-- The tick of a write of CLR whose effect is due (R489). -/
  clsClr : Option Nat
  eccCorr : Nat
  eccUncorr : Nat
  han : Handler
  run : Option Running
  residentLid : BitVec 16
  role : BitVec 2
  /-- Numbers the words issued by the vector clusters. -/
  nextWord : Nat
  deriving DecidableEq, Repr

/-- A context saved in a shadow slot (R396), with its part of the scratchpad. -/
structure Saved where
  ctx : Ctxt
  lid : BitVec 16
  prio : Nat
  sp : List Host.Cell
  spPsn : List Nat
  /-- WDOG_CNT, which stands still while the context is saved (R442). -/
  wdog : Nat
  deriving DecidableEq, Repr

/-- How far a stop has come (R396, R443, R448). -/
inductive StopKind where
  | none
  /-- A pre-emption asks for a stop since a tick. -/
  | preempt (since : Nat)
  /-- A pre-emption that waited for a handler's TRET to the limit of R398. -/
  | forced
  /-- A partition halt asks for a stop. -/
  | halt
  /-- The core has drained and its streams have settled for a partition halt (R443). -/
  | stopped
  deriving DecidableEq, Repr

/-- What a core keeps of the tick in progress, for rules that order what happens on one tick; it is empty as a tick begins. -/
structure TickNote where
  /-- Streams on which a word of the AP has acted: the SU commits nothing more of them on this tick (R230). -/
  spoke : List Nat
  /-- VSTAT and MSTAT_C3 bits set on this tick, which a write of this tick leaves set (R274, R324). -/
  vset1 : BitVec 7
  vset2 : BitVec 7
  mset : BitVec 64
  /-- The place, in the order of R261, of the last access to this core's barrier objects: 1 its AP, 2 its C3, 3 + c core c. -/
  homeTurn : Nat
  /-- Banks of the scratchpad that have served a request on this tick, each with the requester (R61). -/
  banks : List (Nat × Nat)
  deriving DecidableEq, Repr

/-- One core (R23). -/
structure Core where
  x : Ctxt
  /-- In-flight vector repeats, oldest first (R143). -/
  vfl : List VFlight
  /-- C3 words in flight, oldest first. -/
  c3 : List C3Flight
  /-- The tick on which repeats of C2 last landed writes of tile cells or scratchpad bytes, and those writes (R150, R301). -/
  c2Land : Nat × List VWrite
  /-- The tick on which the occupancy of the array by its last word ends (R316). -/
  arrayFree : Nat
  /-- The AP's load and store queues, in program order (R183). -/
  apq : List QEnt
  /-- The schedule's choice: accesses stay queued until a departure move takes them (R362). -/
  defer : Bool
  apWait : ApWait
  /-- The line that a WAITF watches before it parks its record, and whether a write has been performed there since (R249). -/
  apWatch : Option (Nat × Bool)
  /-- Reads and atomics that words of the AP have with other devices outside its queues (R478). -/
  apFar : List FarRead
  /-- Fetches of its engines that are with another device (R419, R478). -/
  fetchFar : List FarRead
  apTlb : List TlbEnt
  /-- The walk cache (R420). -/
  walkCache : List WalkEnt
  apFlt : AgentFault
  apFltVa : Word
  /-- The fetch of an engine waits for the fault of the AP agent (R419). -/
  fetchWait : Bool
  ce : List Xfer
  ceTlb : List TlbEnt
  ceFlt : AgentFault
  ceFltVa : Word
  ackOut : Nat
  /-- Waiters registered at this core's barrier objects (R261). -/
  waiters : List Waiter
  /-- Where an MWAIT of C3 stands (R345). -/
  c3Wait : ApWait
  /-- The SRAM queue, the backing ring, the wait table and the overflow ring (R389, R391). -/
  sram : List QRec
  back : List QRec
  waits : List QRec
  ovf : List QRec
  ovfSize : Nat
  ovfBase : Nat
  wovf : Nat
  /-- An overflow event has been reported and the ring has had no room since (R484). -/
  wovfSent : Bool
  /-- The cores whose SPAWN holds a place of this core's queue (R244). -/
  places : List Nat
  /-- Continuations of records that ended here, each with its launch and core, waiting for queue space there (R246). -/
  conts : List (Rec × BitVec 16 × Nat)
  bound : Option (BitVec 16)
  claim : Bool
  saved : List Saved
  shadowSlots : Nat
  stop : StopKind
  /-- HALT has stopped the core (R208). -/
  halted : Bool
  /-- Launch entry must run before the next record (R387, R433). -/
  needEntry : Bool
  trap : Option Trap
  wdogLimit : BitVec 32
  wdogCnt : Nat
  /-- Engines that have tried to issue on this tick, and what their heads did. -/
  tried : List Eng
  heads : List (Eng × HeadClass × List Nat)
  /-- Rings that have been read or pushed on this tick, each with the rank of the engine (R76). -/
  served : List (Nat × Nat)
  /-- Requests that wait for banks of the core's scratchpad (R62). -/
  bankQ : List BankReq
  /-- What the core keeps of the tick in progress. -/
  tk : TickNote
  deriving DecidableEq, Repr

/-! ### Launches and the device -/

/-- Where a launch stands (R380, R406). -/
inductive LState where
  | rooting (next : Nat)
  | running
  | gangWaiting
  | gangHead
  | ended
  deriving DecidableEq, Repr

/-- A role of a gang (R399). -/
structure Role where
  sel : Nat
  ncores : Nat
  first : Nat
  rgnend : Nat
  baren : Bool
  deriving DecidableEq, Repr

/-- A pipe of a gang (R400). -/
structure Pipe where
  sring : Nat
  dring : Nat
  srole : Nat
  drole : Nat
  strm : Nat
  fmt : Nat
  zu : Nat
  sbase : Nat
  sns : Nat
  dbase : Nat
  dns : Nat
  deriving DecidableEq, Repr

/-- A launch that has been given a number (R377, R380). -/
structure Launch where
  lid : BitVec 16
  tag : Word
  args : Word
  asid : BitVec 12
  prio : Nat
  wsl : Bool
  ptrap : Bool
  count : Nat
  skew : Nat
  lbase : Nat
  lcnt : Nat
  lcap : Nat
  widths : List Nat
  nsel : Nat
  /-- The code table as read at admission: entry e, engine g at 5 × e + g. -/
  code : List Code
  /-- The placement table as read at admission. -/
  place : List Nat
  gang : Option (List Role × List Pipe)
  /-- Its place in the order in which ADMISSION accepted launches (R403). -/
  order : Nat
  /-- How far it has come. -/
  st : LState
  /-- Termination detector of die 0 (R253): items, live records and TERM. -/
  items : Nat
  live : Nat
  term : Bool
  /-- The copy of die 1, and the updates on their way to it (R410). -/
  items1 : Nat
  live1 : Nat
  term1 : Bool
  lease : Bool
  killed : BitVec 8
  discarded : Nat
  replan : Bool
  /-- Ticks on which groups of the placement index finished (R411). -/
  finished : Tab Nat
  deriving DecidableEq, Repr

/-- An update of the termination detector on its way to die 1 (R410). -/
structure DetUpd where
  lid : BitVec 16
  items : Nat
  live : Nat
  term : Bool
  /-- The tick on which die 0 held it. -/
  tick : Nat
  deriving DecidableEq, Repr

/-- A fault record (R425). -/
structure FaultRec where
  fcode : Nat
  core : Nat
  agent : Eng
  /-- An admission read: AGENT 0 (R425). -/
  adm : Bool
  stream : Nat
  lvl : Nat
  write : Bool
  fetch : Bool
  asid : BitVec 12
  lid : BitVec 16
  va : Word
  pa : Nat
  tick : Nat
  key : Nat
  lock : Nat
  seq : Nat
  deriving DecidableEq, Repr

/-- A capture of tag history (R494). -/
structure TagHist where
  gran : Nat
  key : Nat
  lock : Nat
  valid : Bool
  missed : Nat
  /-- Up to four journal entries, newest first: lock and tick. -/
  ents : List (Nat × Nat)
  deriving DecidableEq, Repr

/-- What is kept once for each die. -/
structure Die where
  /-- The fault queue (R425), oldest first. -/
  fq : List FaultRec
  /-- The journal of lock writes: granule, lock, tick; newest first (R494). -/
  journal : List (Nat × Nat × Nat)
  taghist : TagHist
  /-- Items of each compaction list, oldest first (R250). -/
  lists : Tab (List Word)
  /-- Cores whose TAKE waits on each list, in the order they began (R252). -/
  takers : Tab (List Nat)
  /-- Exception reports of contexts to the service cores of the die: context, code, pc and tval (R452). -/
  reports : List (Nat × Nat × Word × Word)
  /-- Records discarded by gating, for each block (R492). -/
  gateLost : Tab Nat
  /-- The 64 bytes of the record that service firmware took last (R425). -/
  lastFault : List Byte
  deriving DecidableEq, Repr

/-- A trace record (R490). -/
structure TraceRec where
  tick : Nat
  kind : Nat
  core : Nat
  lid : BitVec 16
  a : Nat
  b0 : Word
  b1 : Word
  deriving DecidableEq, Repr

/-- What is kept once for each block: its trace cluster and its power (R490 to R492). -/
structure Block where
  buf : List TraceRec
  lost : Nat
  /-- The tick of the last record dropped. -/
  lostTick : Nat
  cnt : Nat
  gated : Bool
  /-- Gating has begun on this tick and waits for the buffer to drain. -/
  gating : Option Nat
  deriving DecidableEq, Repr

/-- What is kept once for each HBM stack: the hotness sketch and the hot list (R431). -/
structure Stack where
  sketch : Tab Nat
  cand : List (Nat × Nat)
  hot : List (Nat × Nat)
  /-- The interval whose end has been taken. -/
  done : Nat
  /-- Lines that accesses have reached on this tick, to be counted at its end. -/
  lines : List Nat
  deriving DecidableEq, Repr

/-- A barrier request on its way to another home, or a reply on its way back (R261, R343). -/
inductive BarMsg where
  /-- A C3 arrival: from core, its launch, the word's address, phase and status, and the tick on which it departed. -/
  | arrive (core : Nat) (lid : BitVec 16) (home obj : Nat) (pc : Word) (word : BitVec 192) (phase st : BitVec 32) (tick : Nat)
  /-- A BARINIT, BARARR, BARWAIT or BARSTAT of an AP, numbered as their FN fields, or an MWAIT (4), with operand B, its launch, and
  whether that has been killed since: the request is still performed, and no one hears the answer (R374). -/
  | request (fn : Nat) (core home obj : Nat) (b : Word) (lid : BitVec 16) (dead : Bool)
  /-- A refusal reply to a C3 arrival. -/
  | refusal (core : Nat) (lid : BitVec 16) (pc : Word) (word : BitVec 192)
  deriving DecidableEq, Repr

/-- The states of a partition (R448). -/
inductive PState where
  | free | running | halted | saved
  deriving DecidableEq, Repr

/-- A partition (R448), and the cores that a SAVE has put by. -/
structure Partition where
  st : PState
  cores : List Nat
  asids : List (BitVec 12)
  save : List (Nat × Core × List Host.Cell × List Nat)
  deriving DecidableEq, Repr

/-! ### The episode cluster -/

/-- The states of an episode context (R465). -/
inductive CState where
  | unbound | bound | live | suspended | ended
  deriving DecidableEq, Repr

/-- What a context waits for (R453, R460, R461). -/
inductive CWait where
  | none
  /-- At ACT_TAKE, with the register and the length of the load. -/
  | actTake (rd len : Nat)
  /-- At a doorbell, with the value and the length of the store. -/
  | bell (rew : Bool) (v : Word) (len : Nat)
  /-- For an access to so many bytes of device memory, or a fetch there, to return: it goes on when the access can be made. Whether it is that
  of an LR which has made its reservation. -/
  | memory (a n : Nat) (lr : Bool)
  deriving DecidableEq, Repr

/-- A sandbox window (R455). -/
structure Window where
  base : Nat
  limit : Nat
  r : Bool
  w : Bool
  x : Bool
  own : Bool
  valid : Bool
  eid : BitVec 16
  deriving DecidableEq, Repr

/-- One action message in a mailbox and whether it has been delivered and taken (R459). -/
structure Msg where
  bytes : List PByte
  delivered : Bool
  deriving DecidableEq, Repr

/-- One episode context (R450 to R468). -/
structure Ctx where
  st : CState
  scrb : Bool
  /-- Unbinds when its scrub is done (R465). -/
  unbind : Bool
  checker : Bool
  follow : Bool
  term : BitVec 3
  g0 : BitVec 16
  lag : BitVec 16
  eid : BitVec 16
  lid : BitVec 16
  x : Vector Word 32
  f : Vector Word 32
  fflags : BitVec 5
  frm : BitVec 3
  pc : Word
  /-- The reservation of LR: address and width (R451). -/
  resv : Option (Nat × Nat)
  cycle : Word
  instret : Word
  wait : CWait
  excCode : BitVec 8
  excTval : Word
  /-- A message taken is current at ACT. -/
  hasCur : Bool
  act : List PByte
  obsBuf : List Byte
  rewBuf : List Byte
  actBox : List Msg
  obsBox : List (List PByte)
  rewBox : List (List PByte)
  delivered : Bool
  lstep : BitVec 32
  out : Nat
  drop : BitVec 8
  /-- The last tick on which events of R462 reached the context, and the place of the last of them in that rule's order. -/
  phase : Nat × Nat
  /-- The context has been resident on its core on this tick (R463). -/
  resident : Bool
  stepTimer : Nat
  budget : Nat
  stepWd : Nat
  budgetMax : Nat
  windows : List Window
  deriving DecidableEq, Repr

/-- One episode core: its local SRAM and the context resident on it (R450, R453). -/
structure EpCore where
  sram : List Host.Cell
  cur : Nat
  /-- Cycles the resident context has run since it took the core. -/
  ran : Nat
  deriving DecidableEq, Repr

/-- A service core (R10, R450): an RV64 hart in M-mode. Its registers, its reservation, its count of retired instructions, and the
machine-mode registers of the RISC-V specifications (PRESUMED: notes/assumptions/89.md). -/
structure SvcCore where
  x : Vector Word 32
  f : Vector Word 32
  fflags : BitVec 5
  frm : BitVec 3
  pc : Word
  /-- The reservation of LR: address and width. -/
  resv : Option (Nat × Nat)
  instret : Word
  /-- MIE and MPIE of mstatus. -/
  ie : Bool
  pie : Bool
  mie : Word
  mtvec : Word
  mscratch : Word
  mepc : Word
  mcause : Word
  mtval : Word
  deriving DecidableEq, Repr

/-! ### Links, host port and package -/

/-- A port of a link (R472 to R477): whether it is trained, its exponent tables by format and direction, and the flits
that wait or that the far end has not accepted. -/
structure LinkPort where
  up : Bool
  /-- T of R476 for sending, then receiving, by format: FP32, FP16, BF16, E4M3, E5M2. -/
  tx : Vector (List Nat) 5
  rx : Vector (List Nat) 5
  /-- Flits sent and not yet accepted, oldest first, each with the table state before it. -/
  sent : List (Flit × Vector (List Nat) 5)
  /-- Requests the port asked to send again (R474). -/
  resend : Bool
  deriving DecidableEq, Repr

/-- The host port (R479 to R486, R500). -/
structure HostPort where
  lqTail : BitVec 32
  lqHead : BitVec 32
  cqTail : BitVec 32
  cqHead : BitVec 32
  sqTail : BitVec 32
  sqHead : BitVec 32
  srTail : BitVec 32
  srHead : BitVec 32
  ready : Bool
  qerr : Bool
  /-- The service command at the head has had its effect, which is not yet complete: its response is due (R485). -/
  begun : Bool
  bootLen : BitVec 32
  bootState : BitVec 2
  /-- The host window above the host buffer: queue, rings and command slots, by host offset (R480). -/
  win : List Host.Cell
  /-- Completion entries waiting for room (R483). -/
  cq : List (Word × Word × Word × Word)
  /-- Mode registers applied, by channel × 8 + register (R479). -/
  modes : Tab (BitVec 8)
  openRow : Tab Bool
  trained : Tab Bool
  /-- The last data a host read or a mode-register read returned. -/
  readData : List Byte
  deriving DecidableEq, Repr

/-- An instruction of the test access port (R493). -/
inductive TapInstr where
  | bypass | idcode | samplePreload | extest
  deriving DecidableEq, Repr

/-- An admission in progress: the entry, and the read that waits (R380). -/
structure Admit where
  tag : Word
  hdr : Nat
  /-- The header's dwords as they were read. -/
  head : List Nat
  lid : BitVec 16
  flt : AgentFault
  va : Word
  /-- Cause of a KILL answer. -/
  answer : Option (BitVec 8)
  deriving DecidableEq, Repr

/-- One choice of the schedule: what happens next (DESIGN CHOICE: notes/assumptions/2.md). -/
inductive Move where
  /-- The engine of a core tries to issue the word at its head. -/
  | issue (l : CoreNum) (e : Eng)
  /-- An event of the part. -/
  | event (i : Instr)
  /-- The global tick advances. -/
  | tick
  /-- The i-th entry of a core's AP queues departs. -/
  | depart (l : CoreNum) (i : Nat)
  /-- A core keeps its accesses queued, or lets them depart at once. -/
  | setDefer (l : CoreNum) (d : Bool)
  /-- A stream fetches its next slot ahead (R85). -/
  | prefetch (l : CoreNum) (n : BitVec 4)
  /-- A copy engine moves one unit (R237). -/
  | unit (l : CoreNum)
  /-- The walk cache of a core takes the next entry of the walk of an address, or loses its entries (R420). -/
  | walkFill (l : CoreNum) (va : BitVec 48)
  | walkEvict (l : CoreNum)
  /-- A TLB takes the entry for the next page in generation order (R420): of stream `k`, or of the copy engine's source (16) or
  destination (17). -/
  | nextPage (l : CoreNum) (k : BitVec 5)
  /-- A block's trace controller writes a record to HBM (R491). -/
  | traceDrain (b : BitVec 5)
  /-- Granules with an uncorrectable error, or scratchpad granules with a single-bit error (R63, R430). -/
  | eccError (pa : Nat) (single : Bool)
  deriving DecidableEq, Repr

/-- Who executes the word that `exec` is given, set by `step`. -/
structure At where
  core : Nat
  eng : Eng
  word : BitVec 192
  deriving DecidableEq, Repr

/-- The whole device. -/
structure State where
  /-- Every physical memory of the package: HBM, vaults, host buffer, scratchpads (R111), and the memory of other devices
  as this one sees it. -/
  mem : List Host.Cell
  /-- Poisoned 32-byte granules outside scratchpads, and poisoned scratchpad bytes, by physical address (R63, R430). -/
  granPsn : List Nat
  bytePsn : List Nat
  /-- Granules with an ECC error that no read has yet met, by physical address. -/
  eccBad : List Nat
  eccSoft : List Nat
  /-- Memory locks that are not 0, by granule (R428). -/
  locks : Tab (BitVec 4)
  cores : Tab Core
  vacant : List Nat
  deadVaults : List Nat
  tick : Word
  inReset : Bool
  dies : Vector Die 2
  blocks : Tab Block
  hbm : Tab Stack
  transit : List Transit
  barMsgs : List BarMsg
  launches : List Launch
  detUpd : List DetUpd
  nextLid : BitVec 16
  /-- Numbers launches and records in the order the device takes them. -/
  nextOrder : Nat
  admitting : Option Admit
  killPend : List (BitVec 16 × BitVec 8)
  /-- Fault records that wait for room, and those taken and unanswered (R425). -/
  fltPend : List FaultRec
  fltTaken : List FaultRec
  fltSeq : Nat
  asidBase : Nat
  retAsid : BitVec 12
  retBusy : Bool
  refbase : Word
  /-- The refresh window in progress: the bank group blocked (R109). -/
  refresh : Option Nat
  devId : Word
  parts : Tab Partition
  ctxs : Tab Ctx
  eps : Tab EpCore
  /-- The service cores, which are cluster cores 0, 1, 32 and 33 (R450). -/
  svc : Vector SvcCore 4
  routes : Tab (List (BitVec 4))
  ports : Tab LinkPort
  host : HostPort
  sqSeq : Nat
  bodyHash : BitVec 256
  keysZero : Bool
  secHalt : Bool
  secAct : BitVec 8
  secLock : Bool
  secAlarm : BitVec 4
  /-- Alarms that service firmware has been told of (R499). -/
  secTold : BitVec 4
  /-- Re-plan events raised to service firmware: launch, F and unfinished groups (R411). -/
  replans : List (BitVec 16 × Nat × Nat)
  pwrCap : BitVec 12
  pwrDuty : BitVec 7
  pwrWatts : BitVec 16
  frzArm : Bool
  frzTick : Word
  frozen : Bool
  tap : TapInstr
  /-- The last datum that the fast scan port read. -/
  scanData : Word
  kindEn : BitVec 16
  sampLog : BitVec 5
  trcBase : Nat
  trcSize : BitVec 32
  /-- The model's own: numbers the free values read so far (DESIGN CHOICE: notes/assumptions/3.md). -/
  nonce : Nat
  /-- The model's own: who executes, the schedule, and whose turn it is when the schedule is empty. -/
  current : At
  tape : List Move
  turn : Nat
  /-- The model's own: the last tick on which the cores wrote classifier samples (R490). -/
  sampled : Nat
  deriving DecidableEq, Repr

/-! ### Reset -/

/-- A register or unit of zeros. -/
def VReg.zero : VReg := ⟨0, 0⟩
/-- A cell of zeros. -/
def Elem.zero : Elem := ⟨0, false⟩

/-- An unconfigured ring. -/
def Ring.reset : Ring := ⟨0, 0, 0, 0, 0, 0, 0, false, [], [], [], false, 0, 0⟩

/-- A stream register: CLOSED, every field 0. -/
def Stream.reset : Stream :=
  { desc := 0, idx := Vector.replicate 5 0, marker := Vector.replicate 5 0, st := .closed, eosp := false, boe := false,
    markv := false, oob := false, waitcfg := false, refw := false, fltcnt := 0, acf := 0, dcount := 0, started := false,
    tkc := 0, boPend := false, boFirst := false, firstXfer := true, shard := 0, ahead := [], tlb := [], flt := .clear,
    fltVa := 0, doneTok := false, owed := 0, far := [], wrote := none, sent := 0, sentPsn := false, closing := false, openedAt := 0 }

/-- An engine at address 0. -/
def EngSt.reset : EngSt := ⟨0, 0, 0, 0, 0, false, false, 0, 0, false, 0, false, false, false, false, none⟩

/-- An empty record. -/
def Rec.zero : Rec := ⟨0, 0, 0, 0, 0, 0, 0, 0, 0⟩

/-- No handler state. -/
def Handler.reset : Handler := ⟨[], [], 0, none, 0, 0, false, false⟩

/-- The saved part of a core after a device reset (R23). -/
def Ctxt.reset : Ctxt :=
  { apRegs := Vector.replicate 32 0, kap := Vector.replicate 8 false, kc0 := Vector.replicate 8 false,
    eRegs := Vector.replicate 16 0, engs := Vector.replicate 5 EngSt.reset, handlerMode := false, asid := 0,
    streams := Vector.replicate 16 Stream.reset, rings := Vector.replicate 32 Ring.reset, rgnend := 0, baren := false,
    fifo := [], fifoRes := [], boq := [], mask := 15, ease := Vector.replicate 5 0, maskNext := none,
    easeNext := Vector.replicate 5 none, meet := false, v1 := Vector.replicate 64 VReg.zero, v2 := Vector.replicate 64 VReg.zero,
    p1 := Vector.replicate 16 0, p2 := Vector.replicate 16 0, rb1 := 0, rb2 := 0, tiles := [], acc := [], accLimit := 16,
    hmm := false, loops := Vector.replicate 2 (0, 0, 0, false), tcause := 0, tpc := 0, tword := 0,
    epc := Vector.replicate 5 0, tvecAp := 0, tvecC0 := 0, vstat1 := 0, vstat2 := 0, mstatCtl := false, mstat := 0,
    mpfmt := Vector.replicate 32 0, mbph := [], convRmw := 0, convAcf := 0, cls := [], clsHold := false, clsClr := none,
    eccCorr := 0, eccUncorr := 0, han := Handler.reset, run := none, residentLid := 0, role := 0, nextWord := 0 }

/-- A tick on which nothing has happened yet. -/
def TickNote.none : TickNote := ⟨[], 0, 0, 0, 0, []⟩

/-- A core after a device reset: idle (R23). -/
def Core.reset : Core :=
  { x := Ctxt.reset, vfl := [], c2Land := (0, []), c3 := [], arrayFree := 0, apq := [], defer := false, apWait := .none, apWatch := none, apFar := [], fetchFar := [], apTlb := [], walkCache := [],
    apFlt := .clear, apFltVa := 0, fetchWait := false, ce := [], ceTlb := [], ceFlt := .clear, ceFltVa := 0, ackOut := 0,
    waiters := [], c3Wait := .none, sram := [], back := [], waits := [], ovf := [], ovfSize := 0,
    ovfBase := 0, wovf := 0, wovfSent := false, places := [], conts := [], bound := none, claim := false, saved := [],
    shadowSlots := 0, stop := .none, halted := false, needEntry := false, trap := none, wdogLimit := 0,
    wdogCnt := 0, tried := [], heads := [], served := [], bankQ := [], tk := TickNote.none }

/-- No capture. -/
def TagHist.reset : TagHist := ⟨0, 0, 0, false, 0, []⟩

/-- A die after reset. -/
def Die.reset : Die := ⟨[], [], TagHist.reset, [], [], [], [], []⟩

/-- A block after reset. -/
def Block.reset : Block := ⟨[], 0, 0, 0, false, none⟩

/-- A stack after reset. -/
def Stack.reset : Stack := ⟨[], [], [], 0, []⟩

/-- A free partition. -/
def Partition.reset : Partition := ⟨.free, [], [], []⟩

/-- An UNBOUND context (DESIGN CHOICE: notes/assumptions/5.md). -/
def Ctx.reset : Ctx :=
  { st := .unbound, scrb := false, unbind := false, checker := false, follow := false, term := 0, g0 := 0, lag := 0,
    eid := 0, lid := 0, x := Vector.replicate 32 0, f := Vector.replicate 32 0, fflags := 0, frm := 0, pc := 0,
    resv := none, cycle := 0, instret := 0, wait := .none, excCode := 0, excTval := 0, hasCur := false, act := [],
    obsBuf := [], rewBuf := [], actBox := [], obsBox := [], rewBox := [], delivered := false, lstep := 0, out := 0,
    drop := 0, phase := (0, 0), resident := false, stepTimer := 0, budget := 0, stepWd := 0, budgetMax := 0, windows := [] }

/-- An episode core with empty SRAM. -/
def EpCore.reset : EpCore := ⟨[], 0, 0⟩

/-- A service core at address 0 (DESIGN CHOICE: notes/assumptions/5.md). -/
def SvcCore.reset : SvcCore :=
  { x := Vector.replicate 32 0, f := Vector.replicate 32 0, fflags := 0, frm := 0, pc := 0, resv := none, instret := 0, ie := false,
    pie := false, mie := 0, mtvec := 0, mscratch := 0, mepc := 0, mcause := 0, mtval := 0 }

/-- An untrained port (DESIGN CHOICE: notes/assumptions/5.md). -/
def LinkPort.reset : LinkPort := ⟨false, Vector.replicate 5 [], Vector.replicate 5 [], [], false⟩

/-- The host port after reset: not ready, waiting for an image (R481, R500). -/
def HostPort.reset : HostPort :=
  { lqTail := 0, lqHead := 0, cqTail := 0, cqHead := 0, sqTail := 0, sqHead := 0, srTail := 0, srHead := 0,
    ready := false, qerr := false, begun := false, bootLen := 0, bootState := 0, win := [], cq := [], modes := [], openRow := [],
    trained := [], readData := [] }

/-- The device right after reset: reset is still held, the global tick is 0, and no core runs (R23, R27).
(DESIGN CHOICE: notes/assumptions/5.md). -/
def State.reset : State :=
  { mem := [], granPsn := [], bytePsn := [], eccBad := [], eccSoft := [], locks := [], cores := [], vacant := [],
    deadVaults := [], tick := 0, inReset := true, dies := Vector.replicate 2 Die.reset, blocks := [], hbm := [],
    transit := [], barMsgs := [], launches := [], detUpd := [], nextLid := 1, nextOrder := 0, admitting := none,
    killPend := [], fltPend := [], fltTaken := [], fltSeq := 0, asidBase := 0, retAsid := 0, retBusy := false,
    refbase := 0, refresh := none, devId := 0, parts := [], ctxs := [], eps := [],
    svc := Vector.replicate 4 SvcCore.reset, routes := [], ports := [],
    host := HostPort.reset, sqSeq := 0, bodyHash := 0, keysZero := false, secHalt := false, secAct := 0x55,
    secLock := false, secAlarm := 0, secTold := 0, replans := [], pwrCap := 0, pwrDuty := 64, pwrWatts := 0,
    frzArm := false, frzTick := 0, frozen := false, tap := .idcode, scanData := 0, kindEn := 0, sampLog := 0, trcBase := 0,
    trcSize := 0, nonce := 0, current := ⟨0, .ap, 0⟩, tape := [], turn := 0,
    sampled := 0 }

end Sys2Proof.Machine
end

