-- ==== Sys2Proof/Machine/Ops.lean ====
section
/-! DEFINITION. The named operations over the state: tables, cores, memory and poison, registers, token FIFOs, rings, results
that land, ends and kills, and taking a trap and returning from one. -/

namespace Sys2Proof.Machine

/-! ### Tables and vectors -/

/-- The entry of a key, or the default. -/
def tget {α : Type} (d : α) : Tab α → Nat → α
  | [], _ => d
  | (k, v) :: t, i => if k = i then v else tget d t i

/-- The table with one entry changed. -/
def tset {α : Type} : Tab α → Nat → α → Tab α
  | [], i, x => [(i, x)]
  | (k, v) :: t, i, x => if k = i then (k, x) :: t else if i < k then (i, x) :: (k, v) :: t else (k, v) :: tset t i x

/-- Element `i` of a register file, or the default beyond its end. -/
def vget {α : Type} {n : Nat} (d : α) (v : Vector α n) (i : Nat) : α := v[i]?.getD d

/-- A register file with element `i` changed; unchanged beyond its end. -/
def vset {α : Type} {n : Nat} (v : Vector α n) (i : Nat) (x : α) : Vector α n := v.setIfInBounds i x

/-- `n` copies of an action. -/
def iter {α : Type} (f : α → α) : Nat → α → α
  | 0, a => a
  | n + 1, a => iter f n (f a)

/-- A fold over 0 .. n − 1 in ascending order. -/
def forUp {α : Type} (n : Nat) (a : α) (f : Nat → α → α) : α := (List.range n).foldl (fun x i => f i x) a

/-! ### Cores -/

/-- Core `l` (R23). -/
def getCore (s : State) (l : Nat) : Core := tget Core.reset s.cores l

/-- The device with core `l` changed. -/
def modCore (s : State) (l : Nat) (f : Core → Core) : State := { s with cores := tset s.cores l (f (getCore s l)) }

/-- The device with every core changed, those of saved partitions too (R448). -/
def allCores (s : State) (f : Core → Core) : State :=
  { s with cores := s.cores.map fun c => (c.1, f c.2),
           parts := s.parts.map fun p => (p.1, { p.2 with save := p.2.save.map fun v => (v.1, f v.2.1, v.2.2) }) }

/-- The saved part of core `l`. -/
def cx (s : State) (l : Nat) : Ctxt := (getCore s l).x

/-- The device with the saved part of core `l` changed. -/
def modX (s : State) (l : Nat) (f : Ctxt → Ctxt) : State := modCore s l fun c => { c with x := f c.x }

/-- The fetching engines in the order AP, C0 to C3. -/
def engIdx : Eng → Nat
  | .ap => 0 | .c0 => 1 | .c1 => 2 | .c2 => 3 | .c3 => 4 | .su => 5 | .ce => 6

/-- The engine of a place in that order. -/
def engOf : Nat → Eng
  | 0 => .ap | 1 => .c0 | 2 => .c1 | 3 => .c2 | _ => .c3

/-- The state of an engine of core `l`. -/
def getEng (s : State) (l : Nat) (e : Eng) : EngSt := vget EngSt.reset (cx s l).engs (engIdx e)

/-- The device with an engine changed. -/
def modEng (s : State) (l : Nat) (e : Eng) (f : EngSt → EngSt) : State :=
  modX s l fun x => { x with engs := vset x.engs (engIdx e) (f (vget EngSt.reset x.engs (engIdx e))) }

/-- An engine code (R20) as a number. -/
def engCode (e : Eng) : Nat := e.code

/-- The die of a core (R11, R15). -/
def dieOf (l : Nat) : Nat := if l < 96 then 0 else 1

/-- The block of a core (R12, R15). -/
def blockOf (l : Nat) : Nat := 4 * (l / 16 / 2) + l % 16 / 4

/-- The tick as a number. -/
def now (s : State) : Nat := s.tick.toNat

/-- D of R502: what firmware has set under a cap, and 64 without one (DESIGN CHOICE: notes/assumptions/8.md). -/
def dutyOf (s : State) : Nat := if s.pwrCap = 0 then 64 else s.pwrDuty.toNat

/-- Whether DUTY lets engines issue on this tick: D of each 64 (R502; DESIGN CHOICE: notes/assumptions/8.md). -/
def dutyOk (s : State) : Bool := now s % 64 < dutyOf s

/-- The launch of a number, ended or not. -/
def getLaunch (s : State) (lid : BitVec 16) : Option Launch := s.launches.find? fun x => x.lid == lid

/-- The device with a launch changed. -/
def modLaunch (s : State) (lid : BitVec 16) (f : Launch → Launch) : State :=
  { s with launches := s.launches.map fun x => if x.lid == lid then f x else x }

/-- Whether core `l` is vacant (R16). -/
def isVacant (s : State) (l : Nat) : Bool := s.vacant.contains l

/-- The launch of the running record, else the resident one (R387). -/
def runLid (s : State) (l : Nat) : BitVec 16 :=
  match (cx s l).run with
  | some r => r.lid
  | none => (cx s l).residentLid

/-! ### The physical map (R111) and the homes (R32) -/

/-- The rows of the physical map. -/
inductive Row where
  | hbm (stack : Nat)
  | vault (l : Nat)
  | host
  | sp (l : Nat)
  | remote (dev : Nat) (a : Nat)
  deriving DecidableEq, Repr

/-- The row of a physical address; none outside every row. -/
def rowOf (a : Nat) : Option Row :=
  if a < 0x8000000000 then some (.hbm (a / 0x1000000000))
  else if 0x10000000000 ≤ a ∧ a < 0x10C00000000 then some (.vault ((a - 0x10000000000) / 0x10000000))
  else if 0x20000000000 ≤ a ∧ a < 0x20004000000 then some .host
  else if 0x30000000000 ≤ a ∧ a < 0x3000C000000 then some (.sp ((a - 0x30000000000) / 0x100000))
  else if 0x8000000000000 ≤ a ∧ a < 0x10000000000000 then
    some (.remote ((a - 0x8000000000000) / 0x40000000000) (a % 0x40000000000))
  else none

/-- The row of the table of R111 that an address lies in, numbered from the first; another device is a row of its own. -/
def tableRow (a : Nat) : Option Nat :=
  (rowOf a).map fun r => match r with
    | .hbm _ => 0
    | .vault _ => 1
    | .host => 2
    | .sp _ => 3
    | .remote dev _ => 4 + dev

/-- Whether `n` bytes lie in one row of R111. -/
def oneRow (a n : Nat) : Bool := (tableRow a).isSome && tableRow a == tableRow (a + n - 1)

/-- The base of a core's scratchpad in the physical map. -/
def spBase (l : Nat) : Nat := 0x30000000000 + l * 0x100000

/-- The base of a core's vault. -/
def vaultBase (l : Nat) : Nat := 0x10000000000 + l * 0x10000000

/-- The base of the host buffer. -/
def hostBase : Nat := 0x20000000000

/-- The die of a home: the host buffer counts as on die 0 (R360); none for another device. -/
def homeDie (a : Nat) : Option Nat :=
  match rowOf a with
  | some (.hbm k) => some (k / 4)
  | some (.vault l) | some (.sp l) => some (dieOf l)
  | some .host => some 0
  | some (.remote ..) | none => none

/-! ### Memory -/

/-- What an address that no cell lists reads as: 0 in the scratchpads and the host buffer (R23), no value elsewhere
(R24; DESIGN CHOICE: notes/assumptions/3.md). -/
def memDefault (a : Nat) : Option Byte :=
  match rowOf a with
  | some .host | some (.sp _) => some 0
  | _ => none

/-- The cell of an address in a list. -/
def cellGet : List Host.Cell → Nat → Option Byte
  | [], _ => none
  | (k, v) :: t, a => if k = a then some v else cellGet t a

/-- The list without an address. -/
def cellDel : List Host.Cell → Nat → List Host.Cell
  | [], _ => []
  | (k, v) :: t, a => if k = a then t else (k, v) :: cellDel t a

/-- The list with an address set, in rising order. -/
def cellSet : List Host.Cell → Nat → Byte → List Host.Cell
  | [], a, b => [(a, b)]
  | (k, v) :: t, a, b => if k = a then (k, b) :: t else if a < k then (a, b) :: (k, v) :: t else (k, v) :: cellSet t a b

/-- The memory with one byte written, in canonical form: a byte equal to what an unlisted address reads as is not listed. -/
def memPut (m : List Host.Cell) (a : Nat) (b : Byte) : List Host.Cell :=
  if memDefault a = some b then cellDel m a else cellSet m a b

/-- Addresses rise strictly from a bound. -/
def risingFrom : Nat → List Host.Cell → Bool
  | _, [] => true
  | lo, (k, _) :: t => decide (lo ≤ k) && risingFrom (k + 1) t

/-- The canonical form: addresses strictly rising, and no cell equal to what an unlisted address reads as. -/
def Memory.wf (m : List Host.Cell) : Bool := risingFrom 0 m && m.all fun c => memDefault c.1 != some c.2

/-- One byte of memory; a free value where nothing has been written since reset (R24, R355) (DESIGN CHOICE: notes/assumptions/3.md). -/
def readByte (s : State) (a : Nat) : Byte :=
  match cellGet s.mem a with
  | some b => b
  | none =>
    match memDefault a with
    | some b => b
    | none => if a < 0x8000000000000 then Config.undefByte a s.nonce else Config.remoteByte a s.nonce

/-- Whether a byte is in a scratchpad. -/
def isSp (a : Nat) : Bool := match rowOf a with | some (.sp _) => true | _ => false

/-- Whether a byte reads as poisoned (R24, R63, R430) (DESIGN CHOICE: notes/assumptions/3.md). -/
def readPsn (s : State) (a : Nat) : Bool :=
  if isSp a then s.bytePsn.contains a || s.eccBad.contains (a / 64 * 64)
  else s.granPsn.contains (a / 32 * 32) || s.eccBad.contains (a / 32 * 32) ||
    (a < 0x8000000000000 && (cellGet s.mem a).isNone && (memDefault a).isNone && Config.undefPoison a s.nonce)

/-- `n` bytes from an address. -/
def readBytes (s : State) (a n : Nat) : List Byte := (List.range n).map fun i => readByte s (a + i)

/-- `n` bytes with their poison marks. -/
def readPBytes (s : State) (a n : Nat) : List PByte := (List.range n).map fun i => ⟨readByte s (a + i), readPsn s (a + i)⟩

/-- `n` bytes as a little-endian number (R4). -/
def readNat (s : State) (a n : Nat) : Nat := ofLE (readBytes s a n)

/-- The 64-bit number at an address. -/
def readWord (s : State) (a : Nat) : Word := BitVec.ofNat 64 (readNat s a 8)

/-- Whether any of `n` bytes is poisoned. -/
def anyPsn (s : State) (a n : Nat) : Bool := (List.range n).any fun i => readPsn s (a + i)

/-- One byte written to memory, leaving poison marks alone. -/
def putByte (s : State) (a : Nat) (b : Byte) : State := { s with mem := memPut s.mem a b }

/-- Bytes written from an address, leaving poison marks alone. -/
def putBytes (s : State) (a : Nat) : List Byte → State
  | [] => s
  | b :: bs => putBytes (putByte s a b) (a + 1) bs

/-- A member set or cleared in a list of addresses. -/
def markSet (xs : List Nat) (a : Nat) (on : Bool) : List Nat :=
  if on then (if xs.contains a then xs else a :: xs) else xs.filter (· != a)

/-- The poison marks after a write of `n` bytes at `a` (R430): a poisoned byte marks its granule, a write of a whole granule
of clean bytes clears it. In a scratchpad every byte carries its own mark (R275, R299). -/
def markBytes (s : State) (a : Nat) (bs : List PByte) : State :=
  if isSp a then
    let s := (bs.zipIdx a).foldl (fun s p => { s with bytePsn := markSet s.bytePsn p.2 p.1.psn }) s
    { s with eccBad := s.eccBad.filter fun g => !(decide (a ≤ g) && decide (g + 64 ≤ a + bs.length)) }
  else
    let n := bs.length
    let g0 := a / 32
    let g1 := (a + n + 31) / 32
    (List.range (g1 - g0)).foldl (fun s i =>
      let g := (g0 + i) * 32
      let part := (bs.zipIdx a).filter fun p => p.2 / 32 * 32 == g
      if part.any (·.1.psn) then { s with granPsn := markSet s.granPsn g true }
      else if part.length == 32 then
        { s with granPsn := markSet s.granPsn g false, eccBad := markSet s.eccBad g false }
      else s) s

/-- Whether a running record has ended in a parking WAITF. -/
def runWatches (x : Ctxt) : Bool :=
  match x.run.bind (·.ended) with
  | some (.waitf ..) => true
  | _ => false

/-- Whether any record of a core is parked on a watch, or is about to be (R249). -/
def watches (c : Core) : Bool :=
  ((c.waits ++ c.ovf ++ c.sram ++ c.back).any fun r => r.watch.isSome) || c.apWatch.isSome || runWatches c.x ||
    c.saved.any fun v => runWatches v.ctx

/-- Whether any record is parked on a watch, on a core or in a saved partition (R249, R448). -/
def anyWatch (s : State) : Bool :=
  (s.cores.any fun c => watches c.2) || s.parts.any fun p => p.2.save.any fun v => watches v.2.1

/-- A parked record that watches a line within the bytes written is marked: its WATCH_WAKE may happen (R249). -/
def wakeRec (a n : Nat) (r : QRec) : QRec :=
  match r.watch with
  | some line => if a < line + 64 ∧ line < a + n then { r with woken := true } else r
  | none => r

/-- The watch of a WAITF that has not yet parked its record sees a write. -/
def wakeWatch (a n : Nat) (w : Option (Nat × Bool)) : Option (Nat × Bool) :=
  w.map fun p => if a < p.1 + 64 ∧ p.1 < a + n then (p.1, true) else p

/-- The watch of a record that a WAITF has ended sees a write. -/
def wakeRun (a n : Nat) (x : Ctxt) : Ctxt :=
  { x with run := x.run.map fun r => { r with ended := r.ended.map fun k => match k with
      | .waitf line w => .waitf line (w || (decide (a < line + 64) && decide (line < a + n)))
      | k => k } }

/-- The watches of a core see a write. -/
def wakeCore (a n : Nat) (c : Core) : Core :=
  { c with waits := c.waits.map (wakeRec a n), ovf := c.ovf.map (wakeRec a n), sram := c.sram.map (wakeRec a n),
           back := c.back.map (wakeRec a n), apWatch := wakeWatch a n c.apWatch, x := wakeRun a n c.x,
           saved := c.saved.map fun v => { v with ctx := wakeRun a n v.ctx } }

/-- A write to `n` bytes seen by the watches. -/
def wakeRange (s : State) (a n : Nat) : State := if anyWatch s then allCores s (wakeCore a n) else s

/-- Whether a reservation of LR lies in the memory of the device, which begins at `lo` for its holder, and meets the bytes written
(R451; PRESUMED: notes/assumptions/9.md). -/
def resvHit (lo a n : Nat) (resv : Option (Nat × Nat)) : Bool :=
  match resv with
  | some r => decide (lo ≤ r.1) && decide (a < r.1 + r.2) && decide (r.1 < a + n)
  | none => false

/-- Every service core changed. -/
def allSvc (s : State) (f : SvcCore → SvcCore) : State :=
  { s with svc := (List.range 4).foldl (fun v k => vset v k (f (vget SvcCore.reset v k))) s.svc }

/-- A write to `n` bytes of device memory ends the reservations it meets, of contexts and of service cores. -/
def breakResv (s : State) (a n : Nat) : State :=
  let s := if s.svc.toList.any fun h => resvHit 0 a n h.resv then
      allSvc s fun h => if resvHit 0 a n h.resv then { h with resv := none } else h
    else s
  if s.ctxs.any fun c => resvHit 0x200000 a n c.2.resv then
    { s with ctxs := s.ctxs.map fun c => (c.1, if resvHit 0x200000 a n c.2.resv then { c.2 with resv := none } else c.2) }
  else s

/-- Bytes written with their poison marks (R430, R497); every write is seen by the watches of R249 and ends reservations. -/
def writePBytes (s : State) (a : Nat) (bs : List PByte) : State :=
  if bs.isEmpty then s
  else breakResv (wakeRange (markBytes (putBytes s a (bs.map (·.b))) a bs) a bs.length) a bs.length

/-- Clean bytes written. -/
def writeBytes (s : State) (a : Nat) (bs : List Byte) : State := writePBytes s a (bs.map fun b => ⟨b, false⟩)

/-- A little-endian number of `n` bytes written (R4). -/
def writeNat (s : State) (a n x : Nat) : State := writeBytes s a (toLE n x)

/-- Whether an address lies in the scratchpad of a core. -/
def inSp (l a : Nat) : Bool := decide (spBase l ≤ a) && decide (a < spBase (l + 1))

/-- A whole scratchpad set to zero with valid ECC (R23, R387) (DEDUCED: notes/assumptions/57.md). -/
def clearSp (s : State) (l : Nat) : State :=
  { s with mem := s.mem.filter fun c => !inSp l c.1, bytePsn := s.bytePsn.filter fun a => !inSp l a,
           eccBad := s.eccBad.filter fun a => !inSp l a, eccSoft := s.eccSoft.filter fun a => !inSp l a }

/-- The counts of ECC_STAT after a read of scratchpad bytes (R63, R498). -/
def spTouch (s : State) (l off n : Nat) : State :=
  if s.eccBad.isEmpty && s.eccSoft.isEmpty then s
  else
    let gs := (List.range ((off + n + 63) / 64 - off / 64)).map fun i => spBase l + (off / 64 + i) * 64
    let bad := (gs.filter s.eccBad.contains).length
    let soft := (gs.filter s.eccSoft.contains).length
    modX { s with eccSoft := s.eccSoft.filter fun g => !gs.contains g } l fun x =>
      { x with eccUncorr := min 65535 (x.eccUncorr + bad), eccCorr := min 65535 (x.eccCorr + soft) }

/-! ### The classifier's view of the heads (R487) -/

/-- What the head of an engine does on this tick. -/
def note (s : State) (l : Nat) (e : Eng) (c : HeadClass) (flags : List Nat) : State :=
  modCore s l fun k => { k with heads := (e, c, flags) :: k.heads.filter fun h => h.1 != e }

/-- The word at the head waits on flags and nothing else happens. -/
def waitOn (s : State) (l : Nat) (e : Eng) (flags : List Nat) : State := note s l e .flag flags

/-! ### Scalar registers and predicates (R23, R169) -/

/-- A scalar register of an engine: g0 of the AP reads 0. -/
def rreg (s : State) (l : Nat) (e : Eng) (r : Reg) : Word :=
  match e with
  | .ap => if r = 0 then 0 else vget 0 (cx s l).apRegs r.toNat
  | _ => vget 0 (cx s l).eRegs r.toNat

/-- A write to a scalar register: a write to g0 of the AP is discarded. -/
def wreg (s : State) (l : Nat) (e : Eng) (r : Reg) (v : Word) : State :=
  match e with
  | .ap => if r = 0 then s else modX s l fun x => { x with apRegs := vset x.apRegs r.toNat v }
  | _ => modX s l fun x => { x with eRegs := vset x.eRegs r.toNat v }

/-- A scalar predicate: k0 reads 1. -/
def rk (s : State) (l : Nat) (e : Eng) (k : Nat) : Bool :=
  if k = 0 then true else vget false (match e with | .ap => (cx s l).kap | _ => (cx s l).kc0) k

/-- A write to a scalar predicate: a write to k0 is discarded. -/
def wk (s : State) (l : Nat) (e : Eng) (k : Nat) (v : Bool) : State :=
  if k = 0 then s
  else match e with
    | .ap => modX s l fun x => { x with kap := vset x.kap k v }
    | _ => modX s l fun x => { x with kc0 := vset x.kc0 k v }

/-! ### Token FIFOs and branch-outcome queues (R141, R197, R438) -/

/-- The number of a FIFO or queue from engine p to engine c. -/
def fifoKey (p c : Nat) : Nat := 8 * p + c

/-- Whether one of the six handler FIFOs serves: in handler mode, between the AP, C0 and C3 (R438). -/
def handlerFifo (x : Ctxt) (p c : Nat) : Bool :=
  x.handlerMode && (p == 1 || p == 2 || p == 5) && (c == 1 || c == 2 || c == 5)

/-- Tokens in a FIFO; in handler mode the six handler FIFOs serve. -/
def tokCount (s : State) (l p c : Nat) : Nat :=
  let x := cx s l
  tget 0 (if handlerFifo x p c then x.han.fifo else x.fifo) (fifoKey p c)

/-- Entries of a FIFO that words in flight have reserved (R142). -/
def tokRes (s : State) (l p c : Nat) : Nat :=
  let x := cx s l
  tget 0 (if handlerFifo x p c then x.han.reserved else x.fifoRes) (fifoKey p c)

/-- Whether a FIFO of depth 8 has a free entry that nothing has reserved. -/
def tokFree (s : State) (l p c : Nat) : Bool := tokCount s l p c + tokRes s l p c < 8

/-- A FIFO's count changed. -/
def tokAdd (s : State) (l p c : Nat) (d : Int) : State :=
  let k := fifoKey p c
  let up (t : Tab Nat) : Tab Nat := tset t k (((tget 0 t k : Nat) : Int) + d).toNat
  modX s l fun x =>
    if handlerFifo x p c then { x with han := { x.han with fifo := up x.han.fifo } } else { x with fifo := up x.fifo }

/-- A FIFO's reservations changed. -/
def tokReserve (s : State) (l p c : Nat) (d : Int) : State :=
  let k := fifoKey p c
  let up (t : Tab Nat) : Tab Nat := tset t k (((tget 0 t k : Nat) : Int) + d).toNat
  modX s l fun x =>
    if handlerFifo x p c then { x with han := { x.han with reserved := up x.han.reserved } }
    else { x with fifoRes := up x.fifoRes }

/-- A token pushed into an entry reserved for it. -/
def tokPushRes (s : State) (l p c : Nat) : State := tokAdd (tokReserve s l p c (-1)) l p c 1

/-- A branch-outcome queue, oldest entry first. -/
def boqGet (s : State) (l p c : Nat) : List (Bool × Nat) := tget [] (cx s l).boq (fifoKey p c)

/-- A branch-outcome queue replaced. -/
def boqSet (s : State) (l p c : Nat) (q : List (Bool × Nat)) : State :=
  modX s l fun x => { x with boq := tset x.boq (fifoKey p c) q }

/-- The oldest entry that its consumer may see: it was pushed on an earlier tick (R197). -/
def boqHead (s : State) (l p c : Nat) : Option Bool :=
  match boqGet s l p c with
  | (b, t) :: _ => if t < now s then some b else none
  | [] => none

/-- The oldest entry popped. -/
def boqPop (s : State) (l p c : Nat) : State := boqSet s l p c (boqGet s l p c).tail

/-- An entry pushed. -/
def boqPush (s : State) (l p c : Nat) (b : Bool) : State := boqSet s l p c (boqGet s l p c ++ [(b, now s)])

/-- Whether a branch-outcome queue holds 16 entries. -/
def boqFull (s : State) (l p c : Nat) : Bool := decide (16 ≤ (boqGet s l p c).length)

/-- The classifier flag of a branch-outcome queue (R488). -/
def boqFlag (p c : Nat) : Nat := if p == 1 then 200 + (c - 2) else 204 + (p - 2)

/-! ### Trace records (R490) -/

/-- A block of the device. -/
def getBlock (s : State) (b : Nat) : Block := tget Block.reset s.blocks b

/-- The device with a block changed. -/
def modBlock (s : State) (b : Nat) (f : Block → Block) : State := { s with blocks := tset s.blocks b (f (getBlock s b)) }

/-- The last core of a block (R12, R15). -/
def blockLast (b : Nat) : Nat := 32 * (b / 4) + 4 * (b % 4) + 19

/-- The loss record of a block: it has the tick of the last record dropped, and the number of the block's last core, so that it follows every
record of that tick (R491) (DESIGN CHOICE: notes/assumptions/66.md). -/
def lossRec (b : Nat) (k : Block) : TraceRec := ⟨k.lostTick, 9, blockLast b, 0, k.lost, 0, 0⟩

/-- Whether a block's buffer has no room for a record of a tick: it is full, or it has been on that tick, in which room comes back only with the
next (R491) (DESIGN CHOICE: notes/assumptions/66.md). -/
def Block.full (k : Block) (tick : Nat) : Bool := decide (2048 ≤ k.buf.length) || (k.lost != 0 && k.lostTick == tick)

/-- A record put into a block's buffer, or dropped and counted (R491). -/
def Block.add (k : Block) (r : TraceRec) : Block :=
  if k.full r.tick then { k with lost := k.lost + 1, lostTick := r.tick } else { k with buf := k.buf ++ [r] }

/-- A record offered to a block's trace buffer: dropped and counted when the buffer is full, and preceded by a loss record
once there is room again (R490, R491). -/
def traceAdd (s : State) (r : TraceRec) : State :=
  let b := blockOf r.core
  modBlock s b fun k =>
    if k.gated then k
    else if k.lost != 0 && !k.full r.tick then Block.add { k with buf := k.buf ++ [lossRec b k], lost := 0 } r
    else k.add r

/-- A trace record of a kind that TRC_CTL enables. -/
def trace (s : State) (kind l a : Nat) (b0 b1 : Word) : State :=
  if s.kindEn.getLsbD kind then traceAdd s ⟨now s, kind, l, runLid s l, a, b0, b1⟩ else s

/-! ### Kills and faults (R424 to R433) -/

/-- A launch to be killed: the kill itself is the TASK_KILL event. LID 0 is no launch. -/
def killTask (s : State) (lid : BitVec 16) (cause : Nat) : State :=
  if lid = 0 ∨ s.killPend.any (·.1 == lid) then s else { s with killPend := s.killPend ++ [(lid, BitVec.ofNat 8 cause)] }

/-- Whether the launch of a number is about to be killed: its engines issue nothing (R433). -/
def dying (s : State) (lid : BitVec 16) : Bool := lid != 0 && s.killPend.any (·.1 == lid)

/-- A fault on its way to the fault queue (R425). -/
def raiseFault (s : State) (r : FaultRec) : State := { s with fltPend := s.fltPend ++ [{ r with tick := now s }] }

/-! ### Scratchpad, rings and slots (R61 to R77) -/

/-- A register of 256 bytes. -/
def VReg.ofBytes (bs : List PByte) : VReg :=
  ⟨BitVec.ofNat 2048 (ofLE (bs.map (·.b))), BitVec.ofNat 256 (bs.foldr (fun p n => 2 * n + (if p.psn then 1 else 0)) 0)⟩

/-- The bytes of a register. -/
def VReg.toBytes (v : VReg) : List PByte :=
  (List.range 256).map fun i => ⟨v.bits.extractLsb' (8 * i) 8, v.psn.getLsbD i⟩

/-- A ring of core `l`. -/
def getRing (s : State) (l q : Nat) : Ring := vget Ring.reset (cx s l).rings q

/-- The place of an engine in the order in which a ring serves engines on one tick (R76) (DESIGN CHOICE: notes/assumptions/33.md). -/
def ringRank : Eng → Nat
  | .c1 => 1
  | .c2 => 2
  | .c3 => 3
  | _ => 4

/-- Whether an engine may still reach a ring on this tick: none that stands behind it has reached it (R76).
(DESIGN CHOICE: notes/assumptions/33.md). -/
def ringTurn (s : State) (l : Nat) (e : Eng) (q : Nat) : Bool :=
  !((getCore s l).served.any fun p => p.1 == q && decide (ringRank e < p.2))

/-- Rings that an engine reads or pushes on this tick. -/
def serve (s : State) (l : Nat) (e : Eng) (qs : List Nat) : State :=
  if qs.isEmpty then s else modCore s l fun c => { c with served := qs.map (·, ringRank e) ++ c.served }

/-! ### The banks of a scratchpad on one tick (R61, R62) -/

/-- The banks of some bytes of a scratchpad. -/
def banksOf (off n : Nat) : List Nat := (List.range (min 32 ((off + n + 63) / 64 - off / 64))).map fun i => (off / 64 + i) % 32

/-- The banks of several ranges of bytes. -/
def banksIn (rs : List (Nat × Nat)) : List Nat := (rs.flatMap fun r => banksOf r.1 r.2).eraseDups

/-- Whether a request has waited 8 ticks (R62). -/
def aged (s : State) (since : Nat) : Bool := decide (since + 8 ≤ now s)

/-- Whether a waiting request is one that its requester still makes: it asked on this tick or on the last. -/
def BankReq.live (q : BankReq) (tick : Nat) : Bool := decide (tick ≤ q.last + 1)

/-- The tick since which a requester has waited. -/
def bankSince (s : State) (l who : Nat) : Nat :=
  match (getCore s l).bankQ.find? fun q => q.who == who && q.live (now s) with
  | some q => q.since
  | none => now s

/-- Whether a waiting request goes before one of requester `who` that has waited since a tick (R62). The place of a requester in the
order of R62 is its number modulo 8: C3 has 0, C1 1, C2 2, the SU and the CE 3, barrier operations 4 and the AP 5.
(DESIGN CHOICE: notes/assumptions/88.md). -/
def BankReq.before (s : State) (q : BankReq) (who since : Nat) : Bool :=
  if aged s q.since then !aged s since || decide (q.who % 8 < who % 8) else !aged s since && decide (q.who % 8 < who % 8)

/-- The banks of some ranges of bytes that do not serve a requester on this tick: each has served another request (R61), or a request that goes
before this one waits for it (R62) (DESIGN CHOICE: notes/assumptions/88.md). -/
def bankShort (s : State) (l who : Nat) (rs : List (Nat × Nat)) : List Nat :=
  let c := getCore s l
  if c.tk.banks.isEmpty && c.bankQ.isEmpty then []
  else
    let since := bankSince s l who
    (banksIn rs).filter fun b => (c.tk.banks.any fun u => u.1 == b && u.2 != who) ||
      c.bankQ.any fun q => q.who != who && q.live (now s) && q.banks.contains b && q.before s who since

/-- Whether the banks of some ranges of bytes serve a requester on this tick (DESIGN CHOICE: notes/assumptions/88.md). -/
def bankTurn (s : State) (l who : Nat) (rs : List (Nat × Nat)) : Bool := (bankShort s l who rs).isEmpty

/-- The banks of some ranges of bytes serve a requester on this tick. -/
def useBanks (s : State) (l who : Nat) (rs : List (Nat × Nat)) : State :=
  if rs.isEmpty then s
  else modCore s l fun c => { c with tk := { c.tk with banks := (banksIn rs).map (·, who) ++ c.tk.banks },
                                     bankQ := c.bankQ.filter fun q => q.who != who }

/-- A request waits for its banks, which count the tick (R62, R488) (DESIGN CHOICE: notes/assumptions/88.md). -/
def bankHold (s : State) (l who : Nat) (rs : List (Nat × Nat)) : State :=
  let q : BankReq := ⟨who, banksIn rs, bankShort s l who rs, bankSince s l who, now s⟩
  modCore s l fun c => { c with bankQ := q :: c.bankQ.filter fun r => r.who != who }

/-- The numbers of requesters (R62): stream `j` of core `l`, its CE, an access of its AP, and a barrier operation by its place in the
order of R261. -/
def suWho (l j : Nat) : Nat := 3 + 8 * (1 + 17 * l + j)
/-- The CE of a core. -/
def ceWho (l : Nat) : Nat := suWho l 16
/-- An access of a core's AP, by its number. -/
def apWho (l id : Nat) : Nat := 5 + 8 * (1 + l + 192 * id)
/-- A barrier operation. -/
def barWho (place : Nat) : Nat := 4 + 8 * place

/-- The head of an engine waits for its banks (R62, R487) (DESIGN CHOICE: notes/assumptions/88.md). -/
def bankWait (s : State) (l : Nat) (e : Eng) (who : Nat) (rs : List (Nat × Nat)) : State := waitOn (bankHold s l who rs) l e []

/-- A ring changed. -/
def modRing (s : State) (l q : Nat) (f : Ring → Ring) : State :=
  modX s l fun x => { x with rings := vset x.rings q (f (vget Ring.reset x.rings q)) }

/-- Whether a ring is configured. -/
def Ring.conf (r : Ring) : Bool := r.n != 0

/-- The scratchpad offset of slot `i`. -/
def Ring.slotOff (r : Ring) (i : Nat) : Nat := (r.base + r.z * i) * 256

/-- Whether slot `i` is full. -/
def Ring.isFull (r : Ring) (i : Nat) : Bool := r.fe.getLsbD i

/-- Whether slot `i` holds data that no word has taken. -/
def Ring.avail (r : Ring) (i : Nat) : Bool := r.isFull i && !r.kept.contains i

/-- The slot at TAIL. -/
def Ring.tailSlot (r : Ring) : Nat := if r.z = 0 then 0 else r.tail / r.z

/-- The number of full slots. -/
def Ring.fullCount (r : Ring) : Nat := ((List.range r.n).filter r.isFull).length

/-- Whether slot `i` is the bind-off slot (R77). -/
def Ring.isBoff (r : Ring) (i : Nat) : Bool := r.boff && i == r.boffAt

/-- A ring whose slot `i` has become its bind-off slot (R77). -/
def Ring.bindOff (r : Ring) (i : Nat) : Ring := { r with boff := true, boffAt := i, boffPend := false }

/-- A full/empty bit set. -/
def Ring.setFe (r : Ring) (i : Nat) (full : Bool) : Ring :=
  { r with fe := if full then r.fe ||| BitVec.twoPow 256 i else r.fe &&& ~~~(BitVec.twoPow 256 i) }

/-- A slot taken earlier is freed (R319). -/
def Ring.release (r : Ring) (i : Nat) : Ring :=
  { r.setFe i false with kept := r.kept.filter (· != i), boff := r.boff && !r.isBoff i }

/-- Slot HEAD taken, to be freed later (R319). -/
def Ring.keepHead (r : Ring) : Ring := { r with cur := 0, head := (r.head + 1) % r.n, kept := r.head :: r.kept }

/-- Slot HEAD freed whole (R74, R77). -/
def Ring.freeHead (r : Ring) : Ring :=
  { r.setFe r.head false with cur := 0, head := (r.head + 1) % r.n, boff := r.boff && !r.isBoff r.head }

/-- One unit consumed at the cursor; the slot is freed with its last unit (R73). -/
def Ring.stepCur (r : Ring) : Ring := if r.cur + 1 ≥ r.z then r.freeHead else { r with cur := r.cur + 1 }

/-- Slot `i`, or slot TAIL advanced past one whole slot. -/
def Ring.advTail (r : Ring) : Ring := { r with tail := (r.tail + r.z) % (r.n * r.z) }

/-- The bytes of slot `i` of ring `q` with their marks. -/
def slotBytes (s : State) (l q i : Nat) : List PByte :=
  let r := getRing s l q
  readPBytes s (spBase l + r.slotOff i) (r.z * 256)

/-- The 256-byte unit at the cursor of slot HEAD. -/
def headUnit (s : State) (l q : Nat) : VReg :=
  let r := getRing s l q
  VReg.ofBytes (readPBytes s (spBase l + r.slotOff r.head + r.cur * 256) 256)

/-- A whole slot at TAIL written and committed (R72). -/
def commitSlot (s : State) (l q : Nat) (bs : List PByte) : State :=
  let r := getRing s l q
  modRing (writePBytes s (spBase l + r.slotOff r.tailSlot) bs) l q fun r => (r.setFe r.tailSlot true).advTail

/-- The bytes of the slot at TAIL, and of slot HEAD, of a ring. -/
def Ring.tailBytes (r : Ring) : Nat × Nat := (r.slotOff r.tailSlot, r.z * 256)
/-- Slot HEAD. -/
def Ring.headBytes (r : Ring) : Nat × Nat := (r.slotOff r.head, r.z * 256)

/-- Whether the banks of the slot at TAIL serve a requester on this tick (R62). -/
def slotTurn (s : State) (l who q : Nat) : Bool := bankTurn s l who [(getRing s l q).tailBytes]

/-- A requester writes the slot at TAIL on this tick. -/
def useSlot (s : State) (l who q : Nat) : State := useBanks s l who [(getRing s l q).tailBytes]

/-- The bytes of a bind-off slot (R77). -/
def boffBytes (z : Nat) (count : Word) : List PByte :=
  (toLE 8 count.toNat ++ List.replicate (z * 256 - 8) 0).map fun b => ⟨b, false⟩

/-- A bind-off slot at TAIL written and committed (R77). -/
def commitBoff (s : State) (l q : Nat) (count : Word) : State :=
  let r := getRing s l q
  modRing (commitSlot s l q (boffBytes r.z count)) l q fun k => k.bindOff r.tailSlot

/-- Whether the slot at TAIL is empty: its F/E bit is, and where the slot begins at TAIL no push that has claimed a unit of it
on the lap before is still in flight (R72, R302) (DEDUCED: notes/assumptions/35.md). -/
def Ring.tailFree (r : Ring) : Bool :=
  !r.isFull r.tailSlot && (r.tail % r.z != 0 || !r.claims.any fun u => u / r.z == r.tailSlot)

/-- Whether a producer may write the slot at TAIL: it is empty, and no bind-off is unconsumed or on its way (R72, R77, R303)
(DEDUCED: notes/assumptions/35.md). -/
def Ring.canPush (r : Ring) : Bool := r.conf && r.tailFree && !r.boff && !r.boffPend

/-! ### Streams: which rings they serve (R75) -/

/-- Bits hi to lo of a descriptor, as a number. -/
def dfield (d : BitVec 1024) (lo w : Nat) : Nat := (d.toNat / 2 ^ lo) % 2 ^ w

/-- A stream register of core `l`. -/
def getStream (s : State) (l n : Nat) : Stream := vget Stream.reset (cx s l).streams n

/-- A stream register changed. -/
def modStream (s : State) (l n : Nat) (f : Stream → Stream) : State :=
  modX s l fun x => { x with streams := vset x.streams n (f (vget Stream.reset x.streams n)) }

/-- DIR of a descriptor (R79). -/
def dDir (d : BitVec 1024) : Nat := dfield d 0 3
/-- RING. -/
def dRing (d : BitVec 1024) : Nat := dfield d 10 5
/-- IPORT. -/
def dIport (d : BitVec 1024) : Nat := dfield d 15 5
/-- TEEN. -/
def dTeen (d : BitVec 1024) : Bool := dfield d 47 1 == 1
/-- TEE. -/
def dTee (d : BitVec 1024) : Nat := dfield d 48 5

/-- The rings that a descriptor's stream fills. -/
def dFills (d : BitVec 1024) : List Nat :=
  if dDir d == 0 || dDir d == 3 then dRing d :: (if dTeen d then [dTee d] else []) else []

/-- The rings that it drains. -/
def dDrains (d : BitVec 1024) : List Nat :=
  (if dDir d == 1 || dDir d == 2 || dDir d == 4 then [dRing d] else []) ++
    (if dDir d == 3 || dDir d == 4 then [dIport d] else [])

/-- The stream registers of core `l` that are not CLOSED. -/
def openStreams (s : State) (l : Nat) : List Stream := (cx s l).streams.toList.filter fun t => t.st != .closed

/-- Whether a stream has begun to write a slot and has not committed it (R95). -/
def Stream.begun (t : Stream) : Bool := t.wrote.isSome || t.sent != 0

/-- Whether a stream has something left to do: it is not DONE, or it owes a bind-off, tokens or a commit. -/
def hasWork (t : Stream) : Bool := t.st != .done || t.boPend || t.boFirst || t.doneTok || t.owed != 0 || t.begun

/-- Whether stream `j` comes before stream `k` in the SU's queue: its iteration began earlier, or on the same tick with a lower number
(DESIGN CHOICE: notes/assumptions/62.md). -/
def suBefore (s : State) (l j k : Nat) : Bool :=
  let a := (getStream s l j).openedAt
  let b := (getStream s l k).openedAt
  decide (a < b) || (a == b && decide (j < k))

/-- The stream whose work is at the head of the SU's queue (R487): the oldest with work. -/
def suHead (s : State) (l : Nat) : Option Nat :=
  ((List.range 16).filter fun j => (getStream s l j).st != .closed && hasWork (getStream s l j)).foldl (fun h j => match h with
    | some k => if suBefore s l j k then some j else some k
    | none => some j) none

/-- What a stream does on this tick is what the SU does where it is the head of its queue; a tick on which it has issued stays one. -/
def noteSu (s : State) (l j : Nat) (c : HeadClass) (flags : List Nat) : State :=
  if suHead s l == some j && !((getCore s l).heads.any fun h => h.1 == .su && h.2.1 == .issue) then note s l .su c flags else s

/-- Whether a stream of another core carries an incoming pipe into ring `q` of core `l` (R75, R87) (DEDUCED: notes/assumptions/21.md). -/
def pipeInto (s : State) (l q : Nat) : Bool :=
  (getRing s l q).conf && s.cores.any fun c => c.2.x.streams.toList.any fun t =>
    t.st != .closed && dDir t.desc == 2 && dfield t.desc 20 8 == l && dfield t.desc 28 5 == q

/-- Whether a stream or an incoming pipe fills ring `q`. -/
def streamFills (s : State) (l q : Nat) : Bool :=
  (openStreams s l).any (fun t => (dFills t.desc).contains q) || pipeInto s l q

/-- Whether a stream drains ring `q`. -/
def streamDrains (s : State) (l q : Nat) : Bool := (openStreams s l).any fun t => (dDrains t.desc).contains q

/-! ### Vector registers, predicates and rotation (R158) -/

/-- VPhys of R158. -/
def vphys (n : Nat) (rb : BitVec 5) : Nat := if n < 32 then n else 32 + (n - 32 + rb.toNat) % 32

/-- PPhys of R158. -/
def pphys (n : Nat) (rb : BitVec 5) : Nat := if n < 8 then n else 8 + (n - 8 + rb.toNat) % 8

/-- A physical vector register. -/
def rv (s : State) (l : Nat) (c2 : Bool) (n : Nat) : VReg :=
  vget VReg.zero (if c2 then (cx s l).v2 else (cx s l).v1) n

/-- A physical predicate; p0 reads all ones. -/
def rp (s : State) (l : Nat) (c2 : Bool) (n : Nat) : BitVec 256 :=
  if n = 0 then BitVec.allOnes 256 else vget 0 (if c2 then (cx s l).p2 else (cx s l).p1) n

/-- A byte mask as a mask of 2,048 bits. -/
def spread (m : BitVec 256) : BitVec 2048 :=
  BitVec.ofNat 2048 ((List.range 256).foldr (fun i n => n * 256 + (if m.getLsbD i then 255 else 0)) 0)

/-- The bytes of `new` where the mask is set, else those of `old`. -/
def VReg.merge (old new : VReg) (mask : BitVec 256) : VReg :=
  ⟨(new.bits &&& spread mask) ||| (old.bits &&& ~~~(spread mask)), (new.psn &&& mask) ||| (old.psn &&& ~~~mask)⟩

/-- Bytes of a physical vector register written. -/
def wv (s : State) (l : Nat) (c2 : Bool) (n : Nat) (v : VReg) (mask : BitVec 256) : State :=
  modX s l fun x =>
    if c2 then { x with v2 := vset x.v2 n ((vget VReg.zero x.v2 n).merge v mask) }
    else { x with v1 := vset x.v1 n ((vget VReg.zero x.v1 n).merge v mask) }

/-- Bits of a physical predicate written; p0 is never written. -/
def wp (s : State) (l : Nat) (c2 : Bool) (n : Nat) (v mask : BitVec 256) : State :=
  if n = 0 then s
  else modX s l fun x =>
    if c2 then { x with p2 := vset x.p2 n ((v &&& mask) ||| (vget 0 x.p2 n &&& ~~~mask)) }
    else { x with p1 := vset x.p1 n ((v &&& mask) ||| (vget 0 x.p1 n &&& ~~~mask)) }

/-- The engine of a vector cluster. -/
def vEng (c2 : Bool) : Eng := if c2 then .c2 else .c1

/-- Bits ORed into the VSTAT of a cluster, which a write of this tick leaves set (R273, R274). -/
def vstatOr (s : State) (l : Nat) (c2 : Bool) (m : BitVec 7) : State :=
  modCore s l fun c =>
    if c2 then { c with x := { c.x with vstat2 := c.x.vstat2 ||| m }, tk := { c.tk with vset2 := c.tk.vset2 ||| m } }
    else { c with x := { c.x with vstat1 := c.x.vstat1 ||| m }, tk := { c.tk with vset1 := c.tk.vset1 ||| m } }

/-! ### Results that land (R143 to R147, R302, R303) -/

/-- A unit pushed by VPUSH lands; its slot becomes full with its last unit (R72, R302). -/
def landUnit (s : State) (l q u gen : Nat) (off : Nat) (v : VReg) : State :=
  let s := writePBytes s (spBase l + off) v.toBytes
  modRing s l q fun r =>
    if r.gen != gen || r.z == 0 then r
    else
      let landed := u :: r.landed
      let slot := u / r.z
      if (List.range r.z).all fun i => landed.contains (slot * r.z + i) then
        { r.setFe slot true with landed := landed.filter fun k => k / r.z != slot,
                                 claims := r.claims.filter fun k => k / r.z != slot }
      else { r with landed := landed }

/-- A bind-off slot pushed by VPUSH lands in the bytes it claimed; where its ring has been configured again, no full/empty bit changes
(R302, R303). -/
def landBoff (s : State) (l q slot gen off n : Nat) (count : Word) : State :=
  modRing (writePBytes s (spBase l + off) (boffBytes (n / 256) count)) l q fun r =>
    if r.gen != gen then r
    else { (r.setFe slot true).bindOff slot with claims := r.claims.filter fun k => k / r.z != slot }

/-- A 64-byte granule of a scratchpad marked poisoned (R299). -/
def markGran (s : State) (g : Nat) : State := forUp 64 s fun i s => { s with bytePsn := markSet s.bytePsn (g + i) true }

/-- One write of a repeat lands. -/
def landWrite (s : State) (l : Nat) (c2 : Bool) : VWrite → State
  | .vreg n v m => wv s l c2 n v m
  | .pred n v m => wp s l c2 n v m
  | .cells cs => modX s l fun x => { x with tiles := cs.foldl (fun t c => tset t c.1 c.2) x.tiles }
  | .unit q u gen v => landUnit s l q (u % 65536) gen (u / 65536 * 256) v
  | .boff q slot gen off n count => landBoff s l q slot gen off n count
  | .scat bs =>
    let s := bs.foldl (fun s b => writePBytes s (spBase l + b.1) [b.2]) s
    bs.foldl (fun s b => if b.2.psn then markGran s (spBase l + b.1 / 64 * 64) else s) s

/-- What is left of an older write once a later-issued write of the same elements has landed (R145).
(DESIGN CHOICE: notes/assumptions/70.md). -/
def supersede (new old : VWrite) : VWrite :=
  match new, old with
  | .vreg n _ m, .vreg k v mk => if n == k then .vreg k v (mk &&& ~~~m) else old
  | .pred n _ m, .pred k v mk => if n == k then .pred k v (mk &&& ~~~m) else old
  | .cells cs, .cells ds => .cells (ds.filter fun d => !cs.any fun c => c.1 == d.1)
  | .scat cs, .scat ds => .scat (ds.filter fun d => !cs.any fun c => c.1 == d.1)
  | _, _ => old

/-- Writes to what C1 and C2 share. -/
def VWrite.shared : VWrite → Bool
  | .cells _ | .scat _ => true
  | .vreg .. | .pred .. | .unit .. | .boff .. => false

/-- What C2 has landed on this tick, with more writes of its own. -/
def noteC2 (s : State) (l : Nat) (ws : List VWrite) : State :=
  let ws := ws.filter VWrite.shared
  if ws.isEmpty then s
  else modCore s l fun c => { c with c2Land := (now s, if c.c2Land.1 == now s then c.c2Land.2 ++ ws else ws) }

/-- The writes of a repeat of C1, less what C2 has landed on this tick: the C2 write is performed last (R150, R301). -/
def belowC2 (s : State) (l : Nat) (ws : List VWrite) : List VWrite :=
  let k := (getCore s l).c2Land
  if k.1 == now s then ws.map fun w => k.2.foldl (fun o n => supersede n o) w else ws

/-- Whether a repeat in flight is one of a cluster's whose landing other engines see: it writes tile registers or scratchpad bytes, or it
raises flags of VSTAT (R149, R274). -/
def VFlight.sharedOf (c2 : Bool) (f : VFlight) : Bool := f.c2 == c2 && (f.writes.any VWrite.shared || f.acf != 0 || f.oob)

/-- The scratchpad bytes that a write of a repeat lands in. -/
def VWrite.bytes : VWrite → List (Nat × Nat)
  | .unit _ u _ _ => [(u / 65536 * 256, 256)]
  | .boff _ _ _ off n _ => [(off, n)]
  | .scat bs => bs.map fun b => (b.1, 1)
  | .vreg .. | .pred .. | .cells _ => []

/-- The scratchpad bytes that a repeat lands in. -/
def VFlight.bytes (f : VFlight) : List (Nat × Nat) := f.writes.flatMap VWrite.bytes

/-- The place of a cluster's port traffic in the order of R62. -/
def vPlace (c2 : Bool) : Nat := if c2 then 2 else 1

/-- The i-th repeat in flight lands: its writes, its flags and, with the last repeat of its word, the word's token
(R141, R143, R274). Writes of repeats issued earlier by the same cluster to the same elements are superseded (R145).
(DESIGN CHOICE: notes/assumptions/70.md). -/
def landOne (s : State) (l i : Nat) : State :=
  match (getCore s l).vfl[i]? with
  | none => s
  | some f =>
    let older := ((getCore s l).vfl.take i).map fun g =>
      if g.c2 == f.c2 then { g with writes := g.writes.map fun w => f.writes.foldl (fun o n => supersede n o) w } else g
    let rest := older ++ (getCore s l).vfl.drop (i + 1)
    let s := useBanks (modCore s l fun c => { c with vfl := rest }) l (vPlace f.c2) f.bytes
    let ws := if f.c2 then f.writes else belowC2 s l f.writes
    let s := ws.foldl (fun s w => landWrite s l f.c2 w) s
    let s := if f.c2 then noteC2 s l f.writes else s
    let s := vstatOr s l f.c2 ((if f.oob then 0x40 else 0) ||| f.acf.zeroExtend 7)
    if f.tok != 0 && !(rest.any fun g => g.c2 == f.c2 && g.word == f.word) && (getEng s l (vEng f.c2)).word != f.word then
      tokPushRes s l (engCode (vEng f.c2)) f.tok.toNat
    else s

/-- The `n` oldest of those repeats of a cluster land (DESIGN CHOICE: notes/assumptions/70.md). -/
def landShared (s : State) (l : Nat) (c2 : Bool) (n : Nat) : State :=
  iter (fun s => match (getCore s l).vfl.findIdx? (VFlight.sharedOf c2) with
    | some i => landOne s l i
    | none => s) n s

/-- The i-th repeat in flight lands. Where its word pushes a token, the writes of its cluster's earlier words to what other
clusters read, and their flags, have landed before it: a word that pops the token sees them (R149) (DESIGN CHOICE: notes/assumptions/70.md). -/
def landFlight (s : State) (l i : Nat) : State :=
  match (getCore s l).vfl[i]? with
  | none => s
  | some f =>
    if f.tok = 0 then landOne s l i
    else
      let n := (((getCore s l).vfl.take i).filter (VFlight.sharedOf f.c2)).length
      landOne (landShared s l f.c2 n) l (i - n)

/-- Every repeat in flight lands, oldest first (R147). -/
def landAll (s : State) (l : Nat) : State := iter (fun s => landFlight s l 0) (getCore s l).vfl.length s

/-! ### Program counters -/

/-- Bytes of a word of an engine. -/
def wordLen (e : Eng) : Word := BitVec.ofNat 64 e.wordBytes

/-- The program counter of an engine; C3 fetches handler code elsewhere (R441). -/
def getPc (s : State) (l : Nat) (e : Eng) : Word :=
  match e, (cx s l).handlerMode, (cx s l).han.c3pc with
  | .c3, true, some p => p
  | e, _, _ => (getEng s l e).pc

/-- A program counter set. -/
def setPc (s : State) (l : Nat) (e : Eng) (pc : Word) : State :=
  match e, (cx s l).handlerMode, (cx s l).han.c3pc with
  | .c3, true, some _ => modX s l fun x => { x with han := { x.han with c3pc := some pc } }
  | e, _, _ => modEng s l e fun t => { t with pc := pc }

/-- The code of an engine of the running record (R382). -/
def codeOf (s : State) (l : Nat) (e : Eng) : Code :=
  match (cx s l).run with
  | some r => vget ⟨0, 0⟩ r.code (engIdx e)
  | none => ⟨0, 0⟩

/-- Whether a word of an engine is in flight. -/
def inFlight (s : State) (l : Nat) (e : Eng) : Bool :=
  match e with
  | .c1 => (getCore s l).vfl.any fun f => !f.c2
  | .c2 => (getCore s l).vfl.any fun f => f.c2
  | .c3 => !(getCore s l).c3.isEmpty
  | _ => false

/-- A cluster that has issued all its code: nothing is left to fetch (R388). -/
def codeDone (s : State) (l : Nat) (e : Eng) : Bool :=
  let c := codeOf s l e
  c.len == 0 || (getEng s l e).pc == c.base + BitVec.ofNat 64 c.len

/-- Whether a cluster has finished the record's code (R388). -/
def finished (s : State) (l : Nat) (e : Eng) : Bool := codeDone s l e && !inFlight s l e && (getEng s l e).rep == 0

/-! ### Lockstep (R151 to R157) -/

/-- The clusters, in mask order. -/
def clusters : List Eng := [.c0, .c1, .c2, .c3]

/-- The mask bit of a cluster. -/
def inMask (s : State) (l : Nat) (e : Eng) : Bool := (cx s l).mask.getLsbD (engIdx e - 1)

/-- The members of the sync group that take part: those that have not finished their code (R152). -/
def members (s : State) (l : Nat) : List Eng := clusters.filter fun e => inMask s l e && !finished s l e

/-- Whether the S-words of a cluster wait for a rendezvous: it is a member, or a mask that waits for the next rendezvous makes it one
(R152, R153) (DESIGN CHOICE: notes/assumptions/38.md). -/
def inGroup (s : State) (l : Nat) (e : Eng) : Bool :=
  inMask s l e || (match (cx s l).maskNext with
    | some m => m.getLsbD (engIdx e - 1)
    | none => false)

/-- The members still in the region. -/
def regionMembers (s : State) (l : Nat) : List Eng := (members s l).filter fun e => (getEng s l e).inRegion

/-- The position of the next repeat or word of a cluster: where its next reads stand (R156). -/
def effPos (s : State) (l : Nat) (e : Eng) : Nat :=
  let t := getEng s l e
  match t.cur with
  | some w => t.pos - ((w.extractLsb' 78 4).toNat + 1) + t.rep
  | none => t.pos

/-- The members still in the region that have words of it to issue: C0 at its next SYNCG has none (R153)
(DEDUCED: notes/assumptions/96.md). -/
def stepping (s : State) (l : Nat) : List Eng := (regionMembers s l).filter fun e => e != .c0 || !(getEng s l .c0).atS

/-- P_min of R154, over the positions at which the tick began (DESIGN CHOICE: notes/assumptions/38.md). -/
def pMin (s : State) (l : Nat) : Nat :=
  match (stepping s l).map fun e => (getEng s l e).pos0 with
  | [] => 0
  | p :: ps => ps.foldl min p

/-- The declared ease of a cluster's buffer. -/
def easeOf (s : State) (l : Nat) (e : Eng) : Nat := (vget 0 (cx s l).ease (engIdx e - 1)).toNat

/-- Whether every member at the least position is ready on this tick, when `e` is (R154). -/
def allReady (s : State) (l : Nat) (e : Eng) : Bool :=
  let p := pMin s l
  (getEng s l e).pos == p && (stepping s l).all fun m =>
    m == e || (getEng s l m).pos != p || (getEng s l m).ready || (getEng s l m).granted

/-- Whether a member before `e` that was let go has still to issue: the members at one position issue in the order of their
codes, in which a ring serves them (R76). -/
def grantsBefore (s : State) (l : Nat) (e : Eng) : Bool :=
  (stepping s l).any fun m => decide (engCode m < engCode e) && ((getEng s l m).granted || (getEng s l m).ready)

/-- Whether a member whose next word is an S-word may issue it on this tick (R154): by its ease, or together with every
member at the least position (DESIGN CHOICE: notes/assumptions/38.md). -/
def mayIssueS (s : State) (l : Nat) (e : Eng) : Bool :=
  let t := getEng s l e
  if grantsBefore s l e then !allReady s l e && decide (t.pos - pMin s l < easeOf s l e)
  else t.granted || allReady s l e || decide (t.pos - pMin s l < easeOf s l e)

/-- Whether lockstep would let a member issue on this tick whose banks then delay it: by its ease, or since every member at the least
position is ready but for such a delay (R154, R161). -/
def couldIssueS (s : State) (l : Nat) (e : Eng) : Bool :=
  let p := pMin s l
  let t := getEng s l e
  t.granted || decide (t.pos - p < easeOf s l e) || (t.pos == p && (stepping s l).all fun m =>
    m == e || (getEng s l m).pos != p || (getEng s l m).ready || (getEng s l m).granted || (getEng s l m).slow)

/-- The members at the least position are let go together (R154). -/
def grantAll (s : State) (l : Nat) (e : Eng) : State :=
  let p := pMin s l
  if (getEng s l e).pos != p then s
  else (stepping s l).foldl (fun s m =>
    if (getEng s l m).pos == p && (getEng s l m).ready then modEng s l m fun t => { t with granted := true, ready := false }
    else s) s

/-- A SYNCG or EASE that waits takes effect (R153). -/
def installSync (s : State) (l : Nat) : State :=
  modX s l fun x =>
    { x with mask := x.maskNext.getD x.mask, maskNext := none,
             ease := (List.range 5).foldl (fun v i => match vget none x.easeNext i with
               | some n => vset v i n
               | none => v) x.ease,
             easeNext := Vector.replicate 5 none }

/-- An engine after a stop or the entry of a handler (R157, R439): positions are not kept. The next word of a member of C1 to C3 has still
to show whether it is an S-word; C0 meets the others where it stood in the region, or at its SYNCG
(DEDUCED: notes/assumptions/96.md). -/
def regroupEng (ms : List Eng) (e : Eng) (t : EngSt) : EngSt :=
  let u := { t with ready := false, granted := false, slow := false, inRegion := false, pos := 0, pos0 := 0, atS := false, rejoin := false }
  if !ms.contains e then u
  else if e == .c0 then { u with atS := (t.inRegion && !t.atS) || (t.rejoin && t.atS), rejoin := t.inRegion || t.atS || t.rejoin }
  else { u with rejoin := true }

/-- The engines after a stop or the entry of a handler. -/
def regroup (s : State) (l : Nat) : Vector EngSt 5 :=
  (List.range 5).foldl (fun v i => vset v i (regroupEng (members s l) (engOf i) (vget EngSt.reset v i))) (cx s l).engs

/-- The members of the group are apart, and those whose next words are S-words are to meet at once (R157, R439). -/
def toMeet (s : State) (l : Nat) : State := modX s l fun x => { x with engs := regroup s l, meet := true }

/-- C0 leaves the region when every other member has left (R153). -/
def c0Leaves (s : State) (l : Nat) : State :=
  if (getEng s l .c0).inRegion && !((regionMembers s l).any fun e => e != .c0) then
    modEng s l .c0 fun t => { t with inRegion := false, pos := 0 }
  else s

/-- An engine leaves the region (R152). -/
def leaveRegion (s : State) (l : Nat) (e : Eng) : State :=
  c0Leaves (modEng s l e fun t => { t with inRegion := false, pos := 0, atS := false }) l

/-! ### Loop close (R159) and the loop levels of the AP (R192 to R196) -/

/-- LoopClose(c) of R159: the state after it, and cont. -/
def loopClose (s : State) (l : Nat) (e : Eng) : State × Bool :=
  let t := getEng s l e
  let cont := t.lc != 0 || t.ec.toNat > 1
  let stage := t.lc != 0
  let s := modEng s l e fun t =>
    if t.lc != 0 then { t with lc := t.lc - 1 } else if t.ec != 0 then { t with ec := t.ec - 1 } else t
  let ones : BitVec 256 := if stage then BitVec.allOnes 256 else 0
  let s := match e with
    | .c1 =>
      let rb := (cx s l).rb1 - 1
      wp (modX s l fun x => { x with rb1 := rb }) l false (pphys 8 rb) ones (BitVec.allOnes 256)
    | .c2 =>
      let rb := (cx s l).rb2 - 1
      wp (modX s l fun x => { x with rb2 := rb }) l true (pphys 8 rb) ones (BitVec.allOnes 256)
    | _ => s
  (s, cont)

/-- A loop level: START, CNT, LEN and V. -/
def getLoop (x : Ctxt) (i : Nat) : Word × BitVec 32 × BitVec 11 × Bool := vget (0, 0, 0, false) x.loops i

/-- The loop end of R193 after the word at `a` retires: the levels after it and the next PC. -/
def loopEnd (x : Ctxt) (a : Word) : Nat → Ctxt × Word
  | 0 => (x, a + 4)
  | i + 1 =>
    let p := getLoop x i
    if p.2.2.2 && a == p.1 + 4 * (BitVec.ofNat 64 p.2.2.1.toNat - 1) then
      if p.2.1.toNat > 1 then ({ x with loops := vset x.loops i (p.1, p.2.1 - 1, p.2.2.1, true) }, p.1)
      else loopEnd { x with loops := vset x.loops i (p.1, 0, 0, false) } a i
    else if p.2.2.2 then (x, a + 4)
    else loopEnd x a i

/-- Whether a level's body contains an address. -/
def inBody (p : Word × BitVec 32 × BitVec 11 × Bool) (t : Word) : Bool :=
  decide (p.1.toNat ≤ t.toNat) && decide (t.toNat < p.1.toNat + 4 * p.2.2.1.toNat)

/-- The levels that a branch to `t` abandons, from the innermost outwards (R194). -/
def loopLeave (x : Ctxt) (t : Word) : Nat → Ctxt
  | 0 => x
  | i + 1 =>
    let p := getLoop x i
    if p.2.2.2 then
      if inBody p t then x else loopLeave { x with loops := vset x.loops i (p.1, 0, 0, false) } t i
    else loopLeave x t i

/-! ### Retiring a scalar word -/

/-- A word of C0 to C3 of the running record has issued (R249). -/
def markEp (s : State) (l : Nat) : State :=
  modX s l fun x => { x with run := x.run.map fun r => { r with epIssued := true } }

/-- A C0 word of a region advances its position by 1 (R153). -/
def c0Advance (s : State) (l : Nat) (e : Eng) : State :=
  if e == .c0 then
    let go := !(cx s l).handlerMode
    modEng (markEp s l) l .c0 fun t => { t with pos := if t.inRegion && go then t.pos + 1 else t.pos, granted := false, ready := false }
  else s

/-- A scalar word that took no branch retires: the next word follows, or the loop end of R193 names it. -/
def retire (s : State) (l : Nat) (e : Eng) : State :=
  let pc := (getEng s l e).pc
  let s := note (c0Advance s l e) l e .issue []
  if e == .ap && !(cx s l).handlerMode then
    let r := loopEnd (cx s l) pc 2
    setPc (modX s l fun _ => r.1) l e r.2
  else setPc s l e (pc + wordLen e)

/-- A scalar word that took a branch or jump retires (R191, R194). -/
def takeBranch (s : State) (l : Nat) (e : Eng) (t : Word) : State :=
  let s := note (c0Advance s l e) l e .issue []
  let s := if e == .ap && !(cx s l).handlerMode then modX s l fun x => loopLeave x t 2 else s
  setPc s l e t

/-! ### Taking a trap and returning from one (R207, R435 to R441) -/

/-- The pinned word of C3 that waits for its STAMP, outside a handler (R444). -/
def pinnedWaits (s : State) (l : Nat) : Option C3Flight := (getCore s l).c3.find? fun f => f.w.pin && !f.started && !f.handler

/-- Where the engine that raised a trap resumes: C3 at a pinned word that is withdrawn, where there is one (R435, R445). -/
def resumeAt (s : State) (l : Nat) (t : Trap) : Word :=
  match t.eng, pinnedWaits s l with
  | .c3, some f => f.pc
  | _, _ => t.epc

/-- A pinned word that waits for its STAMP is withdrawn (R445): its tokens return, its DST reservation is freed, and C3
resumes at it (DEDUCED: notes/assumptions/37.md). -/
def withdrawPinned (s : State) (l : Nat) : State :=
  match pinnedWaits s l with
  | none => s
  | some f =>
    let back (s : State) (p : BitVec 3) : State := if p = 0 then s else tokAdd s l p.toNat 5 1
    let s := back (back (back s f.w.tok.s1) f.w.tok.s2) f.w.tok.s3
    let s := if f.w.tok.dst = 0 then s else tokReserve s l 5 f.w.tok.dst.toNat (-1)
    let s := modCore s l fun c => { c with c3 := c.c3.filter fun g => g.started || g.pc != f.pc || !g.w.pin }
    modEng s l .c3 fun t => { t with pc := f.pc }

/-- Whether the AP's word has acted elsewhere and must be let finish: a COPYW, or a barrier word whose home has it. -/
def ApWait.busy : ApWait → Bool
  | .copyw | .remote | .termed | .got _ | .refused _ => true
  | .none | .polling _ | .barrier | .take => false

/-- Whether the members of a region stand where a stop finds them: at one position, or, where one of them has raised the trap, no
one below that one, whose word has no effect (R157, R435) (DEDUCED: notes/assumptions/96.md). -/
def levelled (s : State) (l : Nat) (raiser : Option Eng) : Bool :=
  let ms := regionMembers s l
  let pos (e : Eng) : Nat := (getEng s l e).pos
  (cx s l).handlerMode || (match raiser.filter ms.contains with
    | some e => ms.all fun m => decide (pos e ≤ pos m)
    | none => ms.all fun e => ms.all fun m => pos e == pos m)

/-- Whether every engine stands at a bundle boundary with nothing in flight that must finish (R157, R435, R443): no C3 word
but a pinned one that waits, no repeat still to issue, no load without its value, no COPYW or barrier request under way, and the
members of a region where a stop finds them (DESIGN CHOICE: notes/assumptions/38.md). -/
def atBoundary (s : State) (l : Nat) (raiser : Option Eng) : Bool :=
  let c := getCore s l
  (c.c3.all fun f => f.w.pin && !f.started) && (clusters.all fun e => (getEng s l e).rep == 0) &&
    (c.apq.all fun q => match q.kind with
      | .ld _ | .lda .. | .amo .. | .cas .. | .sig _ => false
      | _ => true) && !c.apWait.busy && c.c3Wait != .remote && c.apFar.isEmpty && levelled s l raiser

/-- Waits withdrawn: the registration of a BARWAIT or an MWAIT, the place of a TAKE, and the place that a SPAWN holds in a queue
(R226, R244, R261, R345). -/
def dropWaiter (s : State) (l : Nat) : State :=
  { s with cores := s.cores.map fun c => (c.1, { c.2 with waiters := c.2.waiters.filter (fun w => w.core != l), places := c.2.places.filter (· != l) }),
           dies := s.dies.map fun d => { d with takers := d.takers.map fun t => (t.1, t.2.filter (· != l)) } }

/-- The engines that fetch words. -/
def fetchers : List Eng := [.ap, .c0, .c1, .c2, .c3]

/-- A trap is entered (R435 steps 3 to 5): results land, the trap CSRs and the EPCs are written, and the AP and C0 stand at
their vectors in handler mode, where both issue from the next tick on; with a vector of 0 the task is killed with cause 0x02. -/
def enterTrap (s : State) (l : Nat) (t : Trap) : State :=
  let back := resumeAt s l t
  let s := landAll (withdrawPinned (dropWaiter s l) l) l
  let s := modX s l fun x =>
    let pc (i : Nat) : Word := (vget EngSt.reset x.engs i).pc
    let epc : Vector Word 5 := (List.range 5).foldl (fun v i => vset v i (if engOf i == t.eng then back else pc i)) x.epc
    { x with tcause := t.code ++ 0#1 ++ BitVec.ofNat 3 t.eng.code ++ t.cause, tpc := t.pc, tword := t.word, epc := epc }
  let s := modCore (toMeet s l) l fun c =>
    { c with trap := none, wdogCnt := 0, apWait := .none, apWatch := none, c3Wait := .none, tried := fetchers, fetchFar := [],
             x := { c.x with streams := c.x.streams.map fun t => { t with closing := false } } }
  let s := trace s 3 l (cx s l).tcause.toNat t.pc 0
  if (cx s l).tvecAp = 0 ∨ (cx s l).tvecC0 = 0 then killTask s (runLid s l) 0x02
  else
    modX s l fun x =>
      let go (v : Vector EngSt 5) (i : Nat) (f : EngSt → EngSt) : Vector EngSt 5 := vset v i (f (vget EngSt.reset v i))
      let v := (List.range 5).foldl (fun v i => go v i fun e => { e with holds := false }) x.engs
      let v := go (go v 0 fun e => { e with pc := x.tvecAp }) 1 fun e => { e with pc := x.tvecC0 }
      { x with engs := v, handlerMode := true,
               han := { x.han with fifo := [], reserved := [], c3pc := none, start := false, leave := false, entered := now s } }

/-- Whether an engine has nothing more to raise on this tick: it has tried, or it has no word to try. -/
def triedOut (s : State) (l : Nat) (e : Eng) : Bool :=
  (getCore s l).tried.contains e || (match e, (cx s l).run with
    | _, none => true
    | .ap, some r => r.ended.isSome
    | e, some _ => codeDone s l e && (getEng s l e).rep == 0)

/-- Whether no engine of a lower code than `e` can still raise a trap on this tick (R436). -/
def lowestRaiser (s : State) (l : Nat) (e : Eng) : Bool :=
  fetchers.all fun k => decide (engCode e ≤ engCode k) || triedOut s l k

/-- A trap is raised (R435, R436): in handler mode it kills the task with cause 0x03; else it is entered at once where the
core stands at a bundle boundary and no engine of a lower code can raise one on this tick, and otherwise waits for the TRAP_ENTRY
event. Of several that wait, the earliest tick and then the lowest engine code stands. -/
def takeTrap (s : State) (l : Nat) (t : Trap) : State :=
  let t := { t with tick := now s }
  if (cx s l).handlerMode then killTask s (runLid s l) 0x03
  else match (getCore s l).trap with
    | some u => if u.tick == t.tick && decide (engCode t.eng < engCode u.eng) then modCore s l fun c => { c with trap := some t } else s
    | none =>
      let s := note s l t.eng .issue []
      if atBoundary s l (some t.eng) && lowestRaiser s l t.eng then enterTrap s l t else modCore s l fun c => { c with trap := some t }

/-- A precise trap of the word being executed (R121, R434). -/
def wordTrap (s : State) (cause : Nat) : State :=
  let l := s.current.core
  let e := s.current.eng
  takeTrap s l ⟨BitVec.ofNat 8 cause, e, 0, getPc s l e, s.current.word, getPc s l e, 0⟩

/-- The precise illegal-instruction trap (R121). -/
def illegal (s : State) : State := wordTrap s 0x01
/-- The precise privilege trap (R205). -/
def privTrap (s : State) : State := wordTrap s 0x02
/-- The precise stream-state fault (R211). -/
def streamTrap (s : State) : State := wordTrap s 0x03
/-- The precise barrier-phase trap (R258). -/
def barrierTrap (s : State) : State := wordTrap s 0x04

/-- The second of the two TRETs has executed: user mode begins with the next tick, on which the AP and C0 issue again; handler tokens
that still wait are discarded (R207, R438). -/
def endHandler (s : State) (l : Nat) : State :=
  modCore s l fun c =>
    { c with wdogCnt := 0, apq := c.apq.filter fun q => match q.kind with
               | .sig _ => false
               | _ => true
             x := { c.x with han := { c.x.han with leave := true } } }

/-- The return from handler mode (R207, R439): every engine stands at its EPC and the mode is user
(DEDUCED: notes/assumptions/96.md). -/
def leaveHandler (s : State) (l : Nat) : State :=
  modX s l fun x =>
    let v := (List.range 5).foldl (fun v i =>
      vset v i { vget EngSt.reset v i with pc := vget 0 x.epc i, holds := false, notBefore := 0 }) x.engs
    { x with engs := v, handlerMode := false,
             han := { x.han with fifo := [], reserved := [], c3pc := none, start := false, leave := false } }

end Sys2Proof.Machine
end

