-- ==== Sys2Proof/Machine/Flags.lean ====
section
/-! DEFINITION. Where condition flags go (R52, R93, R115, R273, R323): the status words and the one way each takes flags. -/

namespace Sys2Proof.Machine

/-- Flags of AP scalar conversions, ORed into CONV_ACF (R115, R119). -/
def convOr (s : State) (l : Nat) (f : Acf) : State :=
  if f = 0 then s else modX s l fun x => { x with convAcf := x.convAcf ||| f }

/-- Partial-block writes added to CONV_RMW (R119). -/
def rmwAdd (s : State) (l n : Nat) : State :=
  if n = 0 then s else modX s l fun x => { x with convRmw := x.convRmw + BitVec.ofNat 64 n }

/-- Flags of page conversions, ORed into a stream's ACF (R93, R115). -/
def streamOr (s : State) (l n : Nat) (f : Acf) : State :=
  if f = 0 then s else modStream s l n fun t => { t with acf := t.acf ||| f }

/-- WS[7:0] of a C3 word, ORed into MSTAT_C3, where a write of this tick leaves it set (R323, R324), or into HMSTAT for a
handler word (R441). -/
def wsOr (s : State) (l : Nat) (handler : Bool) (ws : BitVec 8) : State :=
  modCore s l fun c =>
    if handler then { c with x := { c.x with han := { c.x.han with hmstat := c.x.han.hmstat ||| ws } } }
    else { c with x := { c.x with mstat := c.x.mstat ||| ws.zeroExtend 64 }, tk := { c.tk with mset := c.tk.mset ||| ws.zeroExtend 64 } }

/-- The status word of a stream (R93). -/
def statusWord (t : Stream) : BitVec 32 :=
  let b (x : Bool) : BitVec 1 := BitVec.ofBool x
  let st : BitVec 2 := match t.st with | .closed => 0 | .opened => 1 | .stalled => 2 | .done => 3
  0#11 ++ t.acf ++ t.fltcnt ++ b t.refw ++ b t.waitcfg ++ b t.oob ++ b t.markv ++ b t.boe ++ b t.eosp ++ st

/-- The flags of a comparison of two 64-bit registers (R175, R190): equal, below signed, below unsigned. -/
def cmpEq (a b : Word) : Bool := a == b
/-- Below, read signed. -/
def cmpLt (a b : Word) : Bool := a.slt b
/-- Below, read unsigned. -/
def cmpLtu (a b : Word) : Bool := a.ult b

end Sys2Proof.Machine
end

