-- ==== Sys2Proof/Machine/Translate.lean ====
section
/-! DEFINITION. Translation: page tables and their walk (R416 to R421), the checks of R504, memory tags (R428, R429),
format-converting pages (R113 to R118, R181), refresh windows (R109) and the hotness sketch (R431). -/

namespace Sys2Proof.Machine

/-! ### Effective addresses (R176) -/

/-- The classes of an effective address. -/
inductive EaClass where
  | sp (off : Nat)
  | virt (va : Nat) (key : Nat)
  | bad
  deriving DecidableEq, Repr

/-- The class of an effective address (R176) (DEDUCED: notes/assumptions/14.md). -/
def classify (ea : Word) : EaClass :=
  let a := ea.toNat
  if a < 0x100000 then .sp a
  else if a / 2 ^ 48 % 2 ^ 12 == 0 && decide (0x100000 ≤ a % 2 ^ 48) then .virt (a % 2 ^ 48) (a / 2 ^ 60)
  else .bad

/-- What an access does to the bytes it reaches. -/
inductive AKind where
  | read | write | amo | fetch
  /-- A weight-store load's write (R108). -/
  | wsl
  deriving DecidableEq, Repr

/-- A fault as an access meets it: code, walk level, the PA of its record, key and lock (R425). -/
structure FInfo where
  code : Nat
  lvl : Nat
  pa : Nat
  key : Nat
  lock : Nat
  deriving DecidableEq, Repr

/-- A fault with nothing but its code. -/
def FInfo.plain (code : Nat) : FInfo := ⟨code, 0, 0, 0, 0⟩

/-! ### Page-table entries (R417) -/

/-- Bits of an entry. -/
def pteBits (e : BitVec 128) (lo w : Nat) : Nat := (e.toNat / 2 ^ lo) % 2 ^ w
/-- V. -/
def pteV (e : BitVec 128) : Bool := e.getLsbD 0
/-- LEAF. -/
def pteLeaf (e : BitVec 128) : Bool := e.getLsbD 1
/-- TE. -/
def pteTe (e : BitVec 128) : Bool := e.getLsbD 5
/-- HX. -/
def pteHx (e : BitVec 128) : Bool := e.getLsbD 6
/-- SAT. -/
def pteSat (e : BitVec 128) : Bool := e.getLsbD 7
/-- RND. -/
def pteRnd (e : BitVec 128) : RMode := rmodeOf (pteBits e 8 2)
/-- SFMT. -/
def pteS (e : BitVec 128) : Option Fmt := Fmt.ofCode (BitVec.ofNat 4 (pteBits e 10 4))
/-- DFMT. -/
def pteD (e : BitVec 128) : Option Fmt := Fmt.ofCode (BitVec.ofNat 4 (pteBits e 14 4))
/-- ADDR. -/
def pteAddr (e : BitVec 128) : Nat := pteBits e 64 52

/-- The bytes of a page of a level. -/
def pageSize (lvl : Nat) : Nat := 2 ^ (15 + 11 * lvl)

/-- The gauges of R113. -/
inductive Gauge where
  | ident
  /-- Element by element, from the stored format to the delivered one. -/
  | elem (s d : Fmt)
  /-- Blocks of MXFP4 or MXFP8. -/
  | mx (s d : Fmt)
  | illegal
  deriving DecidableEq, Repr

/-- The gauge of an entry (R113). -/
def gaugeOf (e : BitVec 128) : Gauge :=
  match pteS e, pteD e with
  | some s, some d =>
    if s == d then .ident
    else match s, d with
      | .mxfp4, .bf16 | .mxfp4, .fp16 | .mxfp4, .fp32 | .mxfp4, .e4m3 => .mx s d
      | .mxfp8, .bf16 | .mxfp8, .fp16 | .mxfp8, .fp32 => .mx s d
      | .e4m3, .bf16 | .e4m3, .fp32 | .e5m2, .bf16 | .e5m2, .fp32 | .bf16, .fp32 => .elem s d
      | _, _ => .illegal
  | _, _ => .illegal

/-- Bytes of packed data in a converting page's frame: D of R114. -/
def frameData (s d : Fmt) (lvl : Nat) : Nat := pageSize lvl * s.width / d.width

/-- Bytes of a frame (R114). -/
def frameSize (e : BitVec 128) (lvl : Nat) : Nat :=
  match gaugeOf e with
  | .ident | .illegal => pageSize lvl
  | .elem s d => frameData s d lvl
  | .mx s d => frameData s d lvl + pageSize lvl * 8 / d.width / 32

/-- The physical ranges of a row, for "the whole frame lies in one row". -/
def sameRow (a b : Nat) : Bool :=
  match rowOf a, rowOf b with
  | some (.hbm _), some (.hbm _) | some (.vault _), some (.vault _) | some .host, some .host | some (.sp _), some (.sp _)
  | some (.remote ..), some (.remote ..) => true
  | _, _ => false

/-- Whether a byte lies in a core's shadow area (R446). -/
def inShadow (s : State) (a : Nat) : Bool :=
  match rowOf a with
  | some (.vault l) => decide (vaultBase (l + 1) - (getCore s l).shadowSlots * 0x600000 ≤ a)
  | _ => false

/-- Whether the fields of an entry break R417 (its reserved bits, and a pointer's or frame's alignment). -/
def pteBroken (e : BitVec 128) (lvl : Nat) : Bool :=
  pteBits e 18 30 != 0 || pteBits e 116 12 != 0 ||
    (if pteLeaf e then pteAddr e % (if gaugeOf e == .ident then pageSize lvl else 512) != 0
     else pteBits e 2 16 != 0 || pteAddr e % 0x8000 != 0 || decide (0x8000000000 ≤ pteAddr e))

/-- Whether a leaf's frame breaks R417: it leaves its row or meets a shadow area. -/
def frameBroken (s : State) (e : BitVec 128) (lvl : Nat) : Bool :=
  let a := pteAddr e
  let z := a + frameSize e lvl - 1
  !sameRow a z ||
    (match rowOf a, rowOf z with
     | some (.vault l), some (.vault m) => (List.range (m + 1 - l)).any fun i =>
         (getCore s (l + i)).shadowSlots != 0 && decide (vaultBase (l + i + 1) - (getCore s (l + i)).shadowSlots * 0x600000 ≤ z)
     | _, _ => false)

/-- Whether an address of another device is fault 0x14 (R470). -/
def remoteBad (s : State) (a : Nat) : Bool :=
  match rowOf a with
  | none => true
  | some (.remote dev x) =>
    dev == s.devId.toNat % 512 || (tget [] s.routes dev).isEmpty ||
      (match rowOf x with
       | some (.hbm _) | some (.vault _) | some .host => false
       | _ => true)
  | some _ => false

/-- Whether an address is weight store, here or on another device. -/
def isWs (a : Nat) : Bool :=
  match rowOf a with
  | some (.vault _) => true
  | some (.remote _ x) => (match rowOf x with | some (.vault _) => true | _ => false)
  | _ => false

/-! ### The walk (R418) -/

/-- A translation: the leaf, its level and the entry's address. -/
structure Trans where
  pte : BitVec 128
  lvl : Nat
  at' : Nat
  deriving DecidableEq, Repr

/-- One level of Walk: the entry at a table for a virtual address. -/
def walkFrom (s : State) (va base : Nat) : Nat → Except FInfo Trans
  | 0 =>
    let a := base + 16 * (va / 2 ^ 15 % 2048)
    let e := BitVec.ofNat 128 (readNat s a 16)
    if !pteV e then .error ⟨0x01, 0, a, 0, 0⟩
    else if pteBroken e 0 || !pteLeaf e then .error ⟨0x13, 0, a, 0, 0⟩
    else .ok ⟨e, 0, a⟩
  | lv + 1 =>
    let a := base + 16 * (va / 2 ^ (15 + 11 * (lv + 1)) % 2048)
    let e := BitVec.ofNat 128 (readNat s a 16)
    if !pteV e then .error ⟨0x01, lv + 1, a, 0, 0⟩
    else if pteBroken e (lv + 1) then .error ⟨0x13, lv + 1, a, 0, 0⟩
    else if pteLeaf e then .ok ⟨e, lv + 1, a⟩
    else walkFrom s va (pteAddr e) lv

/-- The deepest entry of a walk cache for an address (R420) (DESIGN CHOICE: notes/assumptions/13.md). -/
def walkFind (wc : List WalkEnt) (asid : BitVec 12) (va : Nat) : Option WalkEnt :=
  let at' (lv : Nat) : Option WalkEnt := wc.find? fun e => e.asid == asid && e.lvl == lv && e.vpn == va / pageSize lv
  (at' 1).or ((at' 2).or (at' 3))

/-- Walk(asid, va) of R418, from the deepest entry that the walk cache holds for the address, else from the ASID table. The
record of fault 0x1A names the granule that holds the entry (R425). -/
def walk (s : State) (wc : List WalkEnt) (asid : BitVec 12) (va : Nat) : Except FInfo Trans :=
  match walkFind wc asid va with
  | some e => walkFrom s va e.base (e.lvl - 1)
  | none =>
    let a := s.asidBase + 8 * asid.toNat
    let t := readNat s a 8
    if t % 2 == 0 then .error ⟨0x1A, 3, a / 32 * 32, 0, 0⟩ else walkFrom s va (t / 2 ^ 15 % 2 ^ 37 * 2 ^ 15) 2

/-- The entry that a walk of an address reads next below what the walk cache holds, as the cache keeps it: none where it is not
valid, broken or a leaf (R418, R420) (DESIGN CHOICE: notes/assumptions/13.md). -/
def walkNext (s : State) (wc : List WalkEnt) (asid : BitVec 12) (va : Nat) : Option WalkEnt :=
  match walkFind wc asid va with
  | none =>
    let t := readNat s (s.asidBase + 8 * asid.toNat) 8
    if t % 2 == 0 then none else some ⟨asid, 3, va / pageSize 3, t / 2 ^ 15 % 2 ^ 37 * 2 ^ 15⟩
  | some e =>
    if e.lvl ≤ 1 then none
    else
      let p := BitVec.ofNat 128 (readNat s (e.base + 16 * (va / pageSize (e.lvl - 1) % 2048)) 16)
      if !pteV p || pteBroken p (e.lvl - 1) || pteLeaf p then none
      else some ⟨asid, e.lvl - 1, va / pageSize (e.lvl - 1), pteAddr p⟩

/-! ### TLBs (R420) -/

/-- The cached entry for an address. -/
def tlbFind (t : List TlbEnt) (asid : BitVec 12) (va : Nat) : Option TlbEnt :=
  t.find? fun e => e.asid == asid && e.vpn == va / pageSize e.lvl

/-- An entry cached, newest first, within the TLB's size (DESIGN CHOICE: notes/assumptions/13.md). -/
def tlbAdd (cap : Nat) (t : List TlbEnt) (asid : BitVec 12) (va : Nat) (x : Trans) : List TlbEnt :=
  (⟨asid, va / pageSize x.lvl, x.lvl, x.pte, x.at'⟩ :: t.filter fun e =>
    !(e.asid == asid && e.lvl == x.lvl && e.vpn == va / pageSize x.lvl)).take cap

/-- The entries that an invalidation leaves: it names one ASID and one address, one ASID, or every ASID (R213, R422). -/
def tlbDrop (t : List TlbEnt) (asid : Option (BitVec 12)) (va : Option Nat) : List TlbEnt :=
  t.filter fun e => !(match asid with
    | none => true
    | some a => e.asid == a && (match va with
      | none => true
      | some v => e.vpn == v / pageSize e.lvl))

/-! ### Frames and conversions (R114 to R118) -/

/-- Offset of a virtual address in its page. -/
def pageOff (x : Trans) (va : Nat) : Nat := va % pageSize x.lvl

/-- The delivered elements that `n` bytes at an offset touch: the first, and how many. -/
def elemSpan (d : Fmt) (off n : Nat) : Nat × Nat :=
  let w := d.width / 8
  (off / w, (off + n - 1) / w + 1 - off / w)

/-- The frame bytes that an access touches (R118): address and length. -/
def frameRanges (x : Trans) (va n : Nat) : List (Nat × Nat) :=
  let off := pageOff x va
  let base := pteAddr x.pte
  match gaugeOf x.pte with
  | .ident | .illegal => [(base + off, n)]
  | .elem sf d => let p := elemSpan d off n; [(base + p.1 * (sf.width / 8), p.2 * (sf.width / 8))]
  | .mx sf d =>
    let p := elemSpan d off n
    let b0 := p.1 / 32
    let bs := (p.1 + p.2 - 1) / 32 + 1 - b0
    let bb := if sf == .mxfp4 then 16 else 32
    [(base + b0 * bb, bs * bb), (base + frameData sf d x.lvl + b0, bs)]

/-- The 32-byte granules of a list of ranges. -/
def granules (rs : List (Nat × Nat)) : List Nat :=
  rs.flatMap fun r => (List.range ((r.1 + r.2 + 31) / 32 - r.1 / 32)).map fun i => (r.1 / 32 + i) * 32

/-- The granule that a fault 0x17 names (R425): the first poisoned one of the bytes that a checked access touches. -/
def granOf (s : State) (ps : List (Trans × Nat × Nat)) : Nat :=
  let gs := ps.flatMap fun p => granules (frameRanges p.1 p.2.1 p.2.2)
  (gs.find? fun g => anyPsn s g 32).getD (gs.headD 0)

/-- The same for bytes of a scratchpad, whose granules are of 64 bytes (R61, R63). -/
def spGran (s : State) (a n : Nat) : Nat :=
  (((List.range n).find? fun i => readPsn s (a + i)).map fun i => (a + i) / 64 * 64).getD (a / 64 * 64)

/-- A stored block: scale, codes and whether it is poisoned (R42, R43, R430). -/
def readBlock (s : State) (x : Trans) (sf d : Fmt) (b : Nat) : Nat × List Nat × Bool :=
  let base := pteAddr x.pte
  let bb := if sf == .mxfp4 then 16 else 32
  let sa := base + frameData sf d x.lvl + b
  let data := readNat s (base + b * bb) bb
  ((readByte s sa).toNat, elemsOf (bb / 4) 32 data, anyPsn s (base + b * bb) bb || readPsn s sa)

/-- The element format of a block format. -/
def mxElem (sf : Fmt) : FFmt := if sf == .mxfp4 then .e2m1 else .e4m3

/-- The flag of a poisoned input element (R52). -/
def psnFlag (psn : Bool) : Acf := if psn then fPSN else 0

/-- One delivered element of a converting page: its pattern, its flags and its mark (R52, R115). -/
def readElem (s : State) (x : Trans) (m : Nat) : Nat × Acf × Bool :=
  let base := pteAddr x.pte
  match gaugeOf x.pte with
  | .elem sf d =>
    let w := sf.width / 8
    let r := roundF (decodeF (ffOf sf) (readNat s (base + m * w) w)) (ffOf d) (pteRnd x.pte) (pteSat x.pte)
    let psn := anyPsn s (base + m * w) w
    (r.1, r.2 ||| psnFlag psn, psn)
  | .mx sf d =>
    let b := readBlock s x sf d (m / 32)
    let r := mxDequant b.1 b.2.1 (mxElem sf) (ffOf d) (pteRnd x.pte) (pteSat x.pte)
    (r.1.getD (m % 32) 0, r.2 ||| psnFlag b.2.2, b.2.2)
  | _ => (0, 0, false)

/-- Bytes of a page as delivered, with their flags (R115, R355). -/
def readPage (s : State) (x : Trans) (va n : Nat) : List PByte × Acf :=
  let off := pageOff x va
  match gaugeOf x.pte with
  | .ident | .illegal => (readPBytes s (pteAddr x.pte + off) n, 0)
  | .elem _ d | .mx _ d =>
    let w := d.width / 8
    let p := elemSpan d off n
    let es := (List.range p.2).map fun i => readElem s x (p.1 + i)
    let bytes := es.flatMap fun e => (toLE w e.1).map fun b => (⟨b, e.2.2⟩ : PByte)
    ((bytes.drop (off - p.1 * w)).take n, es.foldl (fun f e => f ||| e.2.1) 0)

/-- BlockWrite of R116: `xs` gives each element written, none for one that keeps its stored value. The answer holds the bytes of the
codes, the scale and the flags. -/
def blockWrite (s : State) (x : Trans) (sf d : Fmt) (b : Nat) (xs : List (Option (Nat × Bool))) : List PByte × PByte × Acf :=
  let bb := if sf == .mxfp4 then 16 else 32
  let old := readBlock s x sf d b
  let partly := xs.any Option.isNone
  let v := (xs.zip old.2.1).map fun p => match p.1 with
    | some e => decodeF (ffOf d) e.1
    | none => match e8m0 old.1 with
      | none => FNum.nan
      | some k => (decodeF (mxElem sf) p.2).scale k
  let psn := xs.any (fun e => match e with | some p => p.2 | none => false) || (partly && old.2.2)
  let q := mxQuant v (mxElem sf) (pteRnd x.pte)
  ((toLE bb (packElems (bb / 4) q.2.1)).map fun y => ⟨y, psn⟩, ⟨BitVec.ofNat 8 q.1, psn⟩, q.2.2 ||| psnFlag psn)

/-- Whether an element is only partly covered by a write. -/
def partElem (w off n m : Nat) : Bool := m * w < off || off + n < (m + 1) * w

/-- Delivered element `m` as a write of `bs` at offset `off` leaves it: its pattern, its mark and the flags of the read that a
partial element needs (R181) (DESIGN CHOICE: notes/assumptions/77.md). -/
def mergedElem (s : State) (x : Trans) (w off m : Nat) (bs : List PByte) : Nat × Bool × Acf :=
  let part := partElem w off bs.length m
  let r := readElem s x m
  let old := toLE w r.1
  let new := (List.range w).map fun i =>
    let a := m * w + i
    if off ≤ a && a < off + bs.length then (bs.getD (a - off) ⟨0, false⟩) else ⟨old.getD i 0, r.2.2⟩
  (ofLE (new.map (·.b)), new.any (·.psn), if part then r.2.1 else 0)

/-- Bytes written through a page as delivered (R116, R181): the state, the flags and the partial-block writes counted. Adjacent
elements and blocks are written together, so that clean ones that cover a granule clear its mark (R430). -/
def writePage (s : State) (x : Trans) (va : Nat) (bs : List PByte) : State × Acf × Nat :=
  let off := pageOff x va
  let n := bs.length
  if n == 0 then (s, 0, 0)
  else match gaugeOf x.pte with
  | .ident | .illegal => (writePBytes s (pteAddr x.pte + off) bs, 0, 0)
  | .elem sf d =>
    let w := d.width / 8
    let p := elemSpan d off n
    let sw := sf.width / 8
    let es := (List.range p.2).map fun i =>
      let e := mergedElem s x w off (p.1 + i) bs
      let r := roundF (decodeF (ffOf d) e.1) (ffOf sf) (pteRnd x.pte) (pteSat x.pte)
      ((toLE sw r.1).map fun y => (⟨y, e.2.1⟩ : PByte), r.2 ||| e.2.2 ||| psnFlag e.2.1)
    (writePBytes s (pteAddr x.pte + p.1 * sw) (es.flatMap (·.1)), es.foldl (fun a e => a ||| e.2) 0, 0)
  | .mx sf d =>
    let w := d.width / 8
    let p := elemSpan d off n
    let b0 := p.1 / 32
    let bb := if sf == .mxfp4 then 16 else 32
    let bw := (List.range ((p.1 + p.2 - 1) / 32 + 1 - b0)).map fun i =>
      let xs := (List.range 32).map fun j =>
        let m := (b0 + i) * 32 + j
        if p.1 ≤ m && m < p.1 + p.2 then some (mergedElem s x w off m bs) else none
      let r := blockWrite s x sf d (b0 + i) (xs.map fun e => e.map fun e => (e.1, e.2.1))
      let fl := xs.foldl (fun a e => match e with | some e => a ||| e.2.2 | none => a) (0 : Acf)
      (r.1, r.2.1, r.2.2 ||| fl, if xs.any Option.isNone then 1 else 0)
    let t := writePBytes s (pteAddr x.pte + b0 * bb) (bw.flatMap (·.1))
    (writePBytes t (pteAddr x.pte + frameData sf d x.lvl + b0) (bw.map (·.2.1)),
      bw.foldl (fun a e => a ||| e.2.2.1) 0, bw.foldl (fun a e => a + e.2.2.2) 0)

/-- Whether a write reads what it leaves of a partial element, or of a block (R116, R181). -/
def merges (x : Trans) (va n : Nat) : Bool :=
  let off := pageOff x va
  match gaugeOf x.pte with
  | .ident | .illegal => false
  | .elem _ d => off % (d.width / 8) != 0 || (off + n) % (d.width / 8) != 0
  | .mx _ d => off % (4 * d.width) != 0 || (off + n) % (4 * d.width) != 0

/-- Whether the merge of a write reads poisoned data (R182): a partial element, or the rest of a partial block. -/
def mergePsn (s : State) (x : Trans) (va n : Nat) : Bool :=
  let off := pageOff x va
  match gaugeOf x.pte with
  | .ident | .illegal => false
  | .elem _ d =>
    let w := d.width / 8
    let p := elemSpan d off n
    (List.range p.2).any fun i => partElem w off n (p.1 + i) && (readElem s x (p.1 + i)).2.2
  | .mx sf d =>
    let w := d.width / 8
    let p := elemSpan d off n
    let b0 := p.1 / 32
    (List.range ((p.1 + p.2 - 1) / 32 + 1 - b0)).any fun i =>
      (List.range 32).any (fun j =>
        let m := (b0 + i) * 32 + j
        !(p.1 ≤ m && m < p.1 + p.2) || partElem w off n m) && (readBlock s x sf d (b0 + i)).2.2

/-! ### The checks of a translated access (R504) -/

/-- The lock of a granule (R428). -/
def lockOf (s : State) (g : Nat) : Nat := (tget 0 s.locks (g / 32)).toNat

/-- The faults of the leaf entry, in the order of R504 (3) (DEDUCED: notes/assumptions/24.md). -/
def leafFault (s : State) (x : Trans) (va n : Nat) (k : AKind) : Option FInfo :=
  let rs := frameRanges x va n
  let ent (c : Nat) : Option FInfo := some ⟨c, x.lvl, x.at', 0, 0⟩
  let gran (c : Nat) : Option FInfo := some ⟨c, 0, (rs.headD (0, 0)).1 / 32 * 32, 0, 0⟩
  let wr := k == .write || k == .amo || (k == .wsl && (match rowOf (pteAddr x.pte) with | some (.remote ..) => true | _ => false))
  if frameBroken s x.pte x.lvl then ent 0x13
  else if rs.any fun r => remoteBad s r.1 || remoteBad s (r.1 + r.2 - 1) then gran 0x14
  else if gaugeOf x.pte == .illegal then ent 0x12
  else if wr && isWs (pteAddr x.pte) then gran 0x16
  else if k == .amo && gaugeOf x.pte != .ident then gran 0x18
  else if (k == .read && !x.pte.getLsbD 2) || ((k == .write || k == .wsl) && !x.pte.getLsbD 3) ||
      (k == .amo && !(x.pte.getLsbD 2 && x.pte.getLsbD 3)) || (k == .fetch && !x.pte.getLsbD 4) then ent 0x10
  else none

/-- Whether the checks at the home (R504 (4)) of a byte are made now: always, or only for a home on the die given, where the
access performs as it departs (R358). -/
def homeNow (near : Option Nat) (a : Nat) : Bool :=
  match near with
  | none => true
  | some d => homeDie a == some d

/-- The base of the home of a byte where that home is gone: a vault mapped out or the scratchpad of a vacant core (R17, R495). -/
def goneBase (s : State) (a : Nat) : Option Nat :=
  match rowOf a with
  | some (.vault l) => if s.deadVaults.contains l then some (vaultBase l) else none
  | some (.sp l) => if isVacant s l then some (spBase l) else none
  | _ => none

/-- The first granule of some ranges, no longer than a page, whose home is gone and is checked now: a range meets at most two
homes. -/
def goneGran (s : State) (near : Option Nat) (rs : List (Nat × Nat)) : Option Nat :=
  rs.findSome? fun r => [r.1, r.1 + r.2 - 1].findSome? fun a =>
    if homeNow near a then (goneBase s a).map fun b => max r.1 b / 32 * 32 else none

/-- The faults at the home, in the order of R504 (4), 0x17 apart; another device compares the locks of its own granules
(DEDUCED: notes/assumptions/24.md). -/
def homeFault (s : State) (near : Option Nat) (x : Trans) (va n key : Nat) : Option FInfo :=
  let rs := frameRanges x va n
  match goneGran s near rs with
  | some g => some ⟨0x19, 0, g, 0, 0⟩
  | none =>
    if pteTe x.pte then
      match (granules rs).find? fun g => homeNow near g && (homeDie g).isSome && !isSp g && lockOf s g != key with
      | some g => some ⟨0x11, 0, g, key, lockOf s g⟩
      | none => none
    else none

/-- Whether a byte's bank group is in its refresh window (R109). -/
def refreshing (s : State) (a : Nat) : Bool :=
  match s.refresh, rowOf a with
  | some g, some (.vault l) => (a - vaultBase l) / 1024 % 16 == g
  | _, _ => false

/-- Whether some of `n` bytes lie in a bank group that is in its refresh window (R109): the groups change every 1,024 bytes. -/
def refreshIn (s : State) (a n : Nat) : Bool :=
  (List.range ((a + n + 1023) / 1024 - a / 1024)).any fun i => refreshing s ((a / 1024 + i) * 1024)

/-- Whether a part of a checked access meets a refresh window (R109). -/
def refreshPart (s : State) (x : Trans) (va n : Nat) : Bool := (frameRanges x va n).any fun r => refreshIn s r.1 r.2

/-- What a check of one page's part of an access gives. -/
inductive Chk where
  | ok (x : Trans)
  | wait
  | bad (f : FInfo)
  deriving DecidableEq, Repr

/-- Whether a launch is a weight-store loader: its reads of the weight store are faults (R240). -/
def isWslLaunch (s : State) (lid : BitVec 16) : Bool :=
  match getLaunch s lid with
  | some x => x.wsl
  | none => false


/-- The conditions on a translation already found (DEDUCED: notes/assumptions/24.md). -/
def checkTrans (s : State) (near : Option Nat) (x : Trans) (lid : BitVec 16) (va n key : Nat) (k : AKind) : Chk :=
  match leafFault s x va n k with
  | some f => .bad f
  | none =>
    if (k == .read || k == .fetch) && isWs (pteAddr x.pte) && isWslLaunch s lid then
      .bad ⟨0x1D, 0, ((frameRanges x va n).headD (0, 0)).1 / 32 * 32, 0, 0⟩
    else match homeFault s near x va n key with
      | some f => .bad f
      | none => if refreshPart s x va n then .wait else .ok x

/-- The entries of a walk cache that an invalidation leaves (R213, R422). -/
def walkDrop (wc : List WalkEnt) (asid : Option (BitVec 12)) (va : Option Nat) : List WalkEnt :=
  wc.filter fun e => !(match asid with
    | none => true
    | some a => e.asid == a && (match va with
      | none => true
      | some v => e.vpn == v / pageSize e.lvl))

/-- The part of an access that lies in one page: the check, and the TLB after it. A cached entry that gives a permission
fault or a tag mismatch is walked again, from the tables, before the fault stands (R421) (DESIGN CHOICE: notes/assumptions/13.md). -/
def checkPage (s : State) (near : Option Nat) (wc : List WalkEnt) (tlb : List TlbEnt) (cap : Nat) (asid : BitVec 12) (lid : BitVec 16) (va n key : Nat) (k : AKind) :
    Chk × List TlbEnt :=
  let fresh (wc : List WalkEnt) (t : List TlbEnt) : Chk × List TlbEnt :=
    match walk s wc asid va with
    | .error f => (.bad f, t)
    | .ok x => (checkTrans s near x lid va n key k, tlbAdd cap t asid va x)
  match tlbFind tlb asid va with
  | none => fresh wc tlb
  | some e =>
    match checkTrans s near ⟨e.pte, e.lvl, e.pteAddr⟩ lid va n key k with
    | .bad f => if f.code == 0x10 || f.code == 0x11 then fresh [] (tlbDrop tlb (some asid) (some va)) else (.bad f, tlb)
    | r => (r, tlb)

/-- The parts of an access by 32 KiB page: address and length (R178). -/
def splitPages : Nat → Nat → Nat → List (Nat × Nat)
  | 0, _, _ => []
  | f + 1, va, n =>
    if n == 0 then []
    else
      let k := min n (0x8000 - va % 0x8000)
      (va, k) :: splitPages f (va + k) (n - k)

/-- What the check of a whole access gives: its parts with their translations. -/
inductive Res where
  | ok (ps : List (Trans × Nat × Nat))
  | wait
  | bad (f : FInfo) (va : Nat)
  deriving DecidableEq, Repr

/-- Every part of an access checked in ascending order of address (DEDUCED: notes/assumptions/14.md). -/
def checkAll (s : State) (near : Option Nat) (wc : List WalkEnt) (cap : Nat) (asid : BitVec 12) (lid : BitVec 16) (key : Nat) (k : AKind) :
    List (Nat × Nat) → List TlbEnt → Res × List TlbEnt
  | [], t => (.ok [], t)
  | p :: ps, t =>
    match checkPage s near wc t cap asid lid p.1 p.2 key k with
    | (.bad f, t) => (.bad f p.1, t)
    | (.wait, t) => (.wait, t)
    | (.ok x, t) =>
      match checkAll s near wc cap asid lid key k ps t with
      | (.ok xs, t) => (.ok ((x, p.1, p.2) :: xs), t)
      | r => r

/-- An access of `n` bytes at a virtual address (DEDUCED: notes/assumptions/14.md). -/
def checkVa (s : State) (near : Option Nat) (wc : List WalkEnt) (tlb : List TlbEnt) (cap : Nat) (asid : BitVec 12) (lid : BitVec 16) (va n key : Nat) (k : AKind) :
    Res × List TlbEnt :=
  checkAll s near wc cap asid lid key k (splitPages (n / 0x8000 + 2) va n) tlb

/-! ### Scratchpads reached through pages (R62, R111) -/

/-- The scratchpad bytes that a checked access reaches: for each core the offsets and lengths. -/
def spOf (ps : List (Trans × Nat × Nat)) : List (Nat × List (Nat × Nat)) :=
  let rs := ps.flatMap fun p => (frameRanges p.1 p.2.1 p.2.2).filterMap fun r => match rowOf r.1 with
    | some (.sp m) => some (m, r.1 - spBase m, r.2)
    | _ => none
  ((rs.map (·.1)).eraseDups).map fun m => (m, rs.filterMap fun r => if r.1 == m then some r.2 else none)

/-- Whether the banks that a checked access reaches serve a requester on this tick (R62). -/
def partsTurn (s : State) (who : Nat) (ps : List (Trans × Nat × Nat)) : Bool := (spOf ps).all fun r => bankTurn s r.1 who r.2

/-- Those banks serve it. -/
def useParts (s : State) (who : Nat) (ps : List (Trans × Nat × Nat)) : State := (spOf ps).foldl (fun s r => useBanks s r.1 who r.2) s

/-- It waits for those that do not. -/
def holdParts (s : State) (who : Nat) (ps : List (Trans × Nat × Nat)) : State :=
  (spOf ps).foldl (fun s r => if bankTurn s r.1 who r.2 then s else bankHold s r.1 who r.2) s

/-- The counts of ECC_STAT after a read of a checked access: of each core whose scratchpad it reaches through a page (R498). -/
def touchParts (s : State) (ps : List (Trans × Nat × Nat)) : State :=
  if s.eccBad.isEmpty && s.eccSoft.isEmpty then s
  else ps.foldl (fun s p => (frameRanges p.1 p.2.1 p.2.2).foldl (fun s r =>
    match rowOf r.1 with
    | some (.sp m) => spTouch s m (r.1 - spBase m) r.2
    | _ => s) s) s

/-- The delivered bytes of a checked access, and the flags (R115). -/
def readParts (s : State) (ps : List (Trans × Nat × Nat)) : List PByte × Acf :=
  ps.foldl (fun a p => let r := readPage s p.1 p.2.1 p.2.2; (a.1 ++ r.1, a.2 ||| r.2)) ([], 0)

/-- Bytes written through a checked access: the state, the flags and the partial-block writes (R116).
(DESIGN CHOICE: notes/assumptions/31.md). -/
def writeParts (s : State) (ps : List (Trans × Nat × Nat)) (bs : List PByte) : State × Acf × Nat :=
  (ps.foldl (fun (a : (State × Acf × Nat) × List PByte) p =>
    let r := writePage a.1.1 p.1 p.2.1 (a.2.take p.2.2)
    ((r.1, a.1.2.1 ||| r.2.1, a.1.2.2 + r.2.2), a.2.drop p.2.2)) ((s, 0, 0), bs)).1

/-! ### Hotness (R431) -/

/-- h_r(P). -/
def hotHash (r p : Nat) : Nat :=
  (p * (match r with | 0 => 0x9E3779B1 | 1 => 0x85EBCA77 | 2 => 0xC2B2AE3D | _ => 0x27D4EB2F)) % 2 ^ 32 / 2 ^ 20

/-- The least listed count, with the greatest P among equals. -/
def hotLeast : List (Nat × Nat) → Option (Nat × Nat)
  | [] => none
  | c :: cs => match hotLeast cs with
    | none => some c
    | some d => if c.2 < d.2 || (c.2 == d.2 && c.1 > d.1) then some c else some d

/-- One 64-byte access counted by its controller. -/
def hotCount (st : Stack) (a : Nat) : Stack :=
  let p := a / 2 ^ 15 % 2 ^ 37
  let sk := forUp 4 st.sketch fun r t => tset t (4096 * r + hotHash r p) (min 65535 (tget 0 t (4096 * r + hotHash r p) + 1))
  let est := forUp 4 65535 fun r m => min m (tget 0 sk (4096 * r + hotHash r p))
  let cand :=
    if st.cand.any (·.1 == p) then st.cand.map fun c => if c.1 == p then (p, est) else c
    else if st.cand.length < 64 then st.cand ++ [(p, est)]
    else match hotLeast st.cand with
      | some c => if est > c.2 then (st.cand.filter fun d => d.1 != c.1) ++ [(p, est)] else st.cand
      | none => st.cand
  { st with sketch := sk, cand := cand }

/-- A line put into a list in ascending order, behind its equals. -/
def lineAdd (a : Nat) : List Nat → List Nat
  | [] => [a]
  | b :: t => if b ≤ a then b :: lineAdd a t else a :: b :: t

/-- A 64-byte access that has reached its controller on this tick: the accesses of a tick are counted at its end, in ascending
order of physical address (DESIGN CHOICE: notes/assumptions/71.md). -/
def hotTouch (s : State) (a : Nat) : State :=
  match rowOf a with
  | some (.hbm k) =>
    let st := tget { Stack.reset with done := now s / 2 ^ 20 } s.hbm k
    { s with hbm := tset s.hbm k { st with lines := lineAdd a st.lines } }
  | _ => s

/-- The accesses of a tick counted by every controller. -/
def hotSettle (s : State) : State :=
  if s.hbm.all fun k => k.2.lines.isEmpty then s
  else { s with hbm := s.hbm.map fun k => (k.1, { k.2.lines.foldl hotCount k.2 with lines := [] }) }

/-- The 64-byte accesses of a checked access, through entries with HX = 0 (DESIGN CHOICE: notes/assumptions/71.md). -/
def hotParts (s : State) (ps : List (Trans × Nat × Nat)) : State :=
  ps.foldl (fun s p =>
    if pteHx p.1.pte then s
    else (frameRanges p.1 p.2.1 p.2.2).foldl (fun s r =>
      forUp ((r.1 + r.2 + 63) / 64 - r.1 / 64) s fun i s => hotTouch s ((r.1 / 64 + i) * 64)) s) s

/-! ### Tag history (R494) -/

/-- The 64-byte lines of a checked access. -/
def linesOf (ps : List (Trans × Nat × Nat)) : List Nat :=
  ps.flatMap fun p => (frameRanges p.1 p.2.1 p.2.2).flatMap fun r =>
    (List.range ((r.1 + r.2 + 63) / 64 - r.1 / 64)).map fun i => (r.1 / 64 + i) * 64

/-- The capture of a die's first tag mismatch, and the count of later ones (R494). -/
def tagCapture (s : State) (f : FInfo) : State :=
  if f.code != 0x11 then s
  else match homeDie f.pa with
    | none => s
    | some d =>
      let die := vget Die.reset s.dies d
      let t := die.taghist
      let t' : TagHist :=
        if t.valid then { t with missed := min 65535 (t.missed + 1) }
        else
          let es := (die.journal.filter fun j => j.1 == f.pa).take 4
          ⟨f.pa, f.key, f.lock, true, t.missed, es.map fun j => (j.2.1, j.2.2)⟩
      { s with dies := vset s.dies d { die with taghist := t' } }

/-- A fault of an agent raised: its record waits to be written (R425). An unresolvable one kills its task once written. -/
def agentFault (s : State) (f : FInfo) (l : Nat) (e : Eng) (strm : Nat) (k : AKind) (asid : BitVec 12) (lid : BitVec 16)
    (va : Word) : State :=
  raiseFault (tagCapture s f)
    { fcode := f.code, core := l, agent := e, adm := false, stream := strm, lvl := f.lvl,
      write := k == .write || k == .amo || k == .wsl, fetch := k == .fetch, asid := asid, lid := lid, va := va, pa := f.pa, tick := 0,
      key := if f.code == 0x11 then f.key else 0, lock := if f.code == 0x11 then f.lock else 0, seq := 0 }

end Sys2Proof.Machine
end

