-- ==== Sys2Proof/Machine/Operands.lean ====
section
/-! DEFINITION. Operand forms and the issue of a scalar word: legality on the issuing engine, lockstep, the interlock and the
guard (R121 to R128, R152 to R156). -/

namespace Sys2Proof.Machine

/-- What every meaning answers with. -/
abbrev Out := Host.Outcome State Fault Refusal

/-- An immediate field sign-extended to 64 bits (R125). -/
def sx {n : Nat} (x : BitVec n) : Word := x.signExtend 64

/-! ### Lockstep gates (R152 to R156) -/

/-- The member holds: it is ready, and its attempt does not count as its try of this tick. Where it was the last to become
ready, the others may go. -/
def holdReady (s : State) (l : Nat) (e : Eng) : State :=
  let s := if allReady s l e then grantAll s l e else s
  let s := note s l e .flag [210]
  let s := modEng s l e fun t => { t with ready := t.pos == pMin s l }
  modCore s l fun c => { c with tried := c.tried.filter (· != e) }

/-- The member holds and is not ready. -/
def holdFor (s : State) (l : Nat) (e : Eng) (flags : List Nat) : State :=
  modEng (waitOn s l e flags) l e fun t => { t with ready := false, granted := false }

/-- Whether C0 takes part in a region now (R153). -/
def c0InRegion (s : State) (l : Nat) : Bool := !(cx s l).handlerMode && (getEng s l .c0).inRegion

/-- Whether every member of the region has reached a position (R156) (DESIGN CHOICE: notes/assumptions/38.md). -/
def allReached (s : State) (l p : Nat) : Bool := (regionMembers s l).all fun e => decide (p ≤ effPos s l e)

/-! ### The interlock (R128) -/

/-- Whether a queue entry has still to write a register. -/
def owes (k : QKind) : Bool :=
  match k with
  | .ld _ | .lda .. | .amo .. | .cas .. => true
  | _ => false

/-- Whether an older word of the AP has not yet written a register. -/
def regPending (s : State) (l : Nat) (e : Eng) (r : Reg) : Bool :=
  e == .ap && r != 0 &&
    (getCore s l).apq.any fun q => owes q.kind && q.dst == r

/-! ### Issue of a scalar word -/

/-- Whether C0 has still to meet the other members after a stop (R157). -/
def mustMeet (s : State) (l : Nat) (e : Eng) : Bool := e == .c0 && !(cx s l).handlerMode && (getEng s l e).rejoin && (getEng s l e).atS

/-- A word of C0 that takes effect after a stop has met the other members. -/
def rejoined (s : State) (l : Nat) (e : Eng) : State :=
  if e == .c0 && !(cx s l).handlerMode && (getEng s l e).rejoin then modEng s l e fun t => { t with rejoin := false } else s

/-- A scalar word: legal on the engines listed, its register fields within the engine's file, after a stop its meeting with the other
members (R157), its registers available, its waits over, its place in a region, and then its guard (R121 to R128). `xw` marks words
whose C0 form writes what other clusters read. -/
def scalarWord (engs : List Eng) (k : Guard) (regs : List Reg) (hOk xw : Bool)
    (ready : State → Nat → Eng → Option (List Nat)) (body : State → Nat → Eng → State) (s : State) : Out :=
  let l := s.current.core
  let e := s.current.eng
  .next <|
    if !engs.contains e || (e == .c0 && regs.any fun r => r.msb) || ((cx s l).handlerMode && !hOk) then illegal s
    else if mustMeet s l e then waitOn s l e [210]
    else if regs.any (regPending s l e) then waitOn s l e [208]
    else
      let go := rk s l e k.toNat
      match (if go then ready s l e else none) with
      | some flags => holdFor s l e flags
      | none =>
        if e == .c0 && c0InRegion s l then
          if go && xw && !allReached s l (getEng s l .c0).pos then holdFor s l e [210]
          else if !mayIssueS s l e then holdReady s l e
          else
            let u := grantAll (rejoined s l e) l e
            if go then body u l e else retire u l e
        else
          let u := rejoined s l e
          if go then body u l e else retire u l e

/-- No wait. -/
def noWait (_ : State) (_ : Nat) (_ : Eng) : Option (List Nat) := none

/-- A word that writes a register and nothing else: both engines, both modes. -/
def regWord (k : Guard) (d : Reg) (regs : List Reg) (f : State → Nat → Eng → Word) (s : State) : Out :=
  scalarWord [.ap, .c0] k (d :: regs) true true noWait (fun s l e => retire (wreg s l e d (f s l e)) l e) s

/-- D := f(A, B). -/
def alu (k : Guard) (d a b : Reg) (f : Word → Word → Word) (s : State) : Out :=
  regWord k d [a, b] (fun s l e => f (rreg s l e a) (rreg s l e b)) s

/-- D := f(A). -/
def aluUn (k : Guard) (d a : Reg) (f : Word → Word) (s : State) : Out := regWord k d [a] (fun s l e => f (rreg s l e a)) s

/-- A word that writes a predicate and nothing else. -/
def predWord (k : Guard) (d : Reg) (regs : List Reg) (f : State → Nat → Eng → Bool) (s : State) : Out :=
  scalarWord [.ap, .c0] k regs true false noWait (fun s l e => retire (wk s l e d.toNat (f s l e)) l e) s

/-- 1 or 0. -/
def bit (c : Bool) : Word := if c then 1 else 0

/-- A word of the AP. -/
def apWord (k : Guard) (regs : List Reg) (hOk : Bool) (body : State → Nat → State) (s : State) : Out :=
  scalarWord [.ap] k regs hOk false noWait (fun s l _ => body s l) s

end Sys2Proof.Machine
end

