-- ==== Sys2Proof/Machine/Control.lean ====
section
/-! DEFINITION. Branches, jumps, hardware loops, branch-outcome queues and tokens of the AP and C0 (R189 to R202), and the
loop close, rotation and sync words of C0 (R217 to R220). -/

namespace Sys2Proof.Machine

/-- A branch: taken to PC + 4 × offset when the condition holds (R189). -/
def branchWord (k : Guard) (regs : List Reg) (off : Word) (c : State → Nat → Eng → Bool) (s : State) : Out :=
  scalarWord [.ap, .c0] k regs true false noWait
    (fun s l e => if c s l e then takeBranch s l e (getPc s l e + 4 * off) else retire s l e) s

/-- B (R189). -/
def execB (k : Guard) (off : BitVec 22) (s : State) : Out := branchWord k [] (sx off) (fun _ _ _ => true) s

/-- BK (R189): K names the predicate tested, and there is no guard. -/
def execBk (k : Guard) (off : BitVec 22) (s : State) : Out := branchWord 0 [] (sx off) (fun s l e => !rk s l e k.toNat) s

/-- A comparison of D with A (R190). -/
def bcc (k : Guard) (d a : Reg) (imm : BitVec 12) (f : Word → Word → Bool) (s : State) : Out :=
  branchWord k [d, a] (sx imm) (fun s l e => f (rreg s l e d) (rreg s l e a)) s

/-- BCC.eq (R190). -/
def execBccEq (k : Guard) (d a : Reg) (imm : BitVec 12) (s : State) : Out := bcc k d a imm cmpEq s
/-- BCC.ne (R190). -/
def execBccNe (k : Guard) (d a : Reg) (imm : BitVec 12) (s : State) : Out := bcc k d a imm (fun x y => !cmpEq x y) s
/-- BCC.lt (R190). -/
def execBccLt (k : Guard) (d a : Reg) (imm : BitVec 12) (s : State) : Out := bcc k d a imm cmpLt s
/-- BCC.ge (R190). -/
def execBccGe (k : Guard) (d a : Reg) (imm : BitVec 12) (s : State) : Out := bcc k d a imm (fun x y => !cmpLt x y) s
/-- BCC.ltu (R190). -/
def execBccLtu (k : Guard) (d a : Reg) (imm : BitVec 12) (s : State) : Out := bcc k d a imm cmpLtu s
/-- BCC.geu (R190). -/
def execBccGeu (k : Guard) (d a : Reg) (imm : BitVec 12) (s : State) : Out := bcc k d a imm (fun x y => !cmpLtu x y) s

/-- A jump: the link is PC + 4, the target is taken from the operands as they were (R189). -/
def jumpWord (k : Guard) (d : Reg) (regs : List Reg) (t : State → Nat → Eng → Word) (s : State) : Out :=
  scalarWord [.ap, .c0] k (d :: regs) true true noWait
    (fun s l e => takeBranch (wreg s l e d (getPc s l e + 4)) l e (t s l e)) s

/-- JAL (R189). -/
def execJal (k : Guard) (d : Reg) (imm : BitVec 17) (s : State) : Out :=
  jumpWord k d [] (fun s l e => getPc s l e + 4 * sx imm) s

/-- JALR (R189). -/
def execJalr (k : Guard) (d a : Reg) (imm : BitVec 12) (s : State) : Out :=
  jumpWord k d [a] (fun s l e => (rreg s l e a + sx imm) &&& ~~~3#64) s

/-- Whether a LOOP word is illegal where it stands (R192, R195): both levels valid, handler mode, or the last word of the
innermost valid level. -/
def loopIllegal (s : State) : Bool :=
  let l := s.current.core
  let x := cx s l
  let last (i : Nat) : Bool :=
    let p := getLoop x i
    p.2.2.2 && getPc s l .ap == p.1 + 4 * (BitVec.ofNat 64 p.2.2.1.toNat - 1)
  (getLoop x 1).2.2.2 || x.handlerMode || last 0

/-- LOOP (R192). -/
def execLoop (k : Guard) (a : Reg) (imm : BitVec 12) (s : State) : Out :=
  if loopIllegal s then .next (illegal s)
  else apWord k [a] false (fun s l =>
    let pc := getPc s l .ap
    let cnt := (rreg s l .ap a).extractLsb' 0 32
    if cnt = 0 then takeBranch s l .ap (pc + 4 * (sx imm + 1))
    else
      let i := if (getLoop (cx s l) 0).2.2.2 then 1 else 0
      retire (modX s l fun x => { x with loops := vset x.loops i (pc + 4, cnt, imm.extractLsb' 0 11, true) }) l .ap) s

/-- Whether the peer that a branch-outcome word names is one its engine has a queue with (R197, R198). -/
def boqPeerOk (e : Eng) (d : Reg) : Bool :=
  match e with
  | .ap => decide (2 ≤ d.toNat) && decide (d.toNat ≤ 5)
  | _ => d.toNat == 1

/-- BRQ (R198). -/
def execBrq (k : Guard) (d : Reg) (imm : BitVec 12) (s : State) : Out :=
  if !boqPeerOk s.current.eng d then .next (illegal s)
  else scalarWord [.ap, .c0] k [] false false
    (fun s l e => if (boqHead s l d.toNat (engCode e)).isNone then some [boqFlag d.toNat (engCode e)] else none)
    (fun s l e =>
      let taken := (boqHead s l d.toNat (engCode e)).getD false
      let s := boqPop s l d.toNat (engCode e)
      if taken then takeBranch s l e (getPc s l e + 4 * sx imm) else retire s l e) s

/-- BQPUSH (R197). -/
def execBqpush (k : Guard) (d a : Reg) (s : State) : Out :=
  if !boqPeerOk s.current.eng d then .next (illegal s)
  else scalarWord [.ap, .c0] k [] false false
    (fun s l e => if boqFull s l (engCode e) d.toNat then some [boqFlag (engCode e) d.toNat] else none)
    (fun s l e => retire (boqPush s l (engCode e) d.toNat (rk s l e a.toNat)) l e) s

/-- Whether a token word may name an engine: not its own, and in handler mode only the AP, C0 and C3 (R141, R438). -/
def tokPeerOk (s : State) (l : Nat) (e : Eng) (d : Nat) : Bool :=
  d != engCode e && (!(cx s l).handlerMode || d == 1 || d == 2 || d == 5)

/-- A number for a word or an access of a core, above every older one. -/
def freshId (s : State) (l : Nat) : State × Nat :=
  (modX s l fun x => { x with nextWord := x.nextWord + 1 }, (cx s l).nextWord + 1)

/-- TKSIG (R201): the entry is reserved at issue. Every older word of C0 has retired by then; on the AP the signal waits in
order behind the accesses. -/
def execTksig (k : Guard) (d : Reg) (s : State) : Out :=
  if !tokPeerOk s s.current.core s.current.eng d.toNat then .next (illegal s)
  else scalarWord [.ap, .c0] k [] true false
    (fun s l e => if tokFree s l (engCode e) d.toNat then none else some [fifoKey (engCode e) d.toNat])
    (fun s l e =>
      if e == .c0 || (getCore s l).apq.isEmpty then retire (tokAdd s l (engCode e) d.toNat 1) l e
      else
        let r := freshId (tokReserve s l (engCode e) d.toNat 1) l
        retire (modCore r.1 l fun c => { c with apq := c.apq ++ [⟨r.2, .sig d.toNat, 0, 0, 0, 0, false, 0, 0, 0⟩] }) l e) s

/-- TKWAIT (R202). -/
def execTkwait (k : Guard) (d : Reg) (s : State) : Out :=
  if !tokPeerOk s s.current.core s.current.eng d.toNat then .next (illegal s)
  else scalarWord [.ap, .c0] k [] true false
    (fun s l e => if tokCount s l d.toNat (engCode e) = 0 then some [fifoKey d.toNat (engCode e)] else none)
    (fun s l e => retire (tokAdd s l d.toNat (engCode e) (-1)) l e) s

/-! ### Words of C0 only (R217 to R220) -/

/-- A word of C0 that is illegal in handler mode. -/
def c0Word (k : Guard) (xw : Bool) (body : State → Nat → State) (s : State) : Out :=
  scalarWord [.c0] k [] false xw noWait (fun s l _ => body s l) s

/-- LOOPC (R220). -/
def execLoopc (k : Guard) (off : BitVec 22) (s : State) : Out :=
  c0Word k false (fun s l =>
    let r := loopClose s l .c0
    if r.2 then takeBranch r.1 l .c0 (getPc s l .c0 + 4 * sx off) else retire r.1 l .c0) s

/-- ROTCLR (R219). -/
def execRotclr (k : Guard) (mask : BitVec 2) (s : State) : Out :=
  c0Word k true (fun s l =>
    retire (modX s l fun x => { x with rb1 := if mask.getLsbD 0 then 0 else x.rb1,
                                       rb2 := if mask.getLsbD 1 then 0 else x.rb2 }) l .c0) s

/-- Whether members other than C0 are in a region: a SYNCG or EASE then waits for the next rendezvous (R153). -/
def othersInRegion (s : State) (l : Nat) : Bool := (regionMembers s l).any fun e => e != .c0

/-- Ease values asked for, and a mask (R217, R218): while other members are in a region they wait for the next rendezvous; else
they take effect now, in the place of any that wait (R153). Others that wait go on waiting. -/
def askSync (s : State) (l : Nat) (mask : Option (BitVec 4)) (bufs : List Nat) (n : BitVec 8) : State :=
  let late := othersInRegion s l
  modX s l fun x =>
    { x with
      mask := if late then x.mask else mask.getD x.mask
      maskNext := if late then mask.orElse fun _ => x.maskNext else if mask.isSome then none else x.maskNext
      ease := if late then x.ease else bufs.foldl (fun v i => vset v i n) x.ease
      easeNext := bufs.foldl (fun v i => vset v i (if late then some n else none)) x.easeNext }

/-- SYNCG (R217, R153): it asks for its mask and ease; if the new mask holds C0, C0 then waits at it as at an S-word, until
the rendezvous makes it C0's position-0 word. C0 stays in a region that other members have not left. -/
def execSyncg (k : Guard) (mask : BitVec 4) (ease : BitVec 8) (s : State) : Out :=
  scalarWord [.c0] k [] false false noWait (fun s l _ =>
    if (getEng s l .c0).atS then waitOn s l .c0 [210]
    else
      let bufs := ((List.range 4).filter fun i => mask.getLsbD i) ++ (if mask.getLsbD 3 then [4] else [])
      let s := askSync (c0Leaves s l) l (some mask) bufs ease
      if mask.getLsbD 0 then waitOn (modEng s l .c0 fun t => { t with atS := true }) l .c0 [210] else retire s l .c0) s

/-- EASE (R218). -/
def execEase (k : Guard) (d : Reg) (n : BitVec 8) (s : State) : Out :=
  c0Word k false (fun s l => retire (askSync s l none [d.toNat] n) l .c0) s

/-- Whether a member waits at an S-word: an EP cluster that holds at one, or C0 at its SYNCG (R152, R153). -/
def atSWord (s : State) (l : Nat) (e : Eng) : Bool := (getEng s l e).atS && !(getEng s l e).inRegion

/-- A member enters a region (R152). -/
def enterRegion (t : EngSt) : EngSt :=
  { t with inRegion := true, pos := 0, pos0 := 0, atS := false, ready := false, granted := false, slow := false, rejoin := false }

/-- LOCKSTEP_RENDEZVOUS (R152, R153): when no region is open and every member of the new mask waits at an S-word, values that
wait are installed and the group enters a region at position 0. A new mask without an unfinished member needs no one's wait. After a
stop, the members whose next words are S-words meet without the others, once each has shown its next word (R157, R439).
(DESIGN CHOICE: notes/assumptions/38.md). -/
def execLockstepRendezvous (l : CoreNum) (s : State) : Out :=
  let n := l.toNat
  let s0 := c0Leaves s n
  let s1 := installSync s0 n
  let ms := members s1 n
  let meet := (cx s n).meet
  let gs := if meet then ms.filter (atSWord s1 n) else ms
  .next <|
    if (cx s n).handlerMode || !(regionMembers s0 n).isEmpty || (ms.isEmpty && (cx s n).maskNext.isNone) ||
        !(ms.all fun e => atSWord s1 n e || (meet && !(getEng s1 n e).rejoin)) then s
    else if gs.isEmpty && !ms.isEmpty then modX s n fun x => { x with meet := false }
    else
      let t := gs.foldl (fun s e => modEng s n e enterRegion) (modX s1 n fun x => { x with meet := false })
      if gs.contains .c0 && !(getEng s1 n .c0).rejoin then retire t n .c0 else t

end Sys2Proof.Machine
end

