-- ==== Sys2Proof/Machine/LinkOps.lean ====
section
/-! DEFINITION. What a link does with a flit: routes, exponent coding, and sending (R472, R473, R476, R477). -/

namespace Sys2Proof.Machine

/-- A link port. -/
def getPort (s : State) (p : Nat) : LinkPort := tget LinkPort.reset s.ports p

/-- The device with a port changed. -/
def modPort (s : State) (p : Nat) (f : LinkPort → LinkPort) : State := { s with ports := tset s.ports p (f (getPort s p)) }

/-- DEVNUM (R469). -/
def devNum (s : State) : Nat := s.devId.toNat % 512

/-- The port that a flit for a device takes: P[h], h from address bits [13:6] (R472) (DESIGN CHOICE: notes/assumptions/48.md). -/
def routePort (s : State) (dev addr : Nat) : Option Nat :=
  let ps := tget [] s.routes dev
  (ps[addr / 64 % 256 % ps.length]?).map (·.toNat)

/-! ### Exponent coding (R476, R477) -/

/-- The formats whose exponents are coded, with their places among a port's tables. -/
def codedFmt (c : BitVec 4) : Option (Nat × FFmt) :=
  match Fmt.ofCode c with
  | some .fp32 => some (0, .fp32)
  | some .fp16 => some (1, .fp16)
  | some .bf16 => some (2, .bf16)
  | some .e4m3 => some (3, .e4m3)
  | some .e5m2 => some (4, .e5m2)
  | _ => none

/-- T of R476: ascending until flits reorder it. -/
def expTable (v : Vector (List Nat) 5) (k : Nat) (f : FFmt) : List Nat :=
  match vget [] v k with
  | [] => List.range (2 ^ f.eb)
  | t => t

/-- `n` bits of a number, the least significant first (DESIGN CHOICE: notes/assumptions/46.md). -/
def lowBits (n x : Nat) : List Bool := (List.range n).map x.testBit

/-- The number of some bits. -/
def ofBits (bs : List Bool) : Nat := bs.foldr (fun b n => 2 * n + (if b then 1 else 0)) 0

/-- The exponent field of an element. -/
def expOf (f : FFmt) (x : Nat) : Nat := x / 2 ^ f.mb % 2 ^ f.eb

/-- The code of an exponent, by its rank in T. -/
def expCode (f : FFmt) (t : List Nat) (e : Nat) : List Bool :=
  let r := t.idxOf e
  if r < 4 then false :: lowBits 2 r
  else if r < 12 then true :: false :: lowBits 3 (r - 4)
  else true :: true :: lowBits f.eb e

/-- The coded form of a flit's elements: the codes, then signs and fractions (DESIGN CHOICE: notes/assumptions/46.md). -/
def encodeElems (f : FFmt) (t xs : List Nat) : List Bool :=
  xs.flatMap (fun x => expCode f t (expOf f x)) ++
    xs.flatMap fun x => lowBits (f.mb + 1) (x % 2 ^ f.mb + 2 ^ f.mb * (x / 2 ^ (f.mb + f.eb) % 2))

/-- The exponents of `n` elements, and the bits after them. -/
def decodeExps (f : FFmt) (t : List Nat) : Nat → List Bool → List Nat × List Bool
  | 0, bs => ([], bs)
  | n + 1, bs =>
    let one : Nat × List Bool :=
      match bs with
      | false :: r => (t.getD (ofBits (r.take 2)) 0, r.drop 2)
      | true :: false :: r => (t.getD (4 + ofBits (r.take 3)) 0, r.drop 3)
      | true :: true :: r => (ofBits (r.take f.eb), r.drop f.eb)
      | _ => (0, [])
    let rest := decodeExps f t n one.2
    (one.1 :: rest.1, rest.2)

/-- The elements that a coded payload holds (DESIGN CHOICE: notes/assumptions/46.md). -/
def decodeElems (f : FFmt) (t : List Nat) (n : Nat) (bs : List Bool) : List Nat :=
  let e := decodeExps f t n bs
  (e.1.zipIdx).map fun p =>
    let r := ofBits ((e.2.drop ((f.mb + 1) * p.2)).take (f.mb + 1))
    r % 2 ^ f.mb + 2 ^ f.mb * p.1 + 2 ^ (f.mb + f.eb) * (r / 2 ^ f.mb)

/-- An exponent put after those that the flit holds at least as often. -/
def rankInsert (cnt : Nat → Nat) (x : Nat) : List Nat → List Nat
  | [] => [x]
  | y :: ys => if cnt x < cnt y then y :: rankInsert cnt x ys else x :: y :: ys

/-- T after a data flit: by descending count of each exponent in it, equal counts in their former order (R477). -/
def reorder (f : FFmt) (t xs : List Nat) : List Nat :=
  let es := xs.map (expOf f)
  t.foldr (rankInsert fun e => (es.filter (· == e)).length) []

/-- The elements of a format in some bytes. -/
def bytesElems (f : FFmt) (bs : List Byte) : List Nat := elemsOf f.width (bs.length * 8 / f.width) (ofLE bs)

/-- Whether a flit carries data that is coded: read data and writes (R473, R476). -/
def dataKind (k : BitVec 4) : Bool := k == 2 || k == 3

/-- The data bytes of a received flit. -/
def flitData (s : State) (p : Nat) (f : Flit) : List Byte :=
  let n := f.len.toNat
  match f.raw || !dataKind f.kind, codedFmt f.fmt with
  | false, some (k, fm) =>
    toLE n (packElems fm.width (decodeElems fm (expTable (getPort s p).rx k fm) (n * 8 / fm.width) f.payload))
  | _, _ => toLE n (ofBits f.payload)

/-- The receiving port's table after a data flit. -/
def noteRx (s : State) (p : Nat) (f : Flit) (bs : List Byte) : State :=
  match dataKind f.kind, codedFmt f.fmt with
  | true, some (k, fm) => modPort s p fun q => { q with rx := vset q.rx k (reorder fm (expTable q.rx k fm) (bytesElems fm bs)) }
  | _, _ => s

/-- A flit sent on a port with its data: coded where the coded form fits, else raw; the table follows (R476, R477). -/
def sendFlit (s : State) (p : Nat) (f : Flit) (bs : List Byte) : State :=
  let before := (getPort s p).tx
  let raw : Flit := { f with raw := true, len := if bs.isEmpty then f.len else BitVec.ofNat 8 bs.length, payload := lowBits (8 * bs.length) (ofLE bs), crcOk := true }
  match dataKind f.kind, codedFmt f.fmt with
  | true, some (k, fm) =>
    let t := expTable before k fm
    let xs := bytesElems fm bs
    let code := encodeElems fm t xs
    let f' := if code.length ≤ 1792 then { raw with raw := false, payload := code } else raw
    modPort s p fun q => { q with sent := q.sent ++ [(f', before)], tx := vset q.tx k (reorder fm t xs) }
  | _, _ => modPort s p fun q => { q with sent := q.sent ++ [(raw, before)] }

/-- A flit sent towards its destination device by the route table; none where no port leads there.
(DESIGN CHOICE: notes/assumptions/48.md). -/
def sendTo (s : State) (f : Flit) (bs : List Byte) : State :=
  match routePort s f.ddev.toNat f.addr.toNat with
  | some p => sendFlit s p f bs
  | none => s

/-- An empty flit of a kind from this device. -/
def newFlit (s : State) (kind : BitVec 4) (dev : BitVec 9) (core : Nat) (addr : BitVec 52) (tag : BitVec 32) : Flit :=
  { kind := kind, ddev := dev, sdev := BitVec.ofNat 9 (devNum s), score := BitVec.ofNat 8 core, fmt := 0xF, raw := true, len := 0,
    addr := addr, tag := tag, op := 0, wide := false, opnd := 0, cmp := 0, mask := BitVec.allOnes 224, page := none, key := none,
    strict := false, marks := 0, acf := 0, rmw := false, fault := none, payload := [], crcOk := true }

/-! ### Headers (R473) -/

/-- VC of a flit: 0 for requests, 1 for responses. -/
def flitVc (f : Flit) : Bool := f.kind == 2 || f.kind == 4 || f.kind == 6

/-- Bits [139:0] of a flit's header; bits [55:44] are sent as zero, and the layout of the bits above is by kind. -/
def flitHeader (f : Flit) : BitVec 140 :=
  f.tag ++ f.addr ++ 0#12 ++ f.len ++ BitVec.ofBool f.raw ++ f.fmt ++ f.score ++ f.sdev ++ f.ddev ++ BitVec.ofBool (flitVc f) ++ f.kind

/-- Whether a flit's header is one that R473 defines: its kind is not reserved, and a flit that delivers data, a read request
or a write delivers 1 to 224 bytes (DESIGN CHOICE: notes/assumptions/47.md). -/
def flitSound (f : Flit) : Bool :=
  decide (1 ≤ f.kind.toNat) && decide (f.kind.toNat ≤ 6) &&
    (!(f.kind == 1 || f.kind == 2 || f.kind == 3) || (decide (1 ≤ f.len.toNat) && decide (f.len.toNat ≤ 224)))

/-! ### Requests (R478) -/

/-- Bytes cut at boundaries of `g` bytes, an element of `w` bytes in one piece (R356); `fuel` bounds the pieces. -/
def cutAt (g w : Nat) : Nat → Nat → Nat → List (Nat × Nat)
  | 0, _, _ => []
  | f + 1, a, n =>
    if n == 0 then []
    else
      let k := min n ((g - a % g + w - 1) / w * w)
      (a, k) :: cutAt g w f (a + k) (n - k)

/-- A request flit of an access: its address, the bytes that it moves, and the page that the home converts them through. -/
structure Piece' where
  addr : Nat
  n : Nat
  page : Option FlitPage
  deriving DecidableEq, Repr

/-- The bytes of one element of a format that a flit moves whole; 1 for the formats whose unit is a byte (R356). -/
def elemUnit (fmt : BitVec 4) : Nat :=
  match Fmt.ofCode fmt with
  | none | some .code4 | some .code3 | some .mxfp4 | some .mxfp8 => 1
  | some f => max 1 (f.width / 8)

/-- An entry with the frame's address on its own device. -/
def localPte (e : BitVec 128) : BitVec 128 := BitVec.ofNat 128 (e.toNat % 2 ^ 64 + pteAddr e % 2 ^ 42 * 2 ^ 64 + e.toNat / 2 ^ 116 * 2 ^ 116)

/-- The requests of a part of an access: lines of 64 bytes on an identity page, lines of delivered elements through an element-wise
gauge, and whole blocks through an MX gauge, for each unit of R356 moves in one flit (DESIGN CHOICE: notes/assumptions/48.md). -/
def partPieces (fmt : BitVec 4) (x : Trans) (va n : Nat) : List Piece' :=
  let conv (g : Nat) : List Piece' := (cutAt g 1 (n / g + 2) va n).map fun c =>
    ⟨((frameRanges x c.1 c.2).headD (0, 0)).1, c.2, some ⟨localPte x.pte, x.lvl, c.1⟩⟩
  match gaugeOf x.pte with
  | .ident | .illegal => (cutAt 64 (elemUnit fmt) (n / 64 + 2) (pteAddr x.pte + pageOff x va) n).map fun c => ⟨c.1, c.2, none⟩
  | .elem .. => conv 64
  | .mx _ d => conv (4 * d.width)

/-- The parts of an access in transit. -/
def transitParts (t : Transit) : List (Trans × Nat × Nat) := t.parts.map fun p => (⟨p.1, p.2.1, 0⟩, p.2.2.1, p.2.2.2)

/-- The requests of an access in transit (DESIGN CHOICE: notes/assumptions/48.md). -/
def transitPieces (t : Transit) : List Piece' := (transitParts t).flatMap fun p => partPieces t.fmt p.1 p.2.1 p.2.2

/-- TAG of the i-th request flit of an access. -/
def pieceTag (t : Transit) (i : Nat) : BitVec 32 := BitVec.ofNat 32 (t.tag * 1024 + i)

/-- FMT of a piece (R473): the format of the elements that it delivers, where it holds whole ones; else 0xF. -/
def pieceFmt (fmt : BitVec 4) (p : Piece') : BitVec 4 :=
  let c : BitVec 4 × Nat := match p.page with
    | some g => (BitVec.ofNat 4 (pteBits g.pte 14 4), g.va)
    | none => (fmt, p.addr)
  match codedFmt c.1 with
  | some (_, f) => if c.2 % (f.width / 8) == 0 && p.n % (f.width / 8) == 0 then c.1 else 0xF
  | none => 0xF

/-- Whether an access stops at poison that its home reads (R182): the accesses of the AP's queues, and its other atomics. -/
def isStrict (t : Transit) : Bool :=
  t.eng == .ap && (t.id != 0 || (match t.kind with
    | .amo .. | .cas .. => true
    | _ => false))

/-- The request flits of an access to another device, one for each piece (R478): a write carries the bytes that it delivers, with
their marks; the home converts them (R116). The key goes with an access through an entry with TE = 1 (R429). -/
def sendRequest (s : State) (t : Transit) : State :=
  let ps := transitPieces t
  (ps.zipIdx).foldl (fun s r =>
    match rowOf r.1.addr with
    | some (.remote dev a) =>
      let f := newFlit s 1 (BitVec.ofNat 9 dev) t.core (BitVec.ofNat 52 a) (pieceTag t r.2)
      let f := { f with len := BitVec.ofNat 8 r.1.n, fmt := pieceFmt t.fmt r.1, page := r.1.page, strict := isStrict t,
                        key := if t.parts.any fun p => pteTe p.1 then some (BitVec.ofNat 4 t.key) else none }
      match t.kind with
      | .st | .stl _ =>
        let bs := (t.bytes.drop (((ps.take r.2).map (·.n)).foldl (· + ·) 0)).take r.1.n
        sendTo s { f with kind := 3, marks := BitVec.ofNat 224 (ofBits (bs.map (·.psn))) } (bs.map (·.b))
      | .amo _ fn => sendTo s { f with kind := 5, op := BitVec.ofNat 4 fn, wide := t.n == 8, opnd := t.data } []
      | .cas _ c => sendTo s { f with kind := 5, op := 15, wide := t.n == 8, opnd := t.data, cmp := c } []
      | _ => sendTo s f []
    | _ => s) s

end Sys2Proof.Machine
end

