-- ==== Sys2Proof/Machine/Access.lean ====
section
/-! DEFINITION. The AP's loads, stores, atomics and fences: its queues, departures, and accesses that travel to a home off the
die (R176 to R188, R357 to R364). -/

namespace Sys2Proof.Machine

/-! ### What the kinds of queue entry are -/

/-- Whether a kind takes an entry of the load queue (R183). -/
def inLq : QKind → Bool
  | .ld _ | .lda .. | .stl _ | .amo .. | .cas .. | .fence _ | .qalign => true
  | .st | .sig _ => false

/-- Whether a kind takes an entry of the store queue (R183). -/
def inSq : QKind → Bool
  | .st | .lda .. | .stl _ | .amo .. | .cas .. | .fence _ | .qalign => true
  | .ld _ | .sig _ => false

/-- Whether a kind stores: what QALIGN and RPUSH wait for. -/
def isStore : QKind → Bool
  | .st | .stl _ | .amo .. | .cas .. => true
  | _ => false

/-- Whether a kind reads, writes or does both to memory; none for fences and signals. -/
def accKind : QKind → Option AKind
  | .ld _ | .lda .. => some .read
  | .st | .stl _ => some .write
  | .amo .. | .cas .. => some .amo
  | .fence _ | .qalign | .sig _ => none

/-- Whether an access must be naturally aligned (R178). -/
def mustAlign : QKind → Bool
  | .lda .. | .stl _ | .amo .. | .cas .. => true
  | _ => false

/-- The scope that a younger access's wait, or its own wait, names. -/
def scopeOf : QKind → Option Nat
  | .lda s _ | .stl s | .amo s _ | .cas s _ | .fence s => some s
  | _ => none

/-! ### Performing an access (R179, R181, R182, R184 to R187) -/

/-- The value that a load of `n` bytes gives its register (R179). -/
def loadValue (zx : Bool) (n x : Nat) : Word := if zx then BitVec.ofNat 64 x else BitVec.ofInt 64 (signedOf (8 * n) x)

/-- The value an AMO writes (R185), over `n` bytes. -/
def amoNew (fn n : Nat) (old b : Nat) : Nat :=
  let m := 2 ^ (8 * n)
  let so := signedOf (8 * n) old
  let sb := signedOf (8 * n) b
  match fn with
  | 0 => (old + b) % m
  | 1 => old &&& (b % m)
  | 2 => old ||| (b % m)
  | 3 => old ^^^ (b % m)
  | 4 => if sb < so then b % m else old
  | 5 => if so < sb then b % m else old
  | 6 => if b % m < old then b % m else old
  | 7 => if old < b % m then b % m else old
  | _ => b % m

/-- What an access reads and how it writes, as its home sees it. -/
structure Port' where
  rd : State → List PByte × Acf
  wr : State → List PByte → State × Acf × Nat
  /-- Whether the write's merge reads poisoned data (R182). -/
  psn : State → Bool

/-- The scratchpad bytes of a core. -/
def spPort (l off n : Nat) : Port' :=
  { rd := fun s => (readPBytes s (spBase l + off) n, 0)
    wr := fun s bs => (writePBytes s (spBase l + off) bs, 0, 0)
    psn := fun _ => false }

/-- The bytes of a checked access. -/
def partPort (ps : List (Trans × Nat × Nat)) : Port' :=
  { rd := fun s => readParts s ps
    wr := fun s bs => writeParts s ps bs
    psn := fun s => ps.any fun p => mergePsn s p.1 p.2.1 p.2.2 }

/-- The value that an entry's register receives for the bytes that it has read (R179, R185, R186). -/
def entValue (k : QKind) (n x : Nat) : Word :=
  match k with
  | .ld zx | .lda _ zx => loadValue zx n x
  | _ => loadValue false n x

/-- An access performed at its home: the state, and the bytes read as a number; none where it meets poison (R182). -/
def perform (s : State) (l : Nat) (p : Port') (k : QKind) (n : Nat) (data : Word) : Option (State × Nat) :=
  let clean (x : Nat) : List PByte := (toLE n x).map fun b => ⟨b, false⟩
  let put (s : State) (x : Nat) : State :=
    let w := p.wr s (clean x)
    rmwAdd (convOr w.1 l w.2.1) l w.2.2
  let r := p.rd s
  let old := ofLE (r.1.map (·.b))
  match k with
  | .ld _ | .lda .. => if r.1.any (·.psn) then none else some (convOr s l r.2, old)
  | .st | .stl _ => if p.psn s then none else some (put s data.toNat, 0)
  | .amo _ fn =>
    if r.1.any (·.psn) then none else some (put s (amoNew fn n old data.toNat), old)
  | .cas _ cmp =>
    if r.1.any (·.psn) then none
    else some (if old = cmp.toNat % 2 ^ (8 * n) then put s data.toNat else s, old)
  | .fence _ | .qalign | .sig _ => some (s, 0)

/-! ### Waiting for scopes (R357, R360, R361) -/

/-- Whether a departed access to a home off the die is still waited for at a scope (R360). -/
def openAt (remote : Bool) (scope : Nat) : Bool := if remote then scope == 4 else decide (3 ≤ scope)

/-- Whether an entry is a signal, which holds back nothing younger (R201). -/
def isSig : QKind → Bool
  | .sig _ => true
  | _ => false

/-- Whether every older access of the AP has performed at a scope: those of the queue before `i`, and writes that left
earlier. At system scope the count of ACK_OUT, to which every engine of the core adds, is 0 (R361). -/
def olderPerformed (s : State) (l i : Nat) (scope : Nat) : Bool :=
  let q := (getCore s l).apq
  let my := match q[i]? with
    | some e => e.id
    | none => (cx s l).nextWord + 1
  ((q.take i).all fun e => isSig e.kind ||
      e.departed && !(s.transit.any fun t => t.core == l && t.eng == .ap && t.id == e.id && openAt t.remote scope)) &&
    (s.transit.all fun t => t.core != l || t.eng != .ap || decide (my ≤ t.id) || !openAt t.remote scope) &&
    (scope != 4 || (getCore s l).ackOut == 0)

/-- Whether every older access of the AP has performed at a scope, seen from the word at issue (R225). -/
def apPerformed (s : State) (l scope : Nat) : Bool := olderPerformed s l (getCore s l).apq.length scope

/-- Whether every older load has departed with its value (R233), and every older store has departed (R234). -/
def loadsDone (s : State) (l : Nat) : Bool := (getCore s l).apq.all fun e => !inLq e.kind || e.departed

/-- Whether every older store has performed at core scope (R183, R234). -/
def storesDone (s : State) (l : Nat) : Bool := (getCore s l).apq.all fun e => !isStore e.kind || e.departed

/-- The address of an access without its tag key. -/
def bareEa (e : QEnt) : Nat := e.ea.toNat % 2 ^ 60

/-- Whether an older entry's place in a queue holds a younger one back (R183): a load may pass an STL, which orders only the
accesses older than itself. -/
def queueBefore (o e : QKind) : Bool :=
  (inSq o && inSq e) || (inLq o && inLq e && (match o with
    | .stl _ => false
    | _ => true))

/-- The physical bytes that an entry reaches, as far as its pages are translated now (DESIGN CHOICE: notes/assumptions/15.md). -/
def physOf (s : State) (l : Nat) (e : QEnt) : List (Nat × Nat) :=
  match classify e.ea with
  | .bad => []
  | .sp off => [(spBase l + off, e.n)]
  | .virt va _ => (splitPages (e.n / 0x8000 + 2) va e.n).flatMap fun p =>
      match walk s (getCore s l).walkCache (cx s l).asid p.1 with
      | .ok x => frameRanges x p.1 p.2
      | .error _ => []

/-- Whether the frame bytes of two accesses meet. -/
def rangesMeet (a b : List (Nat × Nat)) : Bool :=
  a.any fun x => b.any fun y => decide (x.1 < y.1 + y.2) && decide (y.1 < x.1 + x.2)

/-- Whether two entries overlap in any byte (R362): by their addresses, or through different pages.
(DESIGN CHOICE: notes/assumptions/15.md). -/
def overlap (s : State) (l : Nat) (o e : QEnt) : Bool :=
  (decide (bareEa o < bareEa e + e.n) && decide (bareEa e < bareEa o + o.n)) || rangesMeet (physOf s l o) (physOf s l e)

/-- Whether the entry in place `i` may depart (R183, R362): older entries of its queues have departed, older acquires have
performed, and its own waits are over (DESIGN CHOICE: notes/assumptions/15.md). -/
def mayDepart (s : State) (l i : Nat) : Bool :=
  let q := (getCore s l).apq
  match q[i]? with
  | none => false
  | some e =>
    let older := q.take i
    !e.departed &&
    (older.all fun o => o.departed || !queueBefore o.kind e.kind) &&
    (older.all fun o => match o.kind with
      | .lda sc _ | .amo sc _ | .cas sc _ | .fence sc =>
        o.departed && !(s.transit.any fun t => t.core == l && t.eng == .ap && t.id == o.id && openAt t.remote sc)
      | .qalign => !inLq e.kind
      | _ => true) &&
    (match e.kind with
     | .st | .stl _ => older.all fun o => o.departed || !inLq o.kind || !overlap s l o e
     | .qalign => older.all fun o => !isStore o.kind || o.departed
     | .sig _ => older.isEmpty
     | _ => true) &&
    (match e.kind with
     | .stl sc | .amo sc _ | .cas sc _ | .fence sc => olderPerformed s l i sc
     | _ => true)

/-! ### Departure (R357 to R361) -/

/-- The queue without its i-th entry. -/
def dropEnt (s : State) (l i : Nat) : State := modCore s l fun c => { c with apq := c.apq.eraseIdx i }

/-- The AP meets a fault at an access: the record waits to be written, and the AP waits (R425, R427). -/
def apFault (s : State) (l : Nat) (f : FInfo) (k : AKind) (va : Word) : State :=
  agentFault (modCore s l fun c => { c with apFlt := .unsent, apFltVa := va, fetchWait := false })
    f l .ap 0 k (cx s l).asid (runLid s l) va

/-- Where the home of a part of an access lies, seen from a core (R358, R359). -/
inductive Home where
  /-- On the core's die. -/
  | near
  /-- On the other die. -/
  | far
  /-- On another device. -/
  | remote
  deriving DecidableEq, Repr

/-- The home of a part of a checked access. -/
def homeOf (die : Nat) (p : Trans × Nat × Nat) : Home :=
  match rowOf (pteAddr p.1.pte) with
  | some (.remote ..) => .remote
  | _ => if (frameRanges p.1 p.2.1 p.2.2).all fun r => homeDie r.1 == some die && homeDie (r.1 + r.2 - 1) == some die then .near else .far

/-- Whether all parts of a checked access have homes on a die. -/
def partsNear (ps : List (Trans × Nat × Nat)) (d : Nat) : Bool := ps.all fun p => homeOf d p == .near

/-- The frame bytes of a checked access. -/
def framesOf (ps : List (Trans × Nat × Nat)) : List (Nat × Nat) := ps.flatMap fun p => frameRanges p.1 p.2.1 p.2.2

/-- Whether an access of a core would pass an earlier one to the same location that is still on its way (R359, R475). -/
def crosses (s : State) (l : Nat) (ps : List (Trans × Nat × Nat)) : Bool :=
  s.transit.any fun t => t.core == l && !t.performed && rangesMeet (framesOf (transitParts t)) (framesOf ps)

/-- The fault of an effective address (R504 (1)): 0x15, and then a misaligned ordered access. -/
def eaFault (k : QKind) (ea : Word) (n : Nat) : Option Nat :=
  let past := match classify ea with
    | .bad => true
    | .sp off => decide (0x100000 < off + n)
    | .virt va _ => decide (2 ^ 48 < va + n)
  if past then some 0x15 else if mustAlign k && ea.toNat % n != 0 then some 0x18 else none

/-- Bytes of an entry's value arrive, `x` at offset `off`: with the last of them its register is written and it leaves the queue.
A value of a killed record goes nowhere (DESIGN CHOICE: notes/assumptions/69.md). -/
def valueIn (s : State) (l id off n x : Nat) : State :=
  match (getCore s l).apq.find? fun q => q.id == id with
  | none => s
  | some e =>
    let got := e.got + x * 2 ^ (8 * off)
    let back := e.back + n
    if back < e.n then
      modCore s l fun c => { c with apq := c.apq.map fun q => if q.id == id then { q with got := got, back := back } else q }
    else wreg (modCore s l fun c => { c with apq := c.apq.filter fun q => q.id != id }) l .ap e.dst (entValue e.kind e.n got)

/-- `n` more bytes of the i-th entry have departed; one that owes no value leaves the queue with its last. -/
def sentEnt (s : State) (l i : Nat) (e : QEnt) (n : Nat) : State :=
  if owes e.kind || decide (e.sent + n < e.n) then
    modCore s l fun c => { c with apq := c.apq.set i { e with sent := e.sent + n, departed := e.sent + n == e.n } }
  else dropEnt s l i

/-- The data of an entry from the bytes that have not departed on. -/
def restData (e : QEnt) : Word := e.data >>> (8 * e.sent)

/-- `n` bytes of an entry perform as they depart. -/
def performEnt (s : State) (l i : Nat) (e : QEnt) (p : Port') (n gran : Nat) : State :=
  match perform s l p e.kind n (restData e) with
  | none => apFault s l ⟨0x17, 0, gran, 0, 0⟩ ((accKind e.kind).getD .read) (e.ea + BitVec.ofNat 64 e.sent)
  | some r =>
    let t := sentEnt r.1 l i e n
    if owes e.kind then valueIn t l e.id e.sent n r.2 else t

/-- An access set out to a home off the die; a write, AMO or CAS counts in ACK_OUT until it is acknowledged (R361). -/
def sendAway (s : State) (t : Transit) : State :=
  let r := freshId s t.core
  let t := { t with tag := r.2, left := if t.remote then List.range (transitPieces t).length else [] }
  let s := { r.1 with transit := s.transit ++ [t] }
  let s := if t.remote then sendRequest s t else s
  if (accKind t.kind).getD .read == .read then s else modCore s t.core fun c => { c with ackOut := c.ackOut + 1 }

/-- An access that has just left core `l`, as far as every sender fills it in. -/
def newTransit (s : State) (l : Nat) (e : Eng) (k : QKind) (ps : List (Trans × Nat × Nat)) (key n : Nat) (remote : Bool) : Transit :=
  { id := 0, tag := 0, core := l, lid := runLid s l, asid := (cx s l).asid, eng := e, strm := 0, kind := k, ea := 0, n := n,
    off := 0, data := 0, dst := 0, bytes := [], acf := 0, fmt := 0xF, parts := ps.map fun p => (p.1.pte, p.1.lvl, p.2.1, p.2.2), key := key,
    remote := remote, left := [], got := [], rmw := 0, performed := false, since := now s, val := 0 }

/-- `n` bytes of the i-th entry leave for a home off the die (R359); a write waits where ACK_OUT would pass 65,535 (R361). -/
def awayEnt (s : State) (l i : Nat) (e : QEnt) (ps : List (Trans × Nat × Nat)) (key n : Nat) : State :=
  if (accKind e.kind).getD .read != .read && decide (65535 ≤ (getCore s l).ackOut) then s
  else
    let t := newTransit s l .ap e.kind ps key n (ps.any fun p => homeOf (dieOf l) p == .remote)
    sentEnt (sendAway s { t with id := e.id, ea := e.ea + BitVec.ofNat 64 e.sent, off := e.sent, data := restData e, dst := e.dst,
                                 bytes := (toLE n (restData e).toNat).map fun b => ⟨b, false⟩ }) l i e n

/-- A read of scratchpad bytes counts in ECC_STAT (R498); a store reads none. -/
def readTouch (s : State) (l : Nat) (k : AKind) (off n : Nat) : State := if k == .write then s else spTouch s l off n

/-- The same of a checked access: a store reads where it merges (R116, R181). -/
def touchReads (s : State) (k : AKind) (ps : List (Trans × Nat × Nat)) : State :=
  if k == .write then touchParts s (ps.filter fun p => merges p.1 p.2.1 p.2.2) else touchParts s ps

/-- Whether a checked part lies on an identity page, where a misaligned access is performed byte by byte (R178, R356). -/
def identParts (ps : List (Trans × Nat × Nat)) : Bool := ps.all fun p => gaugeOf p.1.pte == .ident

/-- The i-th entry departs, or the next part of it: the whole of an aligned access, a byte of a misaligned one, and of one on
converting pages what lies in one page (R178, R356) (DESIGN CHOICE: notes/assumptions/84.md). A home on the core's die performs
it now (R358), in the order of its banks where it is a scratchpad (R62); any other gets it in transit (R359). -/
def departEnt (s : State) (l i : Nat) : State :=
  match (getCore s l).apq[i]? with
  | none => s
  | some e =>
    match accKind e.kind with
    | none =>
      match e.kind with
      | .sig d => tokPushRes (dropEnt s l i) l 1 d
      | _ => dropEnt s l i
    | some k =>
      match eaFault e.kind e.ea e.n with
      | some c => apFault s l (FInfo.plain c) k e.ea
      | none =>
        let whole := e.ea.toNat % e.n == 0
        match classify e.ea with
        | .bad => s
        | .sp off =>
          let o := off + e.sent
          let n := if whole then e.n else 1
          if !bankTurn s l (apWho l e.id) [(o, n)] then bankHold s l (apWho l e.id) [(o, n)]
          else performEnt (useBanks (readTouch s l k o n) l (apWho l e.id) [(o, n)]) l i e (spPort l o n) n (spGran s (spBase l + o) n)
        | .virt va key =>
          let v := va + e.sent
          let part := min (e.n - e.sent) (0x8000 - v % 0x8000)
          let c := getCore s l
          match checkVa s (some (dieOf l)) c.walkCache c.apTlb 64 c.x.asid (runLid s l) v part key k with
          | (.wait, t) => modCore s l fun c => { c with apTlb := t }
          | (.bad f w, t) =>
            apFault (modCore s l fun c => { c with apTlb := t }) l f k (BitVec.ofNat 64 (w + key * 2 ^ 60))
          | (.ok ps, t) =>
            let one := !whole && identParts ps
            let ps := if one then ps.map fun p => (p.1, p.2.1, 1) else ps
            let n := if one then 1 else part
            let s := modCore s l fun c => { c with apTlb := t }
            if !partsNear ps (dieOf l) then awayEnt (hotParts s ps) l i e ps key n
            else if !partsTurn s (apWho l e.id) ps then holdParts s (apWho l e.id) ps
            else performEnt (useParts (hotParts (touchReads s k ps) ps) (apWho l e.id) ps) l i e (partPort ps) n (granOf s ps)

/-- The first entry, in program order, that may depart (DESIGN CHOICE: notes/assumptions/15.md). -/
def firstReady (s : State) (l : Nat) : Option Nat :=
  if (getCore s l).apFlt != .clear then none
  else (List.range (getCore s l).apq.length).find? (mayDepart s l)

/-- Entries depart until none may. -/
def drainAp (s : State) (l : Nat) : State :=
  iter (fun s => match firstReady s l with
    | some i => departEnt s l i
    | none => s) (8 * (getCore s l).apq.length) s

/-! ### Issue of a memory word -/

/-- Whether a queue that a kind needs is full (R183). -/
def queueFull (s : State) (l : Nat) (k : QKind) : Bool :=
  let q := (getCore s l).apq
  (inLq k && decide (16 ≤ (q.filter fun e => inLq e.kind).length)) ||
    (inSq k && decide (16 ≤ (q.filter fun e => inSq e.kind).length))

/-- Whether scratchpad bytes meet the barrier region (R65). -/
def touchesBar (s : State) (l off n : Nat) : Bool :=
  let x := cx s l
  x.baren && decide (off < (x.rgnend + 1) * 4096) && decide (x.rgnend * 4096 < off + n)

/-- Whether an AP store or atomic meets the barrier region in user mode: a precise privilege trap (R180). -/
def barStore (s : State) (l : Nat) (k : QKind) (ea : Word) (n : Nat) : Bool :=
  !(cx s l).handlerMode && isStore k &&
    (match classify ea with
     | .sp off => touchesBar s l off n
     | _ => false)

/-- An access enters the queues; it departs at once where the orders allow and the schedule does not defer it. -/
def enqueue (s : State) (l : Nat) (k : QKind) (ea : Word) (n : Nat) (data : Word) (dst : Reg) : State :=
  let r := freshId s l
  let s := modCore r.1 l fun c => { c with apq := c.apq ++ [⟨r.2, k, ea, n, data, dst, false, 0, 0, 0⟩] }
  if (getCore s l).defer then s else drainAp s l

/-- A memory word of the AP. -/
def memWord (g : Guard) (regs : List Reg) (op : State → Nat → QKind × Word × Nat × Word × Reg) (s : State) : Out :=
  apWord g regs true (fun s l =>
    let o := op s l
    if barStore s l o.1 o.2.1 o.2.2.1 then privTrap s
    else if queueFull s l o.1 then waitOn s l .ap [208]
    else retire (enqueue s l o.1 o.2.1 o.2.2.1 o.2.2.2.1 o.2.2.2.2) l .ap) s

/-- The width of SIZE (R125). -/
def width (size : BitVec 2) : Nat := 2 ^ size.toNat

/-- A + OFF10 × n. -/
def offEa (s : State) (l : Nat) (a : Reg) (off : BitVec 10) (size : BitVec 2) : Word :=
  rreg s l .ap a + sx off * BitVec.ofNat 64 (width size)

/-- A + sB × n. -/
def idxEa (s : State) (l : Nat) (a b : Reg) (size : BitVec 2) : Word :=
  rreg s l .ap a + rreg s l .ap b * BitVec.ofNat 64 (width size)

/-- LD (R179). -/
def execLd (k : Guard) (d a : Reg) (off : BitVec 10) (size : BitVec 2) (s : State) : Out :=
  memWord k [d, a] (fun s l => (.ld false, offEa s l a off size, width size, 0, d)) s
/-- LDU (R179). -/
def execLdu (k : Guard) (d a : Reg) (off : BitVec 10) (size : BitVec 2) (s : State) : Out :=
  memWord k [d, a] (fun s l => (.ld true, offEa s l a off size, width size, 0, d)) s
/-- ST (R179): D names the data register. -/
def execSt (k : Guard) (d a : Reg) (off : BitVec 10) (size : BitVec 2) (s : State) : Out :=
  memWord k [d, a] (fun s l => (.st, offEa s l a off size, width size, rreg s l .ap d, 0)) s
/-- LDX (R179). -/
def execLdx (k : Guard) (d a b : Reg) (zx : Bool) (size : BitVec 2) (s : State) : Out :=
  memWord k [d, a, b] (fun s l => (.ld zx, idxEa s l a b size, width size, 0, d)) s
/-- STX (R179). -/
def execStx (k : Guard) (d a b : Reg) (size : BitVec 2) (s : State) : Out :=
  memWord k [d, a, b] (fun s l => (.st, idxEa s l a b size, width size, rreg s l .ap d, 0)) s
/-- LDA (R184). -/
def execLda (k : Guard) (d a : Reg) (sc : BitVec 3) (zx : Bool) (size : BitVec 2) (s : State) : Out :=
  memWord k [d, a] (fun s l => (.lda sc.toNat zx, rreg s l .ap a, width size, 0, d)) s
/-- STL (R184). -/
def execStl (k : Guard) (d a : Reg) (sc : BitVec 3) (size : BitVec 2) (s : State) : Out :=
  memWord k [d, a] (fun s l => (.stl sc.toNat, rreg s l .ap a, width size, rreg s l .ap d, 0)) s
/-- AMO, 32 bits (R185). -/
def execAmoW (k : Guard) (d a b : Reg) (sc : BitVec 3) (fn : BitVec 4) (s : State) : Out :=
  memWord k [d, a, b] (fun s l => (.amo sc.toNat fn.toNat, rreg s l .ap a, 4, rreg s l .ap b, d)) s
/-- AMO, 64 bits (R185). -/
def execAmoD (k : Guard) (d a b : Reg) (sc : BitVec 3) (fn : BitVec 4) (s : State) : Out :=
  memWord k [d, a, b] (fun s l => (.amo sc.toNat fn.toNat, rreg s l .ap a, 8, rreg s l .ap b, d)) s
/-- CAS (R186): D is compared, B is written. -/
def execCas (k : Guard) (d a b : Reg) (sc : BitVec 3) (wide : Bool) (s : State) : Out :=
  memWord k [d, a, b] (fun s l =>
    (.cas sc.toNat (rreg s l .ap d), rreg s l .ap a, if wide then 8 else 4, rreg s l .ap b, d)) s
/-- FENCE (R188). -/
def execFence (k : Guard) (sc : BitVec 3) (s : State) : Out :=
  memWord k [] (fun _ _ => (.fence sc.toNat, 0, 0, 0, 0)) s
/-- QALIGN (R188). -/
def execQalign (k : Guard) (s : State) : Out := memWord k [] (fun _ _ => (.qalign, 0, 0, 0, 0)) s

/-! ### Accesses in transit (R355, R359, R361) -/

/-- Whether an access in transit must let an earlier one of its core to the same location perform first (R359).
(DESIGN CHOICE: notes/assumptions/69.md). -/
def transitBehind (s : State) (i : Nat) (t : Transit) : Bool :=
  (s.transit.take i).any fun u =>
    u.core == t.core && !u.performed && rangesMeet (framesOf (transitParts u)) (framesOf (transitParts t))

/-- The least ticks from one core to another: 1 for each router hop and 6 for the bridge (R13, R15).
(DESIGN CHOICE: notes/assumptions/32.md). -/
def meshLeg (a b : Nat) : Nat :=
  let far (x y : Nat) : Nat := max x y - min x y
  far (a % 16) (b % 16) + far (a / 16) (b / 16) + (if dieOf a == dieOf b then 0 else 5)

/-- The least ticks from an access's core to its home on the other die; none is stated for another device. -/
def transitLeg (t : Transit) : Nat :=
  if t.remote then 0
  else match t.parts with
    | p :: _ => match rowOf (pteAddr p.1 + p.2.2.1 % pageSize p.2.1) with
      | some (.vault l) | some (.sp l) => meshLeg t.core l
      | _ => 6
    | [] => 0

/-- An access in transit meets a fault at its home: the record names the launch it belongs to, and its AP waits where that launch
still runs there (R425, R427). What is neither the SU's nor the CE's is the AP's, fetches of the clusters too (R419). -/
def transitFault (s : State) (t : Transit) (f : FInfo) : State :=
  let ap := t.eng != .su && t.eng != .ce
  let fetches := ap && t.eng != .ap
  let s := if ap && runLid s t.core == t.lid then
      modCore s t.core fun c => { c with apFlt := .unsent, apFltVa := t.ea, fetchWait := fetches } else s
  agentFault s f t.core (if ap then .ap else t.eng) t.strm (if fetches then .fetch else (accKind t.kind).getD .read) t.asid t.lid t.ea

/-- What the checks at the home give an access in transit. -/
inductive Recheck where
  | ok | wait
  | bad (f : FInfo)
  /-- A fresh walk translates it elsewhere (R421). -/
  | moved (ps : List (Trans × Nat × Nat))

/-- The checks at the home (R504 (4)): a tag mismatch is walked again before it stands (R421). -/
def recheck (s : State) (t : Transit) : Recheck :=
  let ps := transitParts t
  match ps.findSome? fun p => homeFault s none p.1 p.2.1 p.2.2 t.key with
  | none => .ok
  | some f =>
    if f.code != 0x11 then .bad f
    else match checkAll s none [] 0 t.asid t.lid t.key ((accKind t.kind).getD .read) (ps.map (·.2)) [] with
      | (.ok xs, _) => .moved xs
      | (.wait, _) => .wait
      | (.bad g _, _) => .bad g

/-- An access in transit performed at its home: the state, and the access with what it read; none where it meets poison. -/
def performAway (s : State) (t : Transit) : Option (State × Transit) :=
  let ps := transitParts t
  if t.eng == .ap && t.id != 0 then
    (perform s t.core (partPort ps) t.kind t.n t.data).map fun r => (r.1, { t with val := BitVec.ofNat 64 r.2 })
  else match t.kind with
    | .st | .stl _ => some ((writeParts s ps t.bytes).1, t)
    | .amo .. | .cas .. =>
      (perform s t.core (partPort ps) t.kind t.n t.data).map fun r =>
        (r.1, { t with bytes := (toLE t.n r.2).map fun b => ⟨b, false⟩ })
    | _ => let r := readParts s ps; some (s, { t with bytes := r.1, acf := r.2 })

/-- An access acknowledged to its core, where it is a write, AMO or CAS (R361). -/
def acknowledged (s : State) (t : Transit) : State :=
  modCore s t.core fun c => { c with ackOut := if (accKind t.kind).getD .read == .read then c.ackOut else c.ackOut - 1 }

/-- The access `i` of the list gone from it, and acknowledged. -/
def goneTransit (s : State) (i : Nat) (t : Transit) : State := acknowledged { s with transit := s.transit.eraseIdx i } t

/-- ACCESS_PERFORM (R355): a home on the other die performs the i-th access in transit once it can have arrived, where no earlier
one of its core to the same location is still on its way. Its value or acknowledgement sets out. One whose page has no entry any more
waits there for the answer to the fault of its AP (R427). Another device answers by its
flits (R478) (DESIGN CHOICE: notes/assumptions/69.md). -/
def execAccessPerform (i : Nat) (s : State) : Out :=
  .next <| match s.transit[i]? with
    | none => s
    | some t =>
      let ps := transitParts t
      if t.remote || t.performed || decide (now s < t.since + transitLeg t) || transitBehind s i t ||
          ps.any fun p => refreshPart s p.1 p.2.1 p.2.2 then s
      else if !partsTurn s (apWho t.core t.tag) ps then holdParts s (apWho t.core t.tag) ps
      else match recheck s t with
        | .wait => s
        | .moved xs => { s with transit := s.transit.set i { t with parts := xs.map fun p => (p.1.pte, p.1.lvl, p.2.1, p.2.2) } }
        | .bad f =>
          if f.code == 1 && runLid s t.core == t.lid && (cx s t.core).run.isSome then
            if (getCore s t.core).apFlt == .clear then transitFault s t f else s
          else transitFault (goneTransit s i t) t f
        | .ok =>
          let s := useParts (touchReads s ((accKind t.kind).getD .read) ps) (apWho t.core t.tag) ps
          match performAway s t with
          | none => transitFault (goneTransit s i t) t ⟨0x17, 0, granOf s ps, 0, 0⟩
          | some r => { r.1 with transit := s.transit.set i { r.2 with performed := true, since := now s } }

/-! ### Accesses that another device performs for the SU, the CE and the AP's own waits (R478) -/

/-- The reads that a sender has with other devices: a stream, the CE's transfer, a word of the AP, or a fetch, for which a cluster
stands. -/
def getFar (s : State) (l : Nat) (e : Eng) (j : Nat) : List FarRead :=
  match e with
  | .su => (getStream s l j).far
  | .ce => ((getCore s l).ce.head?.map (·.far)).getD []
  | .ap => (getCore s l).apFar
  | _ => (getCore s l).fetchFar

/-- Those reads changed. -/
def modFar (s : State) (l : Nat) (e : Eng) (j : Nat) (f : List FarRead → List FarRead) : State :=
  match e with
  | .su => modStream s l j fun t => { t with far := f t.far }
  | .ce => modCore s l fun c => { c with ce := match c.ce with
      | x :: t => { x with far := f x.far } :: t
      | [] => [] }
  | .ap => modCore s l fun c => { c with apFar := f c.apFar }
  | _ => modCore s l fun c => { c with fetchFar := f c.fetchFar }

/-- The answer of another device to a part of an access: it is asked once, and the sender waits until it has answered (R478). -/
def askFar (s : State) (l : Nat) (e : Eng) (j : Nat) (k : QKind) (data : Word) (key : Nat) (fmt : BitVec 4) (p : Trans × Nat × Nat) :
    State × Option (List PByte × Acf) :=
  let ea := BitVec.ofNat 64 (p.2.1 + key * 2 ^ 60)
  match (getFar s l e j).find? fun r => r.ea == ea && r.n == p.2.2 with
  | some r => (s, r.data)
  | none =>
    if (accKind k).getD .read != .read && decide (65535 ≤ (getCore s l).ackOut) then (s, none)
    else
      let s := sendAway s { newTransit s l e k [p] key p.2.2 true with strm := j, ea := ea, data := data, fmt := fmt }
      (modFar s l e j fun rs => rs ++ [⟨(cx s l).nextWord, ea, p.2.2, none⟩], none)

/-- The bytes of a checked access that is made outside the AP's queues, and the flags of converting pages; none while an earlier
access of the core to the same location is on its way (R359, R475), or another device has not answered (R478)
(DESIGN CHOICE: notes/assumptions/31.md). -/
def readAway (s : State) (l : Nat) (e : Eng) (j key : Nat) (fmt : BitVec 4) (ps : List (Trans × Nat × Nat)) :
    State × Option (List PByte × Acf) :=
  if crosses s l ps then (s, none)
  else ps.foldl (fun (a : State × Option (List PByte × Acf)) p =>
    match a.2 with
    | none => a
    | some r =>
      if homeOf (dieOf l) p == .remote then
        let g := askFar a.1 l e j (.ld false) 0 key fmt p
        (g.1, g.2.map fun d => (r.1 ++ d.1, r.2 ||| d.2))
      else
        let d := readPage a.1 p.1 p.2.1 p.2.2
        (a.1, some (r.1 ++ d.1, r.2 ||| d.2))) (s, some ([], 0))

/-- What an access in transit has read reaches its sender (R359): the entry of the AP's queue, or the read that a stream, the CE
or a word of the AP waits for. -/
def returned (s : State) (t : Transit) : State :=
  if t.eng == .ap && t.id != 0 then (if owes t.kind then valueIn s t.core t.id t.off t.n t.val.toNat else s)
  else match t.kind with
    | .st | .stl _ => s
    | _ => modFar s t.core t.eng t.strm fun rs => rs.map fun r => if r.tag == t.tag then { r with data := some (t.bytes, t.acf) } else r

/-- ACKNOWLEDGEMENT (R359, R361): the oldest answer on its way to a core returns: the value of a load, AMO or CAS reaches its
register, and a write, AMO or CAS is acknowledged (DESIGN CHOICE: notes/assumptions/32.md; DESIGN CHOICE: notes/assumptions/69.md). -/
def execAcknowledgement (l : CoreNum) (s : State) : Out :=
  .next <| match s.transit.findIdx? fun t => t.core == l.toNat && t.performed && decide (t.since + transitLeg t ≤ now s) with
    | none => s
    | some i => match s.transit[i]? with
      | none => s
      | some t => returned (goneTransit s i t) t

/-! ### Writes of the SU and the CE (R86, R237, R358 to R361, R478) -/

/-- Whether ACK_OUT has room for `n` more writes off the die (R361). -/
def ackRoom (s : State) (l n : Nat) : Bool := decide ((getCore s l).ackOut + n ≤ 65535)

/-- The parts of a checked access that lie off a core's die. -/
def awayParts (l : Nat) (ps : List (Trans × Nat × Nat)) : Nat := (ps.filter fun p => homeOf (dieOf l) p != .near).length

/-- One part of a write of the SU or the CE: performed at a near home, performed at a home on the other die, whose acknowledgement
sets out, or carried to another device (DESIGN CHOICE: notes/assumptions/31.md). -/
def writeOut (s : State) (l : Nat) (e : Eng) (j key : Nat) (fmt : BitVec 4) (p : Trans × Nat × Nat) (bs : List PByte) :
    State × Acf × Nat :=
  let w := writePage s p.1 p.2.1 bs
  let t := { newTransit s l e .st [p] key p.2.2 false with strm := j, ea := BitVec.ofNat 64 p.2.1, bytes := bs, fmt := fmt }
  match homeOf (dieOf l) p with
  | .near => w
  | .far => (sendAway w.1 { t with performed := true }, w.2)
  | .remote => (sendAway s { t with remote := true }, 0, 0)

/-- Every part of such a write, in ascending order: the state, the flags and the partial-block writes (R116). -/
def writeAll (s : State) (l : Nat) (e : Eng) (j key : Nat) (fmt : BitVec 4) (ps : List (Trans × Nat × Nat)) (bs : List PByte) :
    State × Acf × Nat :=
  (ps.foldl (fun (a : (State × Acf × Nat) × List PByte) p =>
    let r := writeOut a.1.1 l e j key fmt p (a.2.take p.2.2)
    ((r.1, a.1.2.1 ||| r.2.1, a.1.2.2 + r.2.2), a.2.drop p.2.2)) ((s, 0, 0), bs)).1

/-- Whether writes of an engine's stream or transfer have still to be performed at device scope (R86, R237, R360). A write through a
converting page of another device is waited for too: its flags come with its acknowledgement (R116). -/
def writesOut (s : State) (l : Nat) (e : Eng) (j : Nat) : Bool :=
  s.transit.any fun t => t.core == l && t.eng == e && t.strm == j && accKind t.kind != some .read &&
    (!t.remote || t.parts.any fun p => gaugeOf p.1 != .ident)

end Sys2Proof.Machine
end

