-- ==== Sys2Proof/Machine/System.lean ====
section
/-! DEFINITION. Control and status registers, traps, system instructions and the partition of the scratchpad (R18, R65, R203 to
R216, R395, R440, R489, R503). -/

namespace Sys2Proof.Machine

/-- A value of `w` bits at bit `lo`. -/
def fieldAt (lo w x : Nat) : Nat := x % 2 ^ w * 2 ^ lo

/-- Weight-store read leases held in the device (R108, R110). -/
def leaseCount (s : State) : Nat := (s.launches.filter fun x => x.lease).length

/-- A word of the vacancy map (R18). -/
def vacWord (s : State) (j : Nat) : Nat := s.vacant.foldl (fun a l => if l / 64 == j then a ||| 2 ^ (l % 64) else a) 0

/-- 1 or 0 as a number. -/
def b2n (b : Bool) : Nat := if b then 1 else 0

/-- BOQ_STAT (R200). -/
def boqStat (s : State) (l : Nat) : Nat :=
  let n (p c : Nat) : Nat := (boqGet s l p c).length
  forUp 4 0 fun i a => a + fieldAt (8 * i) 5 (n 1 (i + 2)) + fieldAt (32 + 8 * i) 5 (n (i + 2) 1)

/-- EASE_CFG (R222). -/
def easeCfg (x : Ctxt) : Nat :=
  forUp 5 (fieldAt 40 4 x.mask.toNat) fun i a => a + fieldAt (8 * i) 8 (vget 0 x.ease i).toNat

/-- SCHED_STAT (R395). -/
def schedStat (c : Core) : Nat :=
  fieldAt 0 4 c.sram.length + fieldAt 8 13 c.back.length + fieldAt 24 6 c.waits.length +
    (match c.x.run with
     | some r => fieldAt 32 2 r.eprio.toNat + 2 ^ 34
     | none => 0) +
    b2n c.bound.isSome * 2 ^ 35 + b2n c.claim * 2 ^ 36 + fieldAt 37 2 c.saved.length

/-- LAUNCH_ID (R395). -/
def launchId (s : State) (l : Nat) : Nat :=
  let x := cx s l
  match getLaunch s x.residentLid with
  | some k => fieldAt 0 16 k.lid.toNat + fieldAt 16 2 k.prio + b2n k.wsl * 2 ^ 18 + b2n k.gang.isSome * 2 ^ 19 +
      fieldAt 20 2 x.role.toNat
  | none => fieldAt 0 16 x.residentLid.toNat

/-- A CSR as it reads on either engine (R203); unallocated numbers are illegal words and read 0. -/
def csrNat (s : State) (l n : Nat) : Nat :=
  let c := getCore s l
  let x := c.x
  if 0x100 ≤ n ∧ n < 0x140 then (tget 0 x.mbph (n - 0x100)).toNat
  else if 0x200 ≤ n then tget 0 x.cls n
  else match n with
  | 0x010 => l + fieldAt 8 4 (l % 16) + fieldAt 12 4 (l / 16) + fieldAt 16 5 (blockOf l) + dieOf l * 2 ^ 21
  | 0x011 => vacWord s 0
  | 0x012 => vacWord s 1
  | 0x013 => vacWord s 2
  | 0x014 => s.devId.toNat
  | 0x040 => x.rgnend + b2n x.baren * 2 ^ 9
  | 0x041 => forUp 32 0 fun i a => a + b2n (getRing s l i).boff * 2 ^ i
  | 0x042 => x.convRmw.toNat
  | 0x043 => x.convAcf.toNat
  | 0x044 => x.accLimit
  | 0x045 => fieldAt 0 3 c.ce.length + b2n (c.ce.any fun t => t.started) * 8
  | 0x060 => s.refbase.toNat
  | 0x061 => 4096 + 384 * 2 ^ 16 + 15 * 2 ^ 32
  | 0x062 => min 65535 (leaseCount s)
  | 0x070 => (getLoop x 0).1.toNat
  | 0x072 => (getLoop x 1).1.toNat
  | 0x071 => let p := getLoop x 0; p.2.1.toNat + p.2.2.1.toNat * 2 ^ 32 + b2n p.2.2.2 * 2 ^ 63
  | 0x073 => let p := getLoop x 1; p.2.1.toNat + p.2.2.1.toNat * 2 ^ 32 + b2n p.2.2.2 * 2 ^ 63
  | 0x080 => (getEng s l .c0).lc.toNat
  | 0x081 => (getEng s l .c1).lc.toNat
  | 0x082 => (getEng s l .c2).lc.toNat
  | 0x083 => (getEng s l .c3).lc.toNat
  | 0x084 => (getEng s l .c0).ec.toNat
  | 0x085 => (getEng s l .c1).ec.toNat
  | 0x086 => (getEng s l .c2).ec.toNat
  | 0x087 => (getEng s l .c3).ec.toNat
  | 0x088 => x.rb1.toNat + x.rb2.toNat * 256
  | 0x089 => easeCfg x
  | 0x08A => boqStat s l
  | 0x090 => x.vstat1.toNat
  | 0x091 => x.vstat2.toNat
  | 0x0A0 => x.asid.toNat
  | 0x0A1 => s.retAsid.toNat + b2n s.retBusy * 2 ^ 12
  | 0x0A3 => fieldAt 0 6 c.shadowSlots + fieldAt 8 6 (c.shadowSlots - c.saved.length)
  | 0x0A4 => c.ackOut
  | 0x0A5 => c.wdogLimit.toNat
  | 0x0A6 => c.wdogCnt % 2 ^ 48
  | 0x0B0 => b2n x.mstatCtl
  | 0x0B1 => x.mstat.toNat
  | 0x0B2 => forUp 16 0 fun i a => a + fieldAt (4 * i) 4 (vget 0 x.mpfmt i).toNat
  | 0x0B3 => forUp 16 0 fun i a => a + fieldAt (4 * i) 4 (vget 0 x.mpfmt (16 + i)).toNat
  | 0x0C0 => x.tcause.toNat
  | 0x0C1 => x.tpc.toNat
  | 0x0C2 => (x.tword.extractLsb' 0 64).toNat
  | 0x0C3 => (x.tword.extractLsb' 64 64).toNat
  | 0x0C4 => (x.tword.extractLsb' 128 64).toNat
  | 0x0C5 => (vget 0 x.epc 0).toNat
  | 0x0C6 => (vget 0 x.epc 1).toNat
  | 0x0C7 => x.tvecAp.toNat
  | 0x0C8 => x.tvecC0.toNat
  | 0x0C9 => b2n x.handlerMode + b2n x.hmm * 2
  | 0x0CA => (vget 0 x.epc 2).toNat
  | 0x0CB => (vget 0 x.epc 3).toNat
  | 0x0CC => (vget 0 x.epc 4).toNat
  | 0x0CD => x.han.hpc.toNat
  | 0x0CE => x.han.hmstat.toNat
  | 0x0D0 => schedStat c
  | 0x0D1 => fieldAt 0 16 c.ovfSize + fieldAt 16 46 (c.ovfBase / 64)
  | 0x0D2 => fieldAt 0 16 c.ovf.length + fieldAt 16 32 c.wovf
  | 0x0D3 => launchId s l
  | 0x0D4 => (match x.run with
      | some r => r.img.sel.toNat + r.img.depth.toNat * 256
      | none => 0)
  | 0x0E0 => b2n x.clsHold * 2
  | 0x0E1 => x.eccCorr + x.eccUncorr * 2 ^ 16
  | _ => 0

/-- CSRR's value. -/
def csrRead (s : State) (l n : Nat) : Word := BitVec.ofNat 64 (csrNat s l n)

/-- The CSRs that user mode may write (R204): those with a field that is not RO and that no rule reserves to handler mode. -/
def userWritable (n : Nat) : Bool :=
  n == 0x043 || n == 0x090 || n == 0x091 || n == 0x0B0 || n == 0x0B1 || n == 0x0CE || n == 0x0E0 ||
    (decide (0x100 ≤ n) && decide (n < 0x140)) || (decide (0x080 ≤ n) && decide (n ≤ 0x087))

/-- LC and EC of the clusters: C0 alone writes them (R221). -/
def loopCsr (n : Nat) : Bool := decide (0x080 ≤ n) && decide (n ≤ 0x087)

/-- LOOPi_CTL written (R196). -/
def loopCtl (x : Ctxt) (i : Nat) (v : Word) : Ctxt :=
  { x with loops := vset x.loops i ((getLoop x i).1, v.extractLsb' 0 32, v.extractLsb' 32 11, v.getLsbD 63) }

/-- A CSR written under its access types (R6, R204): writes to RO fields and reserved bits are ignored, and a bit of VSTAT or
MSTAT_C3 that was set on this tick stays set (R274, R324). -/
def csrWrite (s : State) (l n : Nat) (v : Word) : State :=
  let tk := (getCore s l).tk
  if 0x100 ≤ n ∧ n < 0x140 then modX s l fun x => { x with mbph := tset x.mbph (n - 0x100) (v.extractLsb' 0 41) }
  else match n with
  | 0x043 => modX s l fun x => { x with convAcf := x.convAcf &&& ~~~(v.extractLsb' 0 5) }
  | 0x044 => if v.toNat % 32 ≤ 16 then modX s l fun x => { x with accLimit := v.toNat % 32 } else s
  | 0x070 => modX s l fun x => { x with loops := vset x.loops 0 (v, (getLoop x 0).2) }
  | 0x072 => modX s l fun x => { x with loops := vset x.loops 1 (v, (getLoop x 1).2) }
  | 0x071 => modX s l fun x => loopCtl x 0 v
  | 0x073 => modX s l fun x => loopCtl x 1 v
  | 0x080 => modEng s l .c0 fun t => { t with lc := v.extractLsb' 0 32 }
  | 0x081 => modEng s l .c1 fun t => { t with lc := v.extractLsb' 0 32 }
  | 0x082 => modEng s l .c2 fun t => { t with lc := v.extractLsb' 0 32 }
  | 0x083 => modEng s l .c3 fun t => { t with lc := v.extractLsb' 0 32 }
  | 0x084 => modEng s l .c0 fun t => { t with ec := v.extractLsb' 0 8 }
  | 0x085 => modEng s l .c1 fun t => { t with ec := v.extractLsb' 0 8 }
  | 0x086 => modEng s l .c2 fun t => { t with ec := v.extractLsb' 0 8 }
  | 0x087 => modEng s l .c3 fun t => { t with ec := v.extractLsb' 0 8 }
  | 0x090 => modX s l fun x => { x with vstat1 := x.vstat1 &&& (~~~(v.extractLsb' 0 7) ||| tk.vset1) }
  | 0x091 => modX s l fun x => { x with vstat2 := x.vstat2 &&& (~~~(v.extractLsb' 0 7) ||| tk.vset2) }
  | 0x0B0 => modX s l fun x => { x with mstatCtl := v.getLsbD 0 }
  | 0x0B1 => modX s l fun x => { x with mstat := x.mstat &&& (~~~(v &&& 0xFF#64) ||| tk.mset) }
  | 0x0C5 => modX s l fun x => { x with epc := vset x.epc 0 v }
  | 0x0C6 => modX s l fun x => { x with epc := vset x.epc 1 v }
  | 0x0C7 => modX s l fun x => { x with tvecAp := v &&& ~~~63#64 }
  | 0x0C8 => modX s l fun x => { x with tvecC0 := v &&& ~~~63#64 }
  | 0x0C9 => modX s l fun x => { x with hmm := v.getLsbD 1 }
  | 0x0CD => modX s l fun x => { x with han := { x.han with hpc := v &&& ~~~63#64, start := x.handlerMode && x.hmm } }
  | 0x0CE => modX s l fun x => { x with han := { x.han with hmstat := x.han.hmstat &&& ~~~(v.extractLsb' 0 8) } }
  | 0x0E0 => modX s l fun x => { x with clsHold := v.getLsbD 1, clsClr := if v.getLsbD 0 then some (now s) else x.clsClr }
  | _ => s

/-- Whether a write of HSTAT clears HMM while handler words of C3 are in flight: it waits for them (R441). -/
def hmmWaits (s : State) (l n : Nat) (v : Word) : Bool :=
  n == 0x0C9 && !v.getLsbD 1 && (getCore s l).c3.any fun f => f.handler

/-- C3's handler fetch stops (R441). -/
def stopHandlerC3 (s : State) (l : Nat) : State :=
  modX s l fun x => { x with han := { x.han with c3pc := none, start := false } }

/-- Whether every access of the AP that may raise conversion flags has been performed. -/
def convDone (s : State) (l : Nat) : Bool :=
  ((getCore s l).apq.all fun q => (accKind q.kind).isNone) &&
    s.transit.all fun t => t.core != l || t.eng != .ap || t.performed

/-- CONV_RMW and CONV_ACF hold the counts and flags of every earlier word of the AP before a later one reads or writes them (R128). -/
def csrWait (n : BitVec 12) (s : State) (l : Nat) (e : Eng) : Option (List Nat) :=
  if (n = 0x042 ∨ n = 0x043) ∧ e = .ap ∧ !convDone s l then some [208] else none

/-- A word that writes a CSR: on the AP, LC and EC are illegal (R221); in user mode a register that only handlers write is a
privilege trap (R204). -/
def csrWord (k : Guard) (d : Reg) (n : BitVec 12) (old : Bool) (s : State) : Out :=
  if s.current.eng == .ap && loopCsr n.toNat then .next (illegal s)
  else scalarWord [.ap, .c0] k [d] true true (csrWait n) (fun s l e =>
    if !(cx s l).handlerMode && !userWritable n.toNat then privTrap s
    else
      let v := rreg s l e d
      if hmmWaits s l n.toNat v then note (stopHandlerC3 s l) l e .busy []
      else
        let t := csrRead s l n.toNat
        let s := if n == 0x0C9 && !v.getLsbD 1 then stopHandlerC3 s l else s
        let s := csrWrite s l n.toNat v
        retire (if old then wreg s l e d t else s) l e) s

/-- CSRR (R128, R203). -/
def execCsrr (k : Guard) (d : Reg) (n : BitVec 12) (s : State) : Out :=
  scalarWord [.ap, .c0] k [d] true true (csrWait n) (fun s l e => retire (wreg s l e d (csrRead s l n.toNat)) l e) s
/-- CSRW (R203, R204). -/
def execCsrw (k : Guard) (d : Reg) (n : BitVec 12) (s : State) : Out := csrWord k d n false s
/-- CSRX (R203, R204). -/
def execCsrx (k : Guard) (d : Reg) (n : BitVec 12) (s : State) : Out := csrWord k d n true s

/-- A privileged word: a precise privilege trap in user mode (R205). -/
def privWord (engs : List Eng) (k : Guard) (regs : List Reg) (body : State → Nat → Eng → State) (s : State) : Out :=
  scalarWord engs k regs true false noWait
    (fun s l e => if (cx s l).handlerMode then body s l e else privTrap s) s

/-- TRAP (R206): the breakpoint trap, after which the engine resumes at PC + 4. -/
def execTrap (k : Guard) (code : BitVec 12) (s : State) : Out :=
  scalarWord [.ap, .c0] k [] true false noWait (fun s l e =>
    let pc := getPc s l e
    takeTrap s l ⟨0x05, e, code, pc, s.current.word, pc + 4, 0⟩) s

/-- TRET (R207, R439, R441): it waits for the handler words of C3, then for the other engine's TRET; after the second of the two the
core is in user mode from the next tick on. -/
def execTret (k : Guard) (s : State) : Out :=
  privWord [.ap, .c0] k [] (fun s l e =>
    let s := stopHandlerC3 s l
    if (getCore s l).c3.any fun f => f.handler then note s l e .busy []
    else
      let other := if e == .ap then Eng.c0 else Eng.ap
      let s := note s l e .issue []
      let s := modEng s l e fun t => { t with holds := true }
      if (getEng s l other).holds then endHandler s l else s) s

/-- HALT (R208): once no word is in flight, the AP and C0 stop. -/
def execHalt (k : Guard) (s : State) : Out :=
  privWord [.ap] k [] (fun s l e =>
    let c := getCore s l
    if c.apq.isEmpty && c.vfl.isEmpty && c.c3.isEmpty && clusters.all fun e => (getEng s l e).rep == 0 then
      modCore (retire s l e) l fun c => { c with halted := true }
    else note s l e .busy []) s

/-- TICK (R209). -/
def execTick (k : Guard) (d : Reg) (s : State) : Out := regWord k d [] (fun s _ _ => s.tick) s

/-- Every TLB of a core drops the entries named (R213, R422) (DESIGN CHOICE: notes/assumptions/13.md). -/
def dropTlbs (asid : Option (BitVec 12)) (va : Option Nat) (c : Core) : Core :=
  { c with apTlb := tlbDrop c.apTlb asid va, ceTlb := tlbDrop c.ceTlb asid va, walkCache := walkDrop c.walkCache asid va,
           x := { c.x with streams := c.x.streams.map fun t => { t with tlb := tlbDrop t.tlb asid va } } }

/-- TLBINV (R213). -/
def execTlbinv (k : Guard) (d : Reg) (n : BitVec 12) (s : State) : Out :=
  privWord [.ap] k [d] (fun s l e =>
    if !apPerformed s l 3 then waitOn s l e [208]
    else
      let v := rreg s l e d
      retire (modCore s l (dropTlbs (some n) (if v = 0 then none else some (v.toNat % 2 ^ 48)))) l e) s

/-- ASIDRET (R214): the retirement begins; its end is the ASID_RETIREMENT event. -/
def execAsidret (k : Guard) (d : Reg) (s : State) : Out :=
  privWord [.ap] k [d] (fun s l e =>
    if s.retBusy then waitOn s l e [208]
    else retire { s with retAsid := (rreg s l e d).extractLsb' 0 12, retBusy := true } l e) s

/-- Whether SPCFG may not install a partition (R65, R66, R216). -/
def spcfgBad (s : State) (l : Nat) (v : Word) : Bool :=
  let x := cx s l
  let n := v.toNat % 512
  let b := v.getLsbD 9
  decide (v.toNat ≥ 1024) || decide (n + b2n b > 256) || (x.rings.toList.any Ring.conf) || !(openStreams s l).isEmpty ||
    (((getCore s l).waiters.any fun w => w.registered) && x.baren && (!b || n != x.rgnend))

/-- Whether an entry of the AP's queues reaches the scratchpad by its own address, not through a page of the physical window (DESIGN CHOICE: notes/assumptions/13.md). -/
def spEntry (e : QEnt) : Bool :=
  match accKind e.kind, classify e.ea with
  | some _, .sp _ => true
  | _, _ => false

/-- SPCFG (R65, R216). -/
def execSpcfg (k : Guard) (d : Reg) (s : State) : Out :=
  apWord k [d] true (fun s l =>
    let v := rreg s l .ap d
    if spcfgBad s l v then streamTrap s
    else if (getCore s l).apq.any spEntry then waitOn s l .ap [208]
    else retire (modX s l fun x => { x with rgnend := v.toNat % 512, baren := v.getLsbD 9 }) l .ap) s

/-- HPC_C3_WRITE (R441): the C3 fetch that a handler write of HPC_C3 asked for begins. -/
def execHpcC3Write (l : CoreNum) (s : State) : Out :=
  let n := l.toNat
  .next <| if (cx s n).han.start && (cx s n).handlerMode && (cx s n).hmm then
      modX s n fun x => { x with han := { x.han with c3pc := some x.han.hpc, start := false } }
    else s

/-- CLS_CLEAR (R489): every counter that a write of CLR asked to zero is zeroed. -/
def clearCls (s : State) (l : Nat) : State := modX s l fun x => { x with cls := [], clsClr := none }

/-- Whether a write of CLR on an earlier tick has still to zero the counters (R489). -/
def clrDue (s : State) (l : Nat) : Bool :=
  match (cx s l).clsClr with
  | some t => decide (t < now s)
  | none => false

/-- CLS_CLEAR (R489): on the tick after the write of CLR. -/
def execClsClear (l : CoreNum) (s : State) : Out := .next (if clrDue s l.toNat then clearCls s l.toNat else s)

/-- ASID_RETIREMENT (R214): once no running launch holds the ASID, every TLB drops it and BUSY clears. -/
def execAsidRetirement (s : State) : Out :=
  .next <| if s.retBusy && !(s.launches.any fun x => x.asid == s.retAsid && x.st != .ended) then
      { s with cores := s.cores.map fun c => (c.1, dropTlbs (some s.retAsid) none c.2), retBusy := false }
    else s

/-- SHOOTDOWN (R422): the named entries are dropped everywhere, once every access translated through them has been
performed at its home. -/
def execShootdown (asid : Option (BitVec 12)) (va : Option (BitVec 48)) (s : State) : Out :=
  .next <| if s.transit.any fun t => !t.performed then s
    else { s with cores := s.cores.map fun c => (c.1, dropTlbs asid (va.map (·.toNat)) c.2) }

end Sys2Proof.Machine
end

