-- ==== Sys2Proof/Machine/Su.lean ====
section
/-! DEFINITION. The stream unit: descriptors (R79, R80), the elements that an iteration names and where they lie (R81 to R84, R89
to R92), the SU's accesses (R82), and the making of slots. -/

namespace Sys2Proof.Machine

/-! ### Descriptors (R79) -/

/-- A field of a descriptor at a byte offset, in bytes. -/
def dAt (d : BitVec 1024) (off n : Nat) : Nat := dfield d (8 * off) (8 * n)
/-- RANK. -/
def dRank (d : BitVec 1024) : Nat := dfield d 3 3
/-- FMT; a code outside R33 reads as INT8, and no loaded descriptor holds one. -/
def dFmt (d : BitVec 1024) : Fmt := (Fmt.ofCode (BitVec.ofNat 4 (dfield d 6 4))).getD .int8
/-- RCORE. -/
def dRcore (d : BitVec 1024) : Nat := dfield d 20 8
/-- RRING. -/
def dRring (d : BitVec 1024) : Nat := dfield d 28 5
/-- TKW. -/
def dTkw (d : BitVec 1024) : Nat := dfield d 33 3
/-- TKS. -/
def dTks (d : BitVec 1024) : Nat := dfield d 36 3
/-- TKN. -/
def dTkn (d : BitVec 1024) : Nat := dfield d 39 8
/-- BASE. -/
def dBase (d : BitVec 1024) : Nat := dAt d 0x08 8
/-- SIZEi. -/
def dSize (d : BitVec 1024) (i : Nat) : Nat := dAt d (0x10 + 4 * i) 4
/-- ORGi, signed. -/
def dOrg (d : BitVec 1024) (i : Nat) : Int := signedOf 32 (dAt d (0x24 + 4 * i) 4)
/-- LIMi. -/
def dLim (d : BitVec 1024) (i : Nat) : Nat := dAt d (0x38 + 4 * i) 4
/-- SCSTRIDE. -/
def dScStride (d : BitVec 1024) : Nat := dAt d 0x4C 4
/-- STRIDEi, signed. -/
def dStride (d : BitVec 1024) (i : Nat) : Int := signedOf 32 (dAt d (0x50 + 4 * i) 4)
/-- OOBFILL. -/
def dFill (d : BitVec 1024) : Nat := dAt d 0x64 4
/-- SCBASE. -/
def dScBase (d : BitVec 1024) : Nat := dAt d 0x68 8
/-- SHARD. -/
def dShard (d : BitVec 1024) : Nat := dAt d 0x70 8
/-- A descriptor with BASE changed. -/
def setBase (d : BitVec 1024) (v : Word) : BitVec 1024 :=
  (d &&& ~~~((BitVec.allOnes 64).zeroExtend 1024 <<< 64)) ||| (v.zeroExtend 1024 <<< 64)
/-- A descriptor with a field of CTL changed. -/
def setCtl (d : BitVec 1024) (lo w v : Nat) : BitVec 1024 :=
  BitVec.ofNat 1024 (d.toNat - dfield d lo w * 2 ^ lo + v % 2 ^ w * 2 ^ lo)

/-- MXFP4 and MXFP8. -/
def isMx (f : Fmt) : Bool := f == .mxfp4 || f == .mxfp8

/-- Codes per byte group (R80). -/
def codeGroup (f : Fmt) : Nat := match f with | .code4 => 2 | .code3 => 8 | _ => 32

/-- The checks of R80. -/
def descOk (d : BitVec 1024) : Bool :=
  let f := dFmt d
  let gs := dDir d == 3 || dDir d == 4
  dAt d 0x78 8 == 0 && dfield d 53 11 == 0 && decide (dDir d ≤ 4) && decide (1 ≤ dRank d) && decide (dRank d ≤ 5) &&
    decide (dfield d 6 4 ≤ 0xD) && (!gs || (decide (dRank d ≤ 2) && dIport d != dRing d)) &&
    (if isMx f || f == .code4 || f == .code3 then
       dStride d 0 == 1 && dSize d 0 % codeGroup f == 0 && (!isMx f || (dAt d 0x24 4 % 32 == 0 && dLim d 0 % 32 == 0))
     else true) &&
    !(dTks d == 0 && dTkn d != 0) && dTkw d != 6 && dTks d != 6 && (!dTeen d || dDir d == 0 || dDir d == 3) &&
    ((List.range (dRank d)).all fun i => dSize d i != 0) && decide (1 ≤ dScStride d) && decide (dScStride d ≤ 65536)

/-! ### Positions: the indices as a count of elements (R81, R96) -/

/-- Elements in the iteration: the product of the sizes below RANK. -/
def dTotal (d : BitVec 1024) : Nat := (List.range (dRank d)).foldl (fun n i => n * dSize d i) 1

/-- The count that position indices stand for, dimension 0 fastest. -/
def linOf (d : BitVec 1024) (idx : Vector (BitVec 32) 5) : Nat :=
  ((List.range (dRank d)).foldl (fun (a : Nat × Nat) i => (a.1 + a.2 * (vget 0 idx i).toNat, a.2 * dSize d i)) (0, 1)).1

/-- The index of dimension `i` at a count; the last dimension keeps what is left, so that the end of the iteration has indices
of its own. -/
def idxAt (d : BitVec 1024) (lin : Nat) : Nat → Nat
  | i => let q := lin / (List.range i).foldl (fun n j => n * dSize d j) 1
    if i + 1 < dRank d then q % dSize d i else if i + 1 == dRank d then q else 0

/-- The position indices at a count. -/
def idxOf (d : BitVec 1024) (lin : Nat) : Vector (BitVec 32) 5 :=
  (List.range 5).foldl (fun v i => vset v i (BitVec.ofNat 32 (idxAt d lin i))) (Vector.replicate 5 0)

/-- Whether a stream's iteration has an end of its own: a gather or scatter goes on to a bind-off (R89). -/
def endless (d : BitVec 1024) : Bool := dDir d == 3 || dDir d == 4

/-- Data elements that a slot of `z` bytes holds (R84). -/
def slotCap (f : Fmt) (z : Nat) : Nat :=
  match f with
  | .code4 => 2 * z
  | .code3 => z / 3 * 8
  | .mxfp4 => z / 17 * 32
  | .mxfp8 => z / 33 * 32
  | f => z * 8 / f.width

/-! ### The SU's accesses (R82) -/

/-- What a step of the SU's work gives. -/
inductive Gen (α : Type) where
  | ok (a : α) (s : State)
  /-- The access waits: a refresh window (R109). -/
  | wait (s : State)
  /-- The access waits for another one, or for another device's answer (R359, R478). -/
  | hold (s : State)
  /-- A fault at an address. -/
  | bad (f : FInfo) (va : Word) (s : State)

/-- One step after another. -/
def Gen.bind {α β : Type} (x : Gen α) (f : α → State → Gen β) : Gen β :=
  match x with
  | .ok a s => f a s
  | .wait s => .wait s
  | .hold s => .hold s
  | .bad e va s => .bad e va s

/-- A step for each member of a list, its results in order. -/
def Gen.all {α β : Type} (f : α → State → Gen β) : List α → State → Gen (List β)
  | [], s => .ok [] s
  | x :: xs, s => (f x s).bind fun b s => (Gen.all f xs s).bind fun bs s => .ok (b :: bs) s

/-- Where checked bytes lie. -/
inductive Spot where
  | sp (off n : Nat)
  | parts (ps : List (Trans × Nat × Nat))

/-- The device that holds the frame of a translation (R471). -/
def frameDev (s : State) (x : Trans) : Nat :=
  match rowOf (pteAddr x.pte) with
  | some (.remote dev _) => dev
  | _ => s.devId.toNat % 512

/-- An address of the SU or the CE as R82 and R176 classify it, checked: its key is in bits [63:60]. -/
def spotOf (s : State) (tlb : List TlbEnt) (cap : Nat) (l n : Nat) (k : AKind) (key va : Nat) :
    Gen Spot × List TlbEnt :=
  match checkVa s none (getCore s l).walkCache tlb cap (cx s l).asid (runLid s l) va n key k with
  | (.ok ps, t) => (.ok (.parts ps) s, t)
  | (.wait, t) => (.wait s, t)
  | (.bad f v, t) => (.bad f (BitVec.ofNat 64 (v + key * 2 ^ 60)) s, t)

/-- `n` bytes that stream `j` of core `l` reaches at an address (R82): `dev` is the device that a sharding table names.
(DEDUCED: notes/assumptions/22.md). -/
def suSpot (l j : Nat) (ea : Word) (n : Nat) (k : AKind) (dev : Option Nat) (s : State) : Gen Spot :=
  match classify ea with
  | .bad => .bad (FInfo.plain 0x15) ea s
  | .sp off =>
    if off + n > 0x100000 || touchesBar s l off n || dev.isSome then .bad (FInfo.plain 0x1D) ea s else .ok (.sp off n) s
  | .virt va key =>
    if va + n > 2 ^ 48 then .bad (FInfo.plain 0x15) ea s
    else
      let r := spotOf s (getStream s l j).tlb 2 l n k key va
      let up (s : State) : State := modStream s l j fun t => { t with tlb := r.2 }
      match r.1 with
      | .ok (.parts ps) s =>
        if (match dev with
            | some x => ps.any fun p => frameDev s p.1 != x
            | none => false) then .bad (FInfo.plain 0x1D) ea (up s)
        else .ok (.parts ps) (up s)
      | .ok p s => .ok p (up s)
      | .wait s => .wait (up s)
      | .hold s => .hold (up s)
      | .bad f v s => .bad f v (up s)

/-- Bytes read, the flags of a converting page, and the 64-byte accesses that the hotness sketch counts. -/
structure Got where
  bytes : List PByte
  acf : Acf
  lines : List Nat

/-- The lines of a checked access that the sketch counts (R431). -/
def hotLines (ps : List (Trans × Nat × Nat)) : List Nat := linesOf (ps.filter fun p => !pteHx p.1.pte)

/-- Bytes at a spot. -/
def readSpot (s : State) (l : Nat) : Spot → Got
  | .sp off n => ⟨readPBytes s (spBase l + off) n, 0, []⟩
  | .parts ps => let r := readParts s ps; ⟨r.1, r.2, hotLines ps⟩

/-- Nothing read. -/
def Got.none : Got := ⟨[], 0, []⟩

/-- Two reads for one element. -/
def Got.and (a b : Got) : Got := ⟨a.bytes ++ b.bytes, a.acf ||| b.acf, a.lines ++ b.lines⟩

/-- Whether a read met poison. -/
def Got.psn (g : Got) : Bool := g.bytes.any (·.psn)

/-- FMT of a stream's elements. -/
def suFmt (s : State) (l j : Nat) : BitVec 4 := BitVec.ofNat 4 (dfield (getStream s l j).desc 6 4)

/-- The SU waits for banks that a checked access of a stream reaches (R62). -/
def suHold (s : State) (l j : Nat) : Spot → State
  | .sp off n => bankHold s l (suWho l j) [(off, n)]
  | .parts ps => holdParts s (suWho l j) ps

/-- Whether the banks that it reaches serve it on this tick. -/
def suTurn (s : State) (l j : Nat) : Spot → Bool
  | .sp off n => bankTurn s l (suWho l j) [(off, n)]
  | .parts ps => partsTurn s (suWho l j) ps

/-- They do. -/
def suUse (s : State) (l j : Nat) : Spot → State
  | .sp off n => useBanks s l (suWho l j) [(off, n)]
  | .parts ps => useParts s (suWho l j) ps

/-- `n` bytes of a format read by a stream; what another device holds it asks for (R359, R478), and the banks of a scratchpad serve it
in their order (R62) (DESIGN CHOICE: notes/assumptions/31.md). -/
def suRead (l j : Nat) (ea : Word) (n : Nat) (dev : Option Nat) (fmt : BitVec 4) (s : State) : Gen Got :=
  (suSpot l j ea n .read dev s).bind fun p s =>
    if !suTurn s l j p then .hold (suHold s l j p)
    else match p with
    | .sp off n => .ok (readSpot s l p) (spTouch (suUse s l j p) l off n)
    | .parts ps =>
      match readAway s l .su j (ea.toNat / 2 ^ 60) fmt ps with
      | (t, none) => .hold t
      | (t, some r) => .ok ⟨r.1, r.2, hotLines ps⟩ (touchParts (suUse t l j p) ps)

/-- The lines of several accesses counted, one access for each run of the same line (DESIGN CHOICE: notes/assumptions/71.md). -/
def touchLines (s : State) : List Nat → State
  | [] => s
  | [a] => hotTouch s a
  | a :: b :: t => if a == b then touchLines s (b :: t) else touchLines (hotTouch s a) (b :: t)

/-! ### Sharding (R91, R92) -/

/-- A field of a sharding descriptor. -/
def shAt (h : BitVec 512) (lo w : Nat) : Nat := (h.toNat / 2 ^ lo) % 2 ^ w
/-- GRANK. -/
def shRank (h : BitVec 512) : Nat := shAt h 0 3
/-- The grid's extent along an axis. -/
def shExt (h : BitVec 512) (a : Nat) : Nat := shAt h (8 + 8 * a) 8
/-- DEVTAB. -/
def shTab (h : BitVec 512) : Nat := shAt h 64 64
/-- MODE of a tensor dimension. -/
def shMode (h : BitVec 512) (d : Nat) : Nat := shAt h (128 + 64 * d) 2
/-- GAXIS. -/
def shAxis (h : BitVec 512) (d : Nat) : Nat := shAt h (130 + 64 * d) 2
/-- BLK. -/
def shBlk (h : BitVec 512) (d : Nat) : Nat := shAt h (160 + 64 * d) 32
/-- Whether a dimension is spread over an axis. -/
def shSpread (h : BitVec 512) (d : Nat) : Bool := shMode h d == 1 || shMode h d == 2

/-- The checks of R91, over all five DIMSPECs; a GRANK outside 1 to 4 and an extent of 0 fail them too
(DESIGN CHOICE: notes/assumptions/79.md). -/
def shardOk (h : BitVec 512) : Bool :=
  let ds := List.range 5
  decide (1 ≤ shRank h) && decide (shRank h ≤ 4) && shAt h 3 5 == 0 && shAt h 40 24 == 0 && shAt h 448 64 == 0 &&
    ((List.range (shRank h)).all fun a => shExt h a != 0) && (ds.all fun d => shAt h (132 + 64 * d) 28 == 0) &&
    (ds.all fun d => decide (shAxis h d < shRank h) && (!shSpread h d || shBlk h d != 0)) &&
    (ds.all fun d => ds.all fun e => d == e || !shSpread h d || !shSpread h e || shAxis h d != shAxis h e)

/-- Owner and local coordinate of a global one along a dimension (R92). -/
def shSplit (h : BitVec 512) (d : Nat) (c : Int) : Nat × Int :=
  let b : Int := shBlk h d
  let g : Int := shExt h (shAxis h d)
  if shMode h d == 1 then ((c / b).toNat, c % b)
  else if shMode h d == 2 then ((c / b % g).toNat, c / (b * g) * b + c % b)
  else (0, c)

/-- The positions of the grid that an access reaches: along an axis that no spread dimension names, a read uses the device's own
coordinate and a write every one (R92). -/
def shPositions (s : State) (h : BitVec 512) (rank : Nat) (cs : List Int) (write : Bool) : List Nat :=
  (List.range (shRank h)).reverse.foldl (fun ps a =>
    let owner := (List.range rank).find? fun d => shSpread h d && shAxis h d == a
    let gs := match owner with
      | some d => [(shSplit h d (cs.getD d 0)).1]
      | none => if write then List.range (shExt h a) else [(s.devId.toNat / 2 ^ (16 + 8 * a)) % 256]
    ps.flatMap fun p => gs.map fun g => p * shExt h a + g) [0]

/-- An entry of DEVTAB: device and local BASE, and the read that gave them. -/
def shEntry (l j : Nat) (h : BitVec 512) (pos : Nat) (s : State) : Gen (Nat × Nat × Got) :=
  (suRead l j (BitVec.ofNat 64 (shTab h + 16 * pos)) 16 none 0xF s).bind fun g s =>
    let x := ofLE (g.bytes.map (·.b))
    if x % 65536 > 511 then .bad (FInfo.plain 0x1D) (BitVec.ofNat 64 (shTab h + 16 * pos)) s
    else .ok (x % 65536, x / 2 ^ 64, g) s

/-! ### Elements (R81, R83, R89) -/

/-- Where an element lies: the coordinates of its dimensions, the extents of its bounds, or none out of bounds. -/
def coordsOf (d : BitVec 1024) (lin : Nat) (x : Int) : Option (List Int) :=
  let c (i : Nat) : Int := (idxAt d lin i : Int) + dOrg d i
  let cs : List Int :=
    if dDir d == 3 || dDir d == 4 then (if dRank d == 1 then [x] else [c 0, x]) else (List.range (dRank d)).map c
  if (cs.zipIdx).all fun p => decide (0 ≤ p.1) && decide (p.1 < dLim d p.2) then some cs else none

/-- The sum of coordinates times strides. -/
def elemOff (d : BitVec 1024) (cs : List Int) : Int := (cs.zipIdx).foldl (fun a p => a + p.1 * dStride d p.2) 0

/-- A local place of an element: BASE, its element offset, the device that a sharding table names, and the read of that table,
on which the element depends (R53, R115). -/
structure Place where
  base : Nat
  off : Int
  dev : Option Nat
  via : Got

/-- The places of an element: one, or for a sharded write one on each device that holds a copy. -/
def placesOf (l j : Nat) (cs : List Int) (write : Bool) (s : State) : Gen (List Place) :=
  let t := getStream s l j
  let d := t.desc
  if dShard d == 0 then .ok [⟨dBase d, elemOff d cs, none, Got.none⟩] s
  else
    let local' := (cs.zipIdx).map fun p => (shSplit t.shard p.2 p.1).2
    (Gen.all (shEntry l j t.shard) (shPositions s t.shard (dRank d) cs write) s).bind fun es s =>
      .ok (es.map fun e => ⟨e.2.1, elemOff d local', some e.1, e.2.2⟩) s

/-- A 64-bit address made from bits [63:48] of a base and a 48-bit address; none outside the range (R81, R82). -/
def joinVa (base : Nat) (va : Int) : Option Word :=
  if 0 ≤ va && va < 2 ^ 48 then some (BitVec.ofNat 64 (base / 2 ^ 48 * 2 ^ 48 + va.toNat)) else none

/-- `n` bits at a bit address relative to a base: the number, and the read with that of the table that named the place. -/
def suBits (l j : Nat) (p : Place) (bit : Int) (n : Nat) (s : State) : Gen (Nat × Got) :=
  let lo := (p.base % 2 ^ 48 : Nat) + bit / 8
  let sh := (bit % 8).toNat
  match joinVa p.base lo with
  | none => .bad (FInfo.plain 0x15) (BitVec.ofNat 64 (p.base / 2 ^ 48 * 2 ^ 48 + (lo % 2 ^ 48).toNat)) s
  | some ea => (suRead l j ea ((sh + n + 7) / 8) p.dev (suFmt s l j) s).bind fun g s =>
      .ok (ofLE (g.bytes.map (·.b)) / 2 ^ sh % 2 ^ n, p.via.and g) s

/-- The address of a block's scale (R81). -/
def scaleVa (d : BitVec 1024) (off : Int) : Option Word :=
  joinVa (dScBase d) ((dScBase d % 2 ^ 48 : Nat) + off / 32 * dScStride d)

/-- The fill pattern of an element (R83): its low bits, sign-extended for INT64. -/
def fillBits (d : BitVec 1024) : Nat := if dFmt d == .int64 then wrapInt (signedOf 32 (dFill d)) 64 else dFill d % 2 ^ (dFmt d).width

/-- A unit of a slot: one element, or one block of an MX format: its pattern, its scale, whether it is poisoned, out of bounds,
its flags and its lines. -/
structure Piece where
  bits : Nat
  scale : Nat
  psn : Bool
  oob : Bool
  acf : Acf
  lines : List Nat

/-- Elements of a piece: 32 in an MX format, else 1. -/
def pieceLen (f : Fmt) : Nat := if isMx f then 32 else 1

/-- The piece that fill positions and out-of-bounds pieces hold (R83, R84). -/
def fillPiece (d : BitVec 1024) (oob : Bool) : Piece :=
  let f := dFmt d
  if isMx f then
    let w := if f == .mxfp4 then 4 else 8
    ⟨packElems w (List.replicate 32 (dFill d % 2 ^ w)), dFill d / 256 % 256, false, oob, 0, []⟩
  else ⟨fillBits d, 0, false, oob, 0, []⟩

/-- Bits of an element, a block's element in an MX format. -/
def elemBits (f : Fmt) : Nat := match f with | .mxfp4 | .code4 => 4 | .code3 => 3 | .mxfp8 => 8 | f => f.width

/-- A piece read from its place. -/
def readPiece (l j : Nat) (cs : List Int) (s : State) : Gen Piece :=
  let d := (getStream s l j).desc
  let f := dFmt d
  let w := elemBits f
  (placesOf l j cs false s).bind fun ps s =>
    match ps with
    | [] => .ok (fillPiece d true) s
    | p :: _ => (suBits l j p (p.off * w) (w * pieceLen f) s).bind fun g s =>
      if isMx f then
        match scaleVa d p.off with
        | none => .bad (FInfo.plain 0x15) (BitVec.ofNat 64 (dScBase d)) s
        | some ea => (suRead l j ea 1 p.dev 0xF s).bind fun h s =>
            .ok ⟨g.1, ofLE (h.bytes.map (·.b)), g.2.psn || h.psn, false, g.2.acf ||| h.acf, g.2.lines ++ h.lines⟩ s
      else .ok ⟨g.1, 0, g.2.psn, false, g.2.acf, g.2.lines⟩ s

/-- An index of a gather or scatter, and whether it is poisoned: what it selects then is too (R53). -/
abbrev Index := Int × Bool

/-- The element or block at a count, with an index for gathers. A gather of single elements in an MX format takes its 32 codes
one by one, and the scale of such a block is free (R89 states none). -/
def pieceAt (l j : Nat) (p : Nat × List Index) (s : State) : Gen Piece :=
  let d := (getStream s l j).desc
  if isMx (dFmt d) && dDir d == 3 && dRank d == 1 then
    let w := elemBits (dFmt d)
    (Gen.all (fun (x : Index) s => match coordsOf d p.1 x.1 with
      | none => .ok (dFill d % 2 ^ w, true, x.2, (0 : Acf), []) s
      | some cs => (placesOf l j cs false s).bind fun ps s => match ps with
        | [] => .ok (0, true, x.2, 0, []) s
        | q :: _ => (suBits l j q (q.off * w) w s).bind fun g s => .ok (g.1, false, g.2.psn || x.2, g.2.acf, g.2.lines) s)
      p.2 s).bind fun cs s =>
      .ok ⟨packElems w (cs.map (·.1)), (Config.gatherScale s.nonce).toNat, cs.any (·.2.2.1), cs.any (·.2.1),
        cs.foldl (fun a c => a ||| c.2.2.2.1) 0, cs.flatMap (·.2.2.2.2)⟩ s
  else
    let x : Index := p.2.headD (0, false)
    match coordsOf d p.1 x.1 with
    | none => .ok { fillPiece d true with psn := x.2 } s
    | some cs => (readPiece l j cs s).bind fun e s => .ok { e with psn := e.psn || x.2 } s

/-- The bytes of a slot of `z` bytes from its pieces (R84) (DESIGN CHOICE: notes/assumptions/17.md). -/
def packSlot (f : Fmt) (z : Nat) (ps : List Piece) : List PByte :=
  let clean (n : Nat) : List PByte := List.replicate n ⟨0, false⟩
  let fit (bs : List PByte) : List PByte := (bs ++ clean (z - bs.length)).take z
  let one (n : Nat) (p : Piece) : List PByte := (toLE n p.bits).map fun b => ⟨b, p.psn⟩
  match f with
  | .mxfp4 => fit (ps.flatMap (one 16) ++ ps.map fun p => ⟨BitVec.ofNat 8 p.scale, p.psn⟩)
  | .mxfp8 => fit (ps.flatMap (one 32) ++ ps.map fun p => ⟨BitVec.ofNat 8 p.scale, p.psn⟩)
  | .code4 | .code3 =>
    let w := f.width
    let n := (ps.length * w + 7) / 8
    fit (((toLE n (packElems w (ps.map (·.bits)))).zipIdx).map fun b =>
      ⟨b.1, (List.range (8 / w + 2)).any fun i =>
        let m := 8 * b.2 / w + i
        decide (m * w < 8 * b.2 + 8) && (match ps[m]? with | some p => p.psn | none => false)⟩)
  | f => fit (ps.flatMap (one (f.width / 8)))

/-! ### Index units (R89, R90) -/

/-- Indices in one slot of an index ring (DESIGN CHOICE: notes/assumptions/17.md). -/
def idxPer (r : Ring) : Nat := r.z * 64

/-- What the index ring gives from a position: the indices at hand, whether a bind-off slot follows them, and whether more may
come. -/
structure Idxs where
  xs : List Index
  boff : Bool

/-- The indices in the full slots of a ring from slot HEAD onward, up to a bind-off slot (DESIGN CHOICE: notes/assumptions/17.md). -/
def ringIdxs (s : State) (l q : Nat) : Idxs :=
  let r := getRing s l q
  (List.range r.n).foldl (fun (a : Idxs × Bool) i =>
    let k := (r.head + i) % r.n
    if !a.2 then a
    else if !r.isFull k then (a.1, false)
    else if r.isBoff k then (⟨a.1.xs, true⟩, false)
    else
      let bs := slotBytes s l q k
      let xs := (elemsOf 32 (idxPer r) (ofLE (bs.map (·.b)))).zipIdx.map fun e =>
        (signedOf 32 e.1, ((bs.drop (4 * e.2)).take 4).any (·.psn))
      (⟨a.1.xs ++ xs, false⟩, true)) (⟨[], false⟩, true) |>.1

/-- The count of indices that a position stands for (R89). -/
def idxCount (d : BitVec 1024) (lin : Nat) : Nat := if dRank d == 1 then lin else lin / dSize d 0

/-! ### A slot generated (R84, R85, R89) -/

/-- The next slot of a filling stream: what it holds, and where the iteration then stands. None: its indices are not there. -/
def genSlot (l j : Nat) (z : Nat) (lin : Nat) (s : State) : Gen (Option Ahead) :=
  let t := getStream s l j
  let d := t.desc
  let f := dFmt d
  let k := pieceLen f
  let cap := slotCap f z / k
  let done (n : Nat) (last : Bool) (ps : List Piece) (s : State) : Gen (Option Ahead) :=
    let all := ps ++ List.replicate (cap - ps.length) (fillPiece d false)
    .ok (some ⟨packSlot f z all, idxOf d (lin + n), last, n, ps.any (·.oob), ps.foldl (fun a p => a ||| p.acf) 0⟩)
      (touchLines s (ps.flatMap (·.lines)))
  if dDir d == 3 then
    let r := getRing s l (dIport d)
    let ix := ringIdxs s l (dIport d)
    let per := max 1 (idxPer r)
    let row := if dRank d == 1 then 1 else dSize d 0
    let p0 := idxCount d lin - idxCount d (linOf d t.idx) / per * per
    let have' := (ix.xs.length - p0) * row - (if dRank d == 1 then 0 else lin % row)
    let want := cap * k
    if have' < want && !ix.boff then .ok none s
    else
      let n := min want have'
      let at' (m : Nat) : Nat × List Index :=
        let e := lin + m * k
        (e, if row == 1 && k == 32 then (List.range 32).map fun i => ix.xs.getD (p0 + m * 32 + i) (-1, false)
            else [ix.xs.getD (p0 + (idxCount d e - idxCount d lin)) (-1, false)])
      (Gen.all (pieceAt l j) ((List.range ((n + k - 1) / k)).map at') s).bind fun ps s => done n (decide (n < want)) ps s
  else
    let total := dTotal d
    let n := min (cap * k) (total - lin)
    (Gen.all (pieceAt l j) ((List.range (n / k)).map fun m => (lin + m * k, [])) s).bind fun ps s =>
      done n (decide (total ≤ lin + n)) ps s

/-! ### A slot written to memory (R86, R90) -/

/-- The pieces of a slot (R84). -/
def unpackSlot (f : Fmt) (z : Nat) (bs : List PByte) (n : Nat) : List Piece :=
  let psnIn (lo k : Nat) : Bool := ((bs.drop lo).take k).any (·.psn)
  let num (lo k : Nat) : Nat := ofLE (((bs.drop lo).take k).map (·.b))
  match f with
  | .mxfp4 | .mxfp8 =>
    let bb := if f == .mxfp4 then 16 else 32
    let nb := z / (bb + 1)
    (List.range ((n + 31) / 32)).map fun b => ⟨num (b * bb) bb, num (nb * bb + b) 1, psnIn (b * bb) bb || psnIn (nb * bb + b) 1, false, 0, []⟩
  | .code4 | .code3 =>
    let w := f.width
    (List.range n).map fun i =>
      let lo := i * w / 8
      let k := (i * w + w - 1) / 8 + 1 - lo
      ⟨num lo k / 2 ^ (i * w % 8) % 2 ^ w, 0, psnIn lo k, false, 0, []⟩
  | f => let w := f.width / 8; (List.range n).map fun i => ⟨num (i * w) w, 0, psnIn (i * w) w, false, 0, []⟩

/-- A run of bytes that a stream writes: address, sharding device, bits from a bit offset, and the flags and lines of the read of
a sharding table that named the place. -/
structure Run where
  ea : Word
  dev : Option Nat
  sh : Nat
  nbits : Nat
  bits : Nat
  psn : List Bool
  acf : Acf
  lines : List Nat

/-- Whether a run of bits goes on where another ends: within one page's elements, and never over the top of the scratchpad (R82). -/
def runsOn (a b : Run) : Bool :=
  a.dev == b.dev && decide ((a.sh + a.nbits) % 8 = b.sh % 8) && b.ea == a.ea + BitVec.ofNat 64 ((a.sh + a.nbits) / 8) &&
    a.ea.toNat / 2 ^ 48 == b.ea.toNat / 2 ^ 48 && decide (b.ea.toNat ≠ 0x100000)

/-- The poison of the bytes of two runs joined: they share a byte where the first ends within one. -/
def joinPsn (a b : Run) : List Bool :=
  if (a.sh + a.nbits) % 8 == 0 then a.psn ++ b.psn
  else a.psn.dropLast ++ [(a.psn.getLast?.getD false) || b.psn.headD false] ++ b.psn.tail

/-- A run joined to the run that follows it in memory: the two are then one write (R116) (DESIGN CHOICE: notes/assumptions/78.md). -/
def joinRuns : List Run → List Run
  | [] => []
  | a :: t => match joinRuns t with
    | [] => [a]
    | b :: rest =>
      if runsOn a b then
        ⟨a.ea, a.dev, a.sh, a.nbits + b.nbits, a.bits + b.bits * 2 ^ a.nbits, joinPsn a b, a.acf ||| b.acf, a.lines ++ b.lines⟩ :: rest
      else a :: b :: rest

/-- Whether checked bytes all lie in a core's own scratchpad, reached through a page. -/
def ownSp (l : Nat) (ps : List (Trans × Nat × Nat)) : Bool :=
  ps.all fun p => (frameRanges p.1 p.2.1 p.2.2).all fun r => rowOf r.1 == some (.sp l) && rowOf (r.1 + r.2 - 1) == some (.sp l)

/-- The bytes that a run meets. -/
def Run.len (r : Run) : Nat := (r.sh + r.nbits + 7) / 8

/-- Whether a run's bits fill its bytes. -/
def Run.whole (r : Run) : Bool := r.sh == 0 && r.nbits % 8 == 0

/-- A run made ready: no earlier access of the core to its location is on its way, and other devices have given what its write
keeps (R359, R475, R478). The answer counts its parts off the die. -/
def readyRun (l j : Nat) (r : Run) (s : State) : Gen Nat :=
  (suSpot l j r.ea r.len .write r.dev s).bind fun p s =>
    if !suTurn s l j p then .hold (suHold s l j p)
    else match p with
    | .sp .. => .ok 0 s
    | .parts ps =>
      if crosses s l ps then .hold s
      else if r.whole then .ok (awayParts l ps) s
      else match readAway s l .su j (r.ea.toNat / 2 ^ 60) (suFmt s l j) ps with
        | (t, some _) => .ok (awayParts l ps) t
        | (t, none) => .hold t

/-- A run written: where its bits do not fill its bytes, the rest of those bytes is read and stays, and the flags of that read
count with those of the write (R115). A later run that shares a byte with this one reads it again. Poison that the run carries beyond the issuing core's scratchpad is reported (R497). -/
def writeRun (l j : Nat) (r : Run) (s : State) : Gen (Bool × List Nat) :=
  let n := r.len
  (suSpot l j r.ea n .write r.dev s).bind fun p s =>
    let got := match p with
      | .sp .. => readSpot s l p
      | .parts ps => (match readAway s l .su j (r.ea.toNat / 2 ^ 60) (suFmt s l j) ps with
        | (_, some g) => ⟨g.1, g.2, []⟩
        | (_, none) => Got.none)
    let old := if r.whole then [] else got.bytes
    let x := ofLE (old.map (·.b))
    let mask := (2 ^ r.nbits - 1) * 2 ^ r.sh
    let y := (x &&& (2 ^ (8 * n) - 1 - mask)) + r.bits * 2 ^ r.sh
    let whole := r.whole
    let bs := ((toLE n y).zipIdx).map fun b =>
      let keeps := (b.2 == 0 && r.sh != 0) || (b.2 + 1 == n && (r.sh + r.nbits) % 8 != 0)
      (⟨b.1, r.psn.getD b.2 false || (keeps && (old.getD b.2 ⟨0, false⟩).psn)⟩ : PByte)
    let s := suUse s l j p
    match p with
    | .sp off _ => .ok (false, []) (writePBytes (if whole then s else spTouch s l off n) (spBase l + off) bs)
    | .parts ps =>
      let s := modFar s l .su j fun rs => rs.filter fun k => !ps.any fun p => k.ea.toNat % 2 ^ 48 == p.2.1
      let s := if whole then s else touchParts s ps
      let w := writeAll s l .su j (r.ea.toNat / 2 ^ 60) (suFmt s l j) ps bs
      .ok (r.psn.any id && !ownSp l ps, r.lines ++ hotLines ps)
        (rmwAdd (streamOr w.1 l j (w.2.1 ||| r.acf ||| (if whole then 0 else got.acf))) l w.2.2)

/-- Whether a scatter writes its elements one by one although its format packs 32 of them in a block: each has an index of its
own (R90). -/
def singles (d : BitVec 1024) : Bool := isMx (dFmt d) && dDir d == 4 && dRank d == 1

/-- The runs of a piece of `m` elements at its places: its bits and, in an MX format, the scale of the block that holds it
(DEDUCED: notes/assumptions/80.md). -/
def pieceRuns (l j : Nat) (m : Nat) (pc : Piece) (cs : List Int) (s : State) : Gen (List Run) :=
  let d := (getStream s l j).desc
  let f := dFmt d
  let w := elemBits f
  let k := w * m
  (placesOf l j cs true s).bind fun ps s =>
    (Gen.all (fun (p : Place) s =>
      let lo := (p.base % 2 ^ 48 : Nat) + p.off * w / 8
      match joinVa p.base lo with
      | none => .bad (FInfo.plain 0x15) (BitVec.ofNat 64 p.base) s
      | some ea =>
        let psn := pc.psn || p.via.psn
        let r : Run := ⟨ea, p.dev, (p.off * w % 8).toNat, k, pc.bits % 2 ^ k, List.replicate (((p.off * w % 8).toNat + k + 7) / 8) psn, p.via.acf, p.via.lines⟩
        if isMx f then
          match scaleVa d p.off with
          | none => .bad (FInfo.plain 0x15) (BitVec.ofNat 64 (dScBase d)) s
          | some sa => .ok [r, ⟨sa, p.dev, 0, 8, pc.scale % 256, [psn], 0, []⟩] s
        else .ok [r] s) ps s).bind fun rs s => .ok rs.flatten s

/-- The runs of a slot written in order (R103), each once it may be: a run waits for its banks, for an earlier access to its bytes, for
what another device holds of them, and for room in ACK_OUT (R359, R361). The stream keeps how many have been written, and whether poison
has left the core; the lines that they touch are counted as they go (DESIGN CHOICE: notes/assumptions/31.md). -/
def writeRuns (l j : Nat) : List Run → Bool → List Nat → State → Gen Bool
  | [], psn, ls, s => .ok psn (touchLines s ls)
  | r :: rs, psn, ls, s =>
    let stop (s : State) : State := modStream (touchLines s ls) l j fun t => { t with sentPsn := psn }
    match readyRun l j r s with
    | .wait s => .wait (stop s)
    | .hold s => .hold (stop s)
    | .bad f va s => .bad f va (stop s)
    | .ok n s =>
      if !ackRoom s l n then .hold (stop s)
      else match writeRun l j r s with
        | .ok w s => writeRuns l j rs (psn || w.1) (ls ++ w.2) (modStream s l j fun t => { t with sent := t.sent + 1 })
        | .wait s => .wait (stop s)
        | .hold s => .hold (stop s)
        | .bad f va s => .bad f va (stop s)

/-- The elements of a slot written (R86, R90): the state holds every write, performed or on its way; the answer says whether an
element was out of bounds, and whether poison left the core (DESIGN CHOICE: notes/assumptions/31.md). -/
def drainSlot (l j : Nat) (bs : List PByte) (n lin : Nat) (xs : List Index) (s : State) : Gen (Bool × Bool) :=
  let d := (getStream s l j).desc
  let f := dFmt d
  let k := if singles d then 1 else pieceLen f
  let ps := (unpackSlot f bs.length bs n).flatMap fun p =>
    if singles d then (elemsOf (elemBits f) 32 p.bits).map fun b => { p with bits := b } else [p]
  let ps := (ps.take ((n + k - 1) / k)).zipIdx
  let idxNo (m : Nat) : Nat := idxCount d (lin + m * k) - idxCount d lin
  let at' (i : Nat) : Index := xs.getD i (-1, false)
  let first := idxCount d lin
  let drop (m : Nat) : Bool :=
    dDir d == 4 &&
      let p := idxNo m
      let u := (first + p) % 64
      (List.range (63 - u)).any fun i => p + 1 + i < xs.length && (at' (p + 1 + i)).1 == (at' p).1
  let items := ps.map fun p =>
    let x : Index := if dDir d == 4 then at' (idxNo p.2) else (0, false)
    ({ p.1 with psn := p.1.psn || x.2 }, p.2, coordsOf d (lin + p.2 * k) x.1)
  let oob := items.any fun i => i.2.2.isNone
  (Gen.all (fun (i : Piece × Nat × Option (List Int)) s =>
    match i.2.2 with
    | none => .ok [] s
    | some cs => if drop i.2.1 then .ok [] s else pieceRuns l j k i.1 cs s) items s).bind fun rs s =>
    let u := getStream s l j
    (writeRuns l j ((joinRuns rs.flatten).drop u.sent) u.sentPsn [] s).bind fun psn s =>
      .ok (oob, psn) (modStream s l j fun t => { t with sent := 0, sentPsn := false })

end Sys2Proof.Machine
end

