-- ==== Sys2Proof/Machine/Streams.lean ====
section
/-! DEFINITION. The AP's stream and ring words (R93 to R101, R224 to R235). -/

namespace Sys2Proof.Machine

/-! ### Objects in the private AP region (R68, R224, R225) -/

/-- Whether an object of `n` bytes may lie at an offset (R68, R224). -/
def objOk (s : State) (l : Nat) (v : Word) (n : Nat) : Bool :=
  let x := cx s l
  decide (v.toNat + n ≤ 0x100000) && v.toNat % 64 == 0 && decide ((x.rgnend + b2n x.baren) * 4096 ≤ v.toNat)

/-- Whether older acquires, fences and aligns of the AP let a younger access go (R183). -/
def acqDone (s : State) (l : Nat) : Bool :=
  (getCore s l).apq.all fun o => match o.kind with
    | .lda sc _ | .amo sc _ | .cas sc _ =>
      o.departed && !(s.transit.any fun t => t.core == l && t.eng == .ap && t.id == o.id && openAt t.remote sc)
    | .fence _ | .qalign => false
    | _ => true

/-- The banks of an object that a word of the AP reads serve it (R62). -/
def objBanks (g : State → Nat → Nat → State) (n : Nat) (s : State) (l off : Nat) : State :=
  if bankTurn s l (apWho l 0) [(off, n)] then g (useBanks s l (apWho l 0) [(off, n)]) l off
  else bankWait s l .ap (apWho l 0) [(off, n)]

/-- A word that reads or writes an object waits for its turn in the AP's queues (R225). -/
def objReady (stores : Bool) (s : State) (l : Nat) (_ : Eng) : Option (List Nat) :=
  if loadsDone s l && acqDone s l && (!stores || storesDone s l) then none else some [208]

/-- A word of the AP that names an object of `n` bytes by a register: a precise stream-state fault for an offset that R224
rejects, and fault 0x17 for an object that holds poison. -/
def objWordIn (hOk : Bool) (g : Guard) (regs : List Reg) (a : Reg) (n : Nat) (stores : Bool)
    (body : State → Nat → Nat → State) (s : State) : Out :=
  scalarWord [.ap] g (a :: regs) hOk false (objReady stores) (fun s l _ =>
    let v := rreg s l .ap a
    if !objOk s l v n then streamTrap s
    else if stores then body s l v.toNat
    else objBanks (fun s l off =>
      let t := spTouch s l off n
      if anyPsn s (spBase l + off) n then apFault t l ⟨0x17, 0, spGran s (spBase l + off) n, 0, 0⟩ .read v else body t l off) n s l v.toNat) s

/-- Such a word of the stream, copy and mailbox groups, legal in both modes. -/
def objWord (g : Guard) (a : Reg) (n : Nat) (stores : Bool) (body : State → Nat → Nat → State) (s : State) : Out :=
  objWordIn true g [] a n stores body s

/-- A word of the AP has acted on stream `n`: the SU commits nothing more of it on this tick, so that what the word saw held
every commit of the tick (R230). -/
def speak (s : State) (l n : Nat) : State :=
  modCore s l fun c => { c with tk := { c.tk with spoke := n :: c.tk.spoke } }

/-- The precise stream-state fault of a word on stream `n`, which has acted on it as well (R230). -/
def streamTrapAt (s : State) (l n : Nat) : State := streamTrap (speak s l n)

/-- The bytes of an object as a number. -/
def objNat (s : State) (l off n : Nat) : Nat := readNat s (spBase l + off) n

/-! ### Stream states (R94, R95) -/

/-- The register as SCLOSE leaves it (R95): CLOSED, with its descriptor; tokens still owed are dropped
(DESIGN CHOICE: notes/assumptions/81.md). -/
def closed (t : Stream) : Stream := { Stream.reset with desc := t.desc, tlb := t.tlb }

/-- A fault record of a stream that is not answered is withdrawn (R95). -/
def withdrawFault (s : State) (l n : Nat) : State :=
  let keep (r : FaultRec) : Bool := !(r.core == l && r.agent == .su && r.stream == n && r.fcode == 1)
  { s with fltPend := s.fltPend.filter keep, fltTaken := s.fltTaken.filter keep,
           dies := vset s.dies (dieOf l) (let d := vget Die.reset s.dies (dieOf l); { d with fq := d.fq.filter keep }) }

/-- A stream closed (R95). -/
def closeStream (s : State) (l n : Nat) : State := modStream (withdrawFault s l n) l n closed

/-- SCLOSE or SSAVE waits for the slot that the stream has begun: the stream takes no new one (R95). -/
def startClose (s : State) (l n : Nat) : State := modStream s l n fun t => { t with closing := true }

/-- A format entry of C3 written (R320, R321). -/
def setMpfmt (s : State) (l q f : Nat) : State := modX s l fun x => { x with mpfmt := vset x.mpfmt q (BitVec.ofNat 4 f) }

/-- The format entries that a filling stream writes when it opens (R321). -/
def openFmts (s : State) (l : Nat) (d : BitVec 1024) : State :=
  (dFills d).foldl (fun s q => setMpfmt s l q (dfield d 6 4)) s

/-- Whether a ring is configured and no stream serves it: what SOPEN and a fork need (R75, R94). A pipe from another core
fills its ring (DEDUCED: notes/assumptions/21.md). -/
def claimable (s : State) (l q : Nat) (fill : Bool) : Bool :=
  (getRing s l q).conf && !((openStreams s l).any fun t => (dFills t.desc).contains q || (dDrains t.desc).contains q) &&
    !(fill && pipeInto s l q)

/-- Whether a descriptor's rings may be opened (R75, R94, R100). -/
def ringsOk (s : State) (l : Nat) (d : BitVec 1024) : Bool :=
  ((dFills d).all fun q => claimable s l q true) && ((dDrains d).all fun q => claimable s l q false) &&
    (dDir d != 0 && dDir d != 3 || !dTeen d || (getRing s l (dRing d)).z == (getRing s l (dTee d)).z && dTee d != dRing d)

/-- The sharding descriptor of a stream: none when it breaks R68 or R91 (DESIGN CHOICE: notes/assumptions/19.md). -/
def shardOf (s : State) (l : Nat) (d : BitVec 1024) : Option (BitVec 512) :=
  if dShard d == 0 then some 0
  else if !objOk s l (BitVec.ofNat 64 (dShard d)) 64 then none
  else
    let h := BitVec.ofNat 512 (objNat s l (dShard d) 64)
    if shardOk h then some h else none

/-- A stream opened at a position (R94): slots count toward the next TKN token from here on
(DESIGN CHOICE: notes/assumptions/90.md). -/
def openAt' (t : Stream) (tick : Nat) (idx : Vector (BitVec 32) 5) : Stream :=
  { t with idx := idx, st := .opened, dcount := 0, started := dTkw t.desc == 0, tkc := 0, ahead := [], far := [], flt := .clear,
           openedAt := if t.st == .opened || t.st == .stalled then t.openedAt else tick }

/-- A word on a stream register. -/
def streamWord (g : Guard) (regs : List Reg) (body : State → Nat → State) (s : State) : Out :=
  scalarWord [.ap] g regs true false noWait (fun s l _ => body s l) s

/-- SCFG (R80, R228). -/
def execScfg (k : Guard) (n : BitVec 4) (a : Reg) (s : State) : Out :=
  objWord k a 128 false (fun s l off =>
    let d := BitVec.ofNat 1024 (objNat s l off 128)
    if (getStream s l n.toNat).st != .closed || !descOk d then streamTrapAt s l n.toNat
    else retire (speak (modStream s l n.toNat fun t => { Stream.reset with desc := d, tlb := t.tlb }) l n.toNat) l .ap) s

/-- SOPEN (R75, R91, R94, R228, R321): a register whose descriptor R80 would not load is a stream-state fault
(DESIGN CHOICE: notes/assumptions/82.md). -/
def execSopen (k : Guard) (n : BitVec 4) (s : State) : Out :=
  scalarWord [.ap] k [] true false
    (fun s l e => if dShard (getStream s l n.toNat).desc == 0 then none else objReady false s l e)
    (fun s l _ =>
      let t := getStream s l n.toNat
      if t.st != .closed || !descOk t.desc || !ringsOk s l t.desc then streamTrapAt s l n.toNat
      else match shardOf s l t.desc with
        | none => streamTrapAt s l n.toNat
        | some h =>
          let s := modStream s l n.toNat fun t =>
            { openAt' t (now s) (Vector.replicate 5 0) with shard := h, fltcnt := 0, firstXfer := true }
          retire (speak (openFmts s l t.desc) l n.toNat) l .ap) s

/-- SCLOSE (R95, R228): it waits until every write of a slot that the stream has begun has been performed. -/
def execSclose (k : Guard) (n : BitVec 4) (s : State) : Out :=
  streamWord k [] (fun s l =>
    if (getStream s l n.toNat).begun then waitOn (startClose s l n.toNat) l .ap [208]
    else retire (speak (if (getStream s l n.toNat).st == .closed then s else closeStream s l n.toNat) l n.toNat) l .ap) s

/-- SEOS (R98): a stream that is DONE commits the bind-off slot at once, or once its slots are empty. -/
def execSeos (k : Guard) (n : BitVec 4) (s : State) : Out :=
  streamWord k [] (fun s l =>
    let t := getStream s l n.toNat
    if t.st == .closed || !(dDir t.desc == 0 || dDir t.desc == 3) then streamTrapAt s l n.toNat
    else retire (speak (modStream s l n.toNat fun t =>
      if t.eosp then t else { t with eosp := true, boPend := t.st == .done }) l n.toNat) l .ap) s

/-- SMARK (R96, R228). -/
def execSmark (k : Guard) (n : BitVec 4) (a : Reg) (s : State) : Out :=
  streamWord k [a] (fun s l =>
    let t := getStream s l n.toNat
    let r := getRing s l (dRing t.desc)
    if !r.conf then streamTrapAt s l n.toNat
    else
      let lin := (rreg s l .ap a).toNat % 2 ^ 32 * slotCap (dFmt t.desc) (r.z * 256)
      let lin := if endless t.desc then lin else min lin (dTotal t.desc)
      retire (speak (modStream s l n.toNat fun t => { t with marker := idxOf t.desc lin, markv := true }) l n.toNat) l .ap) s

/-- SREWIND (R97): a bind-off asked for and not yet committed is dropped with the DONE token that waits for it, and the count toward the
next TKN token starts again (DESIGN CHOICE: notes/assumptions/90.md). -/
def execSrewind (k : Guard) (n : BitVec 4) (s : State) : Out :=
  streamWord k [] (fun s l =>
    let t := getStream s l n.toNat
    if t.st == .closed || !(dDir t.desc == 0 || dDir t.desc == 3) || !t.markv ||
        (dFills t.desc).any fun q => (getRing s l q).boff then streamTrapAt s l n.toNat
    else retire (speak (modStream s l n.toNat fun t =>
      let u := { openAt' t (now s) t.marker with boe := false, boPend := false, doneTok := false }
      if t.st == .stalled then { u with st := .stalled, flt := t.flt } else u) l n.toNat) l .ap) s

/-- SFORK.G (R99, R228): a copy of a source that has started needs no token of its own (DEDUCED: notes/assumptions/20.md), and owes no
bind-off of its source's earlier pass (DESIGN CHOICE: notes/assumptions/90.md). R75
is asked of the new ring alone, so that the copy of a gather or scatter shares its index ring with the source
(DESIGN CHOICE: notes/assumptions/83.md). -/
def execSforkG (k : Guard) (n : BitVec 4) (q : Port) (a : Reg) (s : State) : Out :=
  streamWord k [] (fun s l =>
    let t := getStream s l n.toNat
    let d := setCtl (setCtl t.desc 10 5 q.toNat) 47 1 0
    let st : SState := if t.st == .stalled then .opened else t.st
    let fill := dDir d == 0 || dDir d == 3
    if (getStream s l a.toNat).st != .closed || (st != .closed && !claimable s l q.toNat fill) then streamTrapAt s l n.toNat
    else retire (speak (speak (modStream s l a.toNat fun u =>
      { t with desc := d, st := st, ahead := [], tlb := u.tlb, flt := .clear, fltVa := 0, started := true, sent := 0, sentPsn := false,
               boPend := st == .done && t.eosp && !t.boe, boFirst := false, doneTok := false, owed := 0, far := [],
               wrote := none, closing := false, openedAt := now s })
        l n.toNat) l a.toNat) l .ap) s

/-- SFORK.T (R228). -/
def execSforkT (k : Guard) (n : BitVec 4) (q : Port) (s : State) : Out :=
  streamWord k [] (fun s l =>
    let t := getStream s l n.toNat
    if t.st != .closed || !(dDir t.desc == 0 || dDir t.desc == 3) || dRing t.desc == q.toNat then streamTrapAt s l n.toNat
    else retire (speak (modStream s l n.toNat fun t => { t with desc := setCtl (setCtl t.desc 47 1 1) 48 5 q.toNat }) l n.toNat) l .ap) s

/-- SSTAT (R93, R228). -/
def execSstat (k : Guard) (n : BitVec 4) (a : Reg) (s : State) : Out :=
  streamWord k [a] (fun s l =>
    retire (speak (wreg s l .ap a ((statusWord (getStream s l n.toNat)).zeroExtend 64)) l n.toNat) l .ap) s

/-- The 192-byte save record of a stream (R101). -/
def saveRec (t : Stream) : List Byte :=
  let idx (v : Vector (BitVec 32) 5) : List Byte := (List.range 5).flatMap fun i => toLE 4 (vget 0 v i).toNat
  let sw := statusWord (if t.st == .stalled then { t with st := .opened } else t)
  toLE 128 t.desc.toNat ++ idx t.idx ++ idx t.marker ++ toLE 4 sw.toNat ++ toLE 4 0 ++ toLE 8 t.dcount.toNat ++ toLE 8 0

/-- SSAVE (R95, R101, R228). -/
def execSsave (k : Guard) (n : BitVec 4) (a : Reg) (s : State) : Out :=
  objWord k a 192 true (fun s l off =>
    let t := getStream s l n.toNat
    if t.begun then waitOn (startClose s l n.toNat) l .ap [208]
    else if !bankTurn s l (apWho l 0) [(off, 192)] then bankWait s l .ap (apWho l 0) [(off, 192)]
    else
      let s := writeBytes (useBanks s l (apWho l 0) [(off, 192)]) (spBase l + off) (saveRec t)
      retire (speak (if t.st == .closed then s else closeStream s l n.toNat) l n.toNat) l .ap) s

/-- The register that a save record gives (R101): no field of the record holds the count toward the next TKN token, which starts
at 0, nor whether the DONE token has gone before a bind-off that is still due, which follows it, nor a bind-off that an earlier pass
owes, which is lost (DESIGN CHOICE: notes/assumptions/19.md; DESIGN CHOICE: notes/assumptions/90.md).
A ring-to-remote-ring stream at the start of its iteration has still to write the format entry (R321). -/
def loadRec (x tick : Nat) (h : BitVec 512) (u : Stream) : Stream :=
  let at' (off n : Nat) : Nat := x / 2 ^ (8 * off) % 2 ^ (8 * n)
  let vec (off : Nat) : Vector (BitVec 32) 5 :=
    (List.range 5).foldl (fun v i => vset v i (BitVec.ofNat 32 (at' (off + 4 * i) 4))) (Vector.replicate 5 0)
  let w := BitVec.ofNat 32 (at' 0xA8 4)
  let d := BitVec.ofNat 1024 (at' 0 128)
  let st : SState := match w.toNat % 4 with | 0 => .closed | 3 => .done | _ => .opened
  let due := st == .done && w.getLsbD 2 && !w.getLsbD 3 && (dDir d == 0 || dDir d == 3)
  { Stream.reset with
    desc := d, idx := vec 0x80, marker := vec 0x94, st := st, eosp := w.getLsbD 2, boe := w.getLsbD 3,
    markv := w.getLsbD 4, oob := w.getLsbD 5, waitcfg := w.getLsbD 6, refw := w.getLsbD 7, fltcnt := w.extractLsb' 8 8, acf := w.extractLsb' 16 5,
    dcount := BitVec.ofNat 64 (at' 0xB0 8), started := true, firstXfer := linOf d (vec 0x80) == 0, shard := h, tlb := u.tlb,
    boPend := due, doneTok := due, openedAt := tick }

/-- Whether a save record gives a stream that is OPEN. -/
def recOpen (x : Nat) : Bool := let st := x / 2 ^ (8 * 0xA8) % 4; st == 1 || st == 2

/-- SREST (R101, R228, R321) (DESIGN CHOICE: notes/assumptions/19.md; DEDUCED: notes/assumptions/20.md). -/
def execSrest (k : Guard) (n : BitVec 4) (a : Reg) (s : State) : Out :=
  objWord k a 192 false (fun s l off =>
    let x := objNat s l off 192
    let d := BitVec.ofNat 1024 (x % 2 ^ 1024)
    if (getStream s l n.toNat).st != .closed || !descOk d || x / 2 ^ (8 * 0xAC) % 2 ^ 32 != 0 || x / 2 ^ (8 * 0xB8) != 0 then
      streamTrapAt s l n.toNat
    else match (shardOf s l d).or (if recOpen x then none else some 0) with
      | none => streamTrapAt s l n.toNat
      | some h =>
        let s := modStream s l n.toNat (loadRec x (now s) h)
        retire (speak (if (getStream s l n.toNat).st == .opened then openFmts s l d else s) l n.toNat) l .ap) s

/-- Whether the condition of an SWAIT holds (R229). -/
def swaitHolds (t : Stream) (c : BitVec 2) : Bool :=
  match c.toNat with
  | 0 => t.st == .done
  | 1 => t.boe
  | 2 => t.st != .stalled
  | _ => t.st == .closed || t.st == .done

/-- SWAIT (R229): `.boe` while EOSP is 0 is a fault even where BOE is 1 (DESIGN CHOICE: notes/assumptions/90.md). -/
def execSwait (k : Guard) (n : BitVec 4) (c : BitVec 2) (s : State) : Out :=
  streamWord k [] (fun s l =>
    let t := getStream s l n.toNat
    if (t.st == .closed && decide (c.toNat ≤ 1)) || (c == 1 && !t.eosp) then streamTrapAt s l n.toNat
    else if swaitHolds t c then retire (speak s l n.toNat) l .ap
    else waitOn s l .ap [64 + dRing t.desc]) s

/-- SBASE (R77, R94, R98, R228, R321): a bind-off that is owed is committed before the new pass, with DCOUNT as SBASE leaves it
(DEDUCED: notes/assumptions/18.md). -/
def execSbase (k : Guard) (n : BitVec 4) (a : Reg) (s : State) : Out :=
  streamWord k [a] (fun s l =>
    let v := rreg s l .ap a
    let t := getStream s l n.toNat
    let base (t : Stream) : Stream := { t with desc := setBase t.desc v }
    match t.st with
    | .closed => retire (speak (modStream s l n.toNat fun t => { base t with dcount := 0 }) l n.toNat) l .ap
    | .done =>
      let s := modStream s l n.toNat fun t =>
        let u := { openAt' (base t) (now s) (Vector.replicate 5 0) with
                   markv := false, eosp := false, boe := false, boPend := false, boFirst := t.boPend }
        if t.boPend then u else { u with doneTok := false }
      retire (speak (openFmts s l t.desc) l n.toNat) l .ap
    | _ => streamTrapAt s l n.toNat) s

/-! ### Rings (R231 to R235) -/

/-- The ring that a value of RCFG asks for: none where the value or the partition forbids it (R69, R231). -/
def rcfgRing (s : State) (l q : Nat) (v : Word) : Option Ring :=
  let old := getRing s l q
  let base := v.toNat % 4096
  let z := v.toNat / 2 ^ 16 % 512
  let n := v.toNat / 2 ^ 32 % 512
  let hit (o : Ring) : Bool := o.conf && decide (o.base < base + n * z) && decide (base < o.base + o.n * o.z)
  if v = 0 then some { Ring.reset with gen := old.gen + 1 }
  else if v.toNat / 2 ^ 12 % 16 != 0 || v.toNat / 2 ^ 25 % 128 != 0 || v.toNat / 2 ^ 41 != 0 || z == 0 || n == 0 || decide (256 < z) ||
      decide (256 < n) || decide ((cx s l).rgnend * 4096 < (base + n * z) * 256) ||
      (List.range 32).any fun i => i != q && hit (getRing s l i) then none
  else some { Ring.reset with base := base, z := z, n := n, gen := old.gen + 1 }

/-- RCFG (R69, R70, R231). -/
def execRcfg (k : Guard) (q : Port) (a : Reg) (s : State) : Out :=
  apWord k [a] true (fun s l =>
    if streamFills s l q.toNat || streamDrains s l q.toNat || (getRing s l q.toNat).fullCount != 0 then streamTrap s
    else match rcfgRing s l q.toNat (rreg s l .ap a) with
      | none => streamTrap s
      | some r => retire (modRing s l q.toNat fun _ => r) l .ap) s

/-- RHEAD's value (R232). -/
def rheadVal (r : Ring) : Word :=
  if !r.conf then 0
  else BitVec.ofNat 64 (r.head + r.cur * 2 ^ 8 + r.fullCount * 2 ^ 16 + r.slotOff r.head * 2 ^ 32)

/-- RTAIL's value (R232). -/
def rtailVal (r : Ring) : Word :=
  if !r.conf then 0
  else BitVec.ofNat 64 (r.tail + (r.n - r.fullCount) * 2 ^ 16 + (if r.boff then 2 ^ 25 else 0) + 2 ^ 26 +
    r.slotOff r.tailSlot * 2 ^ 32)

/-- RHEAD (R232): no access that R76 places ahead of the AP follows on this tick. -/
def execRhead (k : Guard) (q : Port) (a : Reg) (s : State) : Out :=
  apWord k [a] true (fun s l => retire (wreg (serve s l .ap [q.toNat]) l .ap a (rheadVal (getRing s l q.toNat))) l .ap) s

/-- RTAIL (R232): no access that R76 places ahead of the AP follows on this tick. -/
def execRtail (k : Guard) (q : Port) (a : Reg) (s : State) : Out :=
  apWord k [a] true (fun s l => retire (wreg (serve s l .ap [q.toNat]) l .ap a (rtailVal (getRing s l q.toNat))) l .ap) s

/-- RPOP (R233). -/
def execRpop (k : Guard) (q : Port) (a : Reg) (s : State) : Out :=
  apWord k [a] true (fun s l =>
    let r := getRing s l q.toNat
    if !r.conf || streamDrains s l q.toNat then streamTrap s
    else if !r.avail r.head then waitOn s l .ap [64 + q.toNat]
    else if !loadsDone s l then waitOn s l .ap [208]
    else
      let v := BitVec.ofNat 64 (r.slotOff r.head + if r.isBoff r.head then 2 ^ 63 else 0)
      retire (wreg (modRing (serve s l .ap [q.toNat]) l q.toNat Ring.freeHead) l .ap a v) l .ap) s

/-- RPUSH (R234). -/
def execRpush (k : Guard) (q : Port) (a : Reg) (s : State) : Out :=
  apWord k [a] true (fun s l =>
    let r := getRing s l q.toNat
    if !r.conf || streamFills s l q.toNat || r.tail % r.z != 0 || r.boff then streamTrap s
    else if !r.tailFree || r.boffPend then waitOn s l .ap [64 + q.toNat]
    else if !storesDone s l then waitOn s l .ap [208]
    else if a = 0 then retire (modRing (serve s l .ap [q.toNat]) l q.toNat fun r => (r.setFe r.tailSlot true).advTail) l .ap
    else if !slotTurn s l (apWho l 0) q.toNat then bankWait s l .ap (apWho l 0) [r.tailBytes]
    else retire (commitBoff (serve (useSlot s l (apWho l 0) q.toNat) l .ap [q.toNat]) l q.toNat (rreg s l .ap a)) l .ap) s

/-- Whether the condition of an RWAIT holds (R235). -/
def rwaitHolds (r : Ring) (c : BitVec 2) : Bool :=
  match c.toNat with
  | 0 => r.isFull r.head
  | 1 => r.tailFree
  | 2 => r.fullCount == 0
  | _ => r.boff

/-- RWAIT (R235). -/
def execRwait (k : Guard) (q : Port) (c : BitVec 2) (s : State) : Out :=
  apWord k [] true (fun s l =>
    let r := getRing s l q.toNat
    if !r.conf then streamTrap s
    else if rwaitHolds r c then retire s l .ap
    else waitOn s l .ap [64 + q.toNat]) s

end Sys2Proof.Machine
end

