-- ==== Sys2Proof/Machine/StreamEvents.lean ====
section
/-! DEFINITION. What the stream units do on their own: starting, committing slots, bind-offs, draining slots to memory and to
remote rings, and fetching ahead (R81 to R104). -/

namespace Sys2Proof.Machine

/-- Whether the engines of a core that move data run: the core is present, its launch is not being killed, it has not come to
the end of a stop (R443), and neither DUTY nor a security halt withholds them (R499, R502). -/
def suRuns (s : State) (l : Nat) : Bool :=
  decide (l < 192) && !isVacant s l && !dying s (runLid s l) && (getCore s l).stop != .stopped && dutyOk s && !s.secHalt

/-- Tokens that a stream owes pushed while their FIFO has room (R88). -/
def pushOwed (s : State) (l n : Nat) : State :=
  let t := getStream s l n
  if t.owed = 0 || !tokFree s l 6 (dTks t.desc) then s
  else modStream (tokAdd s l 6 (dTks t.desc) 1) l n fun t => { t with owed := t.owed - 1 }

/-- A token that a stream pushes now, or owes (R88). -/
def oweToken (s : State) (l n : Nat) : State :=
  if dTks (getStream s l n).desc == 0 then s
  else pushOwed (modStream s l n fun t => { t with owed := t.owed + 1 }) l n

/-- A stream enters DONE (R94): its token follows the bind-off where one is asked for (R88, R98). -/
def enterDone (s : State) (l n : Nat) : State :=
  let t := getStream s l n
  let s := modStream s l n fun t => { t with st := .done, ahead := [] }
  if t.eosp && !t.boe && (dDir t.desc == 0 || dDir t.desc == 3) then
    modStream s l n fun t => { t with boPend := true, doneTok := true }
  else oweToken s l n

/-- A slot committed is counted: elements, flags, and the token after every TKN of them (R77, R88, R93). -/
def slotDone (s : State) (l n elems : Nat) (oob : Bool) (acf : Acf) (idx : Vector (BitVec 32) 5) : State :=
  let s := modStream s l n fun t =>
    { t with idx := idx, oob := t.oob || oob, acf := t.acf ||| acf, dcount := t.dcount + BitVec.ofNat 64 elems,
             tkc := t.tkc + 1, refw := false }
  let s := noteSu s l n .issue []
  let t := getStream s l n
  if dTkn t.desc != 0 && t.tkc ≥ dTkn t.desc then oweToken (modStream s l n fun t => { t with tkc := 0 }) l n else s

/-- A stream meets a fault: code 0x01 stalls it (R102), and the slot it had begun is written again from its first element (R103); every other code ends its task once its record is written (R426). -/
def streamFault (s : State) (l n : Nat) (f : FInfo) (va : Word) (k : AKind) : State :=
  let s := modStream s l n fun t =>
    { t with st := if f.code == 1 then .stalled else t.st, ahead := [], far := [], flt := .unsent, fltVa := va, refw := false,
             sent := 0, sentPsn := false }
  agentFault s f l .su n k (cx s l).asid (runLid s l) va

/-- Whether a word of the AP has acted on a stream on this tick: what the SU does there on this tick came before it (R230). -/
def spokenTo (s : State) (l n : Nat) : Bool := (getCore s l).tk.spoke.contains n

/-- Whether a stream may work on its next slot: it is OPEN, started, nothing of it is owed, no SCLOSE waits for the slot it has begun
(R95), and the SU's turn on this tick has not passed (R230). -/
def canWork (s : State) (l n : Nat) : Bool :=
  let t := getStream s l n
  suRuns s l && t.st == .opened && t.started && t.flt == .clear && t.owed == 0 && !t.boFirst && (!t.closing || t.begun) && !spokenTo s l n

/-- STREAM_START (R88) (DEDUCED: notes/assumptions/20.md). -/
def execStreamStart (l : CoreNum) (n : BitVec 4) (s : State) : Out :=
  let c := l.toNat
  let t := getStream s c n.toNat
  .next <| if suRuns s c && t.st == .opened && !t.started && tokCount s c (dTkw t.desc) 6 != 0 then
      modStream (tokAdd s c (dTkw t.desc) 6 (-1)) c n.toNat fun t => { t with started := true }
    else s

/-- Slot HEAD of an index ring, whose indices have been read once, freed (R89, R498). -/
def freeIdxSlot (s : State) (l q : Nat) : State :=
  let r := getRing s l q
  modRing (spTouch s l (r.slotOff r.head) (r.z * 256)) l q Ring.freeHead

/-- Index slots whose elements have all been committed are freed (R89, R90). -/
def freeIdx (s : State) (l q : Nat) (d : BitVec 1024) (lin lin' : Nat) : State :=
  let per := max 1 (idxPer (getRing s l q))
  let p0 := idxCount d lin % per
  iter (fun s => freeIdxSlot s l q) ((p0 + idxCount d lin' - idxCount d lin) / per) s

/-- The next slot of a filling stream, fetched ahead or generated now. -/
def nextSlot (s : State) (l n : Nat) : Gen (Option Ahead) :=
  let t := getStream s l n
  match t.ahead with
  | a :: _ => .ok (some a) s
  | [] => genSlot l n ((getRing s l (dRing t.desc)).z * 256) (linOf t.desc t.idx) s

/-- The bytes of the slots that a filling stream writes next, and of the slot HEAD of its index ring. -/
def fillBytes (s : State) (l : Nat) (d : BitVec 1024) : List (Nat × Nat) :=
  ((dFills d).map fun q => (getRing s l q).tailBytes) ++
    (if (dDir d == 3 || dDir d == 4) && (getRing s l (dIport d)).conf then [(getRing s l (dIport d)).headBytes] else [])

/-- A stream waits for banks (R62). -/
def suWait (s : State) (l j : Nat) (rs : List (Nat × Nat)) : State := noteSu (bankHold s l (suWho l j) rs) l j .flag []

/-- STREAM_SLOT_COMMIT (R72, R83 to R85, R88, R89, R100): the next slot is written to the stream's rings and becomes full; the
position indices then name the element after it (DESIGN CHOICE: notes/assumptions/17.md). -/
def execStreamSlotCommit (l : CoreNum) (n : BitVec 4) (s : State) : Out :=
  let c := l.toNat
  let j := n.toNat
  let s := if suRuns s c then pushOwed s c j else s
  let t := getStream s c j
  let d := t.desc
  .next <| if !canWork s c j || !(dDir d == 0 || dDir d == 3) || !(dFills d).all fun q => (getRing s c q).canPush then s
    else if !endless d && decide (dTotal d ≤ linOf d t.idx) then enterDone s c j
    else if !bankTurn s c (suWho c j) (fillBytes s c d) then suWait s c j (fillBytes s c d)
    else match nextSlot s c j with
      | .wait s => modStream s c j fun t => { t with refw := true }
      | .hold s => s
      | .bad f va s => streamFault s c j f va .read
      | .ok none s => s
      | .ok (some a) s =>
        if a.elems == 0 then s
        else
          let lin := linOf d t.idx
          let s := (dFills d).foldl (fun s q => commitSlot s c q a.bytes) (useBanks s c (suWho c j) (fillBytes s c d))
          let s := if dDir d == 3 then freeIdx s c (dIport d) d lin (lin + a.elems) else s
          let s := modStream s c j fun t => { t with ahead := t.ahead.tail, far := [] }
          let s := slotDone s c j a.elems a.oob a.acf a.idx
          if a.last && dDir d == 0 then enterDone s c j else s

/-- Whether a gather stands at the bind-off slot of its index ring (R89) (DESIGN CHOICE: notes/assumptions/17.md). -/
def gatherEnds (s : State) (l n : Nat) : Bool :=
  let t := getStream s l n
  let d := t.desc
  let ix := ringIdxs s l (dIport d)
  dDir d == 3 && ix.boff && ix.xs.isEmpty && idxCount d (linOf d t.idx) % max 1 (idxPer (getRing s l (dIport d))) == 0

/-- A bind-off slot with DCOUNT committed to every ring that a stream fills (R77, R98) (DEDUCED: notes/assumptions/18.md). -/
def putBoff (s : State) (l n : Nat) : State :=
  let t := getStream s l n
  (dFills t.desc).foldl (fun s q => commitBoff s l q t.dcount) (noteSu (useBanks s l (suWho l n) (fillBytes s l t.desc)) l n .issue [])

/-- BIND_OFF_COMMIT (R77, R88, R89, R98): a bind-off slot that is due is committed once its target slots are empty. -/
def execBindOffCommit (l : CoreNum) (n : BitVec 4) (s : State) : Out :=
  let c := l.toNat
  let j := n.toNat
  let s := if suRuns s c then pushOwed s c j else s
  let t := getStream s c j
  .next <| if !suRuns s c || t.owed != 0 || spokenTo s c j || !(dFills t.desc).all fun q => (getRing s c q).canPush then s
    else if !(t.boFirst || t.boPend || (canWork s c j && gatherEnds s c j)) then s
    else if !bankTurn s c (suWho c j) (fillBytes s c t.desc) then suWait s c j (fillBytes s c t.desc)
    else if t.boFirst then
      let s := modStream (putBoff s c j) c j fun t => { t with boFirst := false, doneTok := false, dcount := 0 }
      if t.doneTok then oweToken s c j else s
    else if t.boPend then
      let s := modStream (putBoff s c j) c j fun t => { t with boPend := false, doneTok := false, boe := true }
      if t.doneTok then oweToken s c j else s
    else
      let s := modRing (putBoff s c j) c (dIport t.desc) Ring.freeHead
      enterDone (modStream s c j fun t => { t with boe := true }) c j

/-- The elements that a draining stream writes from its next slot, with their indices; none where a scatter's indices are not
there (R86, R90) (DEDUCED: notes/assumptions/22.md). -/
def drainPlan (s : State) (l n : Nat) : Option (Nat × List Index × Bool) :=
  let t := getStream s l n
  let d := t.desc
  let lin := linOf d t.idx
  let cap := slotCap (dFmt d) ((getRing s l (dRing d)).z * 256)
  if dDir d == 4 then
    let ix := ringIdxs s l (dIport d)
    let per := max 1 (idxPer (getRing s l (dIport d)))
    let row := if dRank d == 1 then 1 else dSize d 0
    let p0 := idxCount d lin % per
    let have' := (ix.xs.length - p0) * row - (if dRank d == 1 then 0 else lin % row)
    if have' < cap && !ix.boff then none else some (min cap have', ix.xs.drop p0, decide (have' < cap))
  else some (min cap (dTotal d - lin), [], decide (dTotal d ≤ lin + cap))

/-- A bind-off slot at HEAD of a ring freed. -/
def freeBoff (s : State) (l q : Nat) : State :=
  let r := getRing s l q
  if r.conf && r.isFull r.head && r.isBoff r.head then modRing s l q Ring.freeHead else s

/-- Slot HEAD of a draining stream committed and freed: its plan is `p`, and `oob` says whether an element of it was out of bounds
(R86, R90). -/
def drainDone (s : State) (c j : Nat) (p : Nat × List Index × Bool) (oob : Bool) : State :=
  let d := (getStream s c j).desc
  let lin := linOf d (getStream s c j).idx
  let s := modRing s c (dRing d) Ring.freeHead
  let s := if dDir d == 4 then freeIdx s c (dIport d) d lin (lin + p.1) else s
  let s := slotDone (modStream s c j fun t => { t with wrote := none, far := [] }) c j p.1 oob 0 (idxOf d (lin + p.1))
  if p.2.2 then enterDone (if dDir d == 4 then freeBoff s c (dIport d) else s) c j else s

/-- STREAM_SLOT_DRAIN (R86, R88, R90, R497): the writes of slot HEAD are made, and once all have been performed at device scope
the slot is committed and freed. -/
def execStreamSlotDrain (l : CoreNum) (n : BitVec 4) (s : State) : Out :=
  let c := l.toNat
  let j := n.toNat
  let s := if suRuns s c then pushOwed s c j else s
  let t := getStream s c j
  let d := t.desc
  let q := dRing d
  let r := getRing s c q
  let ends (s : State) : State := enterDone (if dDir d == 4 then freeBoff s c (dIport d) else s) c j
  .next <| if !canWork s c j || !(dDir d == 1 || dDir d == 4) || !r.conf then s
    else if dDir d == 1 && decide (dTotal d ≤ linOf d t.idx) then ends s
    else if !r.isFull r.head then s
    else if r.isBoff r.head then ends (modRing s c q Ring.freeHead)
    else match drainPlan s c j with
      | none => s
      | some p =>
        match t.wrote with
        | some oob => if writesOut s c .su j then s else drainDone s c j p oob
        | none =>
          let rs := r.headBytes :: fillBytes s c d
          if t.sent == 0 && !bankTurn s c (suWho c j) rs then suWait s c j rs
          else
          let s := if t.sent == 0 then useBanks s c (suWho c j) rs else s
          match drainSlot c j (slotBytes s c q r.head) p.1 (linOf d t.idx) p.2.1 s with
          | .wait s => modStream s c j fun t => { t with refw := true }
          | .hold s => s
          | .bad f va s => streamFault s c j f va .write
          | .ok w s =>
            let s := spTouch s c (r.slotOff r.head) (r.z * 256)
            let s := if writesOut s c .su j then modStream s c j fun t => { t with wrote := some w.1 } else drainDone s c j p w.1
            if w.2 then killTask s (runLid s c) 0x06 else s

/-- REMOTE_SLOT_TRANSFER (R87, R321, R497): slot HEAD moves whole into the ring of another core (DEDUCED: notes/assumptions/22.md). -/
def execRemoteSlotTransfer (l : CoreNum) (n : BitVec 4) (s : State) : Out :=
  let c := l.toNat
  let j := n.toNat
  let s := if suRuns s c then pushOwed s c j else s
  let t := getStream s c j
  let d := t.desc
  let q := dRing d
  let r := getRing s c q
  let m := dRcore d
  let p := dRring d
  let u := getRing s m p
  .next <| if !canWork s c j || dDir d != 2 || !r.conf then s
    else if decide (dTotal d ≤ linOf d t.idx) then enterDone s c j
    else if !r.isFull r.head then s
    else if 192 ≤ m then streamFault s c j (FInfo.plain 0x1D) 0 .write
    else if isVacant s m then streamFault s c j ⟨0x19, 0, spBase m, 0, 0⟩ 0 .write
    else if !u.conf then modStream s c j fun t => { t with waitcfg := true }
    else if u.z != r.z then streamFault s c j (FInfo.plain 0x1D) 0 .write
    else if !u.canPush then modStream s c j fun t => { t with waitcfg := false }
    else if !bankTurn s c (suWho c j) [r.headBytes] || !bankTurn s m (suWho c j) [u.tailBytes] then
      let s := suWait (modStream s c j fun t => { t with waitcfg := false }) c j (r.headBytes :: if m = c then [u.tailBytes] else [])
      if m = c then s else bankHold s m (suWho c j) [u.tailBytes]
    else
      let s := useBanks (useBanks s c (suWho c j) [r.headBytes]) m (suWho c j) [u.tailBytes]
      let bs := slotBytes s c q r.head
      let bo := r.isBoff r.head
      let s := spTouch s c (r.slotOff r.head) (r.z * 256)
      let s := if t.firstXfer then setMpfmt s m p (dfield d 6 4) else s
      let s := commitSlot s m p bs
      let s := if bo then modRing s m p fun k => k.bindOff u.tailSlot else s
      let s := modStream (modRing s c q Ring.freeHead) c j fun t => { t with waitcfg := false, firstXfer := false }
      let cap := slotCap (dFmt d) (r.z * 256)
      let lin := linOf d t.idx
      let s := if bo then enterDone s c j
        else
          let s := slotDone s c j (min cap (dTotal d - lin)) false 0 (idxOf d (min (lin + cap) (dTotal d)))
          if dTotal d ≤ lin + cap then enterDone s c j else s
      if m != c && bs.any (·.psn) then killTask s (runLid s c) 0x06 else s

/-- A stream fetches one more slot ahead, within the empty slots of its ring (R85); a fault or a wait leaves it for the demand. -/
def prefetch (s : State) (l n : Nat) : State :=
  let t := getStream s l n
  let d := t.desc
  let r := getRing s l (dRing d)
  let lin := match t.ahead.getLast? with
    | some a => linOf d a.idx
    | none => linOf d t.idx
  if !canWork s l n || !(dDir d == 0 || dDir d == 3) || !r.conf || decide (r.n ≤ r.fullCount + t.ahead.length) ||
      (!endless d && decide (dTotal d ≤ lin)) then s
  else match genSlot l n (r.z * 256) lin s with
    | .ok (some a) s => if a.elems == 0 then s else modStream s l n fun t => { t with ahead := t.ahead ++ [a], far := [] }
    | .ok none s | .wait s | .hold s => s
    | .bad .. => s

/-! ### The next page (R420) -/

/-- The virtual address of the element at a count, where its index and its entry of a sharding table are at hand. -/
def elemVa (s : State) (l n lin : Nat) : Option Nat :=
  let t := getStream s l n
  let d := t.desc
  let at0 := idxCount d (linOf d t.idx)
  let x : Int := if endless d then
      ((ringIdxs s l (dIport d)).xs.getD (at0 % max 1 (idxPer (getRing s l (dIport d))) + (idxCount d lin - at0)) (-1, false)).1
    else 0
  match coordsOf d lin x with
  | none => none
  | some cs => match placesOf l n cs (dDir d == 1 || dDir d == 4) s with
    | .ok (p :: _) _ => (match joinVa p.base ((p.base % 2 ^ 48 : Nat) + p.off * elemBits (dFmt d) / 8) with
      | none => none
      | some ea => match classify ea with
        | .virt va _ => some va
        | .sp _ | .bad => none)
    | _ => none

/-- The first address, in generation order from a count, that a page does not hold; `fuel` bounds the elements looked at. -/
def leavesPage (s : State) (l n : Nat) (inPage : Nat → Bool) : Nat → Nat → Option Nat
  | 0, _ => none
  | fuel + 1, lin =>
    match elemVa s l n lin with
    | some va => if inPage va then leavesPage s l n inPage fuel (lin + 1) else some va
    | none => leavesPage s l n inPage fuel (lin + 1)

/-- A stream TLB that holds the entry of the current page takes that of the page after it (R420): `va` is an address of the next
page. A walk that faults leaves it alone. -/
def tlbNext (s : State) (wc : List WalkEnt) (asid : BitVec 12) (e : TlbEnt) (va : Nat) : List TlbEnt :=
  match walk s wc asid va with
  | .error _ => [e]
  | .ok x => e :: tlbAdd 1 [] asid va x

/-- A stream's TLB takes the entry for the next page in generation order (R420). -/
def streamNextPage (s : State) (l n : Nat) : State :=
  let t := getStream s l n
  let asid := (cx s l).asid
  let lin := linOf t.desc t.idx
  if t.st != .opened then s
  else match (elemVa s l n lin).bind fun va => tlbFind t.tlb asid va with
    | none => s
    | some e =>
      match leavesPage s l n (fun va => e.vpn == va / pageSize e.lvl) (if endless t.desc then 65536 else dTotal t.desc - lin) lin with
      | none => s
      | some va => modStream s l n fun t => { t with tlb := tlbNext s (getCore s l).walkCache asid e va }

end Sys2Proof.Machine
end

