-- ==== Sys2Proof/Machine/Copy.lean ====
section
/-! DEFINITION. Copies: the AP's words, and the transfers of the copy engine (R108, R236 to R241). -/

namespace Sys2Proof.Machine

/-- The transfer that a copy descriptor asks for: none where R236 rejects it. -/
def xferOf (x off : Nat) (wsl : Bool) (ret : Option Reg) : Option Xfer :=
  let at' (o n : Nat) : Nat := x / 2 ^ (8 * o) % 2 ^ (8 * n)
  let ctl := at' 0x18 4
  if at' 0x10 8 / 2 ^ 40 != 0 || ctl / 64 != 0 || ctl % 8 == 7 || ctl / 8 == 7 then none
  else some ⟨BitVec.ofNat 64 (at' 0 8), BitVec.ofNat 64 (at' 8 8), at' 0x10 8, ctl % 8, ctl / 8, off, wsl, false, 0, 0, [], 0, 0, false, ret, []⟩

/-- A word that hands the CE a transfer (R236, R239): it waits while the CE holds four. -/
def copyWord (k : Guard) (regs : List Reg) (a : Reg) (wsl : Bool) (ret : Option Reg) (after : State → Nat → State) (s : State) : Out :=
  objWordIn true k regs a 32 false (fun s l off =>
    match xferOf (objNat s l off 32) off wsl ret with
    | none => streamTrap s
    | some x =>
      if 4 ≤ (getCore s l).ce.length then note s l .ap .busy []
      else after (modCore s l fun c => { c with ce := c.ce ++ [x] }) l) s

/-- COPY (R239). -/
def execCopy (k : Guard) (a : Reg) (s : State) : Out := copyWord k [] a false none (fun s l => retire s l .ap) s

/-- WSLOAD (R240). -/
def execWsload (k : Guard) (a : Reg) (s : State) : Out := copyWord k [] a true none (fun s l => retire s l .ap) s

/-- COPYW (R239): it waits until its transfer has ended; the transfer's end writes D. -/
def execCopyw (k : Guard) (d a : Reg) (s : State) : Out :=
  if (getCore s s.current.core).apWait == .copyw then
    apWord k [d, a] true (fun s l =>
      if (getCore s l).ce.any fun x => x.ret.isSome then waitOn s l .ap [208]
      else retire (modCore s l fun c => { c with apWait := .none }) l .ap) s
  else copyWord k [d] a false (some d) (fun s l => waitOn (modCore s l fun c => { c with apWait := .copyw }) l .ap [208]) s

/-! ### The copy engine (R237, R238, R240) -/

/-- The transfer at the head of the CE changed. -/
def modXfer (s : State) (l : Nat) (f : Xfer → Xfer) : State :=
  modCore s l fun c => { c with ce := match c.ce with
    | x :: t => f x :: t
    | [] => [] }

/-- COPY_TRANSFER_START (R237): the oldest transfer pops its TKW token and starts. -/
def execCopyTransferStart (l : CoreNum) (s : State) : Out :=
  let c := l.toNat
  .next <| match (getCore s c).ce with
    | x :: _ =>
      if !suRuns s c || x.started || (x.tkw != 0 && tokCount s c x.tkw 7 == 0) then s
      else
        let s := if x.tkw = 0 then s else tokAdd s c x.tkw 7 (-1)
        modXfer s c fun x => { x with started := true, cflt := if x.wsl && leaseCount s != 0 then 1 else 0 }
    | [] => s

/-- An address of the CE (R236): none where it touches the barrier region, which is copy fault 2 (R238). -/
def ceSpot (l : Nat) (ea : Word) (n : Nat) (k : AKind) (s : State) : Option (Gen Spot) :=
  match classify ea with
  | .bad => some (.bad (FInfo.plain 0x15) ea s)
  | .sp off =>
    if off + n > 0x100000 then some (.bad (FInfo.plain 0x15) ea s)
    else if touchesBar s l off n then none
    else some (.ok (.sp off n) s)
  | .virt va key =>
    if va + n > 2 ^ 48 then some (.bad (FInfo.plain 0x15) ea s)
    else
      let r := spotOf s (getCore s l).ceTlb 2 l n k key va
      let up (s : State) : State := modCore s l fun c => { c with ceTlb := r.2 }
      some (match r.1 with
        | .ok p s => .ok p (up s)
        | .wait s => .wait (up s)
        | .hold s => .hold (up s)
        | .bad f v s => .bad f v (up s))

/-- Whether a destination lies wholly on weight-store pages with an identity gauge (R238). -/
def onWs : Spot → Bool
  | .sp .. => false
  | .parts ps => ps.all fun p => isWs (pteAddr p.1.pte) && gaugeOf p.1.pte == .ident

/-- The CE meets a fault (R427): it waits at the unit, or its task ends. -/
def ceFault (s : State) (l : Nat) (f : FInfo) (va : Word) (k : AKind) : State :=
  agentFault (modCore s l fun c => { c with ceFlt := .unsent, ceFltVa := va }) f l .ce 0 k (cx s l).asid (runLid s l) va

/-- Bytes that may be written once `rpos` source bytes have been read: whole groups of 8 destination bytes, or all of them at
the end (R237) (DESIGN CHOICE: notes/assumptions/23.md). -/
def groupLimit (x : Xfer) (rpos : Nat) : Nat :=
  if rpos == x.len then x.len else max x.wpos ((x.dst.toNat + rpos) / 8 * 8 - x.dst.toNat)

/-- The granule of a spot. -/
def spotGran (s : State) (l : Nat) : Spot → Nat
  | .sp off n => spGran s (spBase l + off) n
  | .parts ps => granOf s ps

/-- Whether the banks that an access of the CE reaches serve it on this tick (R62). -/
def ceTurn (s : State) (l : Nat) : Spot → Bool
  | .sp off n => bankTurn s l (ceWho l) [(off, n)]
  | .parts ps => partsTurn s (ceWho l) ps

/-- They do. -/
def ceUse (s : State) (l : Nat) : Spot → State
  | .sp off n => useBanks s l (ceWho l) [(off, n)]
  | .parts ps => useParts s (ceWho l) ps

/-- The CE waits for them. -/
def ceHold (s : State) (l : Nat) : Spot → State
  | .sp off n => bankWait s l .ce (ceWho l) [(off, n)]
  | .parts ps => waitOn (holdParts s (ceWho l) ps) l .ce []

/-- What the CE does with the check of an access: it waits, meets a fault, or goes on (R237, R238). -/
def ceGo (s : State) (l : Nat) (k : AKind) (g : Option (Gen Spot)) (go : Spot → State → State) : State :=
  match g with
  | none => modXfer s l fun x => { x with cflt := 2 }
  | some (.wait s) | some (.hold s) => s
  | some (.bad f va s) => ceFault s l f va k
  | some (.ok p s) => go p s

/-- The bytes of the next destination group (R237): up to the next multiple of 8, within what has been read. -/
def groupLen (x : Xfer) : Nat := min (groupLimit x x.pos - x.wpos) (8 - (x.dst.toNat + x.wpos) % 8)

/-- A destination group of the transfer written: a weight-store load reaches only weight store (R238). The sketch counts one
access for each line of the destination (DESIGN CHOICE: notes/assumptions/31.md; DESIGN CHOICE: notes/assumptions/71.md).
(DESIGN CHOICE: notes/assumptions/23.md; DESIGN CHOICE: notes/assumptions/78.md). -/
def ceGroup (s : State) (l : Nat) (x : Xfer) : State :=
  let n := groupLen x
  let ea := x.dst + BitVec.ofNat 64 x.wpos
  let bs : List PByte := (x.buf.take n).map fun b => ⟨b, false⟩
  let done (s : State) (f : Acf) : State :=
    note (modXfer s l fun y => { y with wpos := x.wpos + n, buf := x.buf.drop n, acf := y.acf ||| f, far := [] }) l .ce .issue []
  let wk : AKind := if x.wsl then .wsl else .write
  ceGo s l wk (ceSpot l ea n wk s) fun p s =>
    if x.wsl && !onWs p then modXfer s l fun x => { x with cflt := 3 }
    else if !ceTurn s l p then ceHold s l p
    else match p with
    | .sp off _ => done (writePBytes (ceUse s l p) (spBase l + off) bs) 0
    | .parts ps =>
      if crosses s l ps || !ackRoom s l (awayParts l ps) then s
      else
        let s := touchParts (ceUse s l p) (ps.filter fun q => merges q.1 q.2.1 q.2.2)
        let w := writeAll s l .ce 0 (ea.toNat / 2 ^ 60) 0xF ps bs
        let s := rmwAdd w.1 l w.2.2
        done (if x.wpos = 0 ∨ ea.toNat % 64 = 0 then touchLines s (hotLines ps) else s) w.2.1

/-- The next unit of 64 bytes counted from SRC, shorter at the end, read (R237); poison is fault 0x17 (R182). -/
def ceRead (s : State) (l : Nat) (x : Xfer) : State :=
  let n := min 64 (x.len - x.pos)
  let ea := x.src + BitVec.ofNat 64 x.pos
  ceGo s l .read (ceSpot l ea n .read s) fun p s =>
    let take (s : State) (bs : List PByte) (f : Acf) : State :=
      if bs.any (·.psn) then ceFault s l ⟨0x17, 0, spotGran s l p, 0, 0⟩ ea .read
      else note (modXfer s l fun y =>
        { y with pos := x.pos + n, buf := x.buf ++ bs.map (·.b), acf := y.acf ||| f, far := [] }) l .ce .issue []
    if !ceTurn s l p then ceHold s l p
    else match p with
    | .sp off n => take (spTouch (ceUse s l p) l off n) (readPBytes s (spBase l + off) n) 0
    | .parts ps =>
      match readAway s l .ce 0 (ea.toNat / 2 ^ 60) 0xF ps with
      | (s, none) => s
      | (s, some r) => take (touchLines (touchParts (ceUse s l p) ps) (hotLines ps)) r.1 r.2

/-- Whether the transfer has bytes that may be written now. -/
def groupReady (x : Xfer) : Bool := decide (x.wpos < groupLimit x x.pos)

/-- One step of the transfer in progress (R237): the next destination group whose source bytes have all been read is written, or
else the next unit is read (DESIGN CHOICE: notes/assumptions/23.md). -/
def ceUnit (s : State) (l : Nat) : State :=
  match (getCore s l).ce with
  | [] => s
  | x :: _ =>
    if !suRuns s l || !x.started || x.ended || x.cflt != 0 || (getCore s l).ceFlt != .clear then s
    else if x.wsl && leaseCount s != 0 && (groupReady x || decide (x.pos < x.len)) then modXfer s l fun x => { x with cflt := 1 }
    else if groupReady x then ceGroup s l x
    else if x.pos < x.len then ceRead s l x
    else s

/-- STATUS of a transfer that has ended (R236). -/
def xferStatus (x : Xfer) : Nat := 1 + 2 * x.cflt.toNat + 2 ^ 8 * x.acf.toNat

/-- The transfer that has ended leaves the CE once its TKS token is pushed; a COPYW receives its STATUS (R237, R239). -/
def ceLeave (s : State) (l : Nat) : State :=
  match (getCore s l).ce with
  | x :: rest =>
    if x.ended && (x.tks == 0 || tokFree s l 7 x.tks) then
      let s := if x.tks = 0 then s else tokAdd s l 7 x.tks 1
      let s := modCore s l fun c => { c with ce := rest }
      match x.ret with
      | some d => wreg s l .ap d (BitVec.ofNat 64 (xferStatus x))
      | none => s
    else s
  | [] => s

/-- COPY_TRANSFER_COMPLETE (R237, R238): the units that are left move, and once the last has, or a copy fault has ended the
transfer, and every write has been performed at device scope, STATUS is written and the TKS token pushed. -/
def execCopyTransferComplete (l : CoreNum) (s : State) : Out :=
  let c := l.toNat
  .next <| match (getCore s c).ce with
    | [] => s
    | x :: _ =>
      if !suRuns s c || !x.started then s
      else if x.ended then ceLeave s c
      else
        let s := iter (fun s => ceUnit s c) ((x.len - x.pos + 63) / 64 + (x.len - x.wpos) / 8 + 2) s
        match (getCore s c).ce with
        | [] => s
        | y :: _ =>
          if (getCore s c).ceFlt == .clear && (y.cflt != 0 || (decide (y.len ≤ y.pos) && decide (y.len ≤ y.wpos))) &&
              !writesOut s c .ce 0 then
            let at' : Spot := .sp (y.off + 0x1C) 4
            if !ceTurn s c at' then ceHold s c at'
            else ceLeave (modXfer (writeNat (ceUse s c at') (spBase c + y.off + 0x1C) 4 (xferStatus y)) c fun x => { x with ended := true }) c
          else s

/-! ### The next page (R420) -/

/-- The CE's TLB takes the entry for the next page of the transfer in progress, of its source or of its destination: the entry of
the current page stays beside it (R420). -/
def ceNextPage (s : State) (l : Nat) (dst : Bool) : State :=
  let c := getCore s l
  let asid := c.x.asid
  match c.ce with
  | [] => s
  | x :: _ =>
    let at0 := if dst then x.dst.toNat % 2 ^ 48 + x.wpos else x.src.toNat % 2 ^ 48 + x.pos
    match tlbFind c.ceTlb asid at0 with
    | none => s
    | some e =>
      let next := (e.vpn + 1) * pageSize e.lvl
      if !x.started || decide (at0 + (x.len - (if dst then x.wpos else x.pos)) ≤ next) then s
      else modCore s l fun c => { c with ceTlb := tlbNext s c.walkCache asid e next }

end Sys2Proof.Machine
end

