-- ==== Sys2Proof/Machine/Records.lean ====
section
/-! DEFINITION. Task records: their images, the queues of a core, eligibility, the termination detectors, and the AP's
scheduling words (R242 to R254, R377 to R393, R409, R410). -/

namespace Sys2Proof.Machine

/-! ### Record images (R384, R385) -/

/-- A record from the 64 bytes of its image, as a number. -/
def recOf (x : Nat) : Rec :=
  let w (o : Nat) : Word := BitVec.ofNat 64 (x / 2 ^ (8 * o))
  ⟨BitVec.ofNat 8 x, BitVec.ofNat 5 (x / 2 ^ 8), w 0x08, w 0x10, w 0x18, w 0x20, w 0x28, w 0x30, w 0x38⟩

/-- The image of a record. -/
def recBytes (r : Rec) : List Byte :=
  toLE 8 (r.sel.toNat + 2 ^ 8 * r.depth.toNat) ++
    [r.fp, r.jaddr, r.wid, r.cond, r.a0, r.a1, r.a2].flatMap fun v => toLE 8 v.toNat

/-- Buffer condition `c` of a record. -/
def condOf (r : Rec) (c : Nat) : BitVec 16 := r.cond.extractLsb' (16 * c) 16

/-- Width of the work identifier (R378). -/
def widBits (k : Launch) : Nat := k.widths.foldl (· + ·) 0

/-- The checks of R385 on an image. -/
def imgOk (k : Launch) (x : Nat) : Bool :=
  let r := recOf x
  decide (r.sel.toNat < k.nsel) && x % 2 ^ 64 / 2 ^ 13 == 0 && decide (r.wid.toNat < 2 ^ widBits k) &&
    (List.range 4).all fun c => (condOf r c).getLsbD 0 || condOf r c == 0

/-- The placement index of a work identifier: the value of field 0 (R378). -/
def placeIdx (k : Launch) (wid : Word) : Nat := wid.toNat % 2 ^ k.widths.headD 0

/-- The core that runs a record (R379). -/
def placeCore (k : Launch) (wid : Word) : Nat := k.place.getD (placeIdx k wid) 0

/-! ### The termination detectors (R253, R410) -/

/-- The TAKEs of a launch that wait on a die complete as TERM becomes 1 there: they return 2^64 − 1, whatever is appended later (R253,
R410). -/
def termTakes (s : State) (lid : BitVec 16) (die : Nat) : State :=
  let ends (n : Nat) (c : Core) : Bool := c.apWait == ApWait.take && dieOf n == die && c.x.run.any fun r => r.lid == lid
  { s with cores := s.cores.map fun c => (c.1, if ends c.1 c.2 then { c.2 with apWait := .termed } else c.2) }

/-- ITEMS and LIVE of a launch changed on die 0; an update sets out for the copy of die 1. -/
def detAdd (s : State) (lid : BitVec 16) (items live : Int) : State :=
  let s := modLaunch s lid fun k =>
    let i := ((k.items : Int) + items).toNat
    let v := ((k.live : Int) + live).toNat
    { k with items := i, live := v, term := k.term || (i == 0 && v == 0) }
  match getLaunch s lid with
  | some k => let s := { s with detUpd := s.detUpd ++ [⟨lid, k.items, k.live, k.term, now s⟩] }
    if k.term then termTakes s lid 0 else s
  | none => s

/-- ITEMS and TERM of a launch as a core of a die sees them (R410). -/
def detSeen (k : Launch) (die : Nat) : Nat × Bool := if die == 0 then (k.items, k.term) else (k.items1, k.term1)

/-! ### Placement groups (R411) -/

/-- The records of a core that are queued, parked or in flight from it, each with its launch. -/
def coreQueued (c : Core) : List (BitVec 16 × Rec) :=
  ((c.sram ++ c.back ++ c.waits ++ c.ovf).map fun q => (q.lid, q.img)) ++ c.conts.map fun t => (t.2.1, t.1)

/-- The running record of a core. -/
def coreRuns (c : Core) : List (BitVec 16 × Rec) :=
  match c.x.run with
  | some r => [(r.lid, r.img)]
  | none => []

/-- The records that a core holds, those of saved contexts too. -/
def coreRecs (c : Core) : List (BitVec 16 × Rec) :=
  coreQueued c ++ coreRuns c ++ c.saved.filterMap fun v => v.ctx.run.map fun r => (r.lid, r.img)

/-- The cores that saved partitions have put by (R448). -/
def putBy (s : State) : List Core := s.parts.flatMap fun p => p.2.save.map (·.2.1)

/-- The records of a launch that are queued, parked, running or in flight (R411): a saved one is none of these. -/
def recsOf (s : State) (lid : BitVec 16) : List Rec :=
  let mine (rs : List (BitVec 16 × Rec)) : List Rec := rs.filterMap fun r => if r.1 == lid then some r.2 else none
  (s.cores.flatMap fun c => mine (coreQueued c.2 ++ coreRuns c.2)) ++ (putBy s).flatMap fun c => mine (coreQueued c)

/-- A record of a group comes into being: the group is not finished. -/
def groupBegins (s : State) (lid : BitVec 16) (wid : Word) : State :=
  modLaunch s lid fun k => { k with finished := tset k.finished (placeIdx k wid) 0 }

/-- A record of a group has gone: the group is finished from now if it was the last. -/
def groupEnds (s : State) (lid : BitVec 16) (wid : Word) : State :=
  match getLaunch s lid with
  | none => s
  | some k =>
    if (recsOf s lid).any fun r => placeIdx k r.wid == placeIdx k wid then s
    else modLaunch s lid fun k => { k with finished := tset k.finished (placeIdx k wid) (now s + 1) }

/-! ### The queues of a core (R389 to R391) -/

/-- Whether the queue of a core can accept a record: one of its 4,104 places is free and held by no SPAWN, and its block is powered
(R244, R389, R492). -/
def queueRoom (s : State) (l : Nat) : Bool :=
  let c := getCore s l
  decide (c.sram.length + c.back.length + c.places.length < 4104) && !(getBlock s (blockOf l)).gated

/-- A record just entered, in its place in the order of R389. -/
def newQRec (s : State) (img : Rec) (lid : BitVec 16) (watch : Option Nat) : QRec :=
  ⟨img, lid, now s, watch, false, false, false, false, s.nextOrder, 0⟩

/-- The next place in the order of entry taken. -/
def orderTaken (s : State) : State := { s with nextOrder := s.nextOrder + 1 }

/-- Whether a core is powered to take a record (R492). -/
def powered (s : State) (l : Nat) : Bool := !(getBlock s (blockOf l)).gated

/-- A record put in its place among those that entered before it: pushes of one tick keep the order of R389. -/
def queueInsert (q : QRec) : List QRec → List QRec
  | [] => [q]
  | r :: rs => if r.entry == q.entry && decide (q.org < r.org) then q :: r :: rs else r :: queueInsert q rs

/-- The pusher's place in the order of R389. -/
def pusher (src dst : Nat) : Nat := if src = dst then 0 else src + 1

/-- The place of admission in that order. -/
def fromAdmission : Nat := 1000

/-- A record pushed to a core: it enters at the tail of the backing ring, or the SRAM queue when nothing is before it.
(DESIGN CHOICE: notes/assumptions/75.md). -/
def pushRec (s : State) (l : Nat) (img : Rec) (lid : BitVec 16) (org : Nat) : State :=
  let q := { newQRec s img lid none with org := org }
  groupBegins (modCore (orderTaken s) l fun c =>
    let n := if c.back.isEmpty && decide (c.sram.length < 8) then 8 else c.sram.length
    let all := queueInsert q (c.sram ++ c.back)
    { c with sram := all.take n, back := (all.drop n).map fun r => { r with examined := false, held := false } })
    lid img.wid

/-- Whether a buffer condition holds on a core (R390) (DEDUCED: notes/assumptions/26.md). -/
def condHolds (s : State) (l : Nat) (v : BitVec 16) : Bool :=
  let r := getRing s l (v.extractLsb' 3 5).toNat
  let full := v.getLsbD 1
  let slot := if v.getLsbD 2 then (if full then r.head else r.tailSlot) else (v.extractLsb' 8 8).toNat
  !v.getLsbD 0 || (r.conf && decide (slot < r.n) && r.isFull slot == full)

/-- Whether a record is eligible (R390). -/
def eligible (s : State) (l : Nat) (q : QRec) : Bool :=
  if q.watch.isSome then q.awake else (List.range 4).all fun c => condHolds s l (condOf q.img c)

/-- An entry of the completion ring (R483): the device writes it when there is room. -/
def cqPut (s : State) (tag : Word) (word1 tick word3 : Nat) : State :=
  { s with host := { s.host with
      cq := s.host.cq ++ [(tag, BitVec.ofNat 64 word1, BitVec.ofNat 64 tick, BitVec.ofNat 64 word3)] } }

/-- A wait overflow of a core (R391, R484): WOVF counts it, and an event entry reports it unless one has been sent since the
overflow ring last had room (DESIGN CHOICE: notes/assumptions/75.md). -/
def waitOverflow (s : State) (l : Nat) (lid : BitVec 16) : State :=
  let s := modCore s l fun c => { c with wovf := min (2 ^ 32 - 1) (c.wovf + 1) }
  let c := getCore s l
  if c.wovfSent then s
  else
    let tag := match getLaunch s lid with | some k => k.tag | none => 0
    cqPut (modCore s l fun c => { c with wovfSent := true }) tag (lid.toNat + 2 ^ 33 + 2 ^ 34 * l) (now s) c.wovf

/-- Whether the wait table or the overflow ring has room. -/
def parkRoom (c : Core) : Bool := decide (c.waits.length < 32) || decide (c.ovf.length < c.ovfSize)

/-- A record parked: in the wait table, or at the tail of the overflow ring (R391). -/
def parkRec (s : State) (l : Nat) (q : QRec) : State :=
  modCore s l fun c =>
    if c.waits.length < 32 then { c with waits := c.waits ++ [q] } else { c with ovf := c.ovf ++ [q] }

/-- Entries of the wait table that have come free filled from the overflow ring, oldest first (R391) (DEDUCED: notes/assumptions/26.md). -/
def refillCore (c : Core) : Core :=
  let n := 32 - c.waits.length
  { c with waits := c.waits ++ c.ovf.take n, ovf := c.ovf.drop n }

/-- The same on a core of the device. -/
def refillWaits (s : State) (l : Nat) : State := modCore s l refillCore

/-- An image that PARK or WAITF places (R391): one that finds both places full goes back to the queue. -/
def placeParked (s : State) (l : Nat) (q : QRec) : State :=
  let s := orderTaken s
  if parkRoom (getCore s l) then parkRec s l q
  else
    modCore (waitOverflow s l q.lid) l fun c =>
      if c.sram.length < 8 then { c with sram := c.sram ++ [{ q with examined := true, held := true }] }
      else { c with back := q :: c.back }

/-- RECORD_EXAMINE (R389, R391): the next record moves into the SRAM queue and is examined; a record that a wait overflow
holds is examined again, with no second wait-overflow fault (DEDUCED: notes/assumptions/26.md) (DESIGN CHOICE: notes/assumptions/95.md). -/
def execRecordExamine (l : CoreNum) (s : State) : Out :=
  let n := l.toNat
  let c := getCore s n
  let look (s : State) (q : QRec) : State :=
    let gone (s : State) : State := modCore s n fun c => { c with sram := c.sram.filter fun r => r.seq != q.seq }
    let mark (s : State) (held : Bool) : State := modCore s n fun c =>
      { c with sram := c.sram.map fun r => if r.seq == q.seq then { r with examined := true, held := held } else r }
    if eligible s n q then mark s false
    else if parkRoom (getCore s n) then parkRec (gone s) n { q with examined := true, held := false }
    else if q.held then s
    else mark (waitOverflow s n q.lid) true
  .next <| match c.sram.find? fun q => !q.examined with
    | some q => look s q
    | none =>
      match c.back with
      | q :: rest =>
        if c.sram.length < 8 then look (modCore s n fun c => { c with sram := c.sram ++ [q], back := rest }) q
        else (match c.sram.find? (·.held) with
          | some q => look s q
          | none => s)
      | [] => match c.sram.find? (·.held) with
        | some q => look s q
        | none => s

/-! ### Accesses that a record makes outside the AP's queues -/

/-- `n` bytes at an effective address, checked as the AP's (R176, R243, R249) (DEDUCED: notes/assumptions/29.md). -/
def apSpot (s : State) (l : Nat) (ea : Word) (n : Nat) (k : AKind) : Gen Spot :=
  match classify ea with
  | .bad => .bad (FInfo.plain 0x15) ea s
  | .sp off => if off + n > 0x100000 then .bad (FInfo.plain 0x15) ea s else .ok (.sp off n) s
  | .virt va key =>
    if va + n > 2 ^ 48 then .bad (FInfo.plain 0x15) ea s
    else
      let r := spotOf s (getCore s l).apTlb 64 l n k key va
      let up (s : State) : State := modCore s l fun c => { c with apTlb := r.2 }
      match r.1 with
      | .ok p s => .ok p (up s)
      | .wait s => .wait (up s)
      | .hold s => .hold (up s)
      | .bad f v s => .bad f v (up s)

/-- The AP waits for the answer to a fault it has met. -/
def apWaits (s : State) (l : Nat) : Bool := (getCore s l).apFlt != .clear

/-- The bytes at a spot read as a number; what another device holds is asked for (R478), and poison is fault 0x17 (R182)
(DEDUCED: notes/assumptions/29.md). -/
def spotNat (s : State) (l : Nat) (ea : Word) (p : Spot) : Gen Nat :=
  let take (s : State) (bs : List PByte) (f : Acf) (lines : List Nat) : Gen Nat :=
    let s := modFar (touchLines (convOr s l f) lines) l .ap 0 fun _ => []
    if bs.any (·.psn) then .bad ⟨0x17, 0, spotGran s l p, 0, 0⟩ ea s else .ok (ofLE (bs.map (·.b))) s
  match p with
  | .sp off n =>
    if bankTurn s l (apWho l 0) [(off, n)] then
      take (spTouch (useBanks s l (apWho l 0) [(off, n)]) l off n) (readPBytes s (spBase l + off) n) 0 []
    else .hold (bankHold s l (apWho l 0) [(off, n)])
  | .parts ps =>
    match readAway s l .ap 0 (ea.toNat / 2 ^ 60) 0xF ps with
    | (t, none) => .hold t
    | (t, some r) => take (touchParts t ps) r.1 r.2 (hotLines ps)

/-- Whether bytes lie on pages with an identity gauge outside the weight store, as a join object's must (R243).
(DEDUCED: notes/assumptions/29.md). -/
def joinPage : Spot → Bool
  | .sp .. => false
  | .parts ps => ps.all fun p => gaugeOf p.1.pte == .ident && !isWs (pteAddr p.1.pte)

/-- The fault of a join object's own address (R243) (DEDUCED: notes/assumptions/29.md). -/
def joinFault (ja : Word) : Option Nat :=
  if classify ja == .bad then some 0x15
  else if ja.toNat % 8 != 0 then some 0x18
  else if ja.toNat % 64 != 0 || decide (ja.toNat < 0x100000) then some 0x1D
  else none

/-- The part of a checked access to 8 aligned bytes. -/
def onePart : Spot → Option (Trans × Nat × Nat)
  | .sp .. => none
  | .parts ps => ps.head?

/-- Whether a part of a join object lies on a page where it may not (R243). A page without a translation is a fault of its own
(DEDUCED: notes/assumptions/29.md). -/
def joinPart (s : State) (l va : Nat) : Option FInfo :=
  if 2 ^ 48 < va + 0x40 then some (FInfo.plain 0x15)
  else match walk s (getCore s l).walkCache (cx s l).asid va with
    | .error f => some f
    | .ok x =>
      if gaugeOf x.pte == .ident && !isWs (pteAddr x.pte) then none
      else some ⟨0x1D, 0, ((frameRanges x va 0x40).headD (0, 0)).1 / 32 * 32, 0, 0⟩

/-- The fault of the page of COUNT, or else of that of CONT, where the object meets two pages: every use of it asks both first
(R243). -/
def joinPages (s : State) (l : Nat) (ja : Word) : Option (FInfo × Word) :=
  let va := ja.toNat % 2 ^ 48
  if (va + 0x40) % 0x8000 != 0 then none
  else match joinPart s l va with
    | some f => some (f, ja)
    | none => (joinPart s l (va + 0x40)).map fun f => (f, ja + 0x40)

/-- COUNT of a join object changed by 1 or −1 at device scope (R243 to R247): its new value.
(DEDUCED: notes/assumptions/29.md) (DESIGN CHOICE: notes/assumptions/28.md). -/
def joinAmo (s : State) (l : Nat) (ja : Word) (d : Int) : Gen Int :=
  match joinFault ja with
  | some c => .bad (FInfo.plain c) ja s
  | none =>
    match joinPages s l ja with
    | some f => .bad f.1 f.2 s
    | none => (apSpot s l ja 8 .amo).bind fun p s =>
      match onePart p with
      | none => .bad (FInfo.plain 0x1D) ja s
      | some q =>
        let new (x : Nat) : Int := signedOf 64 (wrapInt (signedOf 64 x + d) 64)
        if crosses s l [q] || !ackRoom s l 1 then .hold s
        else if homeOf (dieOf l) q == .remote then
          match askFar s l .ap 0 (.amo 3 0) (BitVec.ofInt 64 d) (ja.toNat / 2 ^ 60) 0xF q with
          | (t, none) => .hold t
          | (t, some r) => .ok (new (ofLE (r.1.map (·.b)))) (modFar t l .ap 0 fun _ => [])
        else (spotNat s l ja p).bind fun x s =>
          .ok (new x) (writeAll s l .ap 0 (ja.toNat / 2 ^ 60) 0xF [q] ((toLE 8 (wrapInt (new x) 64)).map fun b => ⟨b, false⟩)).1

/-! ### The AP's scheduling words (R227, R244 to R254) -/

/-- The running record's launch. -/
def runLaunch (s : State) (l : Nat) : Option Launch :=
  match (cx s l).run with
  | some r => getLaunch s r.lid
  | none => none

/-- The running record. -/
def runImg (s : State) (l : Nat) : Rec := match (cx s l).run with
  | some r => r.img
  | none => Rec.zero

/-- A word that waits until every older access of the AP has been performed at device scope (R225). -/
def afterDevice (body : State → Nat → Nat → State) (s : State) (l off : Nat) : State :=
  if apPerformed s l 3 then body s l off else waitOn s l .ap [208]

/-- The place of core `l`'s SPAWN in the queue of core `c`, given up. -/
def freePlace (s : State) (l c : Nat) : State := modCore s c fun k => { k with places := k.places.filter (· != l) }

/-- A SPAWN of core `l` holds one place of the queue of core `c` for its push (R244). -/
def holdPlace (s : State) (l c : Nat) : State := modCore s c fun k => { k with places := l :: k.places.filter (· != l) }

/-- SPAWN (R244, R385): the place is held before COUNT is incremented, so that the push never waits. -/
def execSpawn (k : Guard) (d a : Reg) (s : State) : Out :=
  objWordIn false k [d] a 64 false (afterDevice fun s l off =>
    let x := objNat s l off 64
    match runLaunch s l with
    | none => streamTrap s
    | some la =>
      if !imgOk la x then streamTrap s
      else
        let depth := (runImg s l).depth.toNat + 1
        if 24 < depth then retire (wreg s l .ap d 1) l .ap
        else
          let img := { recOf x with depth := BitVec.ofNat 5 depth }
          let c := placeCore la img.wid
          let push (s : State) : State :=
            retire (wreg (pushRec (detAdd (freePlace s l c) la.lid 0 1) c img la.lid (pusher l c)) l .ap d 0) l .ap
          if isVacant s c then killTask s la.lid 0x04
          else if !((getCore s c).places.contains l) && !queueRoom s c then waitOn s l .ap [211]
          else if apWaits s l then waitOn s l .ap [208]
          else if img.jaddr = 0 then push s
          else match joinAmo (holdPlace s l c) l img.jaddr 1 with
            | .ok _ s => push s
            | .wait s | .hold s => waitOn s l .ap [208]
            | .bad f va s => apFault s l f .amo va) s

/-- How the running record ends (R245). -/
def setEnd (s : State) (l : Nat) (k : EndKind) : State :=
  modX s l fun x => { x with run := x.run.map fun r => { r with ended := some k } }

/-- The running record ends (R245) (DESIGN CHOICE: notes/assumptions/28.md). -/
def endRecord (s : State) (l : Nat) (k : EndKind) : State := setEnd (retire s l .ap) l k

/-- EXIT (R245, R246). -/
def execExit (k : Guard) (s : State) : Out :=
  apWord k [] false (fun s l => afterDevice (fun s l _ => endRecord s l .exit) s l 0) s

/-- JOIN (R247, R385): B names the continuation's image (DESIGN CHOICE: notes/assumptions/28.md). -/
def execJoin (k : Guard) (a b : Reg) (s : State) : Out :=
  objWordIn false k [a] b 64 false (afterDevice fun s l off =>
    let x := objNat s l off 64
    match runLaunch s l with
    | none => streamTrap s
    | some la =>
      if !imgOk la x then streamTrap s
      else endRecord s l (.join (rreg s l .ap a) { recOf x with depth := (runImg s l).depth })) s

/-- PARK (R248, R385). -/
def execPark (k : Guard) (a : Reg) (s : State) : Out :=
  objWordIn false k [] a 64 false (afterDevice fun s l off =>
    let x := objNat s l off 64
    match runLaunch s l with
    | none => streamTrap s
    | some la =>
      if !imgOk la x || placeCore la (recOf x).wid != l then streamTrap s
      else endRecord s l (.park { recOf x with depth := (runImg s l).depth })) s

/-- The line of memory that holds an address (R249) (DEDUCED: notes/assumptions/29.md). -/
def spotLine (l : Nat) : Spot → Nat
  | .sp off _ => (spBase l + off) / 64 * 64
  | .parts ps => (match ps with
    | p :: _ => ((frameRanges p.1 p.2.1 p.2.2).headD (0, 0)).1 / 64 * 64
    | [] => 0)

/-- Whether a WAITF may park its record: no word of C0 to C3 has issued, every stream is CLOSED and the CE is empty. -/
def mayPark (s : State) (l : Nat) : Bool :=
  (openStreams s l).isEmpty && (getCore s l).ce.isEmpty &&
    (match (cx s l).run with
     | some r => !r.epIssued
     | none => false)

/-- What a WAITF does after a poll that found the value too small, the `n`-th before it having done so too (R249): after the 64th
it registers a watch of the line where it may park, and is asked that once; a poll under the watch ends the record; else it polls
on (DEDUCED: notes/assumptions/29.md). -/
def pollFailed (s : State) (l n line : Nat) : State :=
  let wait (m : ApWait) (w : Option (Nat × Bool)) : State := modCore s l fun c => { c with apWait := m, apWatch := w }
  match (getCore s l).apWatch with
  | some w => endRecord (wait .none none) l (.waitf w.1 w.2)
  | none =>
    if n = 63 ∧ mayPark s l then waitOn (wait (.polling 64) (some (line, false))) l .ap [208]
    else waitOn (wait (.polling (n + 1)) none) l .ap [208]

/-- WAITF (R225, R249): each try of the word is one poll, an LDA of device scope, which waits for what an LDA in the queues would. -/
def execWaitf (k : Guard) (d a b : Reg) (s : State) : Out :=
  apWord k [d, a, b] false (fun s l =>
    let ea := rreg s l .ap a
    let n := match (getCore s l).apWait with
      | .polling n => n
      | _ => 0
    let poll : Gen (Spot × Nat) := (apSpot s l ea 8 .read).bind fun p s => (spotNat s l ea p).bind fun x s => .ok (p, x) s
    if !((getCore s l).apq.all fun q => q.departed) || !acqDone s l || apWaits s l then waitOn s l .ap [208]
    else if ea.toNat % 8 != 0 && classify ea != .bad then apFault s l (FInfo.plain 0x18) .read ea
    else match poll with
      | .wait s | .hold s => waitOn s l .ap [208]
      | .bad f va s => apFault s l f .read va
      | .ok p s =>
        if (rreg s l .ap b).toNat ≤ p.2 then
          retire (wreg (modCore s l fun c => { c with apWait := .none, apWatch := none }) l .ap d (BitVec.ofNat 64 p.2)) l .ap
        else pollFailed s l n (spotLine l p.1)) s

/-- The list that APPEND or TAKE names: die and number (R250). -/
def listOf (v : Word) : Option (Nat × Nat) :=
  if v.toNat < 2 ^ 13 then some (v.toNat / 2 ^ 12, v.toNat % 2 ^ 12) else none

/-- Whether a launch owns a list (R409). -/
def ownsList (k : Launch) (n : Nat) : Bool := decide (k.lbase ≤ n) && decide (n < k.lbase + k.lcnt)

/-- The items of a list, oldest first. -/
def getList (s : State) (die n : Nat) : List Word := tget [] (vget Die.reset s.dies die).lists n

/-- A die changed. -/
def modDie (s : State) (die : Nat) (f : Die → Die) : State := { s with dies := vset s.dies die (f (vget Die.reset s.dies die)) }

/-- The items of a list changed (DESIGN CHOICE: notes/assumptions/75.md). -/
def setList (s : State) (die n : Nat) (xs : List Word) : State := modDie s die fun d => { d with lists := tset d.lists n xs }

/-- A word that names a list: a stream-state fault for a bad name, and an unresolvable fault for a list of another launch. -/
def listWord (k : Guard) (regs : List Reg) (a : Reg) (body : State → Nat → Launch → Nat × Nat → State) (s : State) : Out :=
  apWord k (a :: regs) false (fun s l =>
    match listOf (rreg s l .ap a), runLaunch s l with
    | none, _ => streamTrap s
    | some _, none => apFault s l (FInfo.plain 0x1D) .write (rreg s l .ap a)
    | some x, some la =>
      if !ownsList la x.2 then apFault s l (FInfo.plain 0x1D) .write (rreg s l .ap a) else body s l la x) s

/-- APPEND (R251). -/
def execAppend (k : Guard) (d a b : Reg) (s : State) : Out :=
  listWord k [d, b] a (fun s l la x =>
    let v := rreg s l .ap b
    let done (s : State) (r : Word) : State := retire (wreg s l .ap d r) l .ap
    if !apPerformed s l 3 then waitOn s l .ap [208]
    else if v = BitVec.allOnes 64 then done s 2
    else
      let xs := getList s x.1 x.2
      if 2 ^ la.lcap ≤ xs.length then done s 1
      else done (detAdd (setList s x.1 x.2 (xs ++ [v])) la.lid 1 0) 0) s

/-- Cores whose TAKE waits on a list. -/
def takers (s : State) (die n : Nat) : List Nat := tget [] (vget Die.reset s.dies die).takers n

/-- The waiters of a list changed. -/
def setTakers (s : State) (die n : Nat) (xs : List Nat) : State := modDie s die fun d => { d with takers := tset d.takers n xs }

/-- Whether a record waits in TAKE, set (R253). -/
def setInTake (s : State) (l : Nat) (b : Bool) : State :=
  modX s l fun x => { x with run := x.run.map fun r => { r with inTake := b } }

/-- Whether the running record counts as waiting in TAKE. -/
def inTake (s : State) (l : Nat) : Bool := match (cx s l).run with
  | some r => r.inTake
  | none => false

/-- TAKE (R252, R253): the waiters of a list take its items in the order in which they began; one that waited as TERM became 1
returns 2^64 − 1. -/
def execTake (k : Guard) (d a : Reg) (s : State) : Out :=
  listWord k [d] a (fun s l la x =>
    let xs := getList s x.1 x.2
    let ts := takers s x.1 x.2
    let first := match ts with
      | t :: _ => t == l
      | [] => true
    let finish (s : State) (v : Word) : State :=
      let s := setTakers s x.1 x.2 (ts.filter (· != l))
      let s := if inTake s l then detAdd (setInTake s l false) la.lid 0 1 else s
      retire (wreg (modCore s l fun c => { c with apWait := .none }) l .ap d v) l .ap
    if (getCore s l).apWait == .termed then finish s (BitVec.allOnes 64)
    else match first, xs with
    | true, v :: rest =>
      let s := if inTake s l then detAdd (setInTake s l false) la.lid 0 1 else s
      finish (detAdd (setList s x.1 x.2 rest) la.lid (-1) 0) v
    | _, _ =>
      if (detSeen la (dieOf l)).2 then finish s (BitVec.allOnes 64)
      else
        let s := if inTake s l then s else detAdd (setInTake s l true) la.lid 0 (-1)
        let s := setTakers s x.1 x.2 (if ts.contains l then ts else ts ++ [l])
        waitOn (modCore s l fun c => { c with apWait := .take }) l .ap [208]) s

/-- QUIET (R254). -/
def execQuiet (k : Guard) (d : Reg) (s : State) : Out :=
  apWord k [d] false (fun s l =>
    let v := match runLaunch s l with
      | some la => let x := detSeen la (dieOf l); min (2 ^ 32 - 1) x.1 * 2 ^ 32 + b2n x.2
      | none => 0
    retire (wreg s l .ap d (BitVec.ofNat 64 v)) l .ap) s

/-- Whether a core runs a record of a launch. -/
def runsLid (lid : BitVec 16) (c : Core) : Bool :=
  match c.x.run with
  | some r => r.lid == lid
  | none => false

/-- The core that sent a barrier message. -/
def BarMsg.owner : BarMsg → Nat
  | .arrive c .. | .request _ c .. | .refusal c .. => c

/-- The launch that a barrier message belongs to. -/
def BarMsg.lid : BarMsg → BitVec 16
  | .arrive _ lid .. | .request _ _ _ _ _ lid _ | .refusal _ lid .. => lid

end Sys2Proof.Machine
end

