-- ==== Sys2Proof/Machine/HostPort.lean ====
section
/-! DEFINITION. The host port: the host window, its control registers, the LPDDR6 commands, and the completion ring (R479 to
R483, R486). -/

namespace Sys2Proof.Machine

/-- The host port changed. -/
def modHost (s : State) (f : HostPort → HostPort) : State := { s with host := f s.host }

/-! ### The window (R480) -/

/-- Whether a host offset is memory above the host buffer: the queue, the rings and the command slots. -/
def inRing (o : Nat) : Bool :=
  decide (0x4000000 ≤ o ∧ o < 0x4002000) || decide (0x4003000 ≤ o ∧ o < 0x4004000) || decide (0x4004000 ≤ o ∧ o < 0x4004200)

/-- Whether a host offset is in the control registers. -/
def inCtrl (o : Nat) : Bool := decide (0x4002000 ≤ o ∧ o < 0x4002050)

/-- A byte of the rings: 0 until it is written. -/
def winGet (s : State) (o : Nat) : Byte := (cellGet s.host.win o).getD 0

/-- A byte of the rings written; zeros are not listed. -/
def winPut (s : State) (o : Nat) (b : Byte) : State :=
  modHost s fun h => { h with win := if b = 0 then cellDel h.win o else cellSet h.win o b }

/-- Bytes of the rings as a number. -/
def winNat (s : State) (o n : Nat) : Nat := ofLE ((List.range n).map fun i => winGet s (o + i))

/-- Bytes written to the rings. -/
def winBytes (s : State) (o : Nat) (bs : List Byte) : State := (bs.zipIdx o).foldl (fun s b => winPut s b.2 b.1) s

/-! ### Control registers (R481, R500) -/

/-- A control register, by its offset. -/
def ctrlReg (s : State) (r : Nat) : Nat :=
  let h := s.host
  match r with
  | 0x00 => h.lqTail.toNat
  | 0x08 => h.lqHead.toNat
  | 0x10 => h.cqTail.toNat
  | 0x18 => h.cqHead.toNat
  | 0x20 => h.sqTail.toNat
  | 0x28 => h.sqHead.toNat
  | 0x30 => h.srTail.toNat
  | 0x38 => h.srHead.toNat
  | 0x40 => (if h.ready && !s.secHalt then 1 else 0) + (if h.qerr then 2 else 0)
  | 0x48 => h.bootLen.toNat + 2 ^ 32 * h.bootState.toNat
  | _ => 0

/-- Whether a tail may take a value: at most the ring's size ahead of its head (R481). -/
def tailOk (v head : BitVec 32) (size : Nat) : Bool := decide ((v - head).toNat ≤ size)

/-- Whether a head may take a value: it neither passes its tail nor moves backward (R481). -/
def headOk (v head tail : BitVec 32) : Bool := decide ((v - head).toNat ≤ (tail - head).toNat)

/-- A count register takes a value, or the write is ignored and QERR is set. -/
def countWrite (s : State) (ok : Bool) (f : HostPort → HostPort) : State :=
  modHost s fun h => if ok then f h else { h with qerr := true }

/-- LQ_TAIL written. -/
def lqTailPut (s : State) (v : BitVec 32) : State :=
  countWrite s (tailOk v s.host.lqHead 256) fun h => { h with lqTail := v }

/-- CQ_HEAD written. -/
def cqHeadPut (s : State) (v : BitVec 32) : State :=
  countWrite s (headOk v s.host.cqHead s.host.cqTail) fun h => { h with cqHead := v }

/-- SQ_TAIL written. -/
def sqTailPut (s : State) (v : BitVec 32) : State :=
  countWrite s (tailOk v s.host.sqHead 16) fun h => { h with sqTail := v }

/-- SR_HEAD written. -/
def srHeadPut (s : State) (v : BitVec 32) : State :=
  countWrite s (headOk v s.host.srHead s.host.srTail) fun h => { h with srHead := v }

/-- BOOT.LEN written: verification starts, unless STATE is 1 or 2 (R500). -/
def bootLenPut (s : State) (v : BitVec 32) : State :=
  if s.host.bootState = 1 ∨ s.host.bootState = 2 then s
  else modHost s fun h => { h with bootLen := v, bootState := 1 }

/-- A control register written by the host, with the value its low 32 bits take (R481). Writes to the others are ignored.
(DESIGN CHOICE: notes/assumptions/59.md). -/
def ctrlPut (s : State) (r : Nat) (v : BitVec 32) : State :=
  match r with
  | 0x00 => lqTailPut s v
  | 0x18 => cqHeadPut s v
  | 0x20 => sqTailPut s v
  | 0x38 => srHeadPut s v
  | 0x40 => if v.getLsbD 1 then modHost s fun h => { h with qerr := false } else s
  | 0x48 => bootLenPut s v
  | _ => s

/-! ### Reads and writes of the window (R112, R480, R486) -/

/-- Whether the host port serves more than reads of control registers: not after a sensor's action 2 (R499). -/
def hostServes (s : State) : Bool := !s.secHalt

/-- A byte as the host reads it. -/
def hostByte (s : State) (o : Nat) : Byte :=
  if inCtrl o then BitVec.ofNat 8 (ctrlReg s (o % 256 / 8 * 8) / 2 ^ (8 * (o % 8)))
  else if !hostServes s then 0
  else if o < 0x4000000 then readByte s (hostBase + o)
  else if inRing o then winGet s o
  else 0

/-- Control registers that a write touches take their new values in ascending order: bytes not written keep what they read. -/
def ctrlBytes (s : State) (off : Nat) (bs : List (Option Byte)) : State :=
  (List.range 10).foldl (fun s k =>
    let r := 8 * k
    let new (i : Nat) : Option Byte :=
      let o := 0x4002000 + r + i
      if off ≤ o then (bs[o - off]?).join else none
    if (List.range 4).any fun i => (new i).isSome then
      let old := if r = 0x40 then 0 else ctrlReg s r
      let v := ofLE ((List.range 4).map fun i => (new i).getD (BitVec.ofNat 8 (old / 2 ^ (8 * i))))
      ctrlPut s r (BitVec.ofNat 32 v)
    else s) s

/-- Runs of consecutive bytes that a masked write writes: offset and bytes. -/
def runsFrom {α : Type} : Nat → List (Option α) → List (Nat × List α)
  | _, [] => []
  | o, none :: t => runsFrom (o + 1) t
  | o, some b :: t =>
    match runsFrom (o + 1) t with
    | (k, bs) :: rest => if k = o + 1 then (o, b :: bs) :: rest else (o, [b]) :: (k, bs) :: rest
    | [] => [(o, [b])]

/-- A write of the host: to the host buffer, to the rings, and to control registers; elsewhere it is ignored.
(DESIGN CHOICE: notes/assumptions/59.md). -/
def hostPut (s : State) (off : Nat) (bs : List (Option Byte)) : State :=
  if !hostServes s then s
  else
    let s := (runsFrom off bs).foldl (fun s r =>
      let buf := r.2.take (0x4000000 - r.1)
      let s := writeBytes s (hostBase + r.1) buf
      (r.2.zipIdx r.1).foldl (fun s b => if inRing b.2 then winPut s b.2 b.1 else s) s) s
    ctrlBytes s off bs

/-- READ (R479, R486): the data returned are what the homes hold (DESIGN CHOICE: notes/assumptions/60.md). -/
def execRead (off : BitVec 28) (n : Nat) (s : State) : Out :=
  .next (modHost s fun h => { h with readData := (List.range n).map fun i => hostByte s (off.toNat + i) })

/-- WRITE (R479, R486) (DESIGN CHOICE: notes/assumptions/59.md). -/
def execWrite (off : BitVec 28) (bytes : List Byte) (s : State) : Out := .next (hostPut s off.toNat (bytes.map some))

/-- WRITE_WITH_BYTE_MASK (R479). -/
def execWriteWithByteMask (off : BitVec 28) (bytes : List (Option Byte)) (s : State) : Out := .next (hostPut s off.toNat bytes)

/-- A write of a control register alone, where the host port serves it. -/
def ctrlEvent (s : State) (t : State) : Out := .next (if hostServes s then t else s)

/-- LQ_TAIL_WRITE (R481, R486). -/
def execLqTailWrite (v : BitVec 32) (s : State) : Out := ctrlEvent s (lqTailPut s v)
/-- CQ_HEAD_WRITE (R481). -/
def execCqHeadWrite (v : BitVec 32) (s : State) : Out := ctrlEvent s (cqHeadPut s v)
/-- SQ_TAIL_WRITE (R481, R486). -/
def execSqTailWrite (v : BitVec 32) (s : State) : Out := ctrlEvent s (sqTailPut s v)
/-- SR_HEAD_WRITE (R481). -/
def execSrHeadWrite (v : BitVec 32) (s : State) : Out := ctrlEvent s (srHeadPut s v)
/-- BOOT_LEN_WRITE (R500). -/
def execBootLenWrite (v : BitVec 32) (s : State) : Out := ctrlEvent s (bootLenPut s v)

/-! ### LPDDR6 commands (R479) -/

/-- ACTIVATE: a row of the channel is open (DESIGN CHOICE: notes/assumptions/60.md). -/
def execActivate (ch : BitVec 2) (s : State) : Out := .next (modHost s fun h => { h with openRow := tset h.openRow ch.toNat true })
/-- PRECHARGE: it closes. -/
def execPrecharge (ch : BitVec 2) (s : State) : Out := .next (modHost s fun h => { h with openRow := tset h.openRow ch.toNat false })
/-- A command that the port accepts with no effect. -/
def hostNop (s : State) : Out := .next s
/-- REFRESH. -/
def execRefresh (_ch : BitVec 2) (s : State) : Out := hostNop s
/-- SELF_REFRESH. -/
def execSelfRefresh (_ch : BitVec 2) (s : State) : Out := hostNop s
/-- POWER_DOWN_ENTRY. -/
def execPowerDownEntry (_ch : BitVec 2) (s : State) : Out := hostNop s
/-- POWER_DOWN_EXIT. -/
def execPowerDownExit (_ch : BitVec 2) (s : State) : Out := hostNop s
/-- TRAINING_SEQUENCE: the channel is trained. -/
def execTrainingSequence (ch : BitVec 2) (s : State) : Out :=
  .next (modHost s fun h => { h with trained := tset h.trained ch.toNat true })

/-- What a read of a mode register returns: the identification registers, and 0 for every other (DESIGN CHOICE: notes/assumptions/61.md). -/
def modeValue : ModeReg → BitVec 8
  | .vendor => 0xD5
  | .revision => 0x01
  | .density => Config.densityCode
  | .readLatency | .writeLatency | .drive | .termination | .other _ => 0

/-- MODE_REGISTER_READ (DESIGN CHOICE: notes/assumptions/61.md). -/
def execModeRegisterRead (_ch : BitVec 2) (r : ModeReg) (s : State) : Out :=
  .next (if hostServes s then modHost s fun h => { h with readData := [modeValue r] } else s)

/-- The place of a mode register that a write applies to; none for one that ignores writes. -/
def modePlace : ModeReg → Option Nat
  | .readLatency => some 0
  | .writeLatency => some 1
  | .drive => some 2
  | .termination => some 3
  | .vendor | .revision | .density | .other _ => none

/-- MODE_REGISTER_WRITE: latencies, drive and termination are applied; other writes are ignored (DESIGN CHOICE: notes/assumptions/61.md). -/
def execModeRegisterWrite (ch : BitVec 2) (r : ModeReg) (v : BitVec 8) (s : State) : Out :=
  .next <| match modePlace r with
    | some k => if hostServes s then modHost s fun h => { h with modes := tset h.modes (8 * ch.toNat + k) v } else s
    | none => s

/-! ### The completion ring (R483) -/

/-- COMPLETION_ENTRY_WRITE (R483, R486): the oldest entry is written once the ring holds fewer than 128, and CQ_TAIL advances. -/
def execCompletionEntryWrite (s : State) : Out :=
  .next <| match s.host.cq with
    | [] => s
    | e :: rest =>
      let h := s.host
      if 128 ≤ (h.cqTail - h.cqHead).toNat then s
      else
        let s := winBytes s (0x4001000 + 32 * (h.cqTail.toNat % 128)) ([e.1, e.2.1, e.2.2.1, e.2.2.2].flatMap fun w => toLE 8 w.toNat)
        modHost s fun h => { h with cq := rest, cqTail := h.cqTail + 1 }

end Sys2Proof.Machine
end

