-- ==== Sys2Proof/Machine/Episode.lean ====
section
/-! DEFINITION. The episode contexts: mailboxes, messages, examination, watchdogs and the life of a context (R457 to R468). -/

namespace Sys2Proof.Machine

/-- Episode context `n` (R450). -/
def getCtx (s : State) (n : Nat) : Ctx := tget Ctx.reset s.ctxs n

/-- The device with a context changed. -/
def modCtx (s : State) (n : Nat) (f : Ctx → Ctx) : State := { s with ctxs := tset s.ctxs n (f (getCtx s n)) }

/-- An episode core (R450). -/
def getEp (s : State) (i : Nat) : EpCore := tget EpCore.reset s.eps i

/-- The device with an episode core changed. -/
def modEp (s : State) (i : Nat) (f : EpCore → EpCore) : State := { s with eps := tset s.eps i (f (getEp s i)) }

/-- The die of a context (R450). -/
def ctxDie (n : Nat) : Nat := if n < 240 then 0 else 1

/-! ### Messages (R458) -/

/-- Clean bytes as marked ones. -/
def clean (bs : List Byte) : List PByte := bs.map fun b => ⟨b, false⟩

/-- H0 of a message. -/
def headerWord (step : BitVec 32) (gen : BitVec 16) (term : Nat) : Nat := step.toNat + gen.toNat * 2 ^ 32 + term * 2 ^ 48

/-- The first 8 bytes of a message. -/
def msgHead (m : List PByte) : Nat := ofLE ((m.take 8).map (·.b))

/-- STEP of a message. -/
def msgStep (m : List PByte) : BitVec 32 := BitVec.ofNat 32 (msgHead m)

/-- GEN of a message. -/
def msgGen (m : List PByte) : BitVec 16 := BitVec.ofNat 16 (msgHead m / 2 ^ 32)

/-- A terminal message with TERM of 2 to 6 (R458). -/
def terminalMsg (s : State) (step : BitVec 32) (gen : BitVec 16) (term detail : Nat) : List PByte :=
  clean (toLE 8 (headerWord step gen term) ++ toLE 8 detail ++ toLE 8 (now s) ++ List.replicate 232 0)

/-- Messages in the action mailbox, the current action included (R459). -/
def actCount (c : Ctx) : Nat := c.actBox.length + (if c.hasCur then 1 else 0)

/-- A message appended to the observation mailbox, or a checker's to its reward mailbox (R461). -/
def postOut (c : Ctx) (rew : Bool) (m : List PByte) : Ctx :=
  if rew then { c with rewBox := c.rewBox ++ [m] } else { c with obsBox := c.obsBox ++ [m] }

/-- The action mailbox emptied. -/
def emptyActions (c : Ctx) : Ctx := { c with actBox := [], hasCur := false }

/-- ENDED is entered (R457): the scrub begins. -/
def enterEnded (c : Ctx) (term : Nat) : Ctx :=
  { c with st := .ended, scrb := true, wait := .none, resv := none, term := BitVec.ofNat 3 term }

/-- The report of a context that leaves SUSPENDED stands no longer (R466). -/
def dropReports (s : State) (n : Nat) : State :=
  { s with dies := s.dies.map fun d => { d with reports := d.reports.filter fun r => r.1 != n } }

/-- The episode ends with a terminal message of the cluster or of firmware (R458, R463, R465, R466). -/
def endEpisode (s : State) (n : Nat) (step : BitVec 32) (gen : BitVec 16) (term detail : Nat) : State :=
  modCtx (dropReports s n) n fun c => enterEnded (emptyActions (postOut c c.checker (terminalMsg s step gen term detail))) term

/-- STEP of the last delivered action, or 0 (R458). -/
def lastStep (c : Ctx) : BitVec 32 := if c.delivered then c.lstep else 0

/-- UNBOUND is entered: all three mailboxes are empty (R465). -/
def unbindCtx (s : State) (n : Nat) : State :=
  modCtx s n fun c => { emptyActions c with st := .unbound, obsBox := [], rewBox := [], unbind := false, lid := 0, wait := .none }

/-- What the end or kill of its launch does to a context (R465). -/
def ctxLaunchEnds (s : State) (n : Nat) : State :=
  let c := getCtx s n
  match c.st with
  | .unbound => s
  | .bound => unbindCtx s n
  | .live | .suspended => modCtx (endEpisode s n (lastStep c) c.g0 6 0) n fun c => { c with unbind := true }
  | .ended => if c.scrb then modCtx s n fun c => { c with unbind := true } else unbindCtx s n

/-- Every context bound to a launch meets its end (R433, R465). -/
def episodesEnd (s : State) (lid : BitVec 16) : State :=
  (s.ctxs.filter fun p => p.2.lid == lid && p.2.st != .unbound).foldl (fun s p => ctxLaunchEnds s p.1) s

/-! ### The order of events on one tick (R462) -/

/-- The places of events in the order of R462: ACT_TAKE and the doorbells, the tests of the timers, MBPUT and MBGET by the number of
their core, and examination. -/
def rankTake : Nat := 1000
/-- The tests of the timers. -/
def rankTimers : Nat := 2000
/-- A mailbox word of a core. -/
def rankMail (core : Nat) : Nat := 3000 + core
/-- Examination. -/
def rankExam : Nat := 4000

/-- Whether a step of R462 may still be taken for a context on this tick (DESIGN CHOICE: notes/assumptions/41.md). -/
def phaseOk (s : State) (n k : Nat) : Bool :=
  let p := (getCtx s n).phase
  p.1 != now s || decide (p.2 ≤ k)

/-- A step of R462 has been taken. -/
def takePhase (s : State) (n k : Nat) : State := modCtx s n fun c => { c with phase := (now s, k) }

/-- OUT changed, which resets the step timer (R463) (DESIGN CHOICE: notes/assumptions/40.md). -/
def setOut (c : Ctx) (v : Nat) : Ctx := if v == c.out then c else { c with out := v, stepTimer := 0 }

/-! ### Watchdogs (R463) -/

/-- Whether the step timer has expired. -/
def stepExpired (c : Ctx) : Bool := c.st == .live && c.out != 0 && decide (c.stepWd ≤ c.stepTimer)

/-- Whether the budget has expired. -/
def budgetExpired (c : Ctx) : Bool := c.st == .live && c.budgetMax != 0 && decide (c.budgetMax ≤ c.budget)

/-- The test of the step timer. -/
def testStep (s : State) (n : Nat) : State :=
  let c := getCtx s n
  if stepExpired c then endEpisode (takePhase s n rankTimers) n (lastStep c) c.g0 2 c.stepTimer else s

/-- The test of the budget. -/
def testBudget (s : State) (n : Nat) : State :=
  let c := getCtx s n
  if budgetExpired c then endEpisode (takePhase s n rankTimers) n (lastStep c) c.g0 3 c.budget else s

/-- Both tests: step 2 of R462, which stands before the mailbox words and the examination of the same tick. -/
def testTimers (s : State) (n : Nat) : State := if phaseOk s n rankTimers then testBudget (testStep s n) n else s


/-! ### Examination of actions (R459) -/

/-- The first message that has not been examined. -/
def unexamined (c : Ctx) : Option Nat := (List.range c.actBox.length).find? fun i => !((c.actBox[i]?.map (·.delivered)).getD true)

/-- DROP counts a discarded action, saturating at 255 (R468). -/
def dropMsg (c : Ctx) (i : Nat) : Ctx :=
  { c with actBox := c.actBox.eraseIdx i, drop := if c.drop == 255 then c.drop else c.drop + 1 }

/-- One message is examined. -/
def examineOne (s : State) (n i : Nat) : State :=
  let c := getCtx s n
  match c.actBox[i]? with
  | none => s
  | some m =>
    let step := msgStep m.bytes
    let gen := msgGen m.bytes
    if c.checker || (c.delivered && decide (step.toNat ≤ c.lstep.toNat)) then modCtx s n fun c => dropMsg c i
    else if (gen - c.g0).toNat > c.lag.toNat && !c.follow then endEpisode s n step gen 4 c.g0.toNat
    else modCtx s n fun c =>
      setOut { c with g0 := if (gen - c.g0).toNat > c.lag.toNat then gen else c.g0, lstep := step, delivered := true,
                      actBox := c.actBox.set i { m with delivered := true } } (c.out + 1)

/-- The oldest unexamined message of a LIVE context is examined: step 4 of R462. -/
def examineNext (s : State) (n : Nat) : State :=
  let s := testTimers s n
  let c := getCtx s n
  if c.st != .live then s
  else match unexamined c with
    | some i => examineOne (takePhase s n rankExam) n i
    | none => s

end Sys2Proof.Machine
end

