-- ==== Sys2Proof/Machine/Fetch.lean ====
section
/-! DEFINITION. Fetching a word (R120, R388, R419) and whether an engine may try to issue on a tick. -/

namespace Sys2Proof.Machine

/-- What a fetch gives. -/
inductive Fetched where
  /-- The word, in the low bits. -/
  | word (w : BitVec 192) (s : State)
  /-- No word lies there: the illegal-instruction trap (R120, R388). -/
  | outside
  /-- The fetch waits, or its fault has been raised. -/
  | wait (s : State)
  deriving Repr

/-- Whether an address is a word of the engine's code (R120, R388). Handler code is bounded by nothing but its words'
alignment from a 64-byte boundary (R210, R440) (DEDUCED: notes/assumptions/16.md). -/
def pcLegal (s : State) (l : Nat) (e : Eng) (pc : Word) : Bool :=
  if (cx s l).handlerMode then
    match e with
    | .c3 => ((pc.toNat : Int) - ((cx s l).han.hpc.toNat : Int)) % 24 == 0
    | _ => pc.toNat % 4 == 0
  else
    let c := codeOf s l e
    decide (c.base.toNat ≤ pc.toNat) && decide (pc.toNat < c.base.toNat + c.len) &&
      (pc.toNat - c.base.toNat) % e.wordBytes == 0

/-- The word at an engine's program counter, translated through the AP TLB under the current ASID (R419); another device is asked for
what it holds (R478).
(DESIGN CHOICE: notes/assumptions/76.md). -/
def fetch (s : State) (l : Nat) (e : Eng) : Fetched :=
  let pc := getPc s l e
  match (getEng s l e).cur with
  | some w => .word w s
  | none =>
    if !pcLegal s l e pc then .outside
    else if (getCore s l).apFlt != .clear && (getCore s l).fetchWait &&
        decide (((getCore s l).apFltVa - pc).toNat < e.wordBytes) then .wait s
    else
      let c := getCore s l
      let asid := c.x.asid
      let lid := runLid s l
      let fail (s : State) (f : FInfo) (va : Word) : Fetched :=
        if c.apFlt != .clear then .wait s
        else .wait (agentFault (modCore s l fun c => { c with apFlt := .unsent, apFltVa := va, fetchWait := true })
          f l .ap 0 .fetch asid lid va)
      match classify pc with
      | .virt va key =>
        match checkVa s none c.walkCache c.apTlb 64 asid lid va e.wordBytes key .fetch with
        | (.ok ps, t) =>
          let s := modCore s l fun c => { c with apTlb := t }
          let take (s : State) (bs : List PByte) : Fetched :=
            if bs.any (·.psn) then fail s ⟨0x17, 0, granOf s ps, 0, 0⟩ pc
            else .word (BitVec.ofNat 192 (ofLE (bs.map (·.b)))) (hotParts s ps)
          if ps.all fun p => homeOf (dieOf l) p != .remote then take (touchParts s ps) (readParts s ps).1
          else match readAway s l .c0 0 key 0xF ps with
            | (s, none) => .wait s
            | (s, some r) => take (modFar s l .c0 0 fun _ => []) r.1
        | (.wait, t) => .wait (modCore s l fun c => { c with apTlb := t })
        | (.bad f va', t) =>
          fail (modCore s l fun c => { c with apTlb := t }) f (BitVec.ofNat 64 (va' + key * 2 ^ 60))
      | _ => fail s (FInfo.plain 0x15) pc

/-- Whether the AP of a core has ended its record (R245). -/
def apEnded (s : State) (l : Nat) : Bool :=
  match (cx s l).run with
  | some r => r.ended.isSome
  | none => true

/-- The position up to which a trap or a stop lets the members of a region go on (R157). -/
def haltPos (s : State) (l : Nat) : Nat :=
  let ms := regionMembers s l
  let far := ms.foldl (fun m k => max m (getEng s l k).pos) 0
  match (getCore s l).trap with
  | some r => if ms.contains r.eng then (getEng s l r.eng).pos else far
  | none => far

/-- Whether a raised trap or a stop holds an engine at its bundle boundary (R157, R435, R443): the word it has begun goes on,
and a member of a region goes on to the furthest position that a member has reached, or to that of a member whose word has
raised the trap. An engine of a lower code has its try on the tick of the trap (R436). -/
def heldAtBoundary (s : State) (l : Nat) (e : Eng) : Bool :=
  let c := getCore s l
  let rival : Bool := match c.trap with
    | some r => r.tick == now s && decide (engCode e < engCode r.eng)
    | none => c.stop == .none || (c.x.handlerMode && c.stop != .forced)
  if rival then false
  else
    let t := getEng s l e
    if t.rep != 0 then false
    else if e == .ap && (c.apWait.busy || !c.apFar.isEmpty) then false
    else !(!c.x.handlerMode && t.inRegion && decide (t.pos < haltPos s l))

/-- Whether an engine may try to issue now: the core runs, the engine has not tried on this tick, and nothing holds it.
HALT stops every engine of its core (R208) (DESIGN CHOICE: notes/assumptions/1.md; DESIGN CHOICE: notes/assumptions/85.md). -/
def canTry (s : State) (l : Nat) (e : Eng) : Bool :=
  let c := getCore s l
  let x := c.x
  !s.inReset && !s.frozen && !s.secHalt && decide (l < 192) && !isVacant s l && !c.halted &&
    !c.tried.contains e && dutyOk s && !dying s (runLid s l) && !heldAtBoundary s l e &&
    !(getEng s l e).holds &&
    (if x.handlerMode then
      match e with
      | .ap | .c0 => true
      | .c3 => x.han.c3pc.isSome && x.hmm
      | _ => false
     else x.run.isSome &&
      match e with
      | .ap => !apEnded s l
      | .c0 | .c1 | .c2 | .c3 => !(codeDone s l e && (getEng s l e).rep == 0)
      | _ => false)

/-! ### Beginning an attempt -/

/-- The state in which an engine tries the word at its head: it is the current issuer and has had its try of this tick. The word
is 0 until it has been fetched: an illegal-instruction trap at an address without code writes 0 to TWORD0–2
(DESIGN CHOICE: notes/assumptions/1.md; DESIGN CHOICE: notes/assumptions/86.md). -/
def beginTry (s : State) (l : Nat) (e : Eng) : State :=
  { modCore s l fun c => { c with tried := e :: c.tried } with current := ⟨l, e, 0⟩ }

/-- The state in which `exec` meets a fetched word. -/
def withWord (s : State) (w : BitVec 192) : State := { s with current := { s.current with word := w } }

/-- The instruction that a fetched word is (DESIGN CHOICE: notes/assumptions/76.md). -/
def decodeFetched (e : Eng) (w : BitVec 192) : Option Instr := decode e (toLE e.wordBytes w.toNat)

/-- An engine whose fetch waits holds nothing (R487). -/
def fetchPending (s : State) : State := note s s.current.core s.current.eng .empty []

/-- Words of the table that only C0 executes (R129). -/
def onlyC0 : Option Instr → Bool
  | some (.syncg ..) | some (.loopc ..) | some (.rotclr ..) | some (.ease ..) => true
  | _ => false

/-- Whether an instruction is an event of the part and not a word of an engine. -/
def isEvent (i : Instr) : Bool := (encode i).isNone

/-- Events that a frozen package still takes: a device reset and scan-out (R493) (DESIGN CHOICE: notes/assumptions/72.md). -/
def frozenTakes : Instr → Bool
  | .deviceReset | .fastScanRead _ | .bypass | .idcode | .samplePreload | .extest => true
  | _ => false

/-- Events that a device halted by a sensor still takes: no engine, episode core or service core acts (R499), but memory is
refreshed, links forward, the host port answers, and the pins serve. -/
def haltTakes (i : Instr) : Bool :=
  frozenTakes i || (match i with
    | .read .. | .write .. | .writeWithByteMask .. | .lqTailWrite _ | .cqHeadWrite _ | .sqTailWrite _ | .srHeadWrite _
    | .bootLenWrite _ | .registerWrite .. | .modeRegisterRead .. | .modeRegisterWrite .. | .activate _ | .precharge _
    | .refresh _ | .selfRefresh _ | .powerDownEntry _ | .powerDownExit _ | .trainingSequence _ | .sensorTrip _ | .freeze
    | .freezeAtTick | .refreshWindowStart | .refreshWindowEnd | .flitReceive .. | .flitRetransmit .. => true
    | _ => false)

/-- Whether an event of the schedule may happen now: nothing but reset and scan-out in a frozen package, nothing that a core
does in a halted one, and nothing but the end of reset and the pins while reset is held (DESIGN CHOICE: notes/assumptions/2.md). -/
def eventOk (s : State) (i : Instr) : Bool :=
  isEvent i && (!s.frozen || frozenTakes i) && (!s.secHalt || haltTakes i) &&
    (!s.inReset || (match i with
      | .resetRelease | .deviceReset => true
      | i => frozenTakes i))

/-! ### Placing a word for the next step (DESIGN CHOICE: notes/assumptions/4.md) -/

/-- Where a placed word lies: virtual and physical address. -/
def placeAt : Nat := 0x400000

/-- The leaf of the page that holds it: valid, readable, writable, executable, identity. -/
def placePte : BitVec 128 := BitVec.ofNat 128 (0x1F + placeAt * 2 ^ 64)

/-- The engine that a placed word runs on (DESIGN CHOICE: notes/assumptions/4.md). -/
def placeEng (nbits w : Nat) : Eng :=
  if onlyC0 (decodeTableWord nbits w) then .c0 else tableEngine nbits

/-- The device with a word placed at the head of an engine of core 0, and that engine's turn next. -/
def placeWord (s : State) (nbits w : Nat) : State :=
  let e := placeEng nbits w
  let s := putBytes s placeAt (toLE e.wordBytes w)
  let s := { s with inReset := false, frozen := false, secHalt := false, pwrDuty := 64, killPend := [],
                    vacant := s.vacant.filter (· != 0), granPsn := s.granPsn.filter fun g => g != placeAt,
                    eccBad := s.eccBad.filter fun g => g != placeAt, refresh := none,
                    tick := if s.tick = 0 then 1 else s.tick,
                    tape := .issue 0 e :: s.tape }
  modCore s 0 fun c =>
    { c with
      tried := [], trap := none, stop := .none, halted := false, apFlt := .clear,
      apTlb := [⟨c.x.asid, placeAt / 0x8000, 0, placePte, 0⟩],
      x := { c.x with
        handlerMode := false,
        engs := vset c.x.engs (engIdx e) { EngSt.reset with pc := BitVec.ofNat 64 placeAt },
        run := some { img := Rec.zero, lid := 0,
                      code := vset (Vector.replicate 5 ⟨0, 0⟩) (engIdx e) ⟨BitVec.ofNat 64 placeAt, 0x1800⟩,
                      eprio := 0, ended := none, epIssued := false, inTake := false, retired := false } } }

end Sys2Proof.Machine
end

