-- ==== Sys2Proof/Machine/Barriers.lean ====
section
/-! DEFINITION. Barrier objects and their homes, the AP's barrier words, and the arrivals of C3 (R255 to R261, R341 to R343). -/

namespace Sys2Proof.Machine

/-! ### The object (R255) -/

/-- The physical address of barrier object `n` of a home core. -/
def barAddr (s : State) (home n : Nat) : Nat := spBase home + (cx s home).rgnend * 4096 + 64 * n

/-- A 32-bit word of an object: 0 PHASE, 1 EXPECT, 2 ARRC, 3 ARRN, 4 to 7 STAT. -/
def barGet (s : State) (home n i : Nat) : BitVec 32 := BitVec.ofNat 32 (readNat s (barAddr s home n + 4 * i) 4)

/-- A word of an object written. -/
def barSet (s : State) (home n i : Nat) (v : BitVec 32) : State := writeNat s (barAddr s home n + 4 * i) 4 v.toNat

/-- What BARWAIT reads of phase `p` (R259). -/
inductive PhaseView where
  | open
  /-- More than one phase ahead: the barrier-phase trap. -/
  | ahead
  | ended (v : Word)
  deriving DecidableEq, Repr

/-- The state of phase `p` at its home. -/
def phaseView (s : State) (home n : Nat) (p : BitVec 32) : PhaseView :=
  let ph := barGet s home n 0
  let de := (ph - p).toNat
  if de = 0 ∨ 2 ^ 31 ≤ de then (if 1 < (p - ph).toNat then .ahead else .open)
  else if 3 ≤ de then .ended (BitVec.ofNat 64 (2 ^ 32))
  else .ended ((barGet s home n (4 + p.toNat % 4)).zeroExtend 64)

/-- A waiter hears its answer: the AP's BARWAIT, or C3's MWAIT. -/
def tellWaiter (s : State) (w : Waiter) (a : ApWait) : State :=
  modCore s w.core fun c => if w.c3 then { c with c3Wait := a } else { c with apWait := a }

/-- A waiter reads its phase: it completes when the phase has ended. -/
def lookWaiter (s : State) (home : Nat) (w : Waiter) : State :=
  let drop (s : State) : State := modCore s home fun c => { c with waiters := c.waiters.filter (· != w) }
  match phaseView s home w.obj w.phase with
  | .open => s
  | .ahead => tellWaiter (drop s) w (.refused true)
  | .ended v => tellWaiter (drop s) w (.got v)

/-- The registered waiters of an object read on the tick of a flip (R259, R261) (DESIGN CHOICE: notes/assumptions/39.md). -/
def notifyBar (s : State) (home n : Nat) : State :=
  ((getCore s home).waiters.filter fun w => w.obj == n && w.registered).foldl (fun s w => lookWaiter s home w) s

/-- The flips that arrivals have brought about (R258): the state, and whether there was one. -/
def flips (home n : Nat) : Nat → State → State × Bool
  | 0, s => (s, false)
  | f + 1, s =>
    if barGet s home n 2 != barGet s home n 1 then (s, false)
    else
      let ph := barGet s home n 0
      let stat := barGet s home n (4 + ph.toNat % 4)
      let s := barSet s home n (4 + (ph + 2).toNat % 4) 0
      let s := barSet s home n 0 (ph + 1)
      let s := barSet (barSet s home n 2 (barGet s home n 3)) home n 3 0
      let s := trace s 6 home n ((ph + 1).zeroExtend 64) (stat.zeroExtend 64)
      (notifyBar (flips home n f s).1 home n, true)

/-- An arrival at phase `p` with status bits (R258): none for a phase it may not name, else the state and whether it flipped. -/
def arrive (s : State) (home n : Nat) (p st : BitVec 32) : Option (State × Bool) :=
  let dp := (p - barGet s home n 0).toNat
  let i := 4 + p.toNat % 4
  let go (k : Nat) : Option (State × Bool) :=
    let s := barSet s home n i (barGet s home n i ||| st)
    let s := barSet s home n k (barGet s home n k + 1)
    some (flips home n 4 s)
  if dp = 0 then go 2
  else if dp = 1 ∧ (barGet s home n 3).toNat < (barGet s home n 1).toNat then go 3
  else none

/-! ### The words (R256 to R260) -/

/-- The home and object that a barrier word names: none where R256 rejects it. -/
def barName (l : Nat) (v : Word) : Option (Nat × Nat) :=
  let remote := v.getLsbD 16
  let c := v.toNat / 2 ^ 8 % 256
  if v.toNat / 2 ^ 6 % 4 != 0 || v.toNat / 2 ^ 17 != 0 || (!remote && c != 0) || decide (192 ≤ c) then none
  else some (if remote then c else l, v.toNat % 64)

/-- The smallest scope that holds a core and a home (R225). -/
def barScope (l home : Nat) : Nat := if dieOf l == dieOf home then 2 else 3

/-- A waiter registered at a home: among the 64 that a flip notifies, or to repeat its read (R261).
(DESIGN CHOICE: notes/assumptions/39.md). -/
def register (s : State) (home core : Nat) (c3 : Bool) (n : Nat) (p : BitVec 32) : State :=
  modCore s home fun c =>
    let reg := decide ((c.waiters.filter (·.registered)).length < 64)
    { c with waiters := c.waiters ++ [⟨core, c3, n, p, reg, now s⟩] }

/-- An action reads its object, which ECC_STAT of the home counts (R498). -/
def barTouch (s : State) (home n : Nat) : State := spTouch s home ((cx s home).rgnend * 4096 + 64 * n) 64

/-- A barrier word performed at its home: the state, and what its issuer hears. A BARINIT is 0, a BARARR 1, a BARWAIT 2, a BARSTAT
3 and an MWAIT 4. -/
def barAct (s : State) (home n core fn : Nat) (b : Word) : State × ApWait :=
  let p := b.extractLsb' 0 32
  if !(cx s home).baren then (s, .refused false)
  else
  let s := if fn = 0 then s else barTouch s home n
  match fn with
  | 0 =>
    if p = 0 ∨ b.toNat / 2 ^ 32 ≠ 0 ∨ (getCore s home).waiters.any (fun w => w.obj == n && w.registered) then (s, .refused false)
    else (barSet (writeBytes s (barAddr s home n) (List.replicate 64 0)) home n 1 p, .got 0)
  | 1 => match arrive s home n p (b.extractLsb' 32 32) with
    | some (s, f) => (s, .got (if f then 1 else 0))
    | none => (s, .refused true)
  | 3 => (s, .got ((barGet s home n 2) ++ (barGet s home n 0)))
  | k =>
    if k = 2 ∧ b.toNat / 2 ^ 32 ≠ 0 then (s, .refused false)
    else match phaseView s home n p with
      | .ended v => (s, .got v)
      | .ahead => (s, .refused true)
      | .open => (register s home core (k == 4) n p, .barrier)

/-- The scratchpad bytes of an object. -/
def barBytes (s : State) (home n : Nat) : List (Nat × Nat) := [((cx s home).rgnend * 4096 + 64 * n, 64)]

/-- Whether a requester may still act at object `n` of a home on this tick: none behind it in the order of R261 has acted at the home,
nor in that of R62 at the object's bank. The home AP stands first, then C3 of the home, then core c in the place 3 + c. -/
def homeTurn (s : State) (home n place : Nat) : Bool :=
  decide ((getCore s home).tk.homeTurn ≤ place) && bankTurn s home (barWho place) (barBytes s home n)

/-- A requester acts at object `n` of a home. -/
def takeTurn (s : State) (home n place : Nat) : State :=
  modCore (useBanks s home (barWho place) (barBytes s home n)) home fun c =>
    { c with tk := { c.tk with homeTurn := max c.tk.homeTurn place } }

/-- A requester that may not act yet waits for the bank of the object, where that is what holds it (R62). -/
def homeHold (s : State) (home n place : Nat) : State :=
  if bankTurn s home (barWho place) (barBytes s home n) then s else bankHold s home (barWho place) (barBytes s home n)

/-- A barrier word of the AP: it waits for its scope, acts at the home in its turn, and waits for the home's answer. -/
def barWord (fn : Nat) (k : Guard) (d a b : Reg) (s : State) : Out :=
  apWord k [d, a, b] true (fun s l =>
    let wait (m : ApWait) (s : State) : State := modCore s l fun c => { c with apWait := m }
    let n := (rreg s l .ap a).toNat % 64
    match (getCore s l).apWait with
    | .got v => retire (wait .none (if fn = 0 then s else wreg s l .ap d v)) l .ap
    | .refused phase => let s := wait .none s; if phase then barrierTrap s else streamTrap s
    | .remote | .barrier => waitOn s l .ap [96 + n]
    | _ =>
      match barName l (rreg s l .ap a) with
      | none => streamTrap s
      | some (home, n) =>
        if isVacant s home then apFault s l ⟨0x19, 0, spBase home, 0, 0⟩ .amo (rreg s l .ap a)
        else if (fn = 0 || fn = 1) && !apPerformed s l (barScope l home) then waitOn s l .ap [208]
        else if fn = 2 && !(loadsDone s l && acqDone s l) then waitOn s l .ap [208]
        else
          let v := rreg s l .ap b
          if home != l then
            waitOn (wait .remote { s with barMsgs := s.barMsgs ++ [.request fn l home n v (runLid s l) false] }) l .ap [96 + n]
          else if !homeTurn s l n 1 then waitOn (homeHold s l n 1) l .ap [96 + n]
          else match barAct (takeTurn s l n 1) home n l fn v with
            | (s, .got v) => retire (if fn = 0 then s else wreg s l .ap d v) l .ap
            | (s, .refused phase) => if phase then barrierTrap s else streamTrap s
            | (s, m) => waitOn (wait m s) l .ap [96 + n]) s

/-- BARINIT (R257). -/
def execBarinit (k : Guard) (a b : Reg) (s : State) : Out := barWord 0 k 0 a b s
/-- BARARR (R258). -/
def execBararr (k : Guard) (d a b : Reg) (s : State) : Out := barWord 1 k d a b s
/-- BARWAIT (R259). -/
def execBarwait (k : Guard) (d a b : Reg) (s : State) : Out := barWord 2 k d a b s
/-- BARSTAT (R260). -/
def execBarstat (k : Guard) (d a : Reg) (s : State) : Out := barWord 3 k d a 0 s

/-! ### Requests, arrivals and replies on their way (R261, R342, R343) -/

/-- The address space of a launch. -/
def asidOf (s : State) (lid : BitVec 16) : BitVec 12 := match getLaunch s lid with
  | some la => la.asid
  | none => 0

/-- An unresolvable fault that C3 meets at a barrier, of the launch whose word arrived (R343); it is recorded for the core's AP
agent, for C3 is none (DESIGN CHOICE: notes/assumptions/30.md). -/
def c3Fault (s : State) (l : Nat) (lid : BitVec 16) (code pa : Nat) : State :=
  agentFault s ⟨code, 0, pa, 0, 0⟩ l .ap 0 .amo (asidOf s lid) lid 0

/-- An arrival of C3 performed at its home: a refusal sets out on its way back (R343). -/
def arriveC3 (s : State) (core : Nat) (lid : BitVec 16) (home n : Nat) (pc : Word) (word : BitVec 192) (p st : BitVec 32) : State :=
  if 192 ≤ home then c3Fault s core lid 0x1D 0
  else if isVacant s home then c3Fault s core lid 0x19 (spBase home)
  else if !(cx s home).baren then c3Fault s core lid 0x1D 0
  else match arrive (barTouch (takeTurn s home n (if core = home then 2 else 3 + core)) home n) home n p st with
    | some (s, _) => s
    | none => { s with barMsgs := s.barMsgs ++ [.refusal core lid pc word] }

/-- The home that barrier `n` of C3 names (R341). -/
def c3Home (s : State) (l n : Nat) : Nat :=
  let m := tget 0 (cx s l).mbph n
  if m.getLsbD 40 then (m.extractLsb' 32 8).toNat else l

/-- Whether an arrival of C3 at barrier `n` must wait for the next tick: its home is its own core, where a requester behind it has
acted on this tick (R261, R342). -/
def arrivalHeld (s : State) (l n : Nat) : Bool := c3Home s l n == l && !homeTurn s l n 2

/-- A C3 word arrives at barrier `n` as it retires (R342): APH moves on, and the arrival is performed here or sets out. -/
def c3Arrive (s : State) (l n : Nat) (pc : Word) (word : BitVec 192) (st : BitVec 32) : State :=
  let m := tget 0 (cx s l).mbph n
  let p := m.extractLsb' 0 32
  let s := modX s l fun x => { x with mbph := tset x.mbph n (m.extractLsb' 32 9 ++ (p + 1)) }
  let home := c3Home s l n
  let lid := runLid s l
  if home == l then arriveC3 s l lid l n pc word p st
  else { s with barMsgs := s.barMsgs ++ [.arrive l lid home n pc word p st (now s)] }

/-- Whether an earlier message of the same core, other than a reply, is still on its way: arrivals keep their order (R342). -/
def msgBehind (s : State) (i : Nat) (m : BarMsg) : Bool :=
  (s.barMsgs.take i).any fun o => o.owner == m.owner && (match o with
    | .refusal .. => false
    | _ => true)

/-- Whether a message goes to a home, and may act there on this tick (R261): an arrival on a later tick than it departed (R342). -/
def msgTurn (s : State) : BarMsg → Bool
  | .arrive core _ home n _ _ _ _ tick => decide (tick < now s) && homeTurn s home n (3 + core)
  | .request _ core home n _ _ _ => homeTurn s home n (3 + core)
  | .refusal .. => false

/-- A message that may not act yet waits for the bank of its object (R62). -/
def msgHold (s : State) : BarMsg → State
  | .arrive core _ home n _ _ _ _ tick => if tick < now s then homeHold s home n (3 + core) else s
  | .request _ core home n _ _ _ => homeHold s home n (3 + core)
  | .refusal .. => s

/-- BARRIER_REQUEST_AT_HOME (R261, R342): a request or arrival reaches its home and is performed in its turn; no one hears the answer
to one whose launch has been killed (R374)
(DESIGN CHOICE: notes/assumptions/32.md). -/
def execBarrierRequestAtHome (i : Nat) (s : State) : Out :=
  .next <| match s.barMsgs[i]? with
    | none => s
    | some m =>
      if msgBehind s i m then s
      else if !msgTurn s m then msgHold s m
      else
        let t := { s with barMsgs := s.barMsgs.eraseIdx i }
        match m with
        | .arrive core lid home n pc word p st _ => arriveC3 t core lid home n pc word p st
        | .request fn core home n b _ dead =>
          let c3 := fn == 4
          if dead then (if isVacant t home then t else (barAct (takeTurn t home n (3 + core)) home n core fn b).1)
          else if isVacant t home then
            (if c3 then c3Fault t core (runLid t core) 0x19 (spBase home)
             else apFault (modCore t core fun c => { c with apWait := .none }) core ⟨0x19, 0, spBase home, 0, 0⟩ .amo 0)
          else
            let r := barAct (takeTurn t home n (3 + core)) home n core fn b
            modCore r.1 core fun c => if c3 then { c with c3Wait := r.2 } else { c with apWait := r.2 }
        | .refusal .. => s

/-- The next message to act at a home: of those that may, the one of the lowest core (R261). -/
def nextMsg (s : State) : Option Nat :=
  ((s.barMsgs.zipIdx.filter fun m => !msgBehind s m.2 m.1 && msgTurn s m.1).foldl (fun (b : Option (BarMsg × Nat)) m =>
    match b with
    | none => some m
    | some k => if m.1.owner < k.1.owner then some m else some k) none).map (·.2)

/-- BARRIER_PHASE_REPLY (R343): a refusal returns to C3's core and raises the barrier-phase trap, unless a handler runs or the core
runs no record of the launch whose word arrived (DESIGN CHOICE: notes/assumptions/30.md; DESIGN CHOICE: notes/assumptions/32.md). -/
def execBarrierPhaseReply (i : Nat) (s : State) : Out :=
  .next <| match s.barMsgs[i]? with
    | some (.refusal core lid pc word) =>
      let t := { s with barMsgs := s.barMsgs.eraseIdx i }
      if (cx t core).handlerMode || !runsLid lid (getCore t core) then t
      else takeTrap t core ⟨0x04, .c3, 0, pc, word, getPc t core .c3, 0⟩
    | _ => s

/-- The place in the order of R261 of a waiter's read. -/
def waiterPlace (home : Nat) (w : Waiter) : Nat := if w.core = home then (if w.c3 then 2 else 1) else 3 + w.core

/-- BARWAIT_REPOLL (R261): a waiter beyond the 64th repeats its read in its turn, every 64 ticks; a home that has become vacant is fault
0x19 (R17). -/
def execBarwaitRepoll (l : CoreNum) (c3 : Bool) (s : State) : Out :=
  let find (c : Core) : Option Waiter := c.waiters.find? fun w => w.core == l.toNat && w.c3 == c3 && !w.registered
  .next <| match s.cores.findSome? fun c => (find c.2).map fun w => (c.1, w) with
    | none => s
    | some (home, w) =>
      if now s = w.since ∨ (now s - w.since) % 64 ≠ 0 then s
      else if isVacant s home then
        let s := modCore s home fun c => { c with waiters := c.waiters.filter (· != w) }
        if c3 then c3Fault s w.core (runLid s w.core) 0x19 (spBase home)
        else apFault (tellWaiter s w .none) w.core ⟨0x19, 0, spBase home, 0, 0⟩ .amo 0
      else if !homeTurn s home w.obj (waiterPlace home w) then homeHold s home w.obj (waiterPlace home w)
      else lookWaiter (barTouch (takeTurn s home w.obj (waiterPlace home w)) home w.obj) home w

end Sys2Proof.Machine
end

