-- ==== Sys2Proof/Machine/Vector.lean ====
section
/-! DEFINITION. The issue of a wide word (R141, R142, R152 to R156) and of the repeats of a vector word (R143, R158 to R161,
R267 to R275), and the vector branches (R310 to R313). One execution of a vector word is one repeat. -/

namespace Sys2Proof.Machine

/-! ### Tokens and lockstep of a wide word -/

/-- The sources of a token field that are not 0. -/
def tokSrcs (t : Tok) : List Nat := ([t.s1, t.s2, t.s3].map BitVec.toNat).filter (· != 0)

/-- A subfield that names the issuing engine makes the word illegal (R141). -/
def tokSelf (e : Eng) (t : Tok) : Bool := (tokSrcs t).contains (engCode e) || t.dst.toNat == engCode e

/-- The FIFOs that a word's tokens wait for (R141, R142): its sources, and its destination. -/
def tokWaits (s : State) (l : Nat) (e : Eng) (t : Tok) : List Nat :=
  let c := engCode e
  let ss := tokSrcs t
  (ss.filter fun p => decide (tokCount s l p c < ss.count p)).eraseDups.map (fifoKey · c) ++
    (if t.dst != 0 && !tokFree s l c t.dst.toNat then [fifoKey c t.dst.toNat] else [])

/-- One token popped from each source, and an entry reserved at the destination (R141, R142). -/
def takeToks (s : State) (l : Nat) (e : Eng) (t : Tok) : State :=
  let c := engCode e
  let s := (tokSrcs t).foldl (fun s p => tokAdd s l p c (-1)) s
  if t.dst = 0 then s else tokReserve s l c t.dst.toNat 1

/-- Why a wide word does not issue now. -/
inductive Hold where
  /-- It waits on flags. -/
  | flags (fs : List Nat)
  /-- It waits only for its own engine. -/
  | busy
  /-- It waits until a tick on flags. -/
  | until (t : Nat) (fs : List Nat)
  /-- It waits for banks of the scratchpad. -/
  | banks (who : Nat) (rs : List (Nat × Nat))
  deriving DecidableEq, Repr

/-- The state of a word that holds. -/
def holdWide (s : State) (l : Nat) (e : Eng) : Hold → State
  | .flags fs => holdFor s l e fs
  | .busy => modEng (note s l e .busy []) l e fun t => { t with ready := false, granted := false }
  | .until t fs => modEng (holdFor s l e fs) l e fun g => { g with notBefore := t }
  | .banks who rs => holdFor (bankHold s l who rs) l e []

/-- A member that lockstep holds and whose banks then delay it is not ready, and those at its position hold with it (R161). -/
def holdDelayed (s : State) (l : Nat) (e : Eng) : State :=
  let s := modEng (note s l e .flag [210]) l e fun t => { t with ready := false, slow := true }
  modCore s l fun c => { c with tried := c.tried.filter (· != e) }

/-- A word that is no S-word of a member: a member in a region leaves it as the word issues (R152). -/
def apart (s : State) (l : Nat) (e : Eng) : State :=
  if (getEng s l e).inRegion then leaveRegion s l e else modEng s l e fun t => { t with atS := false }

/-- The first issue of a wide word whose S bit is `sb`, `n` positions long (R152, R154): an S-word of a member waits for a
rendezvous, then for its place, and then for the ticks that its banks take (R161); a word with S = 0 leaves the region.
(DESIGN CHOICE: notes/assumptions/38.md). -/
def wideGate (s : State) (l : Nat) (e : Eng) (sb : Bool) (n : Nat) (hold delay : Option Hold) (go : State → State) : State :=
  let user := !(cx s l).handlerMode
  let t := getEng s l e
  let sw := sb && inGroup s l e && user
  let s := if user && t.rejoin then modEng s l e fun t => { t with rejoin := false } else s
  if sw && !t.inRegion then waitOn (modEng s l e fun t => { t with atS := true }) l e [210]
  else
    match hold with
    | some h => holdWide s l e h
    | none =>
      match delay with
      | some h =>
        if sw && !couldIssueS s l e then holdDelayed s l e
        else modEng (holdWide s l e h) l e fun t => { t with slow := sw }
      | none =>
        if sw && !mayIssueS s l e then holdReady s l e
        else
          go (if sw then modEng (grantAll s l e) l e fun t => { t with pos := t.pos + n, ready := false, granted := false }
            else if user then apart s l e else s)

/-- Whether a word of a region at position m waits for C0: it reads e-registers, loop counters or rotated registers, which
every C0 word below m must have written (R156, R219, R221) (DESIGN CHOICE: notes/assumptions/38.md). -/
def c0Behind (s : State) (l : Nat) (e : Eng) (m : Nat) : Bool :=
  !(cx s l).handlerMode && (getEng s l e).inRegion && (stepping s l).contains .c0 && decide ((getEng s l .c0).pos < m)

/-- Loop close of a cluster (R159); the write of p8 stands above the writes of earlier repeats (R306). -/
def closeLoop (s : State) (l : Nat) (e : Eng) : State × Bool :=
  let r := loopClose s l e
  let c2 := e == .c2
  let rb := if c2 then (cx r.1 l).rb2 else (cx r.1 l).rb1
  let w : VWrite := .pred (pphys 8 rb) 0 (BitVec.allOnes 256)
  if e == .c1 || e == .c2 then
    (modCore r.1 l fun c => { c with vfl := c.vfl.map fun f =>
      if f.c2 == c2 then { f with writes := f.writes.map (supersede w) } else f }, r.2)
  else r

/-! ### Operands of a repeat (R134, R135, R158, R267, R270, R271) -/

/-- What the fields D, A and B of a word name, and whether it reads its destination. -/
structure VShape where
  /-- D is a destination register, vector or predicate. -/
  dst : Bool
  /-- D, A and B name predicates. -/
  dP : Bool
  srcP : Bool
  /-- D is a register that the word reads and never writes (VSCAT). -/
  dIdx : Bool
  /-- The word reads its destination apart from merging (R161). -/
  dRead : Bool
  /-- A and B are operands. -/
  useA : Bool
  useB : Bool
  deriving DecidableEq, Repr

/-- What a repeat reads on its issue tick. -/
structure VIn where
  a : VReg
  b : VReg
  /-- The destination register before the repeat, or VSCAT's index register. -/
  d : VReg
  pa : BitVec 256
  pb : BitVec 256
  pd : BitVec 256
  /-- The guard. -/
  g : BitVec 256
  deriving DecidableEq, Repr

/-- What a repeat does. -/
structure VRes where
  /-- The destination register and the bytes written. -/
  d : Option (VReg × BitVec 256)
  p : Option (BitVec 256)
  b : Option VReg
  other : List VWrite
  acf : Acf
  oob : Bool
  deriving DecidableEq, Repr

/-- A whole destination register. -/
def VRes.reg (v : VReg × Acf) : VRes := ⟨some (v.1, BitVec.allOnes 256), none, none, [], v.2, false⟩

/-- A value of a width in every element (R135). -/
def splat (wd x : Nat) : VReg := ⟨BitVec.ofNat 2048 (packElems wd (List.replicate (2048 / wd) x)), 0⟩

/-- IMM16 as an element (R135). -/
def immElem (ty : Fmt) (imm : BitVec 16) : Nat :=
  match ty with
  | .fp32 => imm.toNat * 65536
  | _ => (imm.signExtend 64).toNat % 2 ^ ty.width

/-- The logical index of a register operand at repeat r (R134, R158). -/
def opAt (o : VOp) (r : Nat) : Nat :=
  match o with
  | .reg i st => i.toNat + r * stepOf st
  | _ => 0

/-- Whether an operand is a register. -/
def opIsReg : VOp → Bool
  | .reg .. => true
  | _ => false

/-- The ring of a port operand. -/
def opRing : VOp → Option Nat
  | .port q => some q.toNat
  | _ => none

/-- The rotating base of a cluster. -/
def rbOf (s : State) (l : Nat) (c2 : Bool) : BitVec 5 := if c2 then (cx s l).rb2 else (cx s l).rb1

/-- The physical vector register of an operand at repeat r. -/
def vphysOf (s : State) (l : Nat) (c2 : Bool) (o : VOp) (r : Nat) : Nat := vphys (opAt o r) (rbOf s l c2)

/-- The physical predicate of an operand at repeat r. -/
def pphysOf (s : State) (l : Nat) (c2 : Bool) (o : VOp) (r : Nat) : Nat := pphys (opAt o r) (rbOf s l c2)

/-- Whether a repeat names a register that the rotating base moves (R158): B may also be a destination (R295). -/
def rotates (w : VWord) (sh : VShape) (r : Nat) : Bool :=
  let v (use : Bool) (o : VOp) (p : Bool) : Bool := use && opIsReg o && decide ((if p then 8 else 32) ≤ opAt o r)
  v (sh.dst || sh.dIdx) w.d sh.dP || v sh.useA w.a sh.srcP || v true w.b sh.srcP || decide (8 ≤ w.pg.toNat)

/-- The guard predicate (R137). -/
def guardOf (s : State) (l : Nat) (c2 : Bool) (w : VWord) : BitVec 256 := rp s l c2 (pphys w.pg.toNat (rbOf s l c2))

/-- Whether a ring delivers a unit now (R73). -/
def Ring.hasUnit (r : Ring) : Bool := r.conf && r.avail r.head

/-- A ring after it has delivered a unit: a bind-off slot is freed whole (R73, R271). -/
def Ring.afterUnit (r : Ring) : Ring := if r.isBoff r.head && r.cur == 0 then r.freeHead else r.stepCur

/-- One unit taken from a port; a bind-off slot sets BOF (R270, R271). -/
def takeUnit (s : State) (l : Nat) (c2 : Bool) (q : Nat) : State × VReg :=
  let r := getRing s l q
  let u := headUnit s l q
  let bo := r.isBoff r.head && r.cur == 0
  let s := spTouch s l (r.slotOff r.head + r.cur * 256) 256
  let s := modRing s l q Ring.afterUnit
  (if bo then vstatOr s l c2 0x20 else s, u)

/-- The value of a source operand at repeat r, and the state after its port has delivered it. -/
def readSrc (s : State) (l : Nat) (c2 : Bool) (w : VWord) (use : Bool) (o : VOp) (r : Nat) : State × VReg :=
  if !use then (s, VReg.zero)
  else match o with
    | .reg .. => (s, rv s l c2 (vphysOf s l c2 o r))
    | .port q => takeUnit s l c2 q.toNat
    | .bc e => (s, splat w.ty.width ((vget 0 (cx s l).eRegs e.toNat).toNat % 2 ^ w.ty.width))
    | .imm => (s, splat w.ty.width (immElem w.ty w.imm))

/-- Port operands of a word, A before B (R270). -/
def portsOf (w : VWord) (sh : VShape) : List Nat :=
  (if sh.useA then (opRing w.a).toList else []) ++ (if sh.useB then (opRing w.b).toList else [])

/-- The ports whose units a repeat still waits for (R73): A takes the first unit and B the next of a shared ring. -/
def portWaits (s : State) (l : Nat) (qs : List Nat) : List Nat :=
  match qs with
  | [a, b] =>
    let ra := getRing s l a
    let rb := if a == b then ra.afterUnit else getRing s l b
    (if ra.hasUnit then [] else [64 + a]) ++ (if rb.hasUnit then [] else [64 + b])
  | qs => (qs.filter fun q => !(getRing s l q).hasUnit).map (64 + ·)

/-- The scratchpad bytes of the units that port operands take: a second one of a ring lies behind the first (R73). -/
def portBytes (s : State) (l : Nat) (qs : List Nat) : List (Nat × Nat) :=
  let unit (r : Ring) : Nat × Nat := (r.slotOff r.head + r.cur * 256, 256)
  match qs with
  | [a, b] => [unit (getRing s l a), unit (if a == b then (getRing s l a).afterUnit else getRing s l b)]
  | qs => qs.map fun q => unit (getRing s l q)

/-- Whether a word's rings forbid it (R75): a port that reads from an unconfigured ring or one that a stream drains, a push
into an unconfigured ring or one that a stream fills. -/
def ringIllegal (s : State) (l : Nat) (reads writes : List Nat) : Bool :=
  (reads.any fun q => !(getRing s l q).conf || streamDrains s l q) ||
    writes.any fun q => !(getRing s l q).conf || streamFills s l q

/-- Whether a word merges into its destination under a guard (R137). -/
def mergesOld (w : VWord) : Bool := !w.zm && w.pg != 0

/-- The distinct physical registers that a repeat reads (R161). -/
def vregsRead (s : State) (l : Nat) (c2 : Bool) (w : VWord) (sh : VShape) (r : Nat) : List Nat :=
  let p (o : VOp) : Nat := vphysOf s l c2 o r
  ((if sh.useA && opIsReg w.a && !sh.srcP then [p w.a] else []) ++ (if sh.useB && opIsReg w.b && !sh.srcP then [p w.b] else []) ++
    (if sh.dIdx || (sh.dst && !sh.dP && (sh.dRead || mergesOld w)) then [p w.d] else [])).eraseDups

/-- The register banks that need three reads (R161), as flags of R488. -/
def bankFlags (c2 : Bool) (regs : List Nat) : List Nat :=
  ((List.range 4).filter fun b => decide (3 ≤ (regs.filter fun n => n % 4 == b).length)).map fun b =>
    (if c2 then 196 else 192) + b

/-! ### The issue of a repeat -/

/-- The writes that land for a result (R143, R145). -/
def resWrites (s : State) (l : Nat) (c2 : Bool) (w : VWord) (r : Nat) (o : VRes) : List VWrite :=
  (match o.d with
    | some (v, m) => [VWrite.vreg (vphysOf s l c2 w.d r) v m]
    | none => []) ++
  (match o.p with
    | some v => [VWrite.pred (pphysOf s l c2 w.d r) v (BitVec.allOnes 256)]
    | none => []) ++
  (match o.b with
    | some v => [VWrite.vreg (vphysOf s l c2 w.b r) v (BitVec.allOnes 256)]
    | none => []) ++ o.other

/-- One repeat issues: it reads, and its result is in flight; after the last repeat the loop closes and the next word follows
(R143, R159). -/
def issueRepeat (s : State) (l : Nat) (e : Eng) (w : VWord) (sh : VShape)
    (body : State → Nat → Nat → VIn → State × VRes) : State :=
  let c2 := e == .c2
  let r := (getEng s l e).rep
  let raw := s.current.word
  let m := effPos (modEng s l e fun t => { t with cur := some raw }) l e
  let g := guardOf s l c2 w
  let ra := readSrc s l c2 w (sh.useA && !sh.srcP) w.a r
  let rb := readSrc ra.1 l c2 w (sh.useB && !sh.srcP) w.b r
  let pr (use : Bool) (o : VOp) : BitVec 256 := if use then rp s l c2 (pphysOf s l c2 o r) else 0
  let vd := if (sh.dst && !sh.dP) || sh.dIdx then rv s l c2 (vphysOf s l c2 w.d r) else VReg.zero
  let i : VIn := ⟨ra.2, rb.2, vd, pr (sh.srcP && sh.useA) w.a, pr (sh.srcP && sh.useB) w.b, pr (sh.dst && sh.dP) w.d, g⟩
  let o := body rb.1 l r i
  let s := o.1
  let f : VFlight := ⟨c2, (getEng s l e).word, now s, now s + w.bound, resWrites s l c2 w r o.2, o.2.acf, o.2.oob, w.tok.dst,
    if (getEng s l e).inRegion then some m else none⟩
  let s := note (modCore s l fun c => { c with vfl := c.vfl ++ [f] }) l e .issue []
  if r == w.rep.toNat then
    let s := if w.lb then (closeLoop s l e).1 else s
    modEng s l e fun t => { t with rep := 0, word := 0, cur := none, notBefore := 0, pc := t.pc + wordLen e }
  else modEng s l e fun t => { t with rep := r + 1, cur := some raw, notBefore := 0 }

/-- A stall of `d` ticks before a repeat whose other conditions hold (R161, R300): none once it has passed. -/
def stallHold (s : State) (l : Nat) (e : Eng) (d : Nat) (fs : Nat → List Nat) : Option Hold :=
  let nb := (getEng s l e).notBefore
  if d == 0 then none
  else if nb == 0 then some (.until (now s + d) (fs 0))
  else if now s < nb then some (.until nb (fs (d - (nb - now s))))
  else none

/-- A repeat reaches its rings and its banks on this tick (R62, R76). -/
def reach (s : State) (l : Nat) (e : Eng) (qs : List Nat) (rs : List (Nat × Nat)) : State :=
  useBanks (serve s l e qs) l (vPlace (e == .c2)) rs

/-- A word of C1 or C2 that issues in repeats. `illegal` holds what R75 and its own rule check at issue, `wait` what a repeat
waits for beyond its ports, `bank` the further ticks its banks take with the flags of each, `asks` the scratchpad bytes it reaches
beyond its ports on the tick of its issue (R62, R300). -/
def vecWordAt (asks : State → Nat → Bool → Nat → List (Nat × Nat)) (w : VWord) (sh : VShape) (pushes : List Nat)
    (illegalAt : State → Nat → Bool → Bool)
    (wait : State → Nat → Eng → Nat → List Nat) (bank : State → Nat → Bool → Nat → Nat × (Nat → List Nat))
    (body : State → Nat → Nat → VIn → State × VRes) (s : State) : Out :=
  let l := s.current.core
  let e := s.current.eng
  let c2 := e == .c2
  .next <|
    if !(e == .c1 || e == .c2) || (cx s l).handlerMode || tokSelf e w.tok ||
        ((getEng s l e).rep == 0 && (ringIllegal s l (portsOf w sh) pushes || illegalAt s l c2)) then illegal s
    else
      let r := (getEng s l e).rep
      let rings := portsOf w sh ++ pushes
      let waits := portWaits s l (portsOf w sh) ++ wait s l e r ++ (rings.filter fun q => !ringTurn s l e q).map (64 + ·)
      let regs := bankFlags c2 (vregsRead s l c2 w sh r)
      let bk := bank s l c2 r
      let readsE := (sh.useA && !opIsReg w.a && (opRing w.a).isNone) || (sh.useB && !opIsReg w.b && (opRing w.b).isNone)
      let m := effPos s l e
      let behind := (w.lb || readsE || rotates w sh r) && c0Behind s l e m
      let delay := stallHold s l e ((if regs.isEmpty then 0 else 1) + bk.1) fun j =>
        if regs.isEmpty then bk.2 j else if j == 0 then regs else bk.2 (j - 1)
      let rs := portBytes s l (portsOf w sh) ++ asks s l c2 r
      let hold : Option Hold :=
        if !waits.isEmpty then some (.flags waits) else if behind then some (.flags [210])
        else if delay.isNone && !bankTurn s l (vPlace c2) rs then some (.banks (vPlace c2) rs) else none
      if r == 0 then
        let toks := tokWaits s l e w.tok
        wideGate s l e w.s (w.rep.toNat + 1) (if toks.isEmpty then hold else some (.flags toks)) delay fun s =>
          let p := freshId (markEp (takeToks (reach s l e rings rs) l e w.tok) l) l
          issueRepeat (modEng p.1 l e fun t => { t with word := p.2 }) l e w sh body
      else match hold.or delay with
        | some h => holdWide s l e h
        | none => issueRepeat (reach s l e rings rs) l e w sh body

/-- A word that reaches no scratchpad bytes beyond its ports as it issues. -/
def vecWord (w : VWord) (sh : VShape) (pushes : List Nat) (illegalAt : State → Nat → Bool → Bool)
    (wait : State → Nat → Eng → Nat → List Nat) (bank : State → Nat → Bool → Nat → Nat × (Nat → List Nat))
    (body : State → Nat → Nat → VIn → State × VRes) (s : State) : Out :=
  vecWordAt (fun _ _ _ _ => []) w sh pushes illegalAt wait bank body s

/-- No further illegality, wait or bank tick. -/
def noIllegal (_ : State) (_ : Nat) (_ : Bool) : Bool := false
/-- No further wait. -/
def noWaits (_ : State) (_ : Nat) (_ : Eng) (_ : Nat) : List Nat := []
/-- No further bank tick. -/
def noBank (_ : State) (_ : Nat) (_ : Bool) (_ : Nat) : Nat × (Nat → List Nat) := (0, fun _ => [])

/-- A word over registers and ports whose result depends on its operands alone. -/
def vecPure (w : VWord) (sh : VShape) (f : VIn → VRes) (s : State) : Out :=
  vecWord w sh [] noIllegal noWaits noBank (fun s _ _ i => (s, f i)) s

/-- D from A and B. -/
def shAB (dRead : Bool) : VShape := ⟨true, false, false, false, dRead, true, true⟩
/-- D from A. -/
def shA (dRead : Bool) : VShape := ⟨true, false, false, false, dRead, true, false⟩

/-! ### Branches (R310 to R313) -/

/-- A branch word of C1 or C2: the body answers the state and whether the branch is taken, from the loop close's cont. `rot` says
whether it names a register that the rotating base moves. The token it pushes follows the writes of earlier words of its cluster
to what other clusters read (R149). -/
def vecBranch (w : VWord) (rot : Bool) (wait : State → Nat → Eng → List Nat) (body : State → Nat → Eng → Bool → State × Bool)
    (s : State) : Out :=
  let l := s.current.core
  let e := s.current.eng
  .next <|
    if !(e == .c1 || e == .c2) || (cx s l).handlerMode || tokSelf e w.tok then illegal s
    else
      let ws := tokWaits s l e w.tok ++ wait s l e
      let hold : Option Hold :=
        if !ws.isEmpty then some (.flags ws)
        else if (w.lb || rot) && c0Behind s l e (effPos s l e) then some (.flags [210])
        else none
      wideGate s l e w.s 1 hold none fun s =>
        let s := markEp (takeToks s l e w.tok) l
        let o := body s l e (w.lb && (closeLoop s l e).2)
        let s := if w.lb then (closeLoop o.1 l e).1 else o.1
        let s := if w.tok.dst = 0 then s
          else tokPushRes (landShared s l (e == .c2) (getCore s l).vfl.length) l (engCode e) w.tok.dst.toNat
        let pc := (getEng s l e).pc
        modEng (note s l e .issue []) l e fun t => { t with pc := if o.2 then pc + 12 * sx w.imm else pc + 12 }

/-- The status register of a cluster (R273). -/
def vstat (s : State) (l : Nat) (e : Eng) : BitVec 7 := if e == .c2 then (cx s l).vstat2 else (cx s l).vstat1

/-- The status register of a cluster with BOF cleared. -/
def clearBof (s : State) (l : Nat) (e : Eng) : State :=
  modX s l fun x => if e == .c2 then { x with vstat2 := x.vstat2 &&& ~~~0x20#7 } else { x with vstat1 := x.vstat1 &&& ~~~0x20#7 }

/-- VJMP (R311). -/
def execVjmp (w : VWord) (s : State) : Out :=
  vecBranch w false (fun _ _ _ => []) (fun s l e cont =>
    match w.mod.toNat with
    | 0 => (s, true)
    | 1 => (s, cont)
    | _ => (clearBof s l e, (vstat s l e).getLsbD 5)) s

/-- VBRQ (R312). -/
def execVbrq (w : VWord) (s : State) : Out :=
  vecBranch w false (fun s l e => if (boqHead s l 1 (engCode e)).isNone then [boqFlag 1 (engCode e)] else [])
    (fun s l e _ => (boqPop s l 1 (engCode e), (boqHead s l 1 (engCode e)).getD false)) s

/-- The governing bits of a predicate for a type (R45). -/
def govern (ty : Fmt) (p : BitVec 256) : List Bool := (List.range ty.lanes).map fun i => p.getLsbD (i * ty.width / 8)

/-- The outcome of a VBRP (R313). -/
def vbrpOutcome (cond : Nat) (bs : List Bool) : Bool :=
  match cond % 4 with
  | 0 => bs.any id
  | 1 => bs.all id
  | 2 => !bs.any id
  | _ => !bs.all id

/-- VBRP (R313): the predicate is read before the word's loop close. -/
def execVbrp (w : VWord) (s : State) : Out :=
  vecBranch w (decide (8 ≤ opAt w.a 0))
    (fun s l e => if w.mod.getLsbD 2 && boqFull s l (engCode e) 1 then [boqFlag (engCode e) 1] else [])
    (fun s l e _ =>
      let p := rp s l (e == .c2) (pphysOf s l (e == .c2) w.a 0)
      let o := vbrpOutcome w.mod.toNat (govern w.ty p)
      let s := if w.mod.getLsbD 2 then boqPush s l (engCode e) 1 o else s
      (s, o && !w.mod.getLsbD 3)) s

end Sys2Proof.Machine
end

