-- ==== Sys2Proof/Machine/VectorOps.lean ====
section
/-! DEFINITION. The vector words over registers, ports and predicates (R276 to R296, R304, R305): what one repeat computes. -/

namespace Sys2Proof.Machine

/-! ### Elements of a register (R45, R268, R275) -/

/-- Element i of a width. -/
def el (wd : Nat) (v : VReg) (i : Nat) : Nat := (v.bits.extractLsb' (wd * i) wd).toNat

/-- Whether any byte of element i is poisoned. -/
def elPsn (wd : Nat) (v : VReg) (i : Nat) : Bool := v.psn.extractLsb' (i * wd / 8) (wd / 8) != 0

/-- A result element: its pattern, its flags and its poison. -/
structure El where
  v : Nat
  f : Acf
  psn : Bool
  deriving DecidableEq, Repr

/-- act(i) of R267 at a width. -/
def act (wd : Nat) (g : BitVec 256) (i : Nat) : Bool := g.getLsbD (i * wd / 8)

/-- A register from its elements: none keeps the old element (R268, R275). -/
def assemble (wd : Nat) (old : VReg) (f : Nat → Option El) : VReg × Acf :=
  let es := (List.range (2048 / wd)).map fun i => (i, f i)
  let bits := packElems wd (es.map fun p => match p.2 with | some e => e.v | none => el wd old p.1)
  let psn := packElems (wd / 8) (es.map fun p =>
    match p.2 with
    | some e => if e.psn then 2 ^ (wd / 8) - 1 else 0
    | none => (old.psn.extractLsb' (p.1 * wd / 8) (wd / 8)).toNat)
  let acf := es.foldl (fun a p => match p.2 with | some e => a ||| e.f ||| flagIf e.psn fPSN | none => a) 0
  (⟨BitVec.ofNat 2048 bits, BitVec.ofNat 256 psn⟩, acf)

/-- What the guard makes of a destination element (R137, R268). -/
def guarded (zm active : Bool) (e : El) : Option El := if active then some e else if zm then some ⟨0, 0, false⟩ else none

/-- A word that writes every active element (R268). -/
def lanes (w : VWord) (i : VIn) (f : Nat → El) : VRes :=
  let wd := w.ty.width
  .reg (assemble wd i.d fun k => guarded w.zm (act wd i.g k) (f k))

/-- A word that writes k results of a width to part PART (R269). -/
def parted (w : VWord) (wd k : Nat) (i : VIn) (f : Nat → El) : VRes :=
  let p := w.part * k
  .reg (assemble wd i.d fun n => if p ≤ n ∧ n < p + k then guarded w.zm (act wd i.g n) (f (n - p)) else none)

/-! ### Integer arithmetic (R276 to R278) -/

/-- vX of R267. -/
def vInt (t : Fmt) (x : Nat) : Int := intOf t x

/-- A two-source integer word that wraps or saturates (R277). -/
def intBin (w : VWord) (dRead sat : Bool) (f : Int → Int → Int → Int) (s : State) : Out :=
  let t := w.ty
  let wd := t.width
  vecPure w (shAB dRead) (fun i => lanes w i fun k =>
    let x := f (vInt t (el wd i.a k)) (vInt t (el wd i.b k)) (vInt t (el wd i.d k))
    let r := if sat then satPat x t else (wrapInt x wd, 0)
    ⟨r.1, r.2, elPsn wd i.a k || elPsn wd i.b k || (dRead && elPsn wd i.d k)⟩) s

/-- MOD[0] as SAT. -/
def satOf (w : VWord) : Bool := w.mod.getLsbD 0

/-- A two-source word on bit patterns. -/
def patBin (w : VWord) (f : Nat → Nat → Nat) (s : State) : Out :=
  let wd := w.ty.width
  vecPure w (shAB false) (fun i => lanes w i fun k =>
    ⟨f (el wd i.a k) (el wd i.b k) % 2 ^ wd, 0, elPsn wd i.a k || elPsn wd i.b k⟩) s

/-- A one-source integer word that wraps or saturates. -/
def intUn (w : VWord) (f : Int → Int) (s : State) : Out :=
  let t := w.ty
  let wd := t.width
  vecPure w (shA false) (fun i => lanes w i fun k =>
    let x := f (vInt t (el wd i.a k))
    let r := if satOf w then satPat x t else (wrapInt x wd, 0)
    ⟨r.1, r.2, elPsn wd i.a k⟩) s

/-- VADD (R276). -/
def execVadd (w : VWord) (s : State) : Out := intBin w false (satOf w) (fun a b _ => a + b) s
/-- VSUB. -/
def execVsub (w : VWord) (s : State) : Out := intBin w false (satOf w) (fun a b _ => a - b) s
/-- VMUL. -/
def execVmul (w : VWord) (s : State) : Out := intBin w false (satOf w) (fun a b _ => a * b) s
/-- VMULH: the floor of the product over 2^w. -/
def execVmulh (w : VWord) (s : State) : Out := intBin w false false (fun a b _ => a * b / ((2 ^ w.ty.width : Nat) : Int)) s
/-- VMAC. -/
def execVmac (w : VWord) (s : State) : Out := intBin w true (satOf w) (fun a b d => d + a * b) s
/-- VMIN. -/
def execVmin (w : VWord) (s : State) : Out := intBin w false false (fun a b _ => min a b) s
/-- VMAX. -/
def execVmax (w : VWord) (s : State) : Out := intBin w false false (fun a b _ => max a b) s
/-- VABS. -/
def execVabs (w : VWord) (s : State) : Out := intUn w (fun a => (a.natAbs : Int)) s
/-- VNEG. -/
def execVneg (w : VWord) (s : State) : Out := intUn w (fun a => -a) s
/-- VAND. -/
def execVand (w : VWord) (s : State) : Out := patBin w (· &&& ·) s
/-- VOR. -/
def execVor (w : VWord) (s : State) : Out := patBin w (· ||| ·) s
/-- VXOR. -/
def execVxor (w : VWord) (s : State) : Out := patBin w (· ^^^ ·) s

/-- VSHL: c(i) is the unsigned B modulo w. -/
def execVshl (w : VWord) (s : State) : Out :=
  let t := w.ty
  let wd := t.width
  vecPure w (shAB false) (fun i => lanes w i fun k =>
    let x := vInt t (el wd i.a k) * ((2 ^ (el wd i.b k % wd) : Nat) : Int)
    let r := if satOf w then satPat x t else (wrapInt x wd, 0)
    ⟨r.1, r.2, elPsn wd i.a k || elPsn wd i.b k⟩) s

/-- VSHR. -/
def execVshr (w : VWord) (s : State) : Out := patBin w (fun a b => a / 2 ^ (b % w.ty.width)) s
/-- VSRA: A is read signed for every type. -/
def execVsra (w : VWord) (s : State) : Out :=
  patBin w (fun a b => wrapInt (signedOf w.ty.width a / ((2 ^ (b % w.ty.width) : Nat) : Int)) w.ty.width) s

/-- The format that MOD[3:0] names. -/
def modFmt (w : VWord) : Fmt := (Fmt.ofCode (w.mod.setWidth 4)).getD .int8

/-- VQSHR (R278). -/
def execVqshr (w : VWord) (s : State) : Out :=
  let t := w.ty
  let wd := t.width
  let g := modFmt w
  vecPure w (shAB true) (fun i => parted w g.width t.lanes i fun k =>
    let r := qShr (signedOf wd (el wd i.a k)) (el wd i.b k % 64) g
    ⟨wrapInt r.1 g.width, r.2, elPsn wd i.a k || elPsn wd i.b k⟩) s

/-- VQMUL (R276, R60). -/
def execVqmul (w : VWord) (s : State) : Out :=
  vecPure w (shAB false) (fun i => lanes w i fun k =>
    let r := qMul (signedOf 32 (el 32 i.a k)) (signedOf 32 (el 32 i.b k))
    ⟨wrapInt r.1 32, r.2, elPsn 32 i.a k || elPsn 32 i.b k⟩) s

/-- VSAT (R277). -/
def execVsat (w : VWord) (s : State) : Out :=
  let t := w.ty
  let wd := t.width
  vecPure w (shA false) (fun i => lanes w i fun k =>
    let r := satInt (vInt t (el wd i.a k)) (modFmt w)
    ⟨wrapInt r.1 wd, r.2, elPsn wd i.a k⟩) s

/-! ### Floating-point arithmetic (R279, R280) -/

/-- MOD[1:0] as RM. -/
def rmOf (w : VWord) : RMode := rmodeOf w.mod.toNat

/-- A result rounded once; the flags of the operation stand beside those of the rounding (R279). -/
def fRound (t : Fmt) (rm : RMode) (x : FNum × Acf) (psn : Bool) : El :=
  let r := roundF x.1 (ffOf t) rm false
  ⟨r.1, x.2 ||| r.2, psn⟩

/-- A two-source floating-point word. -/
def fltBin (w : VWord) (dRead : Bool) (f : FNum → FNum → FNum → FNum × Acf) (s : State) : Out :=
  let t := w.ty
  let wd := t.width
  let dec (v : VReg) (k : Nat) : FNum := decodeF (ffOf t) (el wd v k)
  vecPure w (shAB dRead) (fun i => lanes w i fun k =>
    fRound t (rmOf w) (f (dec i.a k) (dec i.b k) (dec i.d k))
      (elPsn wd i.a k || elPsn wd i.b k || (dRead && elPsn wd i.d k))) s

/-- A one-source floating-point word. -/
def fltUn (w : VWord) (f : FNum → FNum × Acf) (s : State) : Out :=
  let t := w.ty
  let wd := t.width
  vecPure w (shA false) (fun i => lanes w i fun k =>
    fRound t (rmOf w) (f (decodeF (ffOf t) (el wd i.a k))) (elPsn wd i.a k)) s

/-- VFADD (R279). -/
def execVfadd (w : VWord) (s : State) : Out := fltBin w false (fun a b _ => a.add b) s
/-- VFSUB. -/
def execVfsub (w : VWord) (s : State) : Out := fltBin w false (fun a b _ => a.add b.neg) s
/-- VFMUL. -/
def execVfmul (w : VWord) (s : State) : Out := fltBin w false (fun a b _ => a.mul b) s
/-- VFMA. -/
def execVfma (w : VWord) (s : State) : Out := fltBin w true (fun a b d => a.fma b d) s
/-- VFMS. -/
def execVfms (w : VWord) (s : State) : Out := fltBin w true (fun a b d => a.fma b d.neg) s

/-- VFMIN and VFMAX on patterns (R280): of −0 and +0 the minimum is −0 and the maximum +0 (DESIGN CHOICE: notes/assumptions/36.md). -/
def fMinMax (t : Fmt) (isMax : Bool) (a b : Nat) : Nat :=
  let ft := ffOf t
  let x := decodeF ft a
  let y := decodeF ft b
  if x.isNan then (if y.isNan then ft.canonNaN else b)
  else if y.isNan then a
  else
    let c := FNum.cmp x y
    if c == 0 then (if x.sign == isMax then b else a) else if (c < 0) == isMax then b else a

/-- A minimum or maximum word. -/
def fltMinMax (w : VWord) (isMax : Bool) (s : State) : Out :=
  let wd := w.ty.width
  vecPure w (shAB false) (fun i => lanes w i fun k =>
    ⟨fMinMax w.ty isMax (el wd i.a k) (el wd i.b k), 0, elPsn wd i.a k || elPsn wd i.b k⟩) s

/-- VFMIN (R280). -/
def execVfmin (w : VWord) (s : State) : Out := fltMinMax w false s
/-- VFMAX. -/
def execVfmax (w : VWord) (s : State) : Out := fltMinMax w true s

/-- 1 / x (R280): of a zero an infinity, with no flag. -/
def recip (x : FNum) : FNum × Acf := FNum.div (.fin false 1 0) x

/-- 1 / √x (R280). -/
def rsqrt (x : FNum) : FNum × Acf :=
  match x with
  | .nan => (.nan, 0)
  | .inf s => if s then (.nan, fINV) else (FNum.zero, 0)
  | .fin s m e =>
    if m == 0 then (.inf s, 0)
    else if s then (.nan, fINV)
    else
      let m' := if e % 2 == 0 then m else 2 * m
      let e' := if e % 2 == 0 then e else e - 1
      let r := isqrt (2 ^ 280 / m')
      (.fin false (2 * r + (if r * r * m' == 2 ^ 280 then 0 else 1)) (-(e' / 2) - 140 - 1), 0)

/-- 2^x (R280). -/
def exp2 (x : FNum) : FNum × Acf :=
  match x with
  | .nan => (.nan, 0)
  | .inf s => (if s then FNum.zero else .inf false, 0)
  | .fin s m e => (FNum.exp2Fin s m e, 0)

/-- log2 x (R280). -/
def log2 (x : FNum) : FNum × Acf :=
  match x with
  | .nan => (.nan, 0)
  | .inf s => if s then (.nan, fINV) else (.inf false, 0)
  | .fin s m e => if m == 0 then (.inf true, 0) else if s then (.nan, fINV) else (log2Fin m e, 0)

/-- VFRCP (R279). -/
def execVfrcp (w : VWord) (s : State) : Out := fltUn w recip s
/-- VFRSQ. -/
def execVfrsq (w : VWord) (s : State) : Out := fltUn w rsqrt s
/-- VFEXP2. -/
def execVfexp2 (w : VWord) (s : State) : Out := fltUn w exp2 s
/-- VFLOG2. -/
def execVflog2 (w : VWord) (s : State) : Out := fltUn w log2 s

/-- A word on the sign bit; a NaN gives the canonical NaN (R280). -/
def fltSign (w : VWord) (f : FFmt → Nat → Nat) (s : State) : Out :=
  let wd := w.ty.width
  let ft := ffOf w.ty
  vecPure w (shA false) (fun i => lanes w i fun k =>
    let x := el wd i.a k
    ⟨if (decodeF ft x).isNan then ft.canonNaN else f ft x, 0, elPsn wd i.a k⟩) s

/-- VFABS. -/
def execVfabs (w : VWord) (s : State) : Out := fltSign w (fun ft x => x % 2 ^ (ft.width - 1)) s
/-- VFNEG. -/
def execVfneg (w : VWord) (s : State) : Out := fltSign w (fun ft x => x ^^^ 2 ^ (ft.width - 1)) s

/-! ### Predicates (R281, R304, R305) -/

/-- A predicate from one bit for each element: an active element sets its bits, an inactive one keeps or clears them. -/
def predOf (wd : Nat) (zm : Bool) (g old : BitVec 256) (f : Nat → Bool) : BitVec 256 :=
  let nb := wd / 8
  BitVec.ofNat 256 (packElems nb ((List.range (2048 / wd)).map fun i =>
    if act wd g i then (if f i then 2 ^ nb - 1 else 0)
    else if zm then 0 else (old.extractLsb' (i * nb) nb).toNat))

/-- A predicate result. -/
def VRes.pred (p : BitVec 256) (acf : Acf) : VRes := ⟨none, some p, none, [], acf, false⟩

/-- A comparison: an ordering of the elements, none when unordered (R281) (DESIGN CHOICE: notes/assumptions/36.md). -/
def cmpWord (w : VWord) (c : Nat → Nat → Option Int) (s : State) : Out :=
  let wd := w.ty.width
  let holds (o : Option Int) : Bool :=
    match o, w.mod.toNat with
    | some x, 0 => x == 0
    | some x, 1 => x != 0
    | some x, 2 => decide (x < 0)
    | some x, 3 => decide (x ≤ 0)
    | some x, 4 => decide (0 < x)
    | some x, 5 => decide (0 ≤ x)
    | some _, 6 => false
    | some _, _ => true
    | none, k => k == 1 || k == 6
  vecPure w ⟨true, true, false, false, false, true, true⟩ (fun i =>
    let psn := (List.range w.ty.lanes).any fun k => act wd i.g k && (elPsn wd i.a k || elPsn wd i.b k)
    .pred (predOf wd w.zm i.g i.pd fun k => holds (c (el wd i.a k) (el wd i.b k))) (flagIf psn fPSN)) s

/-- VCMP (R281). -/
def execVcmp (w : VWord) (s : State) : Out := cmpWord w (fun a b => some (vInt w.ty a - vInt w.ty b)) s

/-- VFCMP (R281, R59). -/
def execVfcmp (w : VWord) (s : State) : Out :=
  cmpWord w (fun a b =>
    let x := decodeF (ffOf w.ty) a
    let y := decodeF (ffOf w.ty) b
    if x.isNan || y.isNan then none else some (FNum.cmp x y)) s

/-- A word of R304: bit i of D from bit i of A and B. -/
def predLogic (w : VWord) (useB : Bool) (f : BitVec 256 → BitVec 256 → BitVec 256) (s : State) : Out :=
  vecPure w ⟨true, true, true, false, false, true, useB⟩ (fun i =>
    .pred ((f i.pa i.pb &&& i.g) ||| (if w.zm then 0 else i.pd &&& ~~~i.g)) 0) s

/-- PAND (R304). -/
def execPand (w : VWord) (s : State) : Out := predLogic w true (· &&& ·) s
/-- POR. -/
def execPor (w : VWord) (s : State) : Out := predLogic w true (· ||| ·) s
/-- PXOR. -/
def execPxor (w : VWord) (s : State) : Out := predLogic w true (· ^^^ ·) s
/-- PNOT. -/
def execPnot (w : VWord) (s : State) : Out := predLogic w false (fun a _ => ~~~a) s

/-- The elements whose governing bits in A and in the guard are 1 (R305). -/
def bothActive (ty : Fmt) (p g : BitVec 256) : List Nat :=
  (List.range ty.lanes).filter fun i => p.getLsbD (i * ty.width / 8) && act ty.width g i

/-- PCNT (R305). -/
def execPcnt (w : VWord) (s : State) : Out :=
  vecPure w ⟨true, false, true, false, false, true, false⟩ (fun i =>
    .reg (⟨BitVec.ofNat 2048 (bothActive w.ty i.pa i.g).length, 0⟩, 0)) s

/-- PFIRST (R305). -/
def execPfirst (w : VWord) (s : State) : Out :=
  let nb := w.ty.width / 8
  vecPure w ⟨true, true, true, false, false, true, false⟩ (fun i =>
    .pred (match bothActive w.ty i.pa i.g with
      | k :: _ => BitVec.ofNat 256 ((2 ^ nb - 1) * 2 ^ (k * nb))
      | [] => 0) 0) s

/-! ### Movement (R282 to R284) -/

/-- Element k of a register, copied. -/
def copyEl (wd : Nat) (v : VReg) (k : Nat) : El := ⟨el wd v k, 0, elPsn wd v k⟩

/-- VSEL (R282): every element is written. -/
def execVsel (w : VWord) (s : State) : Out :=
  let wd := w.ty.width
  vecPure w (shAB false) (fun i =>
    .reg (assemble wd i.d fun k => some (if act wd i.g k then copyEl wd i.a k else copyEl wd i.b k))) s

/-- VMOV (R282). -/
def execVmov (w : VWord) (s : State) : Out := vecPure w (shA false) (fun i => lanes w i fun k => copyEl w.ty.width i.a k) s

/-- VBCAST (R282). -/
def execVbcast (w : VWord) (s : State) : Out :=
  vecPure w (shA false) (fun i => lanes w i fun _ => copyEl w.ty.width i.a w.imm.toNat) s

/-- VPERM (R282): an element depends on its index too. -/
def execVperm (w : VWord) (s : State) : Out :=
  let wd := w.ty.width
  vecPure w (shAB false) (fun i => lanes w i fun k =>
    let e := copyEl wd i.a (el wd i.b k % w.ty.lanes)
    { e with psn := e.psn || elPsn wd i.b k }) s

/-- VSLIDE (R282). -/
def execVslide (w : VWord) (s : State) : Out :=
  let n := w.ty.lanes
  vecPure w (shAB false) (fun i => lanes w i fun k =>
    let j := k + w.imm.toNat
    if j < n then copyEl w.ty.width i.a j else copyEl w.ty.width i.b (j - n)) s

/-- The source of element i in a pattern of VSHUF: from B, and which element (R283). -/
def shufSrc (pat n i : Nat) : Bool × Nat :=
  let h := n / 2
  match pat with
  | 0 => (i % 2 == 1, i / 2)
  | 1 => (i % 2 == 1, h + i / 2)
  | 2 => if i < h then (false, 2 * i) else (true, 2 * (i - h))
  | 3 => if i < h then (false, 2 * i + 1) else (true, 2 * (i - h) + 1)
  | 4 => (false, n - 1 - i)
  | _ => (false, i ^^^ 1)

/-- VSHUF (R283). -/
def execVshuf (w : VWord) (s : State) : Out :=
  let pat := w.mod.toNat
  vecPure w (if pat < 4 then shAB false else shA false) (fun i => lanes w i fun k =>
    let p := shufSrc pat w.ty.lanes k
    copyEl w.ty.width (if p.1 then i.b else i.a) p.2) s

/-- VPACK (R284): results from A fill the low half, results from B the high half. -/
def execVpack (w : VWord) (s : State) : Out :=
  let wd := w.ty.width
  let h := wd / 2
  let n := w.ty.lanes
  let lo : Int := if w.mod.getLsbD 1 then 0 else -((2 ^ (h - 1) : Nat) : Int)
  let hi : Int := ((2 ^ (if w.mod.getLsbD 1 then h else h - 1) : Nat) : Int) - 1
  vecPure w (shAB false) (fun i => .reg (assemble h i.d fun j =>
    let v := if j < n then i.a else i.b
    let k := j % n
    let x := signedOf wd (el wd v k)
    let e : El := if satOf w then ⟨wrapInt (max lo (min hi x)) h, flagIf (decide (x < lo) || decide (hi < x)) fSAT, elPsn wd v k⟩
      else ⟨wrapInt x h, 0, elPsn wd v k⟩
    guarded w.zm (act h i.g j) e)) s

/-- VUNPK (R284). -/
def execVunpk (w : VWord) (s : State) : Out :=
  let wd := w.ty.width
  let h := wd / 2
  vecPure w (shA false) (fun i => lanes w i fun k =>
    let j := w.part * w.ty.lanes + k
    let x := el h i.a j
    ⟨if w.mod.getLsbD 1 then x else wrapInt (signedOf h x) wd, 0, elPsn h i.a j⟩) s

/-! ### Reductions and scans (R285 to R289) -/

/-- A register that holds one element at position 0 and zeros (R285). -/
def elem0 (wd : Nat) (e : El) : VReg × Acf :=
  (⟨BitVec.ofNat 2048 (e.v % 2 ^ wd), if e.psn then BitVec.ofNat 256 (2 ^ (wd / 8) - 1) else 0⟩, e.f ||| flagIf e.psn fPSN)

/-- The active elements of A. -/
def activeEls (w : VWord) (i : VIn) : List Nat := (List.range w.ty.lanes).filter fun k => act w.ty.width i.g k

/-- A reduction over the active elements, with old element 0 in the result format when ACC = 1 (R285). -/
def redWord (w : VWord) (rt : Fmt) (f : List Nat → Option Nat → Nat × Acf) (s : State) : Out :=
  let wd := w.ty.width
  let acc := w.mod.getLsbD 0
  vecPure w (shA acc) (fun i =>
    let ks := activeEls w i
    let old := if acc then some (el rt.width i.d 0) else none
    let r := f (ks.map (el wd i.a)) old
    .reg (elem0 rt.width ⟨r.1, r.2, ks.any (elPsn wd i.a) || (acc && elPsn rt.width i.d 0)⟩)) s

/-- VREDADD (R286). -/
def execVredadd (w : VWord) (s : State) : Out :=
  let rt : Fmt := if w.ty.width ≤ 16 then .int32 else w.ty
  redWord w rt (fun xs old =>
    let x := xs.foldl (fun a x => a + vInt w.ty x) (match old with | some o => intOf rt o | none => 0)
    if w.mod.getLsbD 1 then satPat x rt else (wrapInt x rt.width, 0)) s

/-- The extreme of a list of patterns, and the result for an empty one (R287) (DESIGN CHOICE: notes/assumptions/36.md). -/
def redExtreme (t : Fmt) (isMax : Bool) (xs : List Nat) : Nat :=
  if t.isInt then
    match xs.map (intOf t) with
    | [] => wrapInt (if isMax then minInt t else maxInt t) t.width
    | v :: vs => wrapInt (vs.foldl (fun a b => if isMax then max a b else min a b) v) t.width
  else
    match xs with
    | [] => (ffOf t).inf isMax
    | v :: vs => vs.foldl (fMinMax t isMax) (if (decodeF (ffOf t) v).isNan then (ffOf t).canonNaN else v)

/-- VREDMAX (R287). -/
def execVredmax (w : VWord) (s : State) : Out := redWord w w.ty (fun xs old => (redExtreme w.ty true (old.toList ++ xs), 0)) s
/-- VREDMIN (R287). -/
def execVredmin (w : VWord) (s : State) : Out := redWord w w.ty (fun xs old => (redExtreme w.ty false (old.toList ++ xs), 0)) s

/-- A node of the tree of R288. -/
def redNode (a b : Option FNum) : Option FNum × Acf :=
  match a, b with
  | none, x | x, none => (x, 0)
  | some x, some y =>
    let r := x.add y
    let q := roundF r.1 .fp32 .rne false
    (some (decodeF .fp32 q.1), r.2 ||| q.2)

/-- One level of the tree. -/
def redLevel : List (Option FNum) → List (Option FNum) × Acf
  | a :: b :: t => let n := redNode a b; let r := redLevel t; (n.1 :: r.1, n.2 ||| r.2)
  | xs => (xs, 0)

/-- The tree over 2^k leaves. -/
def redTree : Nat → List (Option FNum) → Acf → Option FNum × Acf
  | 0, xs, f => (xs.head?.join, f)
  | k + 1, xs, f => let r := redLevel xs; redTree k r.1 (f ||| r.2)

/-- VFREDADD (R288): the leaves are the elements in place, those that are not active absent. -/
def execVfredadd (w : VWord) (s : State) : Out :=
  let wd := w.ty.width
  let acc := w.mod.getLsbD 0
  vecPure w (shA acc) (fun i =>
    let xs := (List.range w.ty.lanes).map fun k =>
      if act wd i.g k then some (decodeF (ffOf w.ty) (el wd i.a k)) else none
    let r := redTree (Nat.log2 w.ty.lanes) xs 0
    let r := if acc then let n := redNode (some (decodeF .fp32 (el 32 i.d 0))) r.1; (n.1, r.2 ||| n.2) else r
    let p := roundF (r.1.getD FNum.zero) .fp32 .rne false
    let psn := (activeEls w i).any (elPsn wd i.a) || (acc && elPsn 32 i.d 0)
    .reg (elem0 32 ⟨p.1, r.2, psn⟩)) s

/-- The sums of VSCAN: each element's exact value and its poison (R289). -/
def scanEls (excl : Bool) (f : Nat → Option (Int × Bool)) : List Nat → Int → Bool → List (Int × Bool)
  | [], _, _ => []
  | k :: ks, c, p =>
    let c' := match f k with | some x => c + x.1 | none => c
    let p' := match f k with | some x => p || x.2 | none => p
    (if excl then (c, p) else (c', p')) :: scanEls excl f ks c' p'

/-- VSCAN (R289): every element is written, and a clamp sets SAT wherever it is (DESIGN CHOICE: notes/assumptions/36.md). -/
def execVscan (w : VWord) (s : State) : Out :=
  let t := w.ty
  let wd := t.width
  vecPure w (shAB false) (fun i =>
    let es := scanEls (w.mod.getLsbD 0)
      (fun k => if act wd i.g k then some (vInt t (el wd i.a k), elPsn wd i.a k) else none)
      (List.range t.lanes) (vInt t (el wd i.b 0)) (elPsn wd i.b 0)
    .reg (assemble wd i.d fun k => es[k]?.map fun x =>
      let r := if w.mod.getLsbD 1 then satPat x.1 t else (wrapInt x.1 wd, 0)
      ⟨r.1, r.2, x.2⟩)) s

/-! ### Conversions (R290 to R294) -/

/-- One element converted by VCVT (R290). -/
def cvtEl (src dst : Fmt) (rm : RMode) (sat : Bool) (x : Nat) : Nat × Acf :=
  if src.isInt then
    if dst.isInt then (if sat then satPat (intOf src x) dst else (wrapInt (intOf src x) dst.width, 0))
    else roundF (.ofInt (intOf src x)) (ffOf dst) rm sat
  else if dst.isInt then floatToInt (decodeF (ffOf src) x) dst rm
  else roundF (decodeF (ffOf src) x) (ffOf dst) rm sat

/-- VCVT (R290): a wider source fills a part of the destination, a narrower one is taken from a part of the source. -/
def execVcvt (w : VWord) (s : State) : Out :=
  let src := modFmt w
  let ws := src.width
  let wd := w.ty.width
  let rm := rmodeOf (w.mod.toNat / 16)
  let one (i : VIn) (j : Nat) : El :=
    let r := cvtEl src w.ty rm (w.mod.getLsbD 6) (el ws i.a j)
    ⟨r.1, r.2, elPsn ws i.a j⟩
  if wd < ws then vecPure w (shA true) (fun i => parted w wd (2048 / ws) i (one i)) s
  else if ws < wd then vecPure w (shA false) (fun i => lanes w i fun k => one i (w.part * w.ty.lanes + k)) s
  else vecPure w (shA false) (fun i => lanes w i (one i)) s

/-- Whether any byte that holds `n` bits from bit `b` is poisoned. -/
def bitsPsn (v : VReg) (b n : Nat) : Bool := (List.range ((b + n - 1) / 8 - b / 8 + 1)).any fun k => v.psn.getLsbD (b / 8 + k)

/-- VXPAND (R291). -/
def execVxpand (w : VWord) (s : State) : Out :=
  let wd := w.ty.width
  let cb := if w.mod.getLsbD 0 then 3 else 4
  vecPure w (shAB false) (fun i => lanes w i fun k =>
    let j := w.part * w.ty.lanes + k
    let c := (i.a.bits.extractLsb' (cb * j) cb).toNat
    ⟨el wd i.b c, 0, bitsPsn i.a (cb * j) cb || elPsn wd i.b c⟩) s

/-- Bytes of a block's codes in MX layout (R292). -/
def mxBB (mx8 : Bool) : Nat := if mx8 then 32 else 16

/-- The element format of an MX block. -/
def mxEf (mx8 : Bool) : FFmt := if mx8 then .e4m3 else .e2m1

/-- VMXQ (R293): the code and scale bytes of k blocks, and nothing else, are written. -/
def execVmxq (w : VWord) (s : State) : Out :=
  let wd := w.ty.width
  let mx8 := w.mod.getLsbD 0
  let bb := mxBB mx8
  let k := w.ty.lanes / 32
  let ef := mxEf mx8
  vecPure w (shA false) (fun i =>
    let blocks := (List.range k).map fun j =>
      let xs := (List.range 32).map fun n => decodeF (ffOf w.ty) (el wd i.a (32 * j + n))
      let q := mxQuant xs ef (rmodeOf (w.mod.toNat / 2))
      (w.part * k + j, q.1, packElems ef.width q.2.1, q.2.2, (List.range 32).any fun n => elPsn wd i.a (32 * j + n))
    let sc (b : Nat) : Nat := mxBlocks mx8 * bb + b
    let bits := blocks.foldl (fun x b => x + b.2.2.1 * 2 ^ (8 * (bb * b.1)) + b.2.1 * 2 ^ (8 * sc b.1)) 0
    let mask := blocks.foldl (fun x b => x + (2 ^ bb - 1) * 2 ^ (bb * b.1) + 2 ^ sc b.1) 0
    let psn := blocks.foldl (fun x b => if b.2.2.2.2 then x + (2 ^ bb - 1) * 2 ^ (bb * b.1) + 2 ^ sc b.1 else x) 0
    let acf := blocks.foldl (fun a b => a ||| b.2.2.2.1 ||| flagIf b.2.2.2.2 fPSN) 0
    ⟨some (⟨BitVec.ofNat 2048 bits, BitVec.ofNat 256 psn⟩, BitVec.ofNat 256 mask), none, none, [], acf, false⟩) s

/-- The flags of a block's expansion belong to its active elements; NANS to the block (R268, R294). -/
def execVmxd (w : VWord) (s : State) : Out :=
  let mx8 := w.mod.getLsbD 0
  let bb := mxBB mx8
  let ef := mxEf mx8
  let k := w.ty.lanes / 32
  vecPure w (shA false) (fun i => lanes w i fun n =>
    let b := w.part * k + n / 32
    let so := mxBlocks mx8 * bb + b
    let c := (i.a.bits.extractLsb' (8 * (bb * b) + ef.width * (n % 32)) ef.width).toNat
    let r := mxDequant (i.a.bits.extractLsb' (8 * so) 8).toNat [c] ef (ffOf w.ty) (rmodeOf (w.mod.toNat / 2)) (w.mod.getLsbD 6)
    let psn := i.a.psn.extractLsb' (bb * b) 32 &&& BitVec.ofNat 32 (2 ^ bb - 1) != 0 || i.a.psn.getLsbD so
    ⟨r.1.headD 0, r.2, psn⟩) s

/-! ### Partition and compaction (R295, R296) -/

/-- VPART (R295): the index lists in D, their counts and starts in B (DESIGN CHOICE: notes/assumptions/36.md). -/
def execVpart (w : VWord) (s : State) : Out :=
  let wd := w.ty.width
  let m := w.mod.toNat % 16 + 1
  let sh : VShape := ⟨true, false, false, false, false, true, false⟩
  vecWord w sh []
    (fun s l c2 => (List.range (w.rep.toNat + 1)).any fun r => vphysOf s l c2 w.b r == vphysOf s l c2 w.d r)
    noWaits noBank (fun s _ _ i =>
      let ks := activeEls w i
      let psn := ks.any (elPsn wd i.a)
      let groups := (List.range m).map fun c => ks.filter fun k => el wd i.a k == c
      let es := groups.flatten
      let cnt (k : Nat) : Nat := (groups[k]?.getD []).length
      let bs := (List.range 64).map fun k =>
        if k < m then cnt k
        else if 16 ≤ k ∧ k < 16 + m then ((List.range (k - 16)).map cnt).foldl (· + ·) 0
        else 0
      let d := assemble wd i.d fun k => some ⟨es[k]?.getD 0, 0, psn⟩
      (s, ⟨some (d.1, BitVec.allOnes 256), none, some ⟨BitVec.ofNat 2048 (packElems 32 bs), 0⟩, [], d.2, false⟩)) s

/-- A compaction or expansion: the source element of each destination element, if any (R296). -/
def compWord (w : VWord) (src : List Nat → Nat → Option Nat) (s : State) : Out :=
  let wd := w.ty.width
  vecPure w (shA (!w.zm)) (fun i =>
    let ks := activeEls w i
    .reg (assemble wd i.d fun k =>
      match src ks k with
      | some j => some (copyEl wd i.a j)
      | none => if w.zm then some ⟨0, 0, false⟩ else none)) s

/-- VCOMP (R296). -/
def execVcomp (w : VWord) (s : State) : Out := compWord w (fun ks k => ks[k]?) s
/-- VEXPD (R296). -/
def execVexpd (w : VWord) (s : State) : Out := compWord w (fun ks k => if ks.contains k then some (ks.idxOf k) else none) s

end Sys2Proof.Machine
end

