-- ==== Sys2Proof/Machine/VectorMem.lean ====
section
/-! DEFINITION. Scratchpad gathers and scatters, ring pushes, the tile registers and the landing of vector results
(R143, R297 to R303, R307 to R309). -/

namespace Sys2Proof.Machine

/-! ### Gathers and scatters (R297 to R301) -/

/-- The regions of a scratchpad (R65). -/
inductive Region where
  | ring | barrier | priv
  deriving DecidableEq, Repr

/-- The region of a scratchpad offset. -/
def regionOf (x : Ctxt) (off : Nat) : Region :=
  if off < x.rgnend * 4096 then .ring
  else if x.baren && decide (off < (x.rgnend + 1) * 4096) then .barrier
  else .priv

/-- Lanes of a repeat. -/
def lanesOf (t : Fmt) : Nat := min 64 t.lanes

/-- An active lane: its element position, and its scratchpad offset unless it is out of bounds. -/
abbrev Lane := Nat × Nat × Option Nat

/-- The active lanes of a repeat, in rising order: lane, element position and offset (R297). -/
def activeLanes (s : State) (l : Nat) (w : VWord) (g : BitVec 256) (idx : VReg) (e : Word) (scatter : Bool) : List Lane :=
  let wb := w.ty.width / 8
  let n := lanesOf w.ty
  let base := e.toNat % 2 ^ 20 / wb * wb
  let len := min (e.toNat / 2 ^ 32 % 2 ^ 21) (2 ^ 20)
  ((List.range n).map fun i => (i, w.part * n + i)).filterMap fun p =>
    if !act w.ty.width g p.2 then none
    else
      let x := signedOf 32 (el 32 idx p.1)
      let o := x.toNat * wb
      let a := base + o
      let okR := match regionOf (cx s l) a with
        | .ring => !scatter
        | .barrier => false
        | .priv => true
      some (p.1, p.2, if 0 ≤ x ∧ o + wb ≤ len ∧ a + wb ≤ 2 ^ 20 ∧ okR = true then some a else none)

/-- The e-register that B names. -/
def gatherReg (s : State) (l : Nat) (w : VWord) : Word :=
  match w.b with
  | .bc e => vget 0 (cx s l).eRegs e.toNat
  | _ => 0

/-- G_b of R300 for each bank: the distinct granules touched. -/
def bankLoads (ls : List Lane) : List (Nat × Nat) :=
  let gs := (ls.filterMap fun p => p.2.2.map (· / 64)).eraseDups
  (List.range 32).map fun b => (b, (gs.filter fun g => g % 32 == b).length)

/-- The active lanes of a gather's repeat. -/
def gatherLanes (w : VWord) (s : State) (l : Nat) (c2 : Bool) (r : Nat) : List Lane :=
  let idx := match w.a with
    | .reg .. => rv s l c2 (vphysOf s l c2 w.a r)
    | .port q => headUnit s l q.toNat
    | _ => VReg.zero
  activeLanes s l w (guardOf s l c2 w) idx (gatherReg s l w) false

/-- The scratchpad bytes that a gather's repeat reads, which its banks serve in the order of R62 (R300, R301). -/
def gatherAsks (w : VWord) (s : State) (l : Nat) (c2 : Bool) (r : Nat) : List (Nat × Nat) :=
  (gatherLanes w s l c2 r).filterMap fun p => p.2.2.map (·, w.ty.width / 8)

/-- The bank ticks of a gather before T_r, and the banks that still have an access pending on each (R300). -/
def gatherBank (w : VWord) (s : State) (l : Nat) (c2 : Bool) (r : Nat) : Nat × (Nat → List Nat) :=
  let gb := bankLoads (gatherLanes w s l c2 r)
  ((gb.foldl (fun m p => max m p.2) 1) - 1, fun j => (gb.filter fun p => decide (j < p.2)).map (160 + ·.1))

/-- VGATH (R297, R298): raw bytes, an out-of-bounds lane takes the fill value. -/
def execVgath (w : VWord) (s : State) : Out :=
  let wd := w.ty.width
  let sh : VShape := ⟨true, false, false, false, true, true, true⟩
  vecWordAt (gatherAsks w) w sh [] noIllegal noWaits (gatherBank w) (fun s l _ i =>
    let ls := activeLanes s l w i.g i.a (gatherReg s l w) false
    let n := lanesOf w.ty
    let s := ls.foldl (fun s p => match p.2.2 with | some a => spTouch s l a (wd / 8) | none => s) s
    let one (k : Nat) : El :=
      match ls.find? fun p => p.2.1 == k with
      | some (j, _, some a) =>
        let bs := readPBytes s (spBase l + a) (wd / 8)
        ⟨ofLE (bs.map (·.b)), 0, bs.any (·.psn) || elPsn 32 i.a j⟩
      | some (j, _, none) => ⟨immElem w.ty w.imm, 0, elPsn 32 i.a j⟩
      | none => ⟨0, 0, false⟩
    let d := assemble wd i.d fun k =>
      if w.part * n ≤ k ∧ k < w.part * n + n then guarded w.zm (act wd i.g k) (one k) else none
    (s, { VRes.reg d with oob := ls.any fun p => p.2.2.isNone })) s

/-- The bytes that a scatter writes: of several lanes at one address the highest stands (R299). -/
def scatBytes (w : VWord) (i : VIn) (ls : List Lane) : List (Nat × PByte) :=
  let wb := w.ty.width / 8
  let at' := ls.filterMap fun p => p.2.2.map fun a => (p.1, p.2.1, a)
  let kept := at'.filter fun p => !at'.any fun q => q.2.2 == p.2.2 && decide (p.1 < q.1)
  kept.flatMap fun p =>
    let psn := elPsn w.ty.width i.a p.2.1 || elPsn 32 i.d p.1
    ((toLE wb (el w.ty.width i.a p.2.1)).zipIdx p.2.2).map fun b => (b.2, ⟨b.1, psn⟩)

/-- VSCAT (R299): D names the index register. -/
def execVscat (w : VWord) (s : State) : Out :=
  let sh : VShape := ⟨false, false, false, true, false, true, true⟩
  vecWord w sh [] noIllegal noWaits noBank (fun s l _ i =>
    let ls := activeLanes s l w i.g i.d (gatherReg s l w) true
    let bs := scatBytes w i ls
    (s, ⟨none, none, none, if bs.isEmpty then [] else [.scat bs], flagIf (bs.any (·.2.psn)) fPSN,
      ls.any fun p => p.2.2.isNone⟩)) s

/-! ### Ring pushes (R302, R303) -/

/-- The ring that a push names. -/
def pushRing (w : VWord) : Nat := (opRing w.d).getD 0

/-- A push waits until the slot at TAIL is empty and the bind-off bit is 0 (DEDUCED: notes/assumptions/35.md). -/
def pushWait (w : VWord) (s : State) (l : Nat) (_ : Eng) (_ : Nat) : List Nat :=
  if (getRing s l (pushRing w)).canPush then [] else [64 + pushRing w]

/-- The unit that VPUSH forms: with ZM an inactive element is 0 (R302). -/
def pushUnit (w : VWord) (i : VIn) : VReg × Acf :=
  assemble w.ty.width i.a fun k =>
    if !w.zm || act w.ty.width i.g k then some (copyEl w.ty.width i.a k) else some ⟨0, 0, false⟩

/-- VPUSH of data (R302): the unit at TAIL is claimed at issue, after A is read (DEDUCED: notes/assumptions/35.md). -/
def execVpush (w : VWord) (s : State) : Out :=
  let q := pushRing w
  let sh : VShape := ⟨false, false, false, false, false, true, false⟩
  vecWord w sh [q] noIllegal (pushWait w) noBank (fun s l _ i =>
    let r := getRing s l q
    let v := pushUnit w i
    let gran := r.base + r.tail
    let s := modRing s l q fun r => { r with tail := (r.tail + 1) % (r.n * r.z), claims := r.tail :: r.claims }
    (s, ⟨none, none, none, [.unit q (r.tail + 65536 * gran) r.gen v.1], v.2, false⟩)) s

/-- A ring whose slot at TAIL a bind-off push has claimed (R303). -/
def Ring.claimBoff (r : Ring) : Ring :=
  { r.advTail with boffPend := true, claims := (List.range r.z).map (r.tail + ·) ++ r.claims }

/-- VPUSH of a bind-off slot (R303): illegal where TAIL is not at the start of a slot (DEDUCED: notes/assumptions/35.md). -/
def execVpushBoff (w : VWord) (s : State) : Out :=
  let q := pushRing w
  let sh : VShape := ⟨false, false, false, false, false, true, false⟩
  vecWord w sh [q] (fun s l _ => let r := getRing s l q; decide (r.tail % r.z ≠ 0)) (pushWait w) noBank (fun s l _ i =>
    let r := getRing s l q
    let s := modRing s l q Ring.claimBoff
    (s, ⟨none, none, none, [.boff q r.tailSlot r.gen (r.slotOff r.tailSlot) (r.z * 256) (BitVec.ofNat 64 (el 64 i.a 0))], flagIf (elPsn 64 i.a 0) fPSN, false⟩)) s

/-! ### Tile registers (R307 to R309) -/

/-- The tile that MOD[1:0] names. -/
def tileOf (w : VWord) : Nat := w.mod.toNat % 4

/-- The number of a cell. -/
def cellNo (t row col : Nat) : Nat := t * 4096 + row * 64 + col

/-- The other vector cluster, where it is a member of the region. -/
def tilePeer (s : State) (l : Nat) (e : Eng) : Option Eng :=
  let o : Eng := if e == .c1 then .c2 else .c1
  if (getEng s l e).inRegion && (regionMembers s l).contains o then some o else none

/-- In a region a tile write at position n waits until the other cluster has made its reads below n (R156).
(DESIGN CHOICE: notes/assumptions/38.md). -/
def tileWriteWait (s : State) (l : Nat) (e : Eng) (_ : Nat) : List Nat :=
  match tilePeer s l e with
  | some o => if effPos s l o < effPos s l e then [210] else []
  | none => []

/-- In a region a tile read at position m waits until the other cluster has reached m, and until its writes at positions n
with n + L at most m have landed (R156) (DESIGN CHOICE: notes/assumptions/38.md). -/
def tileReadWait (s : State) (l : Nat) (e : Eng) (_ : Nat) : List Nat :=
  let m := effPos s l e
  let late := (getEng s l e).inRegion && (getCore s l).vfl.any fun f =>
    f.c2 == (e == .c1) && (f.writes.any VWrite.shared) &&
      match f.pos with
      | some n => decide (n + (f.due - f.issued) ≤ m)
      | none => false
  match tilePeer s l e with
  | some o => if effPos s l o < m || late then [210] else []
  | none => if late then [210] else []

/-- TWROW (R308). -/
def execTwrow (w : VWord) (s : State) : Out :=
  let wd := w.ty.width
  let sh : VShape := ⟨false, false, false, false, false, true, false⟩
  vecWord w sh [] noIllegal tileWriteWait noBank (fun s _ r i =>
    let row := w.imm.toNat % 64 + r
    let ks := (List.range 64).filterMap fun j =>
      let k := w.part * 64 + j
      if act wd i.g k then some (cellNo (tileOf w) row j, (⟨BitVec.ofNat 32 (el wd i.a k), elPsn wd i.a k⟩ : Elem))
      else if w.zm then some (cellNo (tileOf w) row j, Elem.zero)
      else none
    (s, ⟨none, none, none, [.cells ks], flagIf (ks.any (·.2.psn)) fPSN, false⟩)) s

/-- TRCOL (R308). -/
def execTrcol (w : VWord) (s : State) : Out :=
  let wd := w.ty.width
  let sh : VShape := ⟨true, false, false, false, true, false, false⟩
  vecWord w sh [] noIllegal tileReadWait noBank (fun s l r i =>
    let col := w.imm.toNat % 64 + r
    (s, parted w wd 64 i fun k =>
      let c := tget Elem.zero (cx s l).tiles (cellNo (tileOf w) k col)
      ⟨c.v.toNat % 2 ^ wd, 0, c.psn⟩)) s

/-- TCLR (R308): well-formedness asks for PG = 0 and ZM = 0 (DEDUCED: notes/assumptions/97.md). -/
def execTclr (w : VWord) (s : State) : Out :=
  let sh : VShape := ⟨false, false, false, false, false, false, false⟩
  vecWord w sh [] noIllegal tileWriteWait noBank (fun s _ _ _ =>
    (s, ⟨none, none, none, [.cells ((List.range 4096).map fun k => (tileOf w * 4096 + k, Elem.zero))], 0, false⟩)) s

/-! ### Landing (R143) -/

/-- The place in the list of flights of the i-th repeat of a cluster. -/
def flightAt (fs : List VFlight) (c2 : Bool) (i : Nat) : Option Nat :=
  (((List.range fs.length).filter fun k => (fs[k]?.map (·.c2)) == some c2))[i]?

/-- Whether a repeat may land now: it was issued on an earlier tick, and its banks serve its writes (R62). -/
def mayLand (s : State) (l : Nat) (f : VFlight) : Bool := decide (f.issued < now s) && bankTurn s l (vPlace f.c2) f.bytes

/-- VECTOR_RESULT_LANDING (R143): a repeat issued on an earlier tick lands (DESIGN CHOICE: notes/assumptions/70.md). -/
def execVectorResultLanding (l : CoreNum) (c2 : Bool) (i : Nat) (s : State) : Out :=
  let fs := (getCore s l.toNat).vfl
  .next <| match flightAt fs c2 i with
    | some k => match fs[k]? with
      | some f => if mayLand s l.toNat f then landFlight s l.toNat k else if f.issued < now s then bankHold s l.toNat (vPlace c2) f.bytes else s
      | none => s
    | none => s

end Sys2Proof.Machine
end

