-- ==== Sys2Proof/Machine/Matrix.lean ====
section
/-! DEFINITION. The issue of a matrix word, its start on its unit and its retirement (R315 to R345, R352): what every C3 word
shares. -/

namespace Sys2Proof.Machine

/-! ### What a word names, by opcode -/

/-- The units of C3 (R315). -/
inductive MUnit where
  | none | array | acc
  deriving DecidableEq, Repr

/-- The unit of an opcode. -/
def unitOf (op : Nat) : MUnit :=
  match op with
  | 1 => .array
  | 2 | 3 | 4 | 5 | 6 | 7 | 9 => .acc
  | _ => .none

/-- The port that MCFG names (R346). -/
def portsNamed (op : Nat) (w : MWord) : List Nat := if op = 8 then [w.imm.toNat % 32] else []

/-- The ports that a word reads, in the order APORT, BPORT, CPORT. -/
def portsRead (op : Nat) (w : MWord) : List Nat :=
  match op with
  | 1 => [w.aport.toNat, w.bport.toNat] ++ (if w.amode = 2 then [w.cport.toNat] else [])
  | 3 | 5 | 6 => [w.aport.toNat]
  | _ => []

/-- The ring that a word writes. -/
def portsWritten (op : Nat) (w : MWord) : List Nat :=
  match op with
  | 4 | 9 => [w.cport.toNat]
  | _ => []

/-- The tiles that a word reads (R318, R334). -/
def tilesRead (op : Nat) (w : MWord) : List Nat :=
  match op with
  | 1 => if w.amode = 1 then [] else [w.acct.toNat]
  | 4 | 5 | 6 | 7 => [w.acct.toNat]
  | _ => []

/-- The tiles that a word writes. -/
def tilesWritten (op : Nat) (w : MWord) : List Nat :=
  match op with
  | 1 | 2 | 3 | 5 | 6 => [w.acct.toNat]
  | 7 => [w.imm.toNat % 16]
  | _ => []

/-- A flight reads its tile; an MMA that met a bind-off counts as reading it (R331). -/
def flightReads (f : C3Flight) : List Nat := if f.op == 1 && f.bof then [f.w.acct.toNat] else tilesRead f.op f.w

/-- M' (R319). -/
def rowsOf (w : MWord) : Nat := w.mext.toNat + 1
/-- N'. -/
def colsOf (w : MWord) : Nat := w.next.toNat + 1

/-- Bytes of a ring's slot. -/
def slotSize (s : State) (l q : Nat) : Nat := (getRing s l q).z * 256

/-- A quotient rounded up. -/
def ceilDiv (a b : Nat) : Nat := (a + b - 1) / b

/-- The slots that a word takes from its first port (R332). -/
def slotsOf (op : Nat) (w : MWord) (z : Nat) : Nat :=
  match op with
  | 3 | 5 => ceilDiv (4 * rowsOf w * colsOf w) z
  | _ => 1

/-! ### Formats (R56, R320, R328) -/

/-- A row of R56: group length, G_max, and which arithmetic. -/
structure Pair where
  n : Nat
  gmax : Nat
  int : Bool
  mx : Bool
  trunc : Bool
  deriving DecidableEq, Repr

/-- The row of R56 for two format codes. -/
def pairOf (fa fb : BitVec 4) : Option Pair :=
  match Fmt.ofCode fa, Fmt.ofCode fb with
  | some .e4m3, some .e4m3 | some .e4m3, some .e5m2 | some .e5m2, some .e4m3 | some .e5m2, some .e5m2 =>
    some ⟨32, 2, false, false, false⟩
  | some .int8, some .int8 | some .int8, some .uint8 | some .uint8, some .int8 | some .uint8, some .uint8 =>
    some ⟨32, 2, true, false, false⟩
  | some .mxfp4, some .mxfp4 => some ⟨32, 4, false, true, false⟩
  | some .bf16, some .bf16 | some .fp16, some .fp16 => some ⟨16, 2, false, false, true⟩
  | _, _ => none

/-- The format entry of a ring (R320). -/
def fmtEntry (s : State) (l q : Nat) : BitVec 4 := vget 0 (cx s l).mpfmt q

/-- The format that an entry names. -/
def fmtOf (c : BitVec 4) : Fmt := (Fmt.ofCode c).getD .fp32

/-- Whether an entry is FP32 or INT32 (R332). -/
def entry32 (c : BitVec 4) : Bool := c == Fmt.fp32.code || c == Fmt.int32.code

/-! ### Slots (R330, R331) -/

/-- The slots that n ports of one word would take from a ring: how many, and whether the last of them is a bind-off; none while
one is still to come. -/
def scanRing (r : Ring) (n : Nat) : Nat → Option (Nat × Bool)
  | 0 => some (n, false)
  | k + 1 =>
    let i := n - (k + 1)
    let slot := (r.head + i) % r.n
    if r.n ≤ i ∨ !r.conf ∨ !r.avail slot then none
    else if r.isBoff slot then some (i + 1, true)
    else scanRing r n k

/-- The scan of every ring that a word's ports name. -/
def scanPorts (s : State) (l : Nat) (qs : List Nat) : List (Nat × Option (Nat × Bool)) :=
  qs.eraseDups.map fun q => (q, scanRing (getRing s l q) (qs.count q) (qs.count q))

/-- Slot HEAD taken, freed at once or kept for the array (R74, R319). -/
def takeHead (s : State) (l q : Nat) (keep : Bool) : State × SlotData :=
  let r := getRing s l q
  let d : SlotData := ⟨slotBytes s l q r.head, r.isBoff r.head⟩
  let s := spTouch (useBanks s l 0 [r.headBytes]) l (r.slotOff r.head) (r.z * 256)
  (modRing (serve s l .c3 [q]) l q fun r => if keep then r.keepHead else r.freeHead, d)

/-- The first slots of a word's ports taken at its start (R330, R331). With a bind-off among them only the rings that hold one
give slots, up to and including it. -/
def takeFirst (s : State) (l : Nat) (f : C3Flight) : State × C3Flight :=
  let qs := portsRead f.op f.w
  let keep := f.op == 1
  let scan := scanPorts s l qs
  let one (a : State × C3Flight) (q : Nat) : State × C3Flight :=
    let h := (getRing a.1 l q).head
    let t := takeHead a.1 l q keep
    (t.1, { a.2 with slots := a.2.slots ++ [t.2], keep := if keep then a.2.keep ++ [(q, h)] else a.2.keep })
  if scan.any fun p => (p.2.map (·.2)) == some true then
    let r := scan.foldl (fun a p =>
      match p.2 with
      | some (n, true) => iter (fun a => one a p.1) n a
      | _ => a) (s, { f with slots := [] })
    (r.1, { r.2 with bof := true, slots := [] })
  else qs.foldl one (s, f)

/-! ### Accumulator tiles (R105) -/

/-- The number of element (i, j) of tile t. -/
def accNo (t i j : Nat) : Nat := t * 65536 + i * 256 + j

/-- An element of a tile. -/
def accGet (s : State) (l t i j : Nat) : Elem := tget Elem.zero (cx s l).acc (accNo t i j)

/-- Elements written. -/
def accPut (s : State) (l : Nat) (es : List (Nat × Elem)) : State :=
  modX s l fun x => { x with acc := es.foldl (fun t e => tset t e.1 e.2) x.acc }

/-- The places of a region, row by row. -/
def regionPlaces (m n : Nat) : List (Nat × Nat) := (List.range m).flatMap fun i => (List.range n).map fun j => (i, j)

/-- A number of `n` bytes in a slot, and whether any of its bytes is poisoned. -/
def bytesAt (d : SlotData) (off n : Nat) : Nat × Bool :=
  let bs := (d.bytes.drop off).take n
  (ofLE (bs.map (·.b)), bs.any (·.psn))

/-! ### MMA (R328 to R330) -/

/-- Element e of a slot in a format of whole bytes. -/
def slotElem (d : SlotData) (f : Fmt) (e : Nat) : Nat × Bool := bytesAt d (e * (f.width / 8)) (f.width / 8)

/-- Block b of an MXFP4 slot: its codes, its scale and its poison (R42, R84). -/
def slotBlock (d : SlotData) (b : Nat) : List Nat × Nat × Bool :=
  let nb := d.bytes.length / 17
  let c := bytesAt d (16 * b) 16
  let sc := bytesAt d (16 * nb + b) 1
  ((List.range 32).map (unpackCode c.1 4), sc.1, c.2 || sc.2)

/-- The place of A element (i, k), or of B element (k, j) with j for i (R329). -/
def operandAt (transposed : Bool) (ext k0 : Nat) (i k : Nat) : Nat := if transposed then k * ext + i else i * k0 + k

/-- One group sum added to an accumulator element: its pattern, flags and poison. -/
def mmaGroup (p : Pair) (f : C3Flight) (sa sb : SlotData) (i j g : Nat) (c : Nat) : Nat × Acf × Bool :=
  let gg := f.w.kgrp.toNat + 1
  if p.mx then
    let a := slotBlock sa (i * gg + g)
    let b := slotBlock sb (j * gg + g)
    let d := dotGroupMX a.1 a.2.1 b.1 b.2.1
    let r := accAdd c d.1
    (r.1, d.2 ||| r.2, a.2.2 || b.2.2)
  else
    let fa := fmtOf f.fa
    let fb := fmtOf f.fb
    let k0 := gg * p.n
    let ks := (List.range p.n).map (g * p.n + ·)
    let a := ks.map fun k => slotElem sa fa (operandAt f.w.ta (rowsOf f.w) k0 i k)
    let b := ks.map fun k => slotElem sb fb (operandAt f.w.tb (colsOf f.w) k0 j k)
    let psn := a.any (·.2) || b.any (·.2)
    if p.int then
      let x : Int := ((a.zip b).map fun q => intOf fa q.1.1 * intOf fb q.2.1).foldl (· + ·) 0
      let r := accAddInt c x
      (r.1, r.2, psn)
    else
      let d := dotGroup (a.map fun q => decodeF (ffOf fa) q.1) (b.map fun q => decodeF (ffOf fb) q.1) p.trunc
      let r := accAdd c d.1
      (r.1, d.2 ||| r.2, psn)

/-- One element of the result (R330). -/
def mmaElem (p : Pair) (f : C3Flight) (sa sb sc : SlotData) (old : Elem) (i j : Nat) : Elem × Acf :=
  let c0 : Nat × Acf × Bool := if f.w.amode = 1 then (0, 0, false) else (old.v.toNat, 0, old.psn)
  let c1 : Nat × Acf × Bool :=
    if f.w.amode = 2 then
      let b := slotElem sc .fp32 j
      let r := if p.int then accAddInt c0.1 (intOf .int32 b.1) else accAdd c0.1 (decodeF .fp32 b.1)
      (r.1, r.2, c0.2.2 || b.2)
    else c0
  let c := (List.range (f.w.kgrp.toNat + 1)).foldl (fun (c : Nat × Acf × Bool) g =>
    let r := mmaGroup p f sa sb i j g c.1
    (r.1, c.2.1 ||| r.2.1, c.2.2 || r.2.2)) c1
  (⟨BitVec.ofNat 32 c.1, c.2.2⟩, c.2.1 ||| flagIf c.2.2 fPSN)

/-- Elements of a tile computed one by one: the writes and the flags. -/
def tileMap (ps : List (Nat × Nat)) (f : Nat → Nat → Option (Nat × Elem × Acf)) : List (Nat × Elem) × Acf :=
  let rs := ps.filterMap fun p => f p.1 p.2
  (rs.map fun r => (r.1, r.2.1), rs.foldl (fun a r => a ||| r.2.2) 0)

/-- The tile that an MMA leaves. -/
def mmaTile (s : State) (l : Nat) (f : C3Flight) : List (Nat × Elem) × Acf :=
  let t := f.w.acct.toNat
  match pairOf f.fa f.fb, f.slots with
  | some p, sa :: sb :: rest =>
    tileMap (regionPlaces (rowsOf f.w) (colsOf f.w)) fun i j =>
      let r := mmaElem p f sa sb (rest.headD ⟨[], false⟩) (accGet s l t i j) i j
      some (accNo t i j, r.1, r.2)
  | _, _ => ([], 0)

/-! ### Tile words (R332 to R334) -/

/-- Element e of the slots taken (R332): none where a bind-off ended them. -/
def ringElem (f : C3Flight) (e : Nat) : Option (Nat × Bool) :=
  match f.slots with
  | [] => none
  | d :: _ =>
    let k := d.bytes.length / 4
    (f.slots[e / k]?).map fun s => bytesAt s (4 * (e % k)) 4

/-- The tile that a word of the accumulator unit leaves. -/
def accTile (s : State) (l : Nat) (f : C3Flight) : List (Nat × Elem) × Acf :=
  let t := f.w.acct.toNat
  let n := colsOf f.w
  let old (i j : Nat) : Elem := accGet s l t i j
  let ps := regionPlaces (rowsOf f.w) n
  let isInt := f.fa == Fmt.int32.code
  let put (i j : Nat) (r : Nat × Acf) (psn : Bool) : Option (Nat × Elem × Acf) :=
    some (accNo t i j, ⟨BitVec.ofNat 32 r.1, psn⟩, r.2 ||| flagIf psn fPSN)
  match f.op with
  | 2 => tileMap ps fun i j => some (accNo t i j, Elem.zero, 0)
  | 3 => tileMap ps fun i j => (ringElem f (i * n + j)).bind fun x => put i j (x.1, 0) x.2
  | 5 => tileMap ps fun i j => (ringElem f (i * n + j)).bind fun x =>
      let c := (old i j).v.toNat
      put i j (if isInt then accAddInt c (intOf .int32 x.1) else accAdd c (decodeF .fp32 x.1)) ((old i j).psn || x.2)
  | 6 => tileMap ps fun i j => (ringElem f (if f.w.imm.getLsbD 0 then i else j)).bind fun x =>
      let c := (old i j).v.toNat
      let r : Nat × Acf :=
        if isInt then let q := qMul (intOf .int32 c) (intOf .int32 x.1); (wrapInt q.1 32, q.2)
        else
          let p := (decodeF .fp32 c).mul (decodeF .fp32 x.1)
          let q := roundF p.1 .fp32 .rne false
          (q.1, p.2 ||| q.2)
      put i j r ((old i j).psn || x.2)
  | 7 =>
    let d := f.w.imm.toNat % 16
    tileMap ps fun i j =>
      some (if f.w.ta then accNo d j i else accNo d i j, old i j, flagIf (old i j).psn fPSN)
  | _ => ([], 0)

/-! ### Drains (R335 to R338) -/

/-- One drained value of an element format (R336). -/
def drainVal (w : MWord) (o : Fmt) (c : Nat) : Nat × Acf :=
  let sh := w.oshift.toNat
  let rm := rmodeOf w.ornd.toNat
  if w.imm.getLsbD 0 then
    if o.isInt then let r := qShr (intOf .int32 c) sh o; (wrapInt r.1 o.width, r.2)
    else roundF ((FNum.ofInt (intOf .int32 c)).scale (-(sh : Int))) (ffOf o) rm w.osat
  else convert ((decodeF .fp32 c).scale (-(sh : Int))) o rm w.osat

/-- Bytes with one mark. -/
def marked (psn : Bool) (bs : List Byte) : List PByte := bs.map fun b => ⟨b, psn⟩

/-- A list cut into slots of `z` bytes, the last one filled with zeros; `n` bounds the number of slots. -/
def cutSlots (z : Nat) : Nat → List PByte → List (List PByte)
  | 0, _ => []
  | n + 1, bs => (bs.take z ++ List.replicate (z - bs.length) ⟨0, false⟩) :: cutSlots z n (bs.drop z)

/-- Blocks cut into slots of nb, codes before scales (R84, R337). -/
def cutBlocks (z nb bb : Nat) : Nat → List (List PByte × PByte) → List (List PByte)
  | 0, _ => []
  | n + 1, xs =>
    let now := xs.take nb
    let zero (k : Nat) : List PByte := List.replicate k ⟨0, false⟩
    let codes := now.flatMap (·.1)
    let body := codes ++ zero (nb * bb - codes.length) ++ now.map (·.2)
    (body ++ zero (z - body.length)) :: cutBlocks z nb bb n (xs.drop nb)

/-- The slots of an MDRAIN and its flags (R336, R337). -/
def drainSlots (s : State) (l : Nat) (w : MWord) (z : Nat) : List (List PByte) × Acf :=
  let t := w.acct.toNat
  let m := rowsOf w
  let n := colsOf w
  let o := (Fmt.ofCode w.ofmt).getD .fp32
  let c (i j : Nat) : Elem := accGet s l t i j
  if o == .mxfp4 || o == .mxfp8 then
    let ef := ffOf o
    let bb := if o == .mxfp4 then 16 else 32
    let nb := z / (bb + 1)
    let src (e : Nat) : FNum :=
      (if w.imm.getLsbD 0 then FNum.ofInt (intOf .int32 e) else decodeF .fp32 e).scale (-(w.oshift.toNat : Int))
    let blocks := (regionPlaces m (n / 32)).map fun p =>
      let es := (List.range 32).map fun k => c p.1 (32 * p.2 + k)
      let q := mxQuant (es.map fun e => src e.v.toNat) ef (rmodeOf w.ornd.toNat)
      let psn := es.any (·.psn)
      ((marked psn (toLE bb (packElems ef.width q.2.1)), (⟨BitVec.ofNat 8 q.1, psn⟩ : PByte)), q.2.2 ||| flagIf psn fPSN)
    (cutBlocks z nb bb (ceilDiv (m * n) (32 * nb)) (blocks.map (·.1)), blocks.foldl (fun a b => a ||| b.2) 0)
  else
    let ps := if w.ta then (regionPlaces n m).map fun p => (p.2, p.1) else regionPlaces m n
    let es := ps.map fun p =>
      let e := c p.1 p.2
      let r := drainVal w o e.v.toNat
      (marked e.psn (toLE (o.width / 8) r.1), r.2 ||| flagIf e.psn fPSN)
    (cutSlots z (ceilDiv (m * n * (o.width / 8)) z) (es.flatMap (·.1)), es.foldl (fun a e => a ||| e.2) 0)

/-- The slot of an MSTAT (R347). -/
def mstatSlot (s : State) (l : Nat) (z : Nat) : List PByte :=
  let st := if (cx s l).handlerMode then (cx s l).han.hmstat.toNat else (cx s l).mstat.toNat
  marked false (toLE 8 st ++ toLE 8 (now s) ++ List.replicate (z - 16) 0)

/-- MSTAT_C3 cleared by CLR, or HMSTAT in handler mode (R347, R441). -/
def clearMstat (s : State) (l : Nat) : State :=
  modX s l fun x =>
    if x.handlerMode then { x with han := { x.han with hmstat := 0 } } else { x with mstat := x.mstat &&& 0xFF00#64 }

/-! ### Start (R316 to R319, R339, R340) -/

/-- Rings that a flight has still to take slots from or write. -/
def ringsBusy (f : C3Flight) : List Nat :=
  if !f.started then portsRead f.op f.w ++ portsWritten f.op f.w
  else
    (match f.slots with
      | d :: _ => if !f.bof && decide (f.slots.length < slotsOf f.op f.w d.bytes.length) then portsRead f.op f.w else []
      | [] => []) ++
    (match f.out with
      | some (_ :: _) => portsWritten f.op f.w
      | _ => [])

/-- Whether an earlier flight holds a word off its tiles (R148, R318). -/
def tileClash (f : C3Flight) (op : Nat) (w : MWord) : Bool :=
  let fw := tilesWritten f.op f.w
  fw.any (fun t => (tilesRead op w).contains t || (tilesWritten op w).contains t) ||
    (flightReads f).any fun t => (tilesWritten op w).contains t

/-- What keeps a word from starting, behind the flights before it (R316 to R318, R331): at last the banks of its operands (R62). -/
def startHold (s : State) (l : Nat) (op : Nat) (w : MWord) (before : List C3Flight) : Option Hold :=
  let qs := portsRead op w ++ portsWritten op w
  let unitBusy := match unitOf op with
    | .array => before.any (fun f => f.op == 1 && !f.started) || decide (now s < (getCore s l).arrayFree)
    | .acc => before.any fun f => unitOf f.op == .acc
    | .none => false
  if unitBusy || before.any (fun f => tileClash f op w) || before.any (fun f => (ringsBusy f).any qs.contains) ||
      ((op == 9 || op == 0xB || op == 0xC) && !before.isEmpty) then some .busy
  else
    match (scanPorts s l (portsRead op w)).filter fun p => p.2.isNone || !ringTurn s l .c3 p.1 with
    | [] => let rs := (portsRead op w).eraseDups.map fun q => (getRing s l q).headBytes
      if bankTurn s l 0 rs then none else some (.banks 0 rs)
    | ps => some (.flags (ps.map fun p => 64 + p.1))

/-- The tick on which a pinned word starts whose other conditions first hold on tick u, and its lateness there (R339). -/
def pinPlan (stamp : BitVec 32) (u : Nat) : Nat × Nat :=
  let d := (stamp - BitVec.ofNat 32 u).toNat
  if d < 2 ^ 31 then (u + d, 0) else (u, 2 ^ 32 - d)

/-- The lateness of a pinned word that starts now. -/
def lateness (s : State) (w : MWord) (u : Nat) : Nat :=
  if !w.pin then 0
  else
    let p := pinPlan w.stamp u
    if p.2 = 0 then now s - p.1 else p.2

/-- Ticks from start to retirement of an unhindered word (R319). -/
def duration (op : Nat) (w : MWord) (mx : Bool) (bytes : Nat) : Nat :=
  let mn := rowsOf w * colsOf w
  match op with
  | 1 => (if mx then 16 else 32) * (w.kgrp.toNat + 1) + 7
  | 2 => 4
  | 6 | 7 => ceilDiv mn 1024 + 3
  | 3 | 5 => ceilDiv mn 256 + 3
  | 4 => ceilDiv bytes 1024 + 3
  | 9 => 2
  | _ => 1

/-- A word starts (R330, R338, R340, R347): it takes its first slots, a drain forms its slots, the array is occupied, and a late
start is recorded and may trap. -/
def startWord (s : State) (l : Nat) (f : C3Flight) (u : Nat) : State × C3Flight :=
  let late := lateness s f.w u
  let mx := f.op == 1 && f.fa == Fmt.mxfp4.code
  let s := if f.op == 1 then modCore s l fun c =>
      { c with arrayFree := now s + (if mx then 16 else 32) * (f.w.kgrp.toNat + 1) } else s
  let r := takeFirst s l f
  let s := r.1
  let z := slotSize s l f.w.cport.toNat
  let d := if f.op == 4 then drainSlots s l f.w z else if f.op == 9 then ([mstatSlot s l z], 0) else ([], 0)
  let s := if f.op == 9 && f.w.imm.getLsbD 0 then clearMstat s l else s
  let f := { r.2 with
    started := true, start := now s, smiss := decide (0 < late), acf := d.2, out := if f.op == 4 || f.op == 9 then some d.1 else none,
    due := now s + duration f.op f.w mx (d.1.length * z) }
  (if late = 0 then s
   else trace (modX s l fun x =>
       { x with mstat := (x.mstat &&& ~~~0xFFFF0000#64) ||| BitVec.ofNat 64 (min late 65535 * 65536) }) 5 l late
     (f.w.stamp.zeroExtend 64) 0, f)

/-- The schedule-miss trap of a word that has started late (R340). -/
def missTrap (s : State) (l : Nat) (f : C3Flight) (u : Nat) : State :=
  if f.smiss && (cx s l).mstatCtl then
    takeTrap s l ⟨0x06, .c3, BitVec.ofNat 12 (min (lateness s f.w u) 4095), f.pc, f.word, getPc s l .c3, 0⟩
  else s

/-- The i-th flight tries to start: a pinned one notes the tick on which its other conditions first hold. -/
def tryStart (s : State) (l i : Nat) : State :=
  let c := getCore s l
  match c.c3[i]? with
  | none => s
  | some f =>
    if f.started then s
    else match startHold s l f.op f.w (c.c3.take i) with
    | some (.banks who rs) => bankHold s l who rs
    | some _ => s
    | none =>
      let u := f.u.getD (now s)
      if f.w.pin && decide (now s < (pinPlan f.w.stamp u).1) then
        modCore s l fun c => { c with c3 := c.c3.set i { f with u := some u } }
      else
        let r := startWord s l f u
        missTrap (modCore r.1 l fun c => { c with c3 := c.c3.set i r.2 }) l r.2 u

/-- MATRIX_WORD_START (R316, R339, R340). -/
def execMatrixWordStart (l : CoreNum) (i : Nat) (s : State) : Out := .next (tryStart s l.toNat i)

/-! ### Retirement (R315, R319, R323, R342) -/

/-- Further slots of a word taken one at a time (R331). -/
def takeMore (l : Nat) : Nat → State × C3Flight → State × C3Flight
  | 0, a => a
  | n + 1, (s, f) =>
    match portsRead f.op f.w, f.slots with
    | q :: _, d :: _ =>
      if f.bof || decide (slotsOf f.op f.w d.bytes.length ≤ f.slots.length) then (s, f)
      else if !ringTurn s l .c3 q then (s, f)
      else match scanRing (getRing s l q) 1 1 with
        | none => (s, f)
        | some (_, b) =>
          if bankTurn s l 0 [(getRing s l q).headBytes] then
            let t := takeHead s l q false
            takeMore l n (t.1, if b then { f with bof := true } else { f with slots := f.slots ++ [t.2] })
          else (bankHold s l 0 [(getRing s l q).headBytes], f)
    | _, _ => (s, f)

/-- Further slots of a drain written in order; the last one no earlier than the word's due tick (R338). -/
def writeMore (l : Nat) : Nat → State × C3Flight → State × C3Flight
  | 0, a => a
  | n + 1, (s, f) =>
    match f.out with
    | some (b :: bs) =>
      let q := f.w.cport.toNat
      if (getRing s l q).canPush && ringTurn s l .c3 q && (!bs.isEmpty || decide (f.due ≤ now s)) then
        if slotTurn s l 0 q then writeMore l n (commitSlot (serve (useSlot s l 0 q) l .c3 [q]) l q b, { f with out := some bs })
        else (bankHold s l 0 [(getRing s l q).tailBytes], f)
      else (s, f)
    | _ => (s, f)

/-- The word status WS (R323): a pinned MBAR that starts late has bit 5 set beside its value
(DESIGN CHOICE: notes/assumptions/91.md). -/
def wordStatus (f : C3Flight) (acf : Acf) : BitVec 32 :=
  (if f.op == 0xC then f.w.imm.zeroExtend 32 <<< 16 else 0) ||| (if f.bof then 0x40 else 0) |||
    (if f.smiss then 0x20 else 0) ||| acf.zeroExtend 32

/-- Whether a flight has taken and written all of its slots and its time has come.
(DESIGN CHOICE: notes/assumptions/1.md; DESIGN CHOICE: notes/assumptions/34.md). -/
def canRetire (s : State) (f : C3Flight) : Bool :=
  f.started && decide (f.due ≤ now s) && (ringsBusy f).isEmpty

/-- A word retires: its tile takes its values, its status and token follow, and it arrives at its barrier. -/
def retireWord (s : State) (l : Nat) (f : C3Flight) : State :=
  let t := if f.op == 1 then (if f.bof then ([], 0) else mmaTile s l f)
    else if f.bof && f.slots.isEmpty then ([], 0) else accTile s l f
  let ws := wordStatus f (f.acf ||| t.2)
  let s := wsOr (accPut s l t.1) l f.handler (ws.setWidth 8)
  let s := if f.w.tok.dst = 0 then s else tokPushRes s l 5 f.w.tok.dst.toNat
  if f.w.ben then c3Arrive s l f.w.bar.toNat f.pc f.word ws else s

/-- Whether a flight has ring writes to come: an arrival of a later word releases them, and waits (R342). -/
def writesLeft (f : C3Flight) : Bool := if f.started then !(f.out.getD []).isEmpty else !(portsWritten f.op f.w).isEmpty

/-- Whether the arrival of the i-th flight must wait: for ring writes of earlier words, or for its turn at a home that is its own core
(R261, R342). -/
def benHeld (s : State) (l i : Nat) (f : C3Flight) : Bool :=
  f.w.ben && (((getCore s l).c3.take i).any writesLeft || arrivalHeld s l f.w.bar.toNat)

/-- The i-th flight goes on: it takes and writes slots, and retires when it has done all. -/
def tryRetire (s : State) (l i : Nat) : State :=
  match (getCore s l).c3[i]? with
  | none => s
  | some f =>
    if !f.started then s
    else
      let a := takeMore l 65536 (s, f)
      let b := writeMore l ((f.out.getD []).length) a
      if canRetire b.1 b.2 && !benHeld b.1 l i f then
        retireWord (modCore b.1 l fun c => { c with c3 := c.c3.eraseIdx i }) l b.2
      else modCore b.1 l fun c => { c with c3 := c.c3.set i b.2 }

/-- MATRIX_WORD_RETIREMENT (R315, R319) (DESIGN CHOICE: notes/assumptions/34.md). -/
def execMatrixWordRetirement (l : CoreNum) (i : Nat) (s : State) : Out := .next (tryRetire s l.toNat i)

/-- A word in flight lands as its launch is killed (R433): one that has its slots and can write its own retires at once.
(DESIGN CHOICE: notes/assumptions/92.md). -/
def landWord (s : State) (l : Nat) (f : C3Flight) : State :=
  if !f.started then s
  else
    let a := takeMore l 65536 (s, { f with due := 0 })
    let b := writeMore l ((f.out.getD []).length) a
    if canRetire b.1 b.2 then retireWord b.1 l b.2 else b.1

/-- The words of C3 in flight land, oldest first: nothing else moves on the core any more (DESIGN CHOICE: notes/assumptions/92.md). -/
def landC3 (s : State) (l : Nat) : State :=
  (getCore s l).c3.foldl (fun s f => landWord s l f)
    (modCore s l fun c => { c with served := [], bankQ := [], tk := { c.tk with banks := [], homeTurn := 0 } })

/-- Slots whose MMA has ended its occupancy of the array are freed (R319) (DESIGN CHOICE: notes/assumptions/34.md). -/
def freeKept (s : State) (l : Nat) : State :=
  let c := getCore s l
  let done (f : C3Flight) : Bool := f.started && !f.keep.isEmpty && decide (c.arrayFree ≤ now s)
  let s := (c.c3.filter done).foldl (fun s f => f.keep.foldl (fun s k => modRing s l k.1 fun r => r.release k.2) s) s
  modCore s l fun c => { c with c3 := c.c3.map fun f => if done f then { f with keep := [] } else f }

/-! ### Issue (R121, R316, R352) -/

/-- Whether the mode forbids a word's ports and tiles (R106, R352, R438, R441). -/
def modeBad (s : State) (l : Nat) (w : MWord) (qs ts : List Nat) (hOk : Bool) : Bool :=
  let x := cx s l
  if x.handlerMode then
    !x.hmm || !hOk || w.pin || w.ben || (qs.any fun q => decide (q < 28)) || (ts.any fun t => decide (t < x.accLimit)) ||
      ((w.tok.dst.toNat :: tokSrcs w.tok).any fun p => decide (2 < p))
  else (ts.any fun t => decide (x.accLimit ≤ t)) || (x.hmm && qs.any fun q => decide (28 ≤ q))

/-- A pinned word of a flight holds C3's issue until it starts (R339, R444). -/
def pinWaits (s : State) (l : Nat) : Bool := (getCore s l).c3.any fun f => f.w.pin && !f.started

/-- After its issue a word closes its loop and the next word follows, or a branch target (R159, R349). -/
def advanceC3 (s : State) (l : Nat) (w : MWord) (pc : Word) : State :=
  let s := if w.lb then (closeLoop s l .c3).1 else s
  setPc (note s l .c3 .issue []) l .c3 pc

/-- A word of C3: its legality in the mode and at issue, its tokens and lockstep, and then its own effect; `op` names its ports
and tiles. -/
def matWord (w : MWord) (op : Nat) (hOk : Bool) (legal : State → Nat → Bool) (hold : State → Nat → Option Hold)
    (go : State → Nat → State) (s : State) : Out :=
  let l := s.current.core
  let rd := portsRead op w
  let wr := portsWritten op w
  let ts := tilesRead op w ++ tilesWritten op w
  .next <|
    if s.current.eng != .c3 || tokSelf .c3 w.tok || modeBad s l w (rd ++ wr ++ portsNamed op w) ts hOk || ringIllegal s l rd wr ||
        !legal s l then
      illegal s
    else
      let toks := tokWaits s l .c3 w.tok
      let h : Option Hold :=
        if !toks.isEmpty then some (.flags toks)
        else if pinWaits s l then some .busy
        else if w.lb && c0Behind s l .c3 (effPos s l .c3) then some (.flags [210])
        else hold s l
      wideGate s l .c3 w.s 1 h none fun s => go (markEp (takeToks s l .c3 w.tok) l) l

/-- The flight of a word at issue. -/
def newFlight (s : State) (l : Nat) (op : Nat) (w : MWord) : C3Flight :=
  ⟨op, w, s.current.word, getPc s l .c3, fmtEntry s l w.aport.toNat, fmtEntry s l w.bport.toNat, fmtEntry s l w.cport.toNat,
    (cx s l).handlerMode, false, 0, none, [], false, false, [], 0, none, 0⟩

/-- The hold of a word that starts on its issue tick; a pinned one waits for its STAMP (R316, R339). EngSt.notBefore keeps U + 1
while such a word stands at the head. -/
def issueHold (op : Nat) (w : MWord) (s : State) (l : Nat) : Option Hold :=
  match startHold s l op w (getCore s l).c3 with
  | some h => some h
  | none =>
    let nb := (getEng s l .c3).notBefore
    let u := if nb = 0 then now s else nb - 1
    if w.pin && decide (now s < (pinPlan w.stamp u).1) then some (.until (u + 1) []) else none

/-- A word that starts on its issue tick. -/
def issueStart (op : Nat) (w : MWord) (s : State) (l : Nat) : State :=
  let nb := (getEng s l .c3).notBefore
  let u := if nb = 0 then now s else nb - 1
  let r := startWord s l (newFlight s l op w) u
  let s := modCore r.1 l fun c => { c with c3 := c.c3 ++ [r.2] }
  let s := modEng s l .c3 fun t => { t with notBefore := 0 }
  missTrap (advanceC3 s l w (getPc s l .c3 + 24)) l r.2 u

/-- A word that issues into the array buffer, or that waits for its turn to retire (R316, R348). -/
def issueLater (op : Nat) (w : MWord) (s : State) (l : Nat) : State :=
  let f := newFlight s l op w
  advanceC3 (modCore s l fun c => { c with c3 := c.c3 ++ [f] }) l w (getPc s l .c3 + 24)

/-- A word that completes as it issues: its token follows at once. -/
def issueDone (w : MWord) (s : State) (l : Nat) (pc : Word) : State :=
  let s := advanceC3 s l w pc
  if w.tok.dst = 0 then s else tokPushRes s l 5 w.tok.dst.toNat

/-- A word that waits at issue until every earlier C3 word has retired. -/
def afterAll (s : State) (l : Nat) : Option Hold := if (getCore s l).c3.isEmpty then none else some .busy

end Sys2Proof.Machine
end

