-- ==== Sys2Proof/Machine/Schedule.lean ====
section
/-! DEFINITION. What the device does with records, launches and gangs on its own: pushes, selection and start, retirement, ends
and kills, pre-emption, and the context-save engine (R381, R386 to R413, R433 to R447). -/

namespace Sys2Proof.Machine

/-! ### Launch entry and record start (R386, R387) -/

/-- Launch entry on a core (R387, R489). -/
def launchEntry (s : State) (l : Nat) (la : Launch) : State :=
  modCore (clearSp s l) l fun c =>
    { c with
      needEntry := false
      x := { c.x with
        rings := c.x.rings.map (fun r => { Ring.reset with gen := r.gen + 1 }), rgnend := 0, baren := false
        v1 := Vector.replicate 64 VReg.zero, v2 := Vector.replicate 64 VReg.zero
        p1 := Vector.replicate 16 0, p2 := Vector.replicate 16 0, tiles := [], acc := []
        vstat1 := 0, vstat2 := 0, mstat := 0, mstatCtl := false, mpfmt := Vector.replicate 32 0, mbph := [], convAcf := 0
        accLimit := 16, hmm := false, asid := la.asid, cls := [], residentLid := la.lid } }

/-- An engine that starts a record at an address. -/
def startEng (pc : Word) : EngSt := { EngSt.reset with pc := pc }

/-- The state of a core when a record starts on it (R386). -/
def startCtxt (x : Ctxt) (la : Launch) (img : Rec) (ep : Nat) (role : Nat) : Ctxt :=
  let code : Vector Code 5 :=
    (List.range 5).foldl (fun v g => vset v g (la.code.getD (5 * img.sel.toNat + g) ⟨0, 0⟩)) (Vector.replicate 5 ⟨0, 0⟩)
  let args : List Word := [0, la.args, img.wid, img.fp, img.a0, img.a1, img.a2]
  { x with
    apRegs := (List.range 32).foldl (fun v i => vset v i (args.getD i 0)) x.apRegs
    kap := Vector.replicate 8 false, kc0 := Vector.replicate 8 false, eRegs := Vector.replicate 16 0
    engs := (List.range 5).foldl (fun v g => vset v g (startEng (vget ⟨0, 0⟩ code g).base)) x.engs
    loops := x.loops.map fun p => (p.1, p.2.1, p.2.2.1, false), mask := 15, ease := Vector.replicate 5 0, maskNext := none
    easeNext := Vector.replicate 5 none, rb1 := 0, rb2 := 0, handlerMode := false, residentLid := la.lid
    role := BitVec.ofNat 2 role
    run := some { img := img, lid := la.lid, code := code, eprio := BitVec.ofNat 2 ep, ended := none, epIssued := false,
                  inTake := false, retired := false } }

/-- The role of a core in a gang launch (R395, R402). -/
def roleOf (la : Launch) (l : Nat) : Nat :=
  match la.gang with
  | none => 0
  | some g => ((g.1.zipIdx).find? fun r => (List.range r.1.ncores).any fun k => la.place.getD (r.1.first + k) 256 == l).map (·.2) |>.getD 0

/-- A record starts on a core (R108, R386, R387). -/
def startRec (s : State) (l : Nat) (la : Launch) (q : QRec) (ep : Nat) : State :=
  let s := if (cx s l).residentLid != la.lid || (getCore s l).needEntry then launchEntry s l la else s
  let s := modLaunch s la.lid fun k => { k with lease := k.lease || !k.wsl }
  let s := modCore s l fun c =>
    { c with wdogCnt := 0, apWait := .none, apWatch := none, apFar := [], fetchFar := [], x := startCtxt c.x la q.img ep (roleOf la l) }
  trace s 1 l q.img.sel.toNat q.img.wid (BitVec.ofNat 64 q.img.depth.toNat)

/-! ### Which records may start (R392, R393, R403, R405, R448) -/

/-- The gang at the head of the admission queue. -/
def headGang (s : State) : Option Launch := s.launches.find? fun k => k.st == .gangHead

/-- Whether a partition holds back the launches of an ASID (R448). -/
def partHeld (s : State) (asid : BitVec 12) : Bool :=
  s.parts.any fun p => p.2.asids.contains asid && (p.2.st == .halted || p.2.st == .saved)

/-- Whether a WSLOAD transfer is in flight anywhere (R108). -/
def wsloadRuns (s : State) : Bool := s.cores.any fun c => c.2.ce.any fun x => x.wsl && x.started

/-- Whether the resident launch of a core still has work there (R393, R396). -/
def residentBusy (s : State) (l : Nat) : Bool :=
  let c := getCore s l
  c.x.residentLid != 0 && ((c.sram ++ c.back ++ c.waits ++ c.ovf).any (fun q => q.lid == c.x.residentLid) ||
    (match c.x.run with
     | some r => r.lid == c.x.residentLid
     | none => false))

/-- Whether a record may start on a core as far as gangs, partitions, leases and saved contexts go (R108, R393, R403, R405).
(DESIGN CHOICE: notes/assumptions/93.md). -/
def mayEnter (s : State) (l : Nat) (q : QRec) : Bool :=
  let c := getCore s l
  match getLaunch s q.lid with
  | none => false
  | some la =>
    la.st != .ended && !dying s q.lid && !partHeld s la.asid &&
      (match c.bound with
       | some b => b == q.lid
       | none => true) &&
      (!c.claim || (match headGang s with
        | some h => decide (la.order < h.order)
        | none => true)) &&
      !(c.saved.any fun v => v.lid == q.lid) && (la.lease || la.wsl || !wsloadRuns s)

/-- The priority of a record's launch. -/
def prioOf (s : State) (q : QRec) : Nat := match getLaunch s q.lid with
  | some la => la.prio
  | none => 0

/-- EP of R392. -/
def epOf (s : State) (q : QRec) : Nat := min 3 (prioOf s q + (now s - q.entry) / 2 ^ 20)

/-- The records that a core holds queued or parked where selection looks (R392). -/
def lookedAt (c : Core) : List QRec := c.sram ++ c.waits ++ c.ovf

/-- The eligible records that may start on a core, apart from who is resident (DESIGN CHOICE: notes/assumptions/27.md). -/
def starters (s : State) (l : Nat) : List QRec := (lookedAt (getCore s l)).filter fun q => eligible s l q && mayEnter s l q

/-- The most recently saved context of a core whose partition is not held (R397, R448). -/
def savedTop (s : State) (l : Nat) : Option Saved :=
  (getCore s l).saved.find? fun v => match getLaunch s v.lid with
    | some la => !partHeld s la.asid
    | none => true

/-- C of R392. -/
def candidates (s : State) (l : Nat) : List QRec :=
  let c := getCore s l
  (starters s l).filter fun q =>
    (q.lid == c.x.residentLid || !residentBusy s l) &&
      (residentBusy s l || (match savedTop s l with
        | some v => decide (v.prio < prioOf s q)
        | none => true))

/-- The best of a list: the greatest EP, then the least ENTRY, then the earlier place (R392). -/
def bestRec (s : State) : List QRec → Option QRec
  | [] => none
  | q :: t => match bestRec s t with
    | none => some q
    | some r =>
      let a := epOf s q
      let b := epOf s r
      if b < a || (a == b && (q.entry < r.entry || (q.entry == r.entry && (q.org < r.org || (q.org == r.org && q.seq < r.seq))))) then some q else some r

/-- Whether a core may begin a record: it runs none, and nothing holds it. -/
def coreFree (s : State) (l : Nat) : Bool :=
  let c := getCore s l
  decide (l < 192) && c.x.run.isNone && !isVacant s l && !c.halted && c.stop == .none && c.trap.isNone &&
    !(getBlock s (blockOf l)).gated

/-- A record taken out of a core's queues by its place in the order. -/
def popRec (s : State) (l : Nat) (q : QRec) : State :=
  let keep (r : QRec) : Bool := r.seq != q.seq
  refillWaits (modCore s l fun c =>
    { c with sram := c.sram.filter keep, waits := c.waits.filter keep, ovf := c.ovf.filter keep }) l

/-- RECORD_SELECTION (R392): a free core selects a record, and starts it (DESIGN CHOICE: notes/assumptions/27.md). -/
def execRecordSelection (l : CoreNum) (s : State) : Out :=
  let n := l.toNat
  .next <| if !coreFree s n then s
    else match bestRec s (candidates s n) with
      | none => s
      | some q => match getLaunch s q.lid with
        | none => s
        | some la => startRec (popRec s n q) n la q (epOf s q)

/-! ### The end of a record (R245 to R248) -/

/-- Whether the clusters hold an ended record back (R245): they have finished its code, or a WAITF parks the record before any word
of it has issued, so that it frees its core (R249, R414) (DEDUCED: notes/assumptions/29.md). -/
def clustersDone (s : State) (l : Nat) : Bool :=
  clusters.all (finished s l) || (match (cx s l).run with
    | some r => runWatches (cx s l) && !r.epIssued
    | none => false)

/-- Whether an ended record may retire (R245): its clusters have finished, its streams are CLOSED or DONE, and the CE is
empty. -/
def mayRetire (s : State) (l : Nat) : Bool :=
  clustersDone s l && (cx s l).streams.toList.all (fun t => t.st == .closed || t.st == .done) &&
    (getCore s l).ce.isEmpty && (getCore s l).apq.isEmpty && !(cx s l).handlerMode && (getCore s l).trap.isNone &&
    !apWaits s l

/-- The record retires (R245): its streams become CLOSED, and tokens and branch outcomes are discarded (R386). Its join action
follows, and the core begins no other record before that is done (DESIGN CHOICE: notes/assumptions/28.md). -/
def closeRec (s : State) (l : Nat) : State :=
  let img := runImg s l
  modX (trace s 2 l img.sel.toNat img.wid (BitVec.ofNat 64 img.depth.toNat)) l fun x =>
    { x with streams := x.streams.map closed, fifo := [], fifoRes := [], boq := [], run := x.run.map fun r => { r with retired := true } }

/-- The retired record leaves its core. -/
def leaveCore (s : State) (l : Nat) : State :=
  modCore (dropWaiter s l) l fun c => { c with apWatch := none, apFar := [], fetchFar := [], x := { c.x with run := none } }

/-- The ended record is gone: it leaves its core, LIVE and its group. -/
def recGone (s : State) (l : Nat) (la : Launch) (wid : Word) : State :=
  groupEnds (detAdd (leaveCore s l) la.lid 0 (-1)) la.lid wid

/-- The continuation of a join object sets out for its core, as the ended record leaves (R246, R247). -/
def pushCont (s : State) (l : Nat) (la : Launch) (wid : Word) (img : Rec) : State :=
  if isVacant s (placeCore la img.wid) then killTask (recGone s l la wid) la.lid 0x04
  else groupEnds (modCore (leaveCore s l) l fun k => { k with conts := k.conts ++ [(img, la.lid, placeCore la img.wid)] }) la.lid wid

/-- The continuation read from the join object of the ended record (R246): an image that breaks R385 kills the task with
fault 0x1D. -/
def contRead (s : State) (l : Nat) (la : Launch) (run : Running) : Gen State :=
  let ea := run.img.jaddr + 0x40
  (apSpot s l ea 64 .read).bind fun p s =>
    if !joinPage p then .bad (FInfo.plain 0x1D) ea s
    else (spotNat s l ea p).bind fun x s =>
      .ok (if imgOk la x then pushCont s l la run.img.wid (recOf x) else killTask (recGone s l la run.img.wid) la.lid 0x1D) s

/-- The reference of the ended record released at device scope (R246, R247): a count above 0 ends there, one below 0 kills the
task, and `last` follows at 0. -/
def releaseRef (s : State) (l : Nat) (la : Launch) (wid ja : Word) (last : State → Gen State) : Gen State :=
  (joinAmo s l ja (-1)).bind fun c s =>
    if c < 0 then .ok (killTask (recGone s l la wid) la.lid 0x05) s
    else if 0 < c then .ok (recGone s l la wid) s
    else last s

/-- A step of the join action as the core sees it: a fault of its accesses holds it back (DESIGN CHOICE: notes/assumptions/28.md). -/
def joinStep (l : Nat) (g : Gen State) : State :=
  match g with
  | .ok t _ => t
  | .wait s | .hold s => s
  | .bad f va s => apFault s l f .amo va

/-- JOIN's image written at its object (R247); once it has been performed at device scope the reference is released. -/
def joinWrite (s : State) (l : Nat) (a : Word) (img : Rec) : Gen State :=
  match joinFault a with
  | some c => .bad (FInfo.plain c) a s
  | none =>
    (apSpot s l (a + 0x40) 64 .write).bind fun p s =>
      match p with
      | .sp .. => .bad (FInfo.plain 0x1D) a s
      | .parts ps =>
        if !joinPage p then .bad (FInfo.plain 0x1D) a s
        else match joinPages s l a with
        | some f => .bad f.1 f.2 s
        | none =>
        if crosses s l ps || !ackRoom s l (awayParts l ps) then .hold s
        else .ok (setEnd (writeAll s l .ap 0 (a.toNat / 2 ^ 60) 0xF ps ((recBytes img).map fun b => ⟨b, false⟩)).1 l (.joined a img)) s

/-- The join action of an ended record at its retirement, a step at a time (R246 to R249) (DESIGN CHOICE: notes/assumptions/28.md). -/
def retireRec (s : State) (l : Nat) (la : Launch) (run : Running) (k : EndKind) : State :=
  let wid := run.img.wid
  match k with
  | .exit =>
    if run.img.jaddr = 0 then recGone s l la wid
    else joinStep l (releaseRef s l la wid run.img.jaddr fun s => .ok (setEnd s l .cont) s)
  | .cont => joinStep l (contRead s l la run)
  | .join a img => joinStep l (joinWrite s l a img)
  | .joined a img =>
    if writesOut s l .ap 0 then s
    else joinStep l (releaseRef s l la wid a fun s => .ok (pushCont s l la wid img) s)
  | .park img => groupEnds (groupBegins (placeParked (leaveCore s l) l (newQRec s img la.lid none)) la.lid img.wid) la.lid wid
  | .waitf line woken => placeParked (leaveCore s l) l { newQRec s run.img la.lid (some line) with woken := woken }

/-- RECORD_RETIREMENT (R245): the record retires, and then a step of its join action. -/
def execRecordRetirement (l : CoreNum) (s : State) : Out :=
  let n := l.toNat
  .next <| match (cx s n).run with
    | none => s
    | some r => match r.ended, getLaunch s r.lid with
      | some k, some la =>
        if dying s r.lid || apWaits s n then s
        else if r.retired then retireRec s n la r k
        else if mayRetire s n then retireRec (closeRec s n) n la r k
        else s
      | _, _ => s

/-- CONTINUATION_PUSH (R246): the oldest continuation of a core is pushed once its queue has space. The record that retired
leaves LIVE as the continuation enters it (R410). -/
def execContinuationPush (l : CoreNum) (s : State) : Out :=
  let n := l.toNat
  .next <| match (getCore s n).conts with
    | [] => s
    | t :: rest =>
      if isVacant s t.2.2 then killTask (modCore s n fun c => { c with conts := rest }) t.2.1 0x04
      else if !queueRoom s t.2.2 then s
      else
        let s := modCore s n fun c => { c with conts := rest }
        pushRec (detAdd (detAdd s t.2.1 0 1) t.2.1 0 (-1)) t.2.2 t.1 t.2.1 (pusher n t.2.2)

/-- WATCH_WAKE (R249): a parked record whose line has been written becomes eligible. -/
def execWatchWake (l : CoreNum) (i : Nat) (s : State) : Out :=
  let n := l.toNat
  let wake (q : QRec) : QRec := if q.woken then { q with awake := true } else q
  let at' (j : Nat) (qs : List QRec) : List QRec := (qs.zipIdx).map fun q => if q.2 == j then wake q.1 else q.1
  let c := getCore s n
  let w := c.waits.length
  let o := c.ovf.length
  .next <| modCore s n fun c =>
    { c with waits := at' i c.waits, ovf := if w ≤ i then at' (i - w) c.ovf else c.ovf,
             sram := if w + o ≤ i then at' (i - w - o) c.sram else c.sram }

/-! ### Launches and gangs (R381, R403 to R413) -/

/-- Whether the pushes of this tick that R389 puts before those of admission have been made: no AP has a try left, and no continuation
waits for the queue. -/
def pushesDone (s : State) (l : Nat) : Bool :=
  s.cores.all fun c => !canTry s c.1 .ap && c.2.conts.all fun t => t.2.2 != l

/-- ROOT_RECORD_PUSH (R381, R389, R448): the next root record of a launch (DEDUCED: notes/assumptions/25.md). -/
def execRootRecordPush (lid : BitVec 16) (s : State) : Out :=
  .next <| match getLaunch s lid with
    | none => s
    | some la => match la.st with
      | .rooting n =>
        if dying s lid || partHeld s la.asid then s
        else if la.count ≤ n then modLaunch s lid fun k => { k with st := .running }
        else
          let wid := BitVec.ofNat 64 n
          let c := placeCore la wid
          if isVacant s c then killTask s lid 0x04
          else if !queueRoom s c || !pushesDone s c then s
          else
            modLaunch (pushRec s c { Rec.zero with wid := wid } lid fromAdmission) lid fun k =>
              { k with st := if k.count ≤ n + 1 then .running else .rooting (n + 1) }
      | _ => s

/-- The placement indices of a gang's cores, role by role. -/
def gangCores (la : Launch) : List Nat :=
  match la.gang with
  | none => []
  | some g => g.1.flatMap fun r => (List.range r.ncores).map fun k => la.place.getD (r.first + k) 0

/-- The oldest waiting gang becomes the head and claims its cores (R403, R406). -/
def promoteGang (s : State) : State :=
  match headGang s with
  | some _ => s
  | none =>
    match s.launches.foldl (fun (b : Option Launch) k =>
      if k.st != .gangWaiting then b
      else match b with
        | none => some k
        | some h => if k.order < h.order then some k else b) none with
    | none => s
    | some k =>
      (gangCores k).foldl (fun s l => modCore s l fun c => { c with claim := true })
        (modLaunch s k.lid fun k => { k with st := .gangHead })

/-- Whether a claimed core is free for the head gang (R403); its block must be powered to take the role record (R492), and a core that
has become vacant holds nothing. An older launch is one that ADMISSION accepted earlier; for a gang that is its entry into the queue
(DESIGN CHOICE: notes/assumptions/75.md; DESIGN CHOICE: notes/assumptions/93.md). -/
def freeFor (s : State) (h : Launch) (l : Nat) : Bool :=
  let c := getCore s l
  isVacant s l || c.x.run.isNone && c.saved.isEmpty && c.bound.isNone && c.stop == .none && powered s l &&
    (c.sram ++ c.back ++ c.waits ++ c.ovf).all fun q => match getLaunch s q.lid with
      | some k => decide (h.order < k.order)
      | none => true

/-- The descriptor of a pipe's stream (R404). -/
def pipeDesc (p : Pipe) (dst : Nat) : BitVec 1024 :=
  let ctl := 2 + 5 * 2 ^ 3 + p.fmt * 2 ^ 6 + p.sring * 2 ^ 10 + dst * 2 ^ 20 + p.dring * 2 ^ 28
  let big := 2 ^ 32 - 32
  let five (lo x : Nat) : Nat := forUp 5 0 fun i a => a + x * 2 ^ (8 * (lo + 4 * i))
  BitVec.ofNat 1024 (ctl + five 0x10 big + five 0x38 big + 2 ^ (8 * 0x4C) + 2 ^ (8 * 0x50))

/-- A ring of a pipe configured on a core. -/
def pipeRing (s : State) (l q base z n : Nat) : State :=
  modRing s l q fun r => { Ring.reset with base := base, z := z, n := n, gen := r.gen + 1 }

/-- Step 2 to 4 of R404 for one core. -/
def gangCore (s : State) (la : Launch) (r : Role) (l : Nat) : State :=
  let s := modCore (launchEntry s l la) l fun c => { c with bound := some la.lid, claim := false }
  modX s l fun x => { x with rgnend := r.rgnend, baren := r.baren }

/-- The rings and the stream of one pipe between one pair of cores. -/
def gangPipe (s : State) (p : Pipe) (src dst : Nat) : State :=
  let s := pipeRing (pipeRing s src p.sring p.sbase p.zu p.sns) dst p.dring p.dbase p.zu p.dns
  modStream s src p.strm fun t =>
    { openAt' { Stream.reset with desc := pipeDesc p dst, tlb := t.tlb } (now s) (Vector.replicate 5 0) with firstXfer := true }

/-- GANG_ADMISSION (R404): the head gang is admitted in one action once every core it claims is free; one of them that has become
vacant meanwhile has the fate of R17 and R381 (DESIGN CHOICE: notes/assumptions/93.md). -/
def execGangAdmission (s : State) : Out :=
  .next <| match headGang s with
    | none => s
    | some la =>
      match la.gang with
      | none => s
      | some (roles, pipes) =>
        let core (r : Role) (k : Nat) : Nat := la.place.getD (r.first + k) 0
        if dying s la.lid || partHeld s la.asid || !(gangCores la).all (freeFor s la) then s
        else if (gangCores la).any (isVacant s) then killTask s la.lid 0x04
        else
          let each (s : State) (f : State → Role → Nat → Nat → State) : State :=
            (roles.zipIdx).foldl (fun s r => (List.range r.1.ncores).foldl (fun s k => f s r.1 r.2 k) s) s
          let s := each s fun s r _ k => gangCore s la r (core r k)
          let s := pipes.foldl (fun s p =>
            match roles[p.srole]?, roles[p.drole]? with
            | some a, some b => (List.range a.ncores).foldl (fun s k => gangPipe s p (core a k) (core b k)) s
            | _, _ => s) s
          let s := detAdd s la.lid 0 (roles.foldl (fun n r => n + r.ncores) 0)
          let s := each s fun s r i k => pushRec s (core r k)
            { Rec.zero with sel := BitVec.ofNat 8 r.sel, wid := BitVec.ofNat 64 (r.first + k), a0 := BitVec.ofNat 64 i,
                            a1 := BitVec.ofNat 64 k } la.lid fromAdmission
          promoteGang (modLaunch s la.lid fun k => { k with st := .running })

/-- DETECTOR_COPY_UPDATE (R410): die 1's copy takes the oldest update, at least 6 ticks after die 0 held it. -/
def execDetectorCopyUpdate (s : State) : Out :=
  .next <| match s.detUpd with
    | [] => s
    | u :: rest =>
      if now s < u.tick + 6 then s
      else
        let s := modLaunch { s with detUpd := rest } u.lid fun k => { k with items1 := u.items, live1 := u.live, term1 := u.term }
        if u.term then termTakes s u.lid 1 else s

/-- The groups of a launch that have records now. -/
def liveGroups (s : State) (la : Launch) : List Nat := ((recsOf s la.lid).map fun r => placeIdx la r.wid).eraseDups

/-- REPLAN_EVENT (R411): a group has been finished for more than SKEW_BOUND ticks while another is not; raised once. -/
def execReplanEvent (lid : BitVec 16) (s : State) : Out :=
  .next <| match getLaunch s lid with
    | none => s
    | some la =>
      let live := liveGroups s la
      match la.finished.find? fun g => g.2 != 0 && !live.contains g.1 && decide (la.skew < now s - (g.2 - 1)) with
      | some g =>
        if la.skew = 0 || la.replan || la.st == .ended || live.isEmpty then s
        else { modLaunch s lid (fun k => { k with replan := true }) with
               replans := s.replans ++ [(lid, g.2 - 1, live.length)] }
      | none => s

/-- Whether every write of a launch has been performed (R376), arrivals and barrier requests on their way among them. -/
def writesDone (s : State) (lid : BitVec 16) : Bool :=
  s.transit.all (fun t => t.lid != lid) && s.barMsgs.all fun m => m.lid != lid

/-- Whether no record of a launch is left in any state of R394. -/
def noRecords (s : State) (lid : BitVec 16) : Bool :=
  (s.cores.map (·.2) ++ putBy s).all fun c => (coreRecs c).all (fun r => r.1 != lid) && c.saved.all fun v => v.lid != lid

/-- A core as the end of a launch leaves it: its binding is released, and launch entry runs before the next record there, whatever
number that record's launch has been given (R387, R412). -/
def endOn (lid : BitVec 16) (c : Core) : Core :=
  { c with bound := if c.bound == some lid then none else c.bound, needEntry := c.needEntry || c.x.residentLid == lid,
           x := if c.x.residentLid == lid then { c.x with residentLid := 0 } else c.x }

/-- The items left in a launch's lists. -/
def itemsLeft (s : State) (la : Launch) : Nat :=
  forUp 2 0 fun d n => (List.range la.lcnt).foldl (fun n i => n + (getList s d (la.lbase + i)).length) n

/-- The lists of a launch emptied (R409). -/
def dropLists (s : State) (la : Launch) : State :=
  forUp 2 s fun d s => (List.range la.lcnt).foldl (fun s i => setTakers (setList s d (la.lbase + i) []) d (la.lbase + i) []) s

/-- LAUNCH_END (R412, R413, R376): lists, lease and cores are released, and the end is reported. -/
def execLaunchEnd (lid : BitVec 16) (s : State) : Out :=
  .next <| match getLaunch s lid with
    | none => s
    | some la =>
      if !(la.st == .running || la.killed != 0) || la.st == .ended || dying s lid || !noRecords s lid || !writesDone s lid then s
      else
        let w := la.lid.toNat + 2 ^ 24 * la.killed.toNat + 2 ^ 32 * b2n la.replan
        let s' := cqPut (dropLists s la) la.tag w (now s) (itemsLeft s la)
        let s' := modLaunch s' lid fun k => { k with st := .ended, lease := false, discarded := itemsLeft s la }
        episodesEnd (promoteGang (allCores s' (endOn lid))) lid

/-! ### Kills (R374, R433) -/

/-- A core whose running record is killed: its engines stop, and its streams and the CE end. -/
def killRun (c : Core) : Core :=
  { c with
    vfl := [], c3 := [], apq := [], apWait := .none, apWatch := none, apFar := [], fetchFar := [], apFlt := .clear, fetchWait := false, ce := []
    ceFlt := .clear, trap := none, stop := if c.stop == .halt || c.stop == .stopped then c.stop else .none, needEntry := true
    c3Wait := .none, tried := []
    x := { c.x with
      streams := c.x.streams.map closed, fifo := [], fifoRes := [], boq := [], run := none, handlerMode := false
      engs := Vector.replicate 5 EngSt.reset, han := { c.x.han with fifo := [], reserved := [], c3pc := none, start := false, leave := false } } }

/-- The barrier requests of a killed launch that are on their way: those that write are performed all the same, and no one hears the
answer (R374). -/
def killMsgs (s : State) (lid : BitVec 16) : State :=
  { s with barMsgs := s.barMsgs.filterMap fun m => match m with
      | .request fn c home n b k dead =>
        if k != lid then some (.request fn c home n b k dead) else if fn ≤ 1 then some (.request fn c home n b k true) else none
      | m => some m }

/-- A core that holds the running record of a killed launch: results land, those of C3 too (R433), and the record ends.
(DESIGN CHOICE: notes/assumptions/92.md). -/
def killRunning (s : State) (l : Nat) : State := modCore (landC3 (landAll (dropWaiter s l) l) l) l killRun

/-- A core that a killed launch leaves: its records are removed, its shadow slots freed, and launch entry runs before any
other record starts. -/
def killRecs (lid : BitVec 16) (c : Core) : Core :=
  let held := (coreRecs c).any (·.1 == lid) || c.saved.any (·.lid == lid) || c.x.residentLid == lid
  let keep (q : QRec) : Bool := q.lid != lid
  refillCore { c with
    sram := c.sram.filter keep, back := c.back.filter keep, waits := c.waits.filter keep, ovf := c.ovf.filter keep
    conts := c.conts.filter fun t => t.2.1 != lid, saved := c.saved.filter fun v => v.lid != lid
    bound := if c.bound == some lid then none else c.bound, needEntry := c.needEntry || held
    x := if c.x.residentLid == lid then { c.x with residentLid := 0 } else c.x }

/-- A killed launch taken from a core of the device. -/
def killOnCore (s : State) (lid : BitVec 16) (l : Nat) : State :=
  modCore (if runsLid lid (getCore s l) then killRunning s l else s) l (killRecs lid)

/-- A killed launch taken from what saved partitions have put by (R394, R448). -/
def killPutBy (s : State) (lid : BitVec 16) : State :=
  { s with parts := s.parts.map fun p => (p.1, { p.2 with save := p.2.save.map fun v =>
      (v.1, killRecs lid (if runsLid lid v.2.1 then killRun v.2.1 else v.2.1), v.2.2) }) }

/-- The claims of the head gang withdrawn (R406), on cores that saved partitions have put by too. -/
def dropClaims (s : State) (la : Launch) : State :=
  let s := (gangCores la).foldl (fun s l => modCore s l fun c => { c with claim := false }) s
  { s with parts := s.parts.map fun p => (p.1, { p.2 with save := p.2.save.map fun v =>
      (v.1, { v.2.1 with claim := v.2.1.claim && !(gangCores la).contains v.1 }, v.2.2) }) }

/-- A launch killed with a cause (R374, R406, R433, R465): it is removed from every core; its end is LAUNCH_END. -/
def killLaunch (s : State) (lid : BitVec 16) (cause : BitVec 8) : State :=
  match getLaunch s lid with
  | none => s
  | some la =>
    if la.st == .ended || la.killed != 0 then s
    else
      let s := if la.st == .gangHead then dropClaims s la else s
      let s := killMsgs (killPutBy ((s.cores.map (·.1)).foldl (fun s l => killOnCore s lid l) s) lid) lid
      let keep (r : FaultRec) : Bool := r.lid != lid || r.fcode != 1
      let s := { s with fltPend := s.fltPend.filter keep, fltTaken := s.fltTaken.filter keep,
                        dies := s.dies.map fun d => { d with fq := d.fq.filter keep } }
      episodesEnd (promoteGang (modLaunch s lid fun k => { k with killed := cause, st := .running, live := 0 })) lid

/-- TASK_KILL (R433): the next launch to be killed is killed. -/
def execTaskKill (s : State) : Out :=
  .next <| match s.killPend with
    | [] => s
    | (lid, cause) :: rest => killLaunch { s with killPend := rest } lid cause

/-! ### Pre-emption and the context-save engine (R396 to R398, R443, R447) -/

/-- Whether a record of higher priority asks a core to pre-empt its resident launch (R396, R405). -/
def preempts (s : State) (l : Nat) : Bool :=
  let c := getCore s l
  let p := match getLaunch s c.x.residentLid with
    | some la => la.prio
    | none => 0
  residentBusy s l && c.bound.isNone && c.stop == .none && decide (c.saved.length < 3) &&
    decide (c.saved.length < c.shadowSlots) && !isVacant s l && !c.halted && !dying s c.x.residentLid &&
    !(getBlock s (blockOf l)).gated &&
    (starters s l).any fun q => q.lid != c.x.residentLid && decide (p < prioOf s q)

/-- PREEMPTION_STOP (R396, R398): the core is asked to stop, or, for a launch with PTRAP, its AP raises the pre-emption
interrupt, for which TWORD0–2 are 0 (DESIGN CHOICE: notes/assumptions/86.md). -/
def execPreemptionStop (l : CoreNum) (s : State) : Out :=
  let n := l.toNat
  .next <| if !preempts s n then s
    else
      let s := modCore s n fun c => { c with stop := .preempt (now s) }
      match runLaunch s n with
      | some la =>
        if la.ptrap && !(cx s n).handlerMode && (getCore s n).trap.isNone then
          let pc := getPc s n .ap
          takeTrap s n ⟨0x08, .ap, 0, pc, 0, pc, 0⟩
        else s
      | none => s

/-- HANDLER_STOP_LIMIT (R398): a pre-emption that a handler has held for 2^20 ticks stops the core in handler mode. -/
def execHandlerStopLimit (l : CoreNum) (s : State) : Out :=
  let n := l.toNat
  .next <| match (getCore s n).stop with
    | .preempt since =>
      if (cx s n).handlerMode && decide (max since (cx s n).han.entered + 2 ^ 20 ≤ now s) then
        modCore s n fun c => { c with stop := .forced }
      else s
    | _ => s

/-- Whether a stopped core has drained (R443): every engine stands at a boundary, and every access, transfer, begun slot, barrier
arrival and fault of it is done. A stop waits for a handler's TRET, but for one forced at the limit of R398 (R438). -/
def drained (s : State) (l : Nat) : Bool :=
  let c := getCore s l
  atBoundary s l none && (!c.x.handlerMode || c.stop == .forced) && c.apq.isEmpty && c.ce.isEmpty && c.ackOut == 0 &&
    c.trap.isNone && c.apFlt == .clear && c.ceFlt == .clear && (c.x.streams.toList.all fun t => !t.begun) &&
    !(s.transit.any fun t => t.core == l) && !(s.barMsgs.any fun m => m.owner == l)

/-- What a stop leaves of a core's streams and waits (R104, R157, R226, R443, R445) (DEDUCED: notes/assumptions/37.md).
(DESIGN CHOICE: notes/assumptions/13.md). -/
def settle (s : State) (l : Nat) : State :=
  let s := landAll (withdrawPinned (dropWaiter s l) l) l
  let s := forUp 16 s fun n s => withdrawFault s l n
  modCore (toMeet s l) l fun c =>
    { c with
      apWait := .none, apWatch := none, c3Wait := .none
      x := { c.x with
        streams := c.x.streams.map fun t =>
          { t with ahead := [], far := [], tlb := [], flt := .clear, refw := false,
                   st := if t.st == .stalled then .opened else t.st }
        engs := c.x.engs.map fun t => { t with notBefore := 0 } } }

/-- A partition halt ends on a core that has drained (R443 steps 3 and 4): the streams settle, and the core has stopped. -/
def haltDone (s : State) (l : Nat) : State :=
  if (getCore s l).stop == .halt && drained s l then
    modCore (trace (settle s l) 8 l 0 0 0) l fun c => { c with stop := .stopped }
  else s

/-- The scratchpad of a core, by offset, and its poison marks. -/
def spCells (s : State) (l : Nat) : List Host.Cell :=
  (s.mem.filter fun c => decide (spBase l ≤ c.1) && decide (c.1 < spBase (l + 1))).map fun c => (c.1 - spBase l, c.2)

/-- The marks of a scratchpad: poisoned bytes by offset, and granules with an uncorrectable or a single-bit error by offset, from
2^20 and from 2^21 on. -/
def spMarks (s : State) (l : Nat) : List Nat :=
  let of (k : Nat) (xs : List Nat) : List Nat := (xs.filter (inSp l)).map fun a => a - spBase l + k * 2 ^ 20
  of 0 s.bytePsn ++ of 1 s.eccBad ++ of 2 s.eccSoft

/-- A scratchpad loaded with saved cells and marks. -/
def loadSp (s : State) (l : Nat) (cells : List Host.Cell) (marks : List Nat) : State :=
  let s := cells.foldl (fun s c => putByte s (spBase l + c.1) c.2) (clearSp s l)
  let put (k : Nat) (xs : List Nat) : List Nat :=
    (marks.filter fun a => a / 2 ^ 20 == k).foldl (fun m a => markSet m (spBase l + a % 2 ^ 20) true) xs
  { s with bytePsn := put 0 s.bytePsn, eccBad := put 1 s.eccBad, eccSoft := put 2 s.eccSoft }

/-- Whether the context-save engine may act on a pre-emption now: outside handler mode, or at the limit of R398. -/
def saveDue (s : State) (l : Nat) : Bool :=
  match (getCore s l).stop with
  | .preempt _ => !(cx s l).handlerMode
  | .forced => true
  | _ => false

/-- CONTEXT_SAVE (R396, R443, R447): the drained core's context goes into a shadow slot (DESIGN CHOICE: notes/assumptions/75.md). -/
def execContextSave (l : CoreNum) (s : State) : Out :=
  let n := l.toNat
  .next <| if !saveDue s n || !drained s n then s
    else
      let s := settle s n
      let x := cx s n
      let prio := match getLaunch s x.residentLid with
        | some la => la.prio
        | none => 0
      let v : Saved := ⟨x, x.residentLid, prio, spCells s n, spMarks s n, (getCore s n).wdogCnt⟩
      let s := trace s 8 n 0 0 0
      let s := modCore s n fun c =>
        { c with saved := v :: c.saved, stop := .none, wdogCnt := 0,
                 x := { x with run := none, residentLid := 0, handlerMode := false,
                               streams := x.streams.map closed, fifo := [], fifoRes := [], boq := [] } }
      match x.run with
      | some r => groupEnds s r.lid r.img.wid
      | none => s

/-- CONTEXT_RESTORE (R397, R439): the most recently saved context returns to a free core (DESIGN CHOICE: notes/assumptions/27.md). -/
def execContextRestore (l : CoreNum) (s : State) : Out :=
  let n := l.toNat
  .next <| match savedTop s n with
    | none => s
    | some v =>
      let rest := (getCore s n).saved.filter fun o => o.lid != v.lid
      if !coreFree s n || residentBusy s n || (starters s n).any (fun q => decide (v.prio < prioOf s q)) then s
      else
        let s := loadSp s n v.sp v.spPsn
        let s := modCore s n fun c => { c with saved := rest, needEntry := false, x := v.ctx, wdogCnt := v.wdog }
        let s := match v.ctx.run with
          | some r => groupBegins s r.lid r.img.wid
          | none => s
        trace s 8 n 1 0 0

/-- TRAP_ENTRY (R435, R436): a raised trap is entered once every engine stands at a bundle boundary, and, on the tick that raised
it, once no engine of a lower code can raise one. -/
def execTrapEntry (l : CoreNum) (s : State) : Out :=
  let n := l.toNat
  .next <| match (getCore s n).trap with
    | none => s
    | some t => if (cx s n).handlerMode then modCore s n fun c => { c with trap := none }
      else if atBoundary s n (some t.eng) && (decide (t.tick < now s) || lowestRaiser s n t.eng) then
        -- A watchdog or pre-emption trap names the AP's first unissued word as it now stands.
        enterTrap s n (if t.cause == 7 || t.cause == 8 then { t with pc := getPc s n .ap, epc := getPc s n .ap } else t)
      else s

/-- WATCHDOG (R442): the count reaches the limit. No word raises the trap, and TWORD0–2 are 0
(DESIGN CHOICE: notes/assumptions/86.md). -/
def execWatchdog (l : CoreNum) (s : State) : Out :=
  let n := l.toNat
  let c := getCore s n
  .next <| if c.wdogLimit != 0 && decide (c.wdogLimit.toNat * 2 ^ 16 ≤ c.wdogCnt) && !(cx s n).handlerMode &&
      c.x.run.isSome && !dying s (runLid s n) then
      let pc := getPc s n .ap
      takeTrap s n ⟨0x07, .ap, 0, pc, 0, pc, 0⟩
    else s

end Sys2Proof.Machine
end

