-- ==== Sys2Proof/Machine/Admission.lean ====
section
/-! DEFINITION. Admission: launch entries, headers, the tables they name, and the checks that reject a launch (R377 to R382,
R399 to R401, R409, R482, R483). -/

namespace Sys2Proof.Machine

/-! ### Launch numbers (R380) -/

/-- The number after one: 65,535 is followed by 1. -/
def lidAfter (n : BitVec 16) : BitVec 16 := if n = 0xFFFF then 1 else n + 1

/-- Whether a number belongs to a launch that has not ended. -/
def lidHeld (s : State) (n : BitVec 16) : Bool := s.launches.any fun k => k.lid == n && k.st != .ended

/-- The first number from one on that no running launch holds. -/
def freeLid (s : State) : Nat → BitVec 16 → BitVec 16
  | 0, n => n
  | f + 1, n => if lidHeld s n then freeLid s f (lidAfter n) else n

/-! ### Headers (R377, R378) -/

/-- A launch header, as its eight dwords. -/
structure Header where
  codetab : Nat
  args : Nat
  place : Nat
  gang : Nat
  fields : Nat
  ctl : Nat
  skew : Nat
  lists : Nat
  deriving DecidableEq, Repr

/-- Bits of a dword. -/
def bitsAt (x lo w : Nat) : Nat := x / 2 ^ lo % 2 ^ w

/-- The dwords of the header at an address. -/
def headDwords (s : State) (a : Nat) : List Nat := (List.range 8).map fun i => readNat s (a + 8 * i) 8

/-- The header in eight dwords (DESIGN CHOICE: notes/assumptions/49.md). -/
def headerOf (ds : List Nat) : Header :=
  let d (i : Nat) : Nat := ds.getD i 0
  ⟨d 0, d 1, d 2, d 3, d 4, d 5, d 6, d 7⟩

/-- W0 to W5. -/
def Header.w (h : Header) : List Nat := (List.range 6).map fun f => bitsAt h.fields (7 * f) 7
/-- NF. -/
def Header.nf (h : Header) : Nat := bitsAt h.fields 42 3
/-- NSEL. -/
def Header.nsel (h : Header) : Nat := bitsAt h.fields 48 8
/-- ASID. -/
def Header.asid (h : Header) : BitVec 12 := BitVec.ofNat 12 h.ctl
/-- COUNT. -/
def Header.count (h : Header) : Nat := bitsAt h.ctl 16 32
/-- LBASE. -/
def Header.lbase (h : Header) : Nat := bitsAt h.lists 0 12
/-- LCNT. -/
def Header.lcnt (h : Header) : Nat := bitsAt h.lists 12 13
/-- LCAPLOG. -/
def Header.lcap (h : Header) : Nat := bitsAt h.lists 25 5
/-- W0. -/
def Header.w0 (h : Header) : Nat := h.w.headD 0

/-- Whether a launch entry breaks R482. -/
def entryBad (a : Nat) : Bool :=
  a % 64 != 0 || (match rowOf a with
    | some (.hbm _) | some .host => false
    | _ => true)

/-- Whether the header's own fields give code 2 (R380). -/
def headerBad (h : Header) : Bool :=
  let sum := h.w.foldl (· + ·) 0
  bitsAt h.fields 45 3 != 0 || bitsAt h.fields 56 8 != 0 || bitsAt h.ctl 48 16 != 0 || bitsAt h.skew 32 32 != 0 ||
    bitsAt h.lists 30 34 != 0 || h.nf == 0 || decide (6 < h.nf) || h.nsel == 0 || decide (64 < sum) || decide (16 < h.w0) ||
    (h.w.drop h.nf).any (· != 0) || decide (2 ^ sum < h.count) || decide (4096 < h.lbase + h.lcnt) ||
    (h.lcnt != 0 && !(decide (4 ≤ h.lcap) && decide (h.lcap ≤ 20))) || h.codetab % 64 != 0 || h.place % 2 != 0 || h.gang % 64 != 0

/-! ### Reads of the tables (R380) -/

/-- What the read of a table gives. -/
inductive TabRead where
  | ok (bs : List Byte) (s : State)
  | wait
  | bad (f : FInfo) (va : Word)
  deriving Repr

/-- `n` bytes at a virtual address in an ASID. Tables reach no scratchpad: an address there is fault 0x15.
(DESIGN CHOICE: notes/assumptions/49.md). -/
def readTab (s : State) (asid : BitVec 12) (lid : BitVec 16) (a : Word) (n : Nat) : TabRead :=
  match classify a with
  | .virt va key =>
    if va + n > 2 ^ 48 then .bad (FInfo.plain 0x15) a
    else match (checkVa s none [] [] 2 asid lid va n key .read).1 with
      | .wait => .wait
      | .bad f v => .bad f (BitVec.ofNat 64 (v + key * 2 ^ 60))
      | .ok ps =>
        let r := readParts s ps
        if r.1.any (·.psn) then .bad ⟨0x17, 0, granOf s ps, 0, 0⟩ a
        else .ok (r.1.map (·.b)) (hotParts s ps)
  | _ => .bad (FInfo.plain 0x15) a

/-- The numbers of `n` bytes that follow each other in a table. -/
def cut (n : Nat) (bs : List Byte) : List Nat :=
  (List.range (bs.length / n)).map fun i => ofLE ((bs.drop (n * i)).take n)

/-- The tables of a launch as they were read: code table, placement table, gang descriptor and pipe table. -/
structure Tables where
  code : List Nat
  place : List Nat
  gang : List Nat
  pipes : List Nat
  deriving DecidableEq, Repr

/-- The result of all the reads. -/
inductive TabsRead where
  | ok (t : Tables) (s : State)
  | wait
  | bad (f : FInfo) (va : Word)
  deriving Repr

/-- Whether a gang descriptor names a pipe table that can be read: NPIPES and PIPES within their rules (R399, R401). -/
def pipesNamed (g : List Nat) : Bool :=
  decide (bitsAt (g.getD 0 0) 8 4 ≤ 8) && (g.getD 1 0) % 16 == 0 && bitsAt (g.getD 0 0) 8 4 != 0

/-- Every table of a launch read, in the order of R380 (DESIGN CHOICE: notes/assumptions/49.md). -/
def readTabs (s : State) (lid : BitVec 16) (h : Header) : TabsRead :=
  let w (x : Nat) : Word := BitVec.ofNat 64 x
  match readTab s h.asid lid (w h.codetab) (64 * h.nsel) with
  | .wait => .wait
  | .bad f va => .bad f va
  | .ok ct s =>
    match readTab s h.asid lid (w h.place) (2 * 2 ^ h.w0) with
    | .wait => .wait
    | .bad f va => .bad f va
    | .ok pt s =>
      if h.gang = 0 then .ok ⟨cut 4 ct, cut 2 pt, [], []⟩ s
      else match readTab s h.asid lid (w h.gang) 64 with
        | .wait => .wait
        | .bad f va => .bad f va
        | .ok gd s =>
          let g := cut 8 gd
          if !pipesNamed g then .ok ⟨cut 4 ct, cut 2 pt, g, []⟩ s
          else match readTab s h.asid lid (w (g.getD 1 0)) (16 * bitsAt (g.getD 0 0) 8 4) with
            | .wait => .wait
            | .bad f va => .bad f va
            | .ok pp s => .ok ⟨cut 4 ct, cut 2 pt, g, cut 8 pp⟩ s

/-! ### The code table (R382) -/

/-- One entry of the code table, from its sixteen 4-byte words: an address and a length for each engine. -/
def codeEntry (ws : List Nat) : List Code :=
  (List.range 5).map fun g => ⟨BitVec.ofNat 64 (ws.getD (2 * g) 0 + 2 ^ 32 * ws.getD (2 * g + 1) 0), ws.getD (10 + g) 0⟩

/-- Whether an entry is malformed. -/
def codeBad (ws : List Nat) : Bool :=
  let cs := codeEntry ws
  (cs.headD ⟨0, 0⟩).len == 0 || ws.getD 15 0 != 0 ||
    (cs.zipIdx).any fun c => c.1.len % (engOf c.2).wordBytes != 0 || (c.1.len != 0 && c.1.base.toNat % 64 != 0)

/-- The entries of the code table. -/
def codeEntries (t : Tables) (nsel : Nat) : List (List Nat) := (List.range nsel).map fun i => (t.code.drop (16 * i)).take 16

/-! ### Gangs (R399 to R401) -/

/-- A role entry. -/
def roleEntry (x : Nat) : Role := ⟨bitsAt x 0 8, bitsAt x 8 8, bitsAt x 16 16, bitsAt x 32 9, bitsAt x 41 1 == 1⟩

/-- A pipe entry, from its two dwords. -/
def pipeEntry (a b : Nat) : Pipe :=
  { sring := bitsAt a 0 5, dring := bitsAt a 8 5, srole := bitsAt a 16 2, drole := bitsAt a 18 2, strm := bitsAt a 20 4,
    fmt := bitsAt a 24 4, zu := bitsAt a 32 9, sbase := bitsAt b 0 12, sns := bitsAt b 16 9, dbase := bitsAt b 32 12,
    dns := bitsAt b 48 9 }

/-- Whether a reserved bit of a pipe entry is set. -/
def pipeResv (a b : Nat) : Bool :=
  bitsAt a 5 3 != 0 || bitsAt a 13 3 != 0 || bitsAt a 28 4 != 0 || bitsAt a 41 23 != 0 || bitsAt b 12 4 != 0 ||
    bitsAt b 25 7 != 0 || bitsAt b 44 4 != 0 || bitsAt b 57 7 != 0

/-- The rings that pipes put on the cores of a role: number, base, slot size and count. -/
def ringsOf (ps : List Pipe) (r : Nat) : List (Nat × Nat × Nat × Nat) :=
  ps.flatMap fun p => (if p.srole == r then [(p.sring, p.sbase, p.zu, p.sns)] else []) ++
    (if p.drole == r then [(p.dring, p.dbase, p.zu, p.dns)] else [])

/-- Whether no two members of a list clash. -/
def pairwiseOk {α : Type} (ok : α → α → Bool) : List α → Bool
  | [] => true
  | x :: xs => xs.all (ok x) && pairwiseOk ok xs

/-- Whether the rings and streams of one role's cores break R69 or R401. -/
def roleRingsBad (r : Role) (k : Nat) (ps : List Pipe) : Bool :=
  let rs := ringsOf ps k
  let ends (q : Nat × Nat × Nat × Nat) : Nat := q.2.1 + q.2.2.1 * q.2.2.2
  (rs.any fun q => decide (r.rgnend * 4096 < ends q * 256)) ||
    !(pairwiseOk (fun a b => a.1 != b.1 && (decide (ends a ≤ b.2.1) || decide (ends b ≤ a.2.1))) rs) ||
    !(pairwiseOk (fun (a b : Nat) => a != b) ((ps.filter fun p => p.srole == k).map (·.strm)))

/-- Roles and pipes of a gang descriptor; none where it is malformed (R401) (DESIGN CHOICE: notes/assumptions/49.md). -/
def gangOf (h : Header) (t : Tables) : Option (List Role × List Pipe) :=
  let g := t.gang
  let ctl := g.getD 0 0
  let nr := bitsAt ctl 0 3
  let np := bitsAt ctl 8 4
  let ents := (g.drop 2).take 4
  let roles := (ents.take nr).map roleEntry
  let pairs := (List.range np).map fun i => (t.pipes.getD (2 * i) 0, t.pipes.getD (2 * i + 1) 0)
  let pipes := pairs.map fun p => pipeEntry p.1 p.2
  let cores := roles.flatMap fun r => (List.range r.ncores).map fun k => t.place.getD (r.first + k) 0
  let n (i : Nat) : Nat := (roles[i]?.map (·.ncores)).getD 0
  if nr == 0 || decide (4 < nr) || bitsAt ctl 3 5 != 0 || decide (8 < np) || bitsAt ctl 12 52 != 0 || (g.getD 1 0) % 16 != 0 ||
      (g.drop 6).any (· != 0) || (ents.drop nr).any (· != 0) || h.count != 0 ||
      ((ents.take nr).any fun x => bitsAt x 42 22 != 0) ||
      (roles.any fun r => decide (h.nsel ≤ r.sel) || r.ncores == 0 || decide (192 < r.ncores) || decide (2 ^ h.w0 < r.first + r.ncores) ||
        decide (256 < r.rgnend + b2n r.baren)) ||
      !(pairwiseOk (fun (a b : Nat) => a != b) cores) ||
      (pairs.any fun p => pipeResv p.1 p.2) ||
      (pipes.any fun p => decide (nr ≤ p.srole) || decide (nr ≤ p.drole) || n p.srole != n p.drole || decide (13 < p.fmt) ||
        p.zu == 0 || decide (256 < p.zu) || p.sns == 0 || decide (256 < p.sns) || p.dns == 0 || decide (256 < p.dns)) ||
      ((roles.zipIdx).any fun r => roleRingsBad r.1 r.2 pipes) then none
  else some (roles, pipes)

/-! ### Lists (R409) -/

/-- Whether two launches' lists meet: a launch that asks for none has none. -/
def listsMeet (k : Launch) (h : Header) : Bool :=
  k.st != .ended && k.lcnt != 0 && decide (k.lbase < h.lbase + h.lcnt) && decide (h.lbase < k.lbase + k.lcnt)

/-- Item storage in bytes that a launch needs on each die. -/
def listNeed (lcnt lcap : Nat) : Nat := if lcnt = 0 then 0 else lcnt * 2 ^ lcap * 8

/-- Item storage in use on each die. -/
def listUsed (s : State) : Nat := (s.launches.filter fun k => k.st != .ended).foldl (fun n k => n + listNeed k.lcnt k.lcap) 0

/-! ### The decision (R380) -/

/-- A rejection: code, cause, the reported entry and its placement index. -/
structure Reject where
  code : Nat
  cause : Nat
  entry : Nat
  index : Nat
  deriving DecidableEq, Repr

/-- The first placement entry that names no present core. -/
def badPlace (s : State) (place : List Nat) : Option (Nat × Nat) :=
  (place.zipIdx).find? fun p => decide (191 < p.1) || isVacant s p.1

/-- The checks after the tables have been read: the launch to be admitted, or a rejection (DESIGN CHOICE: notes/assumptions/49.md). -/
def judge (s : State) (tag : Word) (lid : BitVec 16) (h : Header) (t : Tables) : Except Reject Launch :=
  let es := codeEntries t h.nsel
  if es.any codeBad then .error ⟨2, 0, 0, 0⟩
  else match badPlace s t.place with
    | some p => .error ⟨4, 0, p.1 % 256, p.2⟩
    | none =>
      let g := if h.gang = 0 then some none else (gangOf h t).map some
      match g with
      | none => .error ⟨5, 0, 0, 0⟩
      | some gang =>
        if h.lcnt != 0 && s.launches.any fun k => listsMeet k h then .error ⟨6, 0, 0, 0⟩
        else if 2 ^ 26 < listUsed s + listNeed h.lcnt h.lcap then .error ⟨7, 0, 0, 0⟩
        else .ok
          { lid := lid, tag := tag, args := BitVec.ofNat 64 h.args, asid := h.asid, prio := bitsAt h.ctl 12 2,
            wsl := bitsAt h.ctl 14 1 == 1, ptrap := bitsAt h.ctl 15 1 == 1, count := h.count, skew := bitsAt h.skew 0 32,
            lbase := h.lbase, lcnt := h.lcnt, lcap := h.lcap, widths := h.w.take h.nf, nsel := h.nsel,
            code := es.flatMap codeEntry, place := t.place, gang := gang, order := s.nextOrder,
            st := if gang.isSome then .gangWaiting else if h.count = 0 then .running else .rooting 0, items := 0, live := 0,
            term := false, items1 := 0, live1 := 0, term1 := false, lease := false, killed := 0, discarded := 0, replan := false,
            finished := [] }

/-- A rejection reported (R483): the admission is over (DESIGN CHOICE: notes/assumptions/50.md). -/
def rejectWith (s : State) (tag : Word) (lid : BitVec 16) (r : Reject) : State :=
  cqPut { s with admitting := none } tag (lid.toNat + 2 ^ 16 * r.code + 2 ^ 24 * r.cause + 2 ^ 34 * r.entry) (now s) r.index

/-- A launch admitted (R381, R403, R410): its roots count as live from now; a gang waits its turn (DEDUCED: notes/assumptions/25.md). -/
def admitLaunch (s : State) (k : Launch) : State :=
  let s := { s with admitting := none, nextOrder := s.nextOrder + 1, launches := (s.launches.filter fun o => o.lid != k.lid) ++ [k] }
  let s := if k.count = 0 then s else detAdd s k.lid 0 k.count
  promoteGang s

/-- An admission goes on: header, ASID, tables, and the checks. A fault of a read is written as a record and waited for.
(DESIGN CHOICE: notes/assumptions/50.md). -/
def goOn (s : State) (a : Admit) : State :=
  if !s.host.ready then rejectWith s a.tag a.lid ⟨1, 0, 0, 0⟩
  else if entryBad a.hdr || headerBad (headerOf a.head) then rejectWith s a.tag a.lid ⟨2, 0, 0, 0⟩
  else
    let h := headerOf a.head
    if s.retBusy && s.retAsid == h.asid then rejectWith s a.tag a.lid ⟨3, 0, 0, 0⟩
    else match readTabs s a.lid h with
      | .wait => s
      | .bad f va =>
        raiseFault (tagCapture { s with admitting := some { a with flt := .unsent, va := va } } f)
          { fcode := f.code, core := 0, agent := .ap, adm := true, stream := 0, lvl := f.lvl, write := false, fetch := false,
            asid := h.asid, lid := a.lid, va := va, pa := f.pa, tick := 0, key := if f.code == 0x11 then f.key else 0,
            lock := if f.code == 0x11 then f.lock else 0, seq := 0 }
      | .ok t s => match judge s a.tag a.lid h t with
        | .error r => rejectWith s a.tag a.lid r
        | .ok k => admitLaunch s k

/-- The next launch entry taken from the queue, with its number (R380, R482). -/
def takeEntry (s : State) : State :=
  let h := s.host
  let o := 0x4000000 + 16 * (h.lqHead.toNat % 256)
  let lid := freeLid s (s.launches.length + 1) s.nextLid
  { s with host := { h with lqHead := h.lqHead + 1 }, nextLid := lidAfter lid,
           admitting := some ⟨BitVec.ofNat 64 (winNat s (o + 8) 8), winNat s o 8,
             if entryBad (winNat s o 8) then [] else headDwords s (winNat s o 8), lid, .clear, 0, none⟩ }

/-- ADMISSION (R380): the device takes the next launch entry, or goes on with the one it has. -/
def execAdmission (s : State) : Out :=
  .next <| if s.secHalt then s
    else match s.admitting with
      | some a => match a.answer, a.flt with
        | some c, _ => rejectWith s a.tag a.lid ⟨8, c.toNat, 0, 0⟩
        | none, .clear => goOn s a
        | none, _ => s
      | none =>
        if s.host.lqHead = s.host.lqTail then s
        else
          let s := takeEntry s
          match s.admitting with
          | some a => goOn s a
          | none => s

end Sys2Proof.Machine
end

