-- ==== Sys2Proof/Machine/Alu.lean ====
section
/-! DEFINITION. Integer arithmetic, immediates and predicates of the AP and C0 (R169 to R175). -/

namespace Sys2Proof.Machine

/-- A shift count: bits [5:0] (R170). -/
def count (b : Word) : Nat := b.toNat % 64

/-- Number of 0 bits below the lowest 1 bit among the `n` bits from bit `i`. -/
def ctzFrom (a : Word) : Nat → Nat → Nat
  | 0, _ => 0
  | n + 1, i => if a.getLsbD i then 0 else 1 + ctzFrom a n (i + 1)

/-- Number of 0 bits above the highest 1 bit among the low `n` bits. -/
def clzFrom (a : Word) : Nat → Nat
  | 0 => 0
  | n + 1 => if a.getLsbD n then 0 else 1 + clzFrom a n

/-- Number of 1 bits among the low `n` bits. -/
def popFrom (a : Word) : Nat → Nat
  | 0 => 0
  | n + 1 => (if a.getLsbD n then 1 else 0) + popFrom a n

/-- DIV of R171. -/
def sdiv (a b : Word) : Word := if b = 0 then -1 else BitVec.ofInt 64 (a.toInt.tdiv b.toInt)
/-- DIVU of R171. -/
def udiv (a b : Word) : Word := if b = 0 then -1 else BitVec.ofNat 64 (a.toNat / b.toNat)
/-- REM of R171. -/
def srem (a b : Word) : Word := if b = 0 then a else BitVec.ofInt 64 (a.toInt.tmod b.toInt)
/-- REMU of R171. -/
def urem (a b : Word) : Word := if b = 0 then a else BitVec.ofNat 64 (a.toNat % b.toNat)

/-- The width that BEXT and BINS use (R172). -/
def fieldWidth (b : Word) : Nat := min (b.toNat / 256 % 128) (64 - count b)
/-- BEXT of R172. -/
def bext (a b : Word) : Word := BitVec.ofNat 64 (a.toNat / 2 ^ count b % 2 ^ fieldWidth b)
/-- BINS of R172: the field's bits from A, every other bit of D. -/
def bins (d a b : Word) : Word :=
  let m : Word := BitVec.ofNat 64 ((2 ^ fieldWidth b - 1) * 2 ^ count b)
  (BitVec.ofNat 64 (a.toNat * 2 ^ count b) &&& m) ||| (d &&& ~~~m)

/-- ADD (R170). -/
def execAdd (k : Guard) (d a b : Reg) (s : State) : Out := alu k d a b (fun x y => x + y) s
/-- SUB (R170). -/
def execSub (k : Guard) (d a b : Reg) (s : State) : Out := alu k d a b (fun x y => x - y) s
/-- AND (R170). -/
def execAnd (k : Guard) (d a b : Reg) (s : State) : Out := alu k d a b (fun x y => x &&& y) s
/-- OR (R170). -/
def execOr (k : Guard) (d a b : Reg) (s : State) : Out := alu k d a b (fun x y => x ||| y) s
/-- XOR (R170). -/
def execXor (k : Guard) (d a b : Reg) (s : State) : Out := alu k d a b (fun x y => x ^^^ y) s
/-- ANDN (R170). -/
def execAndn (k : Guard) (d a b : Reg) (s : State) : Out := alu k d a b (fun x y => x &&& ~~~y) s
/-- SHL (R170). -/
def execShl (k : Guard) (d a b : Reg) (s : State) : Out := alu k d a b (fun x y => x <<< count y) s
/-- SHR (R170). -/
def execShr (k : Guard) (d a b : Reg) (s : State) : Out := alu k d a b (fun x y => x >>> count y) s
/-- SRA (R170). -/
def execSra (k : Guard) (d a b : Reg) (s : State) : Out := alu k d a b (fun x y => x.sshiftRight (count y)) s
/-- MIN (R170). -/
def execMin (k : Guard) (d a b : Reg) (s : State) : Out := alu k d a b (fun x y => if cmpLt y x then y else x) s
/-- MAX (R170). -/
def execMax (k : Guard) (d a b : Reg) (s : State) : Out := alu k d a b (fun x y => if cmpLt x y then y else x) s
/-- MINU (R170). -/
def execMinu (k : Guard) (d a b : Reg) (s : State) : Out := alu k d a b (fun x y => if cmpLtu y x then y else x) s
/-- MAXU (R170). -/
def execMaxu (k : Guard) (d a b : Reg) (s : State) : Out := alu k d a b (fun x y => if cmpLtu x y then y else x) s
/-- SLT (R170). -/
def execSlt (k : Guard) (d a b : Reg) (s : State) : Out := alu k d a b (fun x y => bit (cmpLt x y)) s
/-- SLTU (R170). -/
def execSltu (k : Guard) (d a b : Reg) (s : State) : Out := alu k d a b (fun x y => bit (cmpLtu x y)) s
/-- SEQ (R170). -/
def execSeq (k : Guard) (d a b : Reg) (s : State) : Out := alu k d a b (fun x y => bit (cmpEq x y)) s
/-- MUL (R170). -/
def execMul (k : Guard) (d a b : Reg) (s : State) : Out := alu k d a b (fun x y => x * y) s
/-- MULH (R170). -/
def execMulh (k : Guard) (d a b : Reg) (s : State) : Out :=
  alu k d a b (fun x y => BitVec.ofInt 64 (x.toInt * y.toInt / 2 ^ 64)) s
/-- MULHU (R170). -/
def execMulhu (k : Guard) (d a b : Reg) (s : State) : Out :=
  alu k d a b (fun x y => BitVec.ofNat 64 (x.toNat * y.toNat / 2 ^ 64)) s
/-- DIV (R171). -/
def execDiv (k : Guard) (d a b : Reg) (s : State) : Out := alu k d a b sdiv s
/-- DIVU (R171). -/
def execDivu (k : Guard) (d a b : Reg) (s : State) : Out := alu k d a b udiv s
/-- REM (R171). -/
def execRem (k : Guard) (d a b : Reg) (s : State) : Out := alu k d a b srem s
/-- REMU (R171). -/
def execRemu (k : Guard) (d a b : Reg) (s : State) : Out := alu k d a b urem s
/-- CLZ (R170). -/
def execClz (k : Guard) (d a : Reg) (s : State) : Out := aluUn k d a (fun x => BitVec.ofNat 64 (clzFrom x 64)) s
/-- CTZ (R170). -/
def execCtz (k : Guard) (d a : Reg) (s : State) : Out := aluUn k d a (fun x => BitVec.ofNat 64 (ctzFrom x 64 0)) s
/-- POPC (R170). -/
def execPopc (k : Guard) (d a : Reg) (s : State) : Out := aluUn k d a (fun x => BitVec.ofNat 64 (popFrom x 64)) s
/-- BEXT (R172). -/
def execBext (k : Guard) (d a b : Reg) (s : State) : Out := alu k d a b bext s
/-- BINS (R172): D is read as well as written. -/
def execBins (k : Guard) (d a b : Reg) (s : State) : Out :=
  regWord k d [a, b] (fun s l e => bins (rreg s l e d) (rreg s l e a) (rreg s l e b)) s

/-- A comparison of two registers into kD (R175). -/
def kcmp (k : Guard) (d a b : Reg) (f : Word → Word → Bool) (s : State) : Out :=
  predWord k d [a, b] (fun s l e => f (rreg s l e a) (rreg s l e b)) s

/-- KCMP.eq (R175). -/
def execKcmpEq (k : Guard) (d a b : Reg) (s : State) : Out := kcmp k d a b cmpEq s
/-- KCMP.ne (R175). -/
def execKcmpNe (k : Guard) (d a b : Reg) (s : State) : Out := kcmp k d a b (fun x y => !cmpEq x y) s
/-- KCMP.lt (R175). -/
def execKcmpLt (k : Guard) (d a b : Reg) (s : State) : Out := kcmp k d a b cmpLt s
/-- KCMP.ge (R175). -/
def execKcmpGe (k : Guard) (d a b : Reg) (s : State) : Out := kcmp k d a b (fun x y => !cmpLt x y) s
/-- KCMP.ltu (R175). -/
def execKcmpLtu (k : Guard) (d a b : Reg) (s : State) : Out := kcmp k d a b cmpLtu s
/-- KCMP.geu (R175). -/
def execKcmpGeu (k : Guard) (d a b : Reg) (s : State) : Out := kcmp k d a b (fun x y => !cmpLtu x y) s
/-- KAND (R175): A and B name predicates. -/
def execKand (k : Guard) (d a b : Reg) (s : State) : Out :=
  predWord k d [] (fun s l e => rk s l e a.toNat && rk s l e b.toNat) s
/-- KOR (R175). -/
def execKor (k : Guard) (d a b : Reg) (s : State) : Out :=
  predWord k d [] (fun s l e => rk s l e a.toNat || rk s l e b.toNat) s
/-- KNOT (R175). -/
def execKnot (k : Guard) (d a : Reg) (s : State) : Out := predWord k d [] (fun s l e => !rk s l e a.toNat) s

/-- ADDI (R173). -/
def execAddi (k : Guard) (d a : Reg) (imm : BitVec 12) (s : State) : Out := aluUn k d a (fun x => x + sx imm) s
/-- ANDI (R173). -/
def execAndi (k : Guard) (d a : Reg) (imm : BitVec 12) (s : State) : Out := aluUn k d a (fun x => x &&& sx imm) s
/-- ORI (R173). -/
def execOri (k : Guard) (d a : Reg) (imm : BitVec 12) (s : State) : Out := aluUn k d a (fun x => x ||| sx imm) s
/-- XORI (R173). -/
def execXori (k : Guard) (d a : Reg) (imm : BitVec 12) (s : State) : Out := aluUn k d a (fun x => x ^^^ sx imm) s
/-- SHLI (R173). -/
def execShli (k : Guard) (d a : Reg) (n : BitVec 6) (s : State) : Out := aluUn k d a (fun x => x <<< n.toNat) s
/-- SHRI (R173). -/
def execShri (k : Guard) (d a : Reg) (n : BitVec 6) (s : State) : Out := aluUn k d a (fun x => x >>> n.toNat) s
/-- SRAI (R173). -/
def execSrai (k : Guard) (d a : Reg) (n : BitVec 6) (s : State) : Out := aluUn k d a (fun x => x.sshiftRight n.toNat) s
/-- SLTI (R173). -/
def execSlti (k : Guard) (d a : Reg) (imm : BitVec 12) (s : State) : Out := aluUn k d a (fun x => bit (cmpLt x (sx imm))) s
/-- LUI (R174). -/
def execLui (k : Guard) (d : Reg) (imm : BitVec 17) (s : State) : Out := regWord k d [] (fun _ _ _ => sx imm <<< 12) s
/-- ADDPC (R174). -/
def execAddpc (k : Guard) (d : Reg) (imm : BitVec 17) (s : State) : Out :=
  regWord k d [] (fun s l e => getPc s l e + (sx imm <<< 12)) s

end Sys2Proof.Machine
end

