-- ==== Sys2Proof/Machine/RiscV.lean ====
section
/-! DEFINITION. The instructions of the episode cores that only compute (R451): the compressed forms, RV64IM with Zba and Zbb,
and the arithmetic of F and D. The encodings and results are those of the RISC-V specifications
(PRESUMED: notes/assumptions/9.md). -/

namespace Sys2Proof.Machine

/-- A 32-bit RISC-V instruction. -/
abbrev RvWord := BitVec 32

/-! ### Fields -/

/-- Bits of an instruction as a number. -/
def rvBits (w : RvWord) (lo n : Nat) : Nat := (w.extractLsb' lo n).toNat
/-- rd. -/
def rvRd (w : RvWord) : Nat := rvBits w 7 5
/-- rs1. -/
def rvRs1 (w : RvWord) : Nat := rvBits w 15 5
/-- rs2. -/
def rvRs2 (w : RvWord) : Nat := rvBits w 20 5
/-- funct3. -/
def rvF3 (w : RvWord) : Nat := rvBits w 12 3
/-- funct7. -/
def rvF7 (w : RvWord) : Nat := rvBits w 25 7
/-- The I immediate. -/
def immI (w : RvWord) : BitVec 64 := (w.extractLsb' 20 12).signExtend 64
/-- The S immediate. -/
def immS (w : RvWord) : BitVec 64 := (w.extractLsb' 25 7 ++ w.extractLsb' 7 5).signExtend 64
/-- The B immediate. -/
def immB (w : RvWord) : BitVec 64 :=
  (w.extractLsb' 31 1 ++ w.extractLsb' 7 1 ++ w.extractLsb' 25 6 ++ w.extractLsb' 8 4 ++ 0#1).signExtend 64
/-- The U immediate. -/
def immU (w : RvWord) : BitVec 64 := (w.extractLsb' 12 20 ++ 0#12).signExtend 64
/-- The J immediate. -/
def immJ (w : RvWord) : BitVec 64 :=
  (w.extractLsb' 31 1 ++ w.extractLsb' 12 8 ++ w.extractLsb' 20 1 ++ w.extractLsb' 21 10 ++ 0#1).signExtend 64

/-! ### Compressed forms -/

/-- An I-type word. -/
def encI (op f3 rd rs1 : Nat) (imm : BitVec 12) : RvWord :=
  imm ++ BitVec.ofNat 5 rs1 ++ BitVec.ofNat 3 f3 ++ BitVec.ofNat 5 rd ++ BitVec.ofNat 7 op
/-- An S-type word. -/
def encS (op f3 rs1 rs2 : Nat) (imm : BitVec 12) : RvWord :=
  imm.extractLsb' 5 7 ++ BitVec.ofNat 5 rs2 ++ BitVec.ofNat 5 rs1 ++ BitVec.ofNat 3 f3 ++ imm.extractLsb' 0 5 ++ BitVec.ofNat 7 op
/-- An R-type word. -/
def encR (op f3 f7 rd rs1 rs2 : Nat) : RvWord :=
  BitVec.ofNat 7 f7 ++ BitVec.ofNat 5 rs2 ++ BitVec.ofNat 5 rs1 ++ BitVec.ofNat 3 f3 ++ BitVec.ofNat 5 rd ++ BitVec.ofNat 7 op
/-- A B-type word. -/
def encB (f3 rs1 rs2 : Nat) (imm : BitVec 13) : RvWord :=
  imm.extractLsb' 12 1 ++ imm.extractLsb' 5 6 ++ BitVec.ofNat 5 rs2 ++ BitVec.ofNat 5 rs1 ++ BitVec.ofNat 3 f3 ++
    imm.extractLsb' 1 4 ++ imm.extractLsb' 11 1 ++ 0x63#7
/-- A J-type word. -/
def encJ (rd : Nat) (imm : BitVec 21) : RvWord :=
  imm.extractLsb' 20 1 ++ imm.extractLsb' 1 10 ++ imm.extractLsb' 11 1 ++ imm.extractLsb' 12 8 ++ BitVec.ofNat 5 rd ++ 0x6F#7

/-- A 6-bit immediate of the CI format, sign-extended. -/
def ciImm (c : BitVec 16) : BitVec 12 := (c.extractLsb' 12 1 ++ c.extractLsb' 2 5).signExtend 12

/-- Quadrant 0 of the compressed forms. -/
def expand0 (c : BitVec 16) : Option RvWord :=
  let rd := 8 + (c.extractLsb' 2 3).toNat
  let r1 := 8 + (c.extractLsb' 7 3).toNat
  let d : BitVec 12 := (c.extractLsb' 5 2 ++ c.extractLsb' 10 3 ++ 0#3).zeroExtend 12
  let w : BitVec 12 := (c.extractLsb' 5 1 ++ c.extractLsb' 10 3 ++ c.extractLsb' 6 1 ++ 0#2).zeroExtend 12
  match (c.extractLsb' 13 3).toNat with
  | 0 =>
    let i : BitVec 12 := (c.extractLsb' 7 4 ++ c.extractLsb' 11 2 ++ c.extractLsb' 5 1 ++ c.extractLsb' 6 1 ++ 0#2).zeroExtend 12
    if i = 0 then none else some (encI 0x13 0 rd 2 i)
  | 1 => some (encI 0x07 3 rd r1 d)
  | 2 => some (encI 0x03 2 rd r1 w)
  | 3 => some (encI 0x03 3 rd r1 d)
  | 5 => some (encS 0x27 3 r1 rd d)
  | 6 => some (encS 0x23 2 r1 rd w)
  | 7 => some (encS 0x23 3 r1 rd d)
  | _ => none

/-- The arithmetic forms of quadrant 1, funct3 100. -/
def expandAlu (c : BitVec 16) : Option RvWord :=
  let rd := 8 + (c.extractLsb' 7 3).toNat
  let r2 := 8 + (c.extractLsb' 2 3).toNat
  let sh : BitVec 6 := c.extractLsb' 12 1 ++ c.extractLsb' 2 5
  match (c.extractLsb' 10 2).toNat with
  | 0 => some (encI 0x13 5 rd rd (sh.zeroExtend 12))
  | 1 => some (encI 0x13 5 rd rd (0b010000#6 ++ sh))
  | 2 => some (encI 0x13 7 rd rd (ciImm c))
  | _ =>
    match c.getLsbD 12, (c.extractLsb' 5 2).toNat with
    | false, 0 => some (encR 0x33 0 0x20 rd rd r2)
    | false, 1 => some (encR 0x33 4 0 rd rd r2)
    | false, 2 => some (encR 0x33 6 0 rd rd r2)
    | false, _ => some (encR 0x33 7 0 rd rd r2)
    | true, 0 => some (encR 0x3B 0 0x20 rd rd r2)
    | true, 1 => some (encR 0x3B 0 0 rd rd r2)
    | true, _ => none

/-- Quadrant 1 of the compressed forms. -/
def expand1 (c : BitVec 16) : Option RvWord :=
  let rd := (c.extractLsb' 7 5).toNat
  let r1 := 8 + (c.extractLsb' 7 3).toNat
  let b : BitVec 13 := (c.extractLsb' 12 1 ++ c.extractLsb' 5 2 ++ c.extractLsb' 2 1 ++ c.extractLsb' 10 2 ++ c.extractLsb' 3 2 ++
    0#1).signExtend 13
  match (c.extractLsb' 13 3).toNat with
  | 0 => some (encI 0x13 0 rd rd (ciImm c))
  | 1 => if rd = 0 then none else some (encI 0x1B 0 rd rd (ciImm c))
  | 2 => some (encI 0x13 0 rd 0 (ciImm c))
  | 3 =>
    if rd = 2 then
      let i : BitVec 12 := (c.extractLsb' 12 1 ++ c.extractLsb' 3 2 ++ c.extractLsb' 5 1 ++ c.extractLsb' 2 1 ++ c.extractLsb' 6 1 ++
        0#4).signExtend 12
      if i = 0 then none else some (encI 0x13 0 2 2 i)
    else
      let i : BitVec 20 := (ciImm c).signExtend 20
      if i = 0 then none else some (i ++ BitVec.ofNat 5 rd ++ 0x37#7)
  | 4 => expandAlu c
  | 5 =>
    let j : BitVec 21 := (c.extractLsb' 12 1 ++ c.extractLsb' 8 1 ++ c.extractLsb' 9 2 ++ c.extractLsb' 6 1 ++ c.extractLsb' 7 1 ++
      c.extractLsb' 2 1 ++ c.extractLsb' 11 1 ++ c.extractLsb' 3 3 ++ 0#1).signExtend 21
    some (encJ 0 j)
  | 6 => some (encB 0 r1 0 b)
  | _ => some (encB 1 r1 0 b)

/-- Quadrant 2 of the compressed forms. -/
def expand2 (c : BitVec 16) : Option RvWord :=
  let rd := (c.extractLsb' 7 5).toNat
  let r2 := (c.extractLsb' 2 5).toNat
  let ld : BitVec 12 := (c.extractLsb' 2 3 ++ c.extractLsb' 12 1 ++ c.extractLsb' 5 2 ++ 0#3).zeroExtend 12
  let lw : BitVec 12 := (c.extractLsb' 2 2 ++ c.extractLsb' 12 1 ++ c.extractLsb' 4 3 ++ 0#2).zeroExtend 12
  let sd : BitVec 12 := (c.extractLsb' 7 3 ++ c.extractLsb' 10 3 ++ 0#3).zeroExtend 12
  let sw : BitVec 12 := (c.extractLsb' 7 2 ++ c.extractLsb' 9 4 ++ 0#2).zeroExtend 12
  match (c.extractLsb' 13 3).toNat with
  | 0 => some (encI 0x13 1 rd rd ((c.extractLsb' 12 1 ++ c.extractLsb' 2 5 : BitVec 6).zeroExtend 12))
  | 1 => some (encI 0x07 3 rd 2 ld)
  | 2 => if rd = 0 then none else some (encI 0x03 2 rd 2 lw)
  | 3 => if rd = 0 then none else some (encI 0x03 3 rd 2 ld)
  | 4 =>
    match c.getLsbD 12, rd, r2 with
    | false, 0, 0 => none
    | false, _, 0 => some (encI 0x67 0 0 rd 0)
    | false, _, _ => some (encR 0x33 0 0 rd 0 r2)
    | true, 0, 0 => some 0x00100073#32
    | true, _, 0 => some (encI 0x67 0 1 rd 0)
    | true, _, _ => some (encR 0x33 0 0 rd rd r2)
  | 5 => some (encS 0x27 3 2 r2 sd)
  | 6 => some (encS 0x23 2 2 r2 sw)
  | _ => some (encS 0x23 3 2 r2 sd)

/-- The 32-bit form of a compressed one; none where it is illegal (PRESUMED: notes/assumptions/9.md). -/
def expandC (c : BitVec 16) : Option RvWord :=
  match (c.extractLsb' 0 2).toNat with
  | 0 => expand0 c
  | 1 => expand1 c
  | _ => expand2 c

/-! ### Integer arithmetic -/

/-- The low 32 bits sign-extended. -/
def sext32 (x : BitVec 64) : BitVec 64 := (x.extractLsb' 0 32).signExtend 64
/-- The low 32 bits zero-extended. -/
def zext32 (x : BitVec 64) : BitVec 64 := (x.extractLsb' 0 32).zeroExtend 64
/-- A truth value in a register. -/
def rvBool (b : Bool) : BitVec 64 := if b then 1 else 0
/-- Leading zeros of `n` bits. -/
def clzN (n x : Nat) : Nat := if x % 2 ^ n = 0 then n else n - 1 - Nat.log2 (x % 2 ^ n)
/-- Trailing zeros of `n` bits. -/
def ctzN (n x : Nat) : Nat := ((List.range n).find? fun i => x.testBit i).getD n
/-- Set bits of `n` bits. -/
def popN (n x : Nat) : Nat := ((List.range n).filter fun i => x.testBit i).length
/-- The bytes of a register mapped by position. -/
def mapBytes (f : Nat → Nat) : BitVec 64 := BitVec.ofNat 64 (packElems 8 ((List.range 8).map f))
/-- Byte i of a register. -/
def byteOf (x : BitVec 64) (i : Nat) : Nat := (x.extractLsb' (8 * i) 8).toNat

/-- Signed division of `n` bits, truncating; by zero −1, the overflow wraps. -/
def divS (a b : Int) : Int := if b = 0 then -1 else a.tdiv b
/-- Signed remainder. -/
def remS (a b : Int) : Int := if b = 0 then a else a.tmod b
/-- Unsigned division; by zero all ones. -/
def divU (n a b : Nat) : Nat := if b = 0 then 2 ^ n - 1 else a / b
/-- Unsigned remainder. -/
def remU (a b : Nat) : Nat := if b = 0 then a else a % b

/-- OP: register-register on 64 bits (PRESUMED: notes/assumptions/9.md). -/
def rvOp (f7 f3 : Nat) (a b : BitVec 64) : Option (BitVec 64) :=
  let s := b.toNat % 64
  match f7, f3 with
  | 0x00, 0 => some (a + b)
  | 0x20, 0 => some (a - b)
  | 0x00, 1 => some (a <<< s)
  | 0x00, 2 => some (rvBool (a.slt b))
  | 0x00, 3 => some (rvBool (a.ult b))
  | 0x00, 4 => some (a ^^^ b)
  | 0x00, 5 => some (a >>> s)
  | 0x20, 5 => some (a.sshiftRight s)
  | 0x00, 6 => some (a ||| b)
  | 0x00, 7 => some (a &&& b)
  | 0x01, 0 => some (a * b)
  | 0x01, 1 => some (BitVec.ofInt 64 (a.toInt * b.toInt / ((2 ^ 64 : Nat) : Int)))
  | 0x01, 2 => some (BitVec.ofInt 64 (a.toInt * (b.toNat : Int) / ((2 ^ 64 : Nat) : Int)))
  | 0x01, 3 => some (BitVec.ofNat 64 (a.toNat * b.toNat / 2 ^ 64))
  | 0x01, 4 => some (BitVec.ofInt 64 (divS a.toInt b.toInt))
  | 0x01, 5 => some (BitVec.ofNat 64 (divU 64 a.toNat b.toNat))
  | 0x01, 6 => some (BitVec.ofInt 64 (remS a.toInt b.toInt))
  | 0x01, 7 => some (BitVec.ofNat 64 (remU a.toNat b.toNat))
  | 0x10, 2 => some ((a <<< 1) + b)
  | 0x10, 4 => some ((a <<< 2) + b)
  | 0x10, 6 => some ((a <<< 3) + b)
  | 0x20, 7 => some (a &&& ~~~b)
  | 0x20, 6 => some (a ||| ~~~b)
  | 0x20, 4 => some (~~~(a ^^^ b))
  | 0x05, 4 => some (if a.slt b then a else b)
  | 0x05, 5 => some (if a.ult b then a else b)
  | 0x05, 6 => some (if a.slt b then b else a)
  | 0x05, 7 => some (if a.ult b then b else a)
  | 0x30, 1 => some (a.rotateLeft s)
  | 0x30, 5 => some (a.rotateRight s)
  | _, _ => none

/-- OP-32: register-register on the low 32 bits, and the Zba forms on an unsigned word. -/
def rvOp32 (f7 f3 rs2 : Nat) (a b : BitVec 64) : Option (BitVec 64) :=
  let x := a.extractLsb' 0 32
  let y := b.extractLsb' 0 32
  let s := b.toNat % 32
  let w (v : BitVec 32) : Option (BitVec 64) := some (v.signExtend 64)
  match f7, f3 with
  | 0x00, 0 => w (x + y)
  | 0x20, 0 => w (x - y)
  | 0x00, 1 => w (x <<< s)
  | 0x00, 5 => w (x >>> s)
  | 0x20, 5 => w (x.sshiftRight s)
  | 0x01, 0 => w (x * y)
  | 0x01, 4 => w (BitVec.ofInt 32 (divS x.toInt y.toInt))
  | 0x01, 5 => w (BitVec.ofNat 32 (divU 32 x.toNat y.toNat))
  | 0x01, 6 => w (BitVec.ofInt 32 (remS x.toInt y.toInt))
  | 0x01, 7 => w (BitVec.ofNat 32 (remU x.toNat y.toNat))
  | 0x04, 0 => some (zext32 a + b)
  | 0x04, 4 => if rs2 = 0 then some (a &&& 0xFFFF) else none
  | 0x10, 2 => some ((zext32 a <<< 1) + b)
  | 0x10, 4 => some ((zext32 a <<< 2) + b)
  | 0x10, 6 => some ((zext32 a <<< 3) + b)
  | 0x30, 1 => w (x.rotateLeft s)
  | 0x30, 5 => w (x.rotateRight s)
  | _, _ => none

/-- OP-IMM (PRESUMED: notes/assumptions/9.md). -/
def rvOpImm (w : RvWord) (a : BitVec 64) : Option (BitVec 64) :=
  let i := immI w
  let f6 := rvBits w 26 6
  let s := rvBits w 20 6
  match rvF3 w with
  | 0 => some (a + i)
  | 2 => some (rvBool (a.slt i))
  | 3 => some (rvBool (a.ult i))
  | 4 => some (a ^^^ i)
  | 6 => some (a ||| i)
  | 7 => some (a &&& i)
  | 1 =>
    match rvBits w 20 12 with
    | 0x600 => some (BitVec.ofNat 64 (clzN 64 a.toNat))
    | 0x601 => some (BitVec.ofNat 64 (ctzN 64 a.toNat))
    | 0x602 => some (BitVec.ofNat 64 (popN 64 a.toNat))
    | 0x604 => some ((a.extractLsb' 0 8).signExtend 64)
    | 0x605 => some ((a.extractLsb' 0 16).signExtend 64)
    | _ => if f6 = 0 then some (a <<< s) else none
  | _ =>
    match rvBits w 20 12 with
    | 0x287 => some (mapBytes fun k => if byteOf a k = 0 then 0 else 255)
    | 0x6B8 => some (mapBytes fun k => byteOf a (7 - k))
    | _ =>
      if f6 = 0 then some (a >>> s)
      else if f6 = 0x10 then some (a.sshiftRight s)
      else if f6 = 0x18 then some (a.rotateRight s)
      else none

/-- OP-IMM-32. -/
def rvOpImm32 (w : RvWord) (a : BitVec 64) : Option (BitVec 64) :=
  let x := a.extractLsb' 0 32
  let s := rvBits w 20 5
  match rvF3 w, rvF7 w with
  | 0, _ => some (sext32 (a + immI w))
  | 1, f7 =>
    match rvBits w 20 12 with
    | 0x600 => some (BitVec.ofNat 64 (clzN 32 x.toNat))
    | 0x601 => some (BitVec.ofNat 64 (ctzN 32 x.toNat))
    | 0x602 => some (BitVec.ofNat 64 (popN 32 x.toNat))
    | _ =>
      if f7 = 0 then some ((x <<< s).signExtend 64)
      else if rvBits w 26 6 = 2 then some (zext32 a <<< (rvBits w 20 6))
      else none
  | 5, 0x00 => some ((x >>> s).signExtend 64)
  | 5, 0x20 => some ((x.sshiftRight s).signExtend 64)
  | 5, 0x30 => some ((x.rotateRight s).signExtend 64)
  | _, _ => none

/-- Whether a branch is taken. -/
def rvTaken (f3 : Nat) (a b : BitVec 64) : Option Bool :=
  match f3 with
  | 0 => some (a == b)
  | 1 => some (a != b)
  | 4 => some (a.slt b)
  | 5 => some (!a.slt b)
  | 6 => some (a.ult b)
  | 7 => some (!a.ult b)
  | _ => none

/-- What an AMO writes (funct5) (PRESUMED: notes/assumptions/9.md). -/
def rvAmo (f5 n : Nat) (old v : Nat) : Option Nat :=
  let so := signedOf n old
  let sv := signedOf n v
  match f5 with
  | 0x00 => some ((old + v) % 2 ^ n)
  | 0x01 => some v
  | 0x04 => some (old ^^^ v)
  | 0x08 => some (old ||| v)
  | 0x0C => some (old &&& v)
  | 0x10 => some (if so < sv then old else v)
  | 0x14 => some (if so < sv then v else old)
  | 0x18 => some (min old v)
  | 0x1C => some (max old v)
  | _ => none

/-! ### Floating point: F and D -/

/-- The accrued flags: NV, DZ, OF, UF, NX. -/
abbrev RvFlags := BitVec 5
/-- NV. -/
def fNV : RvFlags := 16
/-- DZ. -/
def fDZ : RvFlags := 8
/-- OF. -/
def fOF : RvFlags := 4
/-- UF. -/
def fUF : RvFlags := 2
/-- NX. -/
def fNX : RvFlags := 1

/-- A rounding mode; none where it is reserved. -/
def rvRnd (x : Nat) : Option Rnd :=
  match x with
  | 0 => some (.mode .rne) | 1 => some (.mode .rtz) | 2 => some (.mode .rdn) | 3 => some (.mode .rup) | 4 => some .rmm
  | _ => none

/-- Whether a pattern is a signaling NaN. -/
def isSnan (f : FFmt) (b : Nat) : Bool := (decodeF f b).isNan && !b.testBit (f.mb - 1)

/-- Whether a magnitude, rounded to the precision of a format with no bound on its exponent, is below the least normal number. -/
def isTiny (f : FFmt) (rm : Rnd) (s : Bool) (m : Nat) (e : Int) : Bool :=
  let q := (Nat.log2 m : Int) + e - (f.mb : Int)
  let n := roundQ rm s m e q
  decide ((Nat.log2 n : Int) + q < 1 - (f.bias : Int))

/-- A value rounded, with the flags of IEEE 754: tininess is detected after rounding (PRESUMED: notes/assumptions/9.md). -/
def rvRound (f : FFmt) (rm : Rnd) (x : FNum) : Nat × RvFlags :=
  match x with
  | .fin s m e =>
    let r := roundWith x f rm false
    if m = 0 then (r.1, 0)
    else if r.2 &&& fOVF != 0 then (r.1, fOF ||| fNX)
    else
      let ix := FNum.cmp (decodeF f r.1) x != 0
      (r.1, (if ix then fNX else 0) ||| (if ix && isTiny f rm s m e then fUF else 0))
  | x => ((roundWith x f rm false).1, 0)

/-- A sum whose exact zero takes the sign that the rounding mode gives. -/
def rvAddNum (rm : Rnd) (x y : FNum) : FNum × Acf :=
  let r := x.add y
  if r.1.isZero && !(x.isZero && y.isZero && x.sign == y.sign) then
    (.fin (rm == .mode .rdn) 0 0, r.2)
  else r

/-- A result of an operation on values: INV becomes NV. -/
def rvResult (f : FFmt) (rm : Rnd) (nv : Bool) (x : FNum × Acf) : Nat × RvFlags :=
  let r := rvRound f rm x.1
  (r.1, r.2 ||| (if nv || x.2 &&& fINV != 0 then fNV else 0))

/-- FADD and FSUB. -/
def rvAdd (f : FFmt) (rm : Rnd) (sub : Bool) (a b : Nat) : Nat × RvFlags :=
  let y := decodeF f b
  rvResult f rm (isSnan f a || isSnan f b) (rvAddNum rm (decodeF f a) (if sub then y.neg else y))

/-- FMUL. -/
def rvMul (f : FFmt) (rm : Rnd) (a b : Nat) : Nat × RvFlags :=
  rvResult f rm (isSnan f a || isSnan f b) ((decodeF f a).mul (decodeF f b))

/-- FDIV. -/
def rvDiv (f : FFmt) (rm : Rnd) (a b : Nat) : Nat × RvFlags :=
  let x := decodeF f a
  let y := decodeF f b
  let r := rvResult f rm (isSnan f a || isSnan f b) (x.div y)
  (r.1, r.2 ||| (if y.isZero && !x.isZero && !x.isNan && !x.isInf then fDZ else 0))

/-- FSQRT. -/
def rvSqrt (f : FFmt) (rm : Rnd) (a : Nat) : Nat × RvFlags :=
  let x : FNum × Acf :=
    match decodeF f a with
    | .nan => (.nan, 0)
    | .inf s => if s then (.nan, fINV) else (.inf false, 0)
    | .fin s m e => if m = 0 then (.fin s 0 0, 0) else if s then (.nan, fINV) else
        (let r := sqrtSticky m e; (r, 0))
  rvResult f rm (isSnan f a) x

/-- A × B + C, with the product and the addend negated as the form asks; 0 × Inf is invalid even with a NaN addend. -/
def rvFma (f : FFmt) (rm : Rnd) (negP negC : Bool) (a b c : Nat) : Nat × RvFlags :=
  let p := (decodeF f a).mul (decodeF f b)
  let pv := if negP then p.1.neg else p.1
  let z := decodeF f c
  let r := rvAddNum rm pv (if negC then z.neg else z)
  rvResult f rm (isSnan f a || isSnan f b || isSnan f c) (r.1, r.2 ||| p.2)

/-- FMIN and FMAX. -/
def rvMinMax (f : FFmt) (isMax : Bool) (a b : Nat) : Nat × RvFlags :=
  let x := decodeF f a
  let y := decodeF f b
  let fl := if isSnan f a || isSnan f b then fNV else 0
  if x.isNan then (if y.isNan then f.canonNaN else b, fl)
  else if y.isNan then (a, fl)
  else
    let c := FNum.cmp x y
    (if c == 0 then (if x.sign == isMax then b else a) else if (c < 0) == isMax then b else a, fl)

/-- FEQ (2), FLT (1) and FLE (0). -/
def rvCmp (f : FFmt) (k : Nat) (a b : Nat) : Option (Bool × RvFlags) :=
  let x := decodeF f a
  let y := decodeF f b
  let un := x.isNan || y.isNan
  let c := FNum.cmp x y
  match k with
  | 2 => some (!un && c == 0, if isSnan f a || isSnan f b then fNV else 0)
  | 1 => some (!un && decide (c < 0), if un then fNV else 0)
  | 0 => some (!un && decide (c ≤ 0), if un then fNV else 0)
  | _ => none

/-- FCLASS (PRESUMED: notes/assumptions/9.md). -/
def rvClass (f : FFmt) (a : Nat) : Nat :=
  match decodeF f a with
  | .nan => if isSnan f a then 2 ^ 8 else 2 ^ 9
  | .inf s => if s then 1 else 2 ^ 7
  | .fin s m _ =>
    if m = 0 then (if s then 2 ^ 3 else 2 ^ 4)
    else if a % 2 ^ (f.width - 1) < 2 ^ f.mb then (if s then 2 ^ 2 else 2 ^ 5)
    else (if s then 2 else 2 ^ 6)

/-- FCVT to an integer of n bits. -/
def rvToInt (f : FFmt) (rm : Rnd) (n : Nat) (sgn : Bool) (a : Nat) : Nat × RvFlags :=
  let lo : Int := if sgn then -((2 ^ (n - 1) : Nat) : Int) else 0
  let hi : Int := (((if sgn then 2 ^ (n - 1) else 2 ^ n) : Nat) : Int) - 1
  match decodeF f a with
  | .nan => (wrapInt hi n, fNV)
  | .inf s => (wrapInt (if s then lo else hi) n, fNV)
  | .fin s m e =>
    let x := roundInt s m e rm
    if x < lo then (wrapInt lo n, fNV)
    else if hi < x then (wrapInt hi n, fNV)
    else (wrapInt x n, if FNum.cmp (.ofInt x) (.fin s m e) != 0 then fNX else 0)

/-- FCVT between the two formats. -/
def rvCvtF (src dst : FFmt) (rm : Rnd) (a : Nat) : Nat × RvFlags :=
  rvResult dst rm (isSnan src a) (decodeF src a, 0)

end Sys2Proof.Machine
end

