-- ==== Sys2Proof/Machine/RiscVOps.lean ====
section
/-! DEFINITION. One instruction of an episode context over the state: its address space, windows, mailbox region, loads,
stores, atomics, control and floating-point registers, and exceptions (R451 to R455, R460, R461). Encodings and exception
codes are those of the RISC-V specifications (PRESUMED: notes/assumptions/9.md). -/

namespace Sys2Proof.Machine

/-- What an instruction of a context comes to. -/
inductive EpRes where
  /-- It retires. -/
  | done (s : State)
  /-- It raises an exception: code and tval. -/
  | exc (code : Nat) (tval : Word)
  /-- It has not retired: the context waits, or tries again. -/
  | wait (s : State)
  deriving Repr

/-! ### Registers -/

/-- An integer register; x0 reads 0. -/
def xr (c : Ctx) (i : Nat) : Word := if i = 0 then 0 else vget 0 c.x i

/-- An integer register written; a write to x0 is discarded. -/
def xw (c : Ctx) (i : Nat) (v : Word) : Ctx := if i = 0 then c else { c with x := vset c.x i v }

/-- A floating-point register. -/
def fr (c : Ctx) (i : Nat) : Nat := (vget 0 c.f i).toNat

/-- A single-precision value, NaN-boxed. -/
def boxS (v : Nat) : Word := BitVec.ofNat 64 (0xFFFFFFFF00000000 + v % 2 ^ 32)

/-- A floating-point operand of a format; a value that is not NaN-boxed is the canonical NaN. -/
def fOpnd (f : FFmt) (v : Nat) : Nat :=
  if f == .fp32 then (if v / 2 ^ 32 = 0xFFFFFFFF then v % 2 ^ 32 else f.canonNaN) else v

/-- A floating-point register written in a format, with flags accrued. -/
def fw (c : Ctx) (f : FFmt) (i : Nat) (r : Nat × RvFlags) : Ctx :=
  { c with f := vset c.f i (if f == .fp32 then boxS r.1 else BitVec.ofNat 64 r.1), fflags := c.fflags ||| r.2 }

/-! ### The address space (R454, R455) -/

/-- Whether all of `n` bytes from `a` are device memory of a context: at or above 0x20_0000, in one row of HBM, of a weight
store that is not mapped out, or of the host buffer. -/
def epDevice (s : State) (a n : Nat) : Bool :=
  decide (0x200000 ≤ a) && rowOf a == rowOf (a + n - 1) &&
    match rowOf a with
    | some (.hbm _) | some .host => true
    | some (.vault l) => !s.deadVaults.contains l
    | _ => false

/-- Whether a valid window of the episode covers an access and grants what it needs (DEDUCED: notes/assumptions/45.md). -/
def winGrants (c : Ctx) (a n : Nat) (r w x : Bool) : Bool :=
  c.windows.any fun k => k.valid && k.eid == c.eid && decide (k.base ≤ a) && decide (a + n ≤ k.base + k.limit) &&
    (!r || k.r) && (!w || k.w) && (!x || k.x)

/-- Whether an access through a window is permitted. -/
def epMay (s : State) (c : Ctx) (a n : Nat) (r w x : Bool) : Bool :=
  (decide (a + n ≤ 0x40000) || epDevice s a n) && winGrants c a n r w x

/-- The episode core of a context. -/
def coreOfCtx (n : Nat) : Nat := n / 8

/-- One byte of an episode core's SRAM: a free value until it is written (DESIGN CHOICE: notes/assumptions/3.md). -/
def sramByte (s : State) (i off : Nat) : Byte :=
  (cellGet (getEp s i).sram off).getD (Config.undefByte (2 ^ 52 + i * 2 ^ 18 + off) s.nonce)

/-- Bytes of an episode core's SRAM written. -/
def sramPut (s : State) (i off : Nat) : List Byte → State
  | [] => s
  | b :: bs => sramPut (modEp s i fun e => { e with sram := cellSet e.sram off b }) i (off + 1) bs

/-- Bytes at an address of a context outside the mailbox region. -/
def epBytes (s : State) (n a len : Nat) : List PByte :=
  if a < 0x40000 then (List.range len).map fun k => ⟨sramByte s (coreOfCtx n) (a + k), false⟩ else readPBytes s a len

/-- Bytes written there. -/
def epPut (s : State) (n a : Nat) (bs : List Byte) : State :=
  if a < 0x40000 then
    sramPut (modCtx s n fun c => match c.resv with
      | some r => if a < r.1 + r.2 ∧ r.1 < a + bs.length then { c with resv := none } else c
      | none => c) (coreOfCtx n) a bs
  else writeBytes s a bs

/-- Whether an access waits: its bank group is in a refresh window (R109). -/
def epHeld (s : State) (a n : Nat) : Bool := decide (0x200000 ≤ a) && refreshIn s a n

/-- The context waits for an access to device memory that cannot be made yet (R109, R453), and yields its core: its instruction is tried
again once the access can be made, and a reservation is gone (R451). -/
def epWaits (s : State) (n a len : Nat) : EpRes := .wait (modCtx s n fun c => { c with wait := .memory a len false, resv := none })

/-- A load, AMO, LR or SC has made its access; one to device memory has still to return, and its context waits until the next tick (R453).
The reservation that an LR makes stands as its access returns (R451) (DESIGN CHOICE: notes/assumptions/42.md). -/
def epReturns (s : State) (n a len : Nat) (lr : Bool) : EpRes :=
  .done (if 0x200000 ≤ a then modCtx s n fun c => { c with wait := .memory a len lr } else s)

/-- The context waits at a mailbox, and yields its core: a reservation is gone (R451, R460, R461). -/
def epYields (s : State) (n : Nat) (w : CWait) : EpRes := .wait (modCtx s n fun c => { c with wait := w, resv := none })

/-- The buffers of the mailbox region: 0 ACT, 1 OBS, 2 REW, with the offset of an access inside one. -/
def mbBuf (a n : Nat) : Option (Nat × Nat) :=
  if 0x100000 ≤ a ∧ (a - 0x100000) / 256 < 3 ∧ (a - 0x100000) % 256 + n ≤ 256 then
    some ((a - 0x100000) / 256, (a - 0x100000) % 256)
  else none

/-- A byte of a buffer; ACT with no current action shows a free value (DESIGN CHOICE: notes/assumptions/3.md). -/
def mbByte (s : State) (n : Nat) (b off : Nat) : PByte :=
  let c := getCtx s n
  match b with
  | 0 => if c.hasCur then (c.act[off]?).getD ⟨0, false⟩ else ⟨Config.undefByte (2 ^ 53 + n * 256 + off) s.nonce, false⟩
  | 1 => ⟨(c.obsBuf[off]?).getD 0, false⟩
  | _ => ⟨(c.rewBuf[off]?).getD 0, false⟩

/-- Bytes stored to OBS or REW. -/
def mbStore (c : Ctx) (rew : Bool) (off : Nat) (bs : List Byte) : Ctx :=
  let put (old : List Byte) : List Byte :=
    (List.range 256).map fun i => if off ≤ i ∧ i < off + bs.length then (bs[i - off]?).getD 0 else (old[i]?).getD 0
  if rew then { c with rewBuf := put c.rewBuf } else { c with obsBuf := put c.obsBuf }

/-! ### ACT_TAKE and the doorbells (R460, R461) -/

/-- A load of ACT_TAKE completes: the current action's slot is freed, the oldest delivered message becomes current, and its H0
is the load's value. Registers from 32 on are the floating-point ones. -/
def takeAction (s : State) (n rd len : Nat) : Option State :=
  let c := getCtx s n
  match c.actBox with
  | m :: rest =>
    if m.delivered then
      let c := { c with actBox := rest, hasCur := true, act := m.bytes, wait := .none, pc := c.pc + BitVec.ofNat 64 len,
                        instret := c.instret + 1 }
      let c := if rd < 32 then xw c rd (BitVec.ofNat 64 (msgHead m.bytes)) else fw c .fp64 (rd - 32) (msgHead m.bytes, 0)
      some (modCtx (takePhase s n rankTake) n fun k => { c with phase := k.phase })
    else none
  | [] => none

/-- A doorbell's message: H0 and bytes 8 to 255 of the outgoing buffer. -/
def bellMsg (c : Ctx) (rew : Bool) (v : Word) : List PByte :=
  let h := headerWord (if c.hasCur then msgStep c.act else 0) (if c.hasCur then msgGen c.act else c.g0)
    (if (v.extractLsb' 48 8) = 0 then 0 else 1)
  let buf := if rew then c.rewBuf else c.obsBuf
  clean (toLE 8 h ++ (List.range 248).map fun i => (buf[i + 8]?).getD 0)

/-- A doorbell store completes: none while its mailbox holds 7 or more messages. -/
def ringBell (s : State) (n : Nat) (rew : Bool) (v : Word) (len : Nat) : Option State :=
  let c := getCtx s n
  if 7 ≤ (if rew then c.rewBox else c.obsBox).length then none
  else
    let c := { c with wait := .none, pc := c.pc + BitVec.ofNat 64 len, instret := c.instret + 1 }
    let c := postOut c rew (bellMsg c rew v)
    let c := if rew then c else setOut c (c.out - 1)
    let c := if v.extractLsb' 48 8 = 0 then c else enterEnded (emptyActions c) 1
    some (modCtx (takePhase s n rankTake) n fun k => { c with phase := k.phase })

/-! ### Loads, stores and atomics -/

/-- A load: its bytes, handed on; exceptions come before any effect (DESIGN CHOICE: notes/assumptions/44.md). -/
def epLoad (s : State) (n a len ilen rd : Nat) (k : Nat → State → State) : EpRes :=
  let c := getCtx s n
  let av := BitVec.ofNat 64 a
  if a % len ≠ 0 then .exc 4 av
  else match mbBuf a len with
    | some (b, off) =>
      let bs := (List.range len).map fun i => mbByte s n b (off + i)
      if bs.any (·.psn) then .exc 5 av else .done (k (ofLE (bs.map (·.b))) s)
    | none =>
      if a = 0x100300 ∧ len = 8 then
        if !phaseOk s n rankTake then .wait s
        else match takeAction s n rd ilen with
          | some s => .wait s
          | none => epYields s n (.actTake rd ilen)
      else if !epMay s c a len true false false then .exc 5 av
      else if epHeld s a len then epWaits s n a len
      else
        let bs := epBytes s n a len
        if bs.any (·.psn) then .exc 5 av else epReturns (k (ofLE (bs.map (·.b))) s) n a len false

/-- A store (DESIGN CHOICE: notes/assumptions/44.md). -/
def epStore (s : State) (n a len ilen : Nat) (v : Nat) : EpRes :=
  let c := getCtx s n
  let av := BitVec.ofNat 64 a
  if a % len ≠ 0 then .exc 6 av
  else match mbBuf a len with
    | some (0, _) => .exc 7 av
    | some (b, off) => .done (modCtx s n fun c => mbStore c (b == 2) off (toLE len v))
    | none =>
      if (a = 0x100308 ∨ a = 0x100310) ∧ len = 8 then
        let rew := a = 0x100310
        if !rew && c.checker then .exc 7 av
        else if !phaseOk s n rankTake then .wait s
        else match ringBell s n rew (BitVec.ofNat 64 v) ilen with
          | some s => .wait s
          | none => epYields s n (.bell rew (BitVec.ofNat 64 v) ilen)
      else if !epMay s c a len false true false then .exc 7 av
      else if epHeld s a len then .wait s
      else .done (epPut s n a (toLE len v))

/-- Whether a reservation covers the bytes of an SC (PRESUMED: notes/assumptions/9.md). -/
def resvHolds (resv : Option (Nat × Nat)) (a len : Nat) : Bool :=
  match resv with
  | some r => decide (r.1 ≤ a) && decide (a + len ≤ r.1 + r.2)
  | none => false

/-- An AMO, LR or SC on `len` bytes: a window must grant R and W (DESIGN CHOICE: notes/assumptions/44.md). -/
def epAtomic (s : State) (n a len : Nat) (f5 rs2 rd : Nat) : EpRes :=
  let c := getCtx s n
  let av := BitVec.ofNat 64 a
  let lr := f5 = 2
  let ext (v : Nat) : Word := if len = 4 then (BitVec.ofNat 32 v).signExtend 64 else BitVec.ofNat 64 v
  let v := (xr c rs2).toNat % 2 ^ (8 * len)
  if lr ∧ rs2 ≠ 0 then .exc 2 (Config.excTval s.nonce)
  else if (rvAmo f5 (8 * len) 0 0).isNone ∧ !lr ∧ f5 ≠ 3 then .exc 2 (Config.excTval s.nonce)
  else if a % len ≠ 0 then .exc (if lr then 4 else 6) av
  else if !epMay s c a len true true false then .exc (if lr then 5 else 7) av
  else if epHeld s a len then epWaits s n a len
  else
    let bs := epBytes s n a len
    let old := ofLE (bs.map (·.b))
    if f5 = 3 then
      let hit := resvHolds c.resv a len
      let s := if hit then epPut s n a (toLE len v) else s
      epReturns (modCtx s n fun c => { xw c rd (if hit then 0 else 1) with resv := none }) n a len false
    else if bs.any (·.psn) then .exc (if lr then 5 else 7) av
    else if lr then epReturns (modCtx s n fun c => { xw c rd (ext old) with resv := some (a, len) }) n a len true
    else
      let s := epPut s n a (toLE len ((rvAmo f5 (8 * len) old v).getD 0))
      epReturns (modCtx s n fun c => xw c rd (ext old)) n a len false

/-! ### Control and status registers (R451) -/

/-- A CSR that a context may read: its value, and whether it may be written. -/
def epCsr (s : State) (c : Ctx) (a : Nat) : Option (Word × Bool) :=
  match a with
  | 1 => some (c.fflags.zeroExtend 64, true)
  | 2 => some (c.frm.zeroExtend 64, true)
  | 3 => some ((c.frm ++ c.fflags).zeroExtend 64, true)
  | 0xC00 => some (c.cycle, false)
  | 0xC01 => some (s.tick, false)
  | 0xC02 => some (c.instret, false)
  | _ => none

/-- A CSR written. -/
def epCsrPut (c : Ctx) (a : Nat) (v : Word) : Ctx :=
  match a with
  | 1 => { c with fflags := v.extractLsb' 0 5 }
  | 2 => { c with frm := v.extractLsb' 0 3 }
  | _ => { c with fflags := v.extractLsb' 0 5, frm := v.extractLsb' 5 3 }

/-- A Zicsr instruction (PRESUMED: notes/assumptions/9.md). -/
def epCsrOp (s : State) (n : Nat) (w : RvWord) : Option State :=
  let c := getCtx s n
  let a := rvBits w 20 12
  let src := if rvF3 w < 4 then xr c (rvRs1 w) else BitVec.ofNat 64 (rvRs1 w)
  let wr := rvF3 w % 4 = 1 ∨ rvRs1 w ≠ 0
  match epCsr s c a with
  | none => none
  | some (old, ok) =>
    if wr ∧ !ok then none
    else
      let new := if rvF3 w % 4 = 1 then src else if rvF3 w % 4 = 2 then old ||| src else old &&& ~~~src
      some (modCtx s n fun c => xw (if wr then epCsrPut c a new else c) (rvRd w) old)

/-! ### Floating point -/

/-- The format of an F or D instruction. -/
def rvFmt (x : Nat) : Option FFmt :=
  match x with
  | 0 => some .fp32 | 1 => some .fp64 | _ => none

/-- The rounding mode of an instruction; none where it is reserved. -/
def epRm (c : Ctx) (w : RvWord) : Option Rnd := if rvF3 w = 7 then rvRnd c.frm.toNat else rvRnd (rvF3 w)

/-- OP-FP: the context after it; none where it is illegal (PRESUMED: notes/assumptions/9.md). -/
def epFp (c : Ctx) (w : RvWord) : Option Ctx :=
  match rvFmt (rvBits w 25 2) with
  | none => none
  | some f =>
    let rd := rvRd w
    let ra := fr c (rvRs1 w)
    let rb := fr c (rvRs2 w)
    let a := fOpnd f ra
    let b := fOpnd f rb
    let rs2 := rvRs2 w
    let wd := f.width
    let sgn (v : Nat) (neg : Bool) : Nat := v % 2 ^ (wd - 1) + (if neg then 2 ^ (wd - 1) else 0)
    let toX (c : Ctx) (v : Nat) (n : Nat) (fl : RvFlags) : Ctx :=
      xw { c with fflags := c.fflags ||| fl } rd (if n = 32 then (BitVec.ofNat 32 v).signExtend 64 else BitVec.ofNat 64 v)
    match rvBits w 27 5, rvF3 w with
    | 0x00, _ => (epRm c w).map fun rm => fw c f rd (rvAdd f rm false a b)
    | 0x01, _ => (epRm c w).map fun rm => fw c f rd (rvAdd f rm true a b)
    | 0x02, _ => (epRm c w).map fun rm => fw c f rd (rvMul f rm a b)
    | 0x03, _ => (epRm c w).map fun rm => fw c f rd (rvDiv f rm a b)
    | 0x0B, _ => if rs2 = 0 then (epRm c w).map fun rm => fw c f rd (rvSqrt f rm a) else none
    | 0x04, 0 => some (fw c f rd (sgn a (b.testBit (wd - 1)), 0))
    | 0x04, 1 => some (fw c f rd (sgn a (!b.testBit (wd - 1)), 0))
    | 0x04, 2 => some (fw c f rd (sgn a (a.testBit (wd - 1) != b.testBit (wd - 1)), 0))
    | 0x05, 0 => some (fw c f rd (rvMinMax f false a b))
    | 0x05, 1 => some (fw c f rd (rvMinMax f true a b))
    | 0x08, _ =>
      match rvFmt rs2 with
      | some src => if src == f then none else (epRm c w).map fun rm => fw c f rd (rvCvtF src f rm (fOpnd src ra))
      | none => none
    | 0x14, k => (rvCmp f k a b).map fun r => toX c (if r.1 then 1 else 0) 64 r.2
    | 0x18, _ =>
      if 4 ≤ rs2 then none
      else (epRm c w).map fun rm =>
        let n := if rs2 < 2 then 32 else 64
        let r := rvToInt f rm n (rs2 % 2 == 0) a
        toX c r.1 n r.2
    | 0x1A, _ =>
      if 4 ≤ rs2 then none
      else (epRm c w).map fun rm =>
        let n := if rs2 < 2 then 32 else 64
        let v := (xr c (rvRs1 w)).toNat % 2 ^ n
        fw c f rd (rvRound f rm (.ofInt (if rs2 % 2 = 0 then signedOf n v else (v : Int))))
    | 0x1C, 0 => if rs2 = 0 then some (toX c (ra % 2 ^ wd) wd 0) else none
    | 0x1C, 1 => if rs2 = 0 then some (toX c (rvClass f a) 64 0) else none
    | 0x1E, 0 => if rs2 = 0 then some (fw c f rd ((xr c (rvRs1 w)).toNat % 2 ^ wd, 0)) else none
    | _, _ => none

/-- The fused multiply-adds. -/
def epFma (c : Ctx) (w : RvWord) (negP negC : Bool) : Option Ctx :=
  match rvFmt (rvBits w 25 2), epRm c w with
  | some f, some rm =>
    some (fw c f (rvRd w) (rvFma f rm negP negC (fOpnd f (fr c (rvRs1 w))) (fOpnd f (fr c (rvRs2 w))) (fOpnd f (fr c (rvBits w 27 5)))))
  | _, _ => none

/-! ### One instruction -/

/-- The result of an instruction that only changes its context and goes on; none is illegal. -/
def epPure (s : State) (n : Nat) (x : Option Ctx) : EpRes :=
  match x with
  | some c => .done (modCtx s n fun _ => c)
  | none => .exc 2 (Config.excTval s.nonce)

/-- What a load's destination takes: the value of the bytes read, extended as the form says, or NaN-boxed.
(PRESUMED: notes/assumptions/9.md). -/
def rvLoadPut (w : RvWord) (v : Nat) (c : Ctx) : Ctx :=
  let rd := rvRd w
  match rvBits w 0 7, rvF3 w with
  | 0x07, 2 => fw c .fp32 rd (v, 0)
  | 0x07, _ => fw c .fp64 rd (v, 0)
  | _, 0 => xw c rd ((BitVec.ofNat 8 v).signExtend 64)
  | _, 1 => xw c rd ((BitVec.ofNat 16 v).signExtend 64)
  | _, 2 => xw c rd ((BitVec.ofNat 32 v).signExtend 64)
  | _, _ => xw c rd (BitVec.ofNat 64 v)

/-- Bytes of a load (opcodes 0x03 and 0x07); none where the form is reserved (PRESUMED: notes/assumptions/9.md). -/
def rvLoadLen (w : RvWord) : Option Nat :=
  match rvBits w 0 7, rvF3 w with
  | 0x07, 2 => some 4
  | 0x07, 3 => some 8
  | 0x07, _ => none
  | _, 7 => none
  | _, k => some (2 ^ (k % 4))

/-- Bytes of a store (opcodes 0x23 and 0x27); none where the form is reserved (PRESUMED: notes/assumptions/9.md). -/
def rvStoreLen (w : RvWord) : Option Nat :=
  match rvBits w 0 7, rvF3 w with
  | 0x27, 2 => some 4
  | 0x27, 3 => some 8
  | 0x27, _ => none
  | _, k => if k < 4 then some (2 ^ k) else none

/-- The value that a store writes in `len` bytes. -/
def rvStoreVal (c : Ctx) (w : RvWord) (len : Nat) : Nat :=
  (if rvBits w 0 7 = 0x27 then fr c (rvRs2 w) else (xr c (rvRs2 w)).toNat) % 2 ^ (8 * len)

/-- An instruction that only changes its hart, of which `ilen` bytes were fetched: the registers before pc moves on; none is
illegal. A jump or branch sets `pc` to its target less `ilen` (PRESUMED: notes/assumptions/9.md). -/
def rvCompute (c : Ctx) (w : RvWord) (ilen : Nat) : Option Ctx :=
  let rd := rvRd w
  let a := xr c (rvRs1 w)
  let b := xr c (rvRs2 w)
  let il := BitVec.ofNat 64 ilen
  let setX (v : Option Word) : Option Ctx := v.map fun v => xw c rd v
  match rvBits w 0 7 with
  | 0x37 => setX (some (immU w))
  | 0x17 => setX (some (c.pc + immU w))
  | 0x6F => some { xw c rd (c.pc + il) with pc := c.pc + immJ w - il }
  | 0x67 => if rvF3 w = 0 then some { xw c rd (c.pc + il) with pc := ((a + immI w) &&& ~~~1#64) - il } else none
  | 0x63 => (rvTaken (rvF3 w) a b).map fun t => if t then { c with pc := c.pc + immB w - il } else c
  | 0x13 => setX (rvOpImm w a)
  | 0x1B => setX (rvOpImm32 w a)
  | 0x33 => setX (rvOp (rvF7 w) (rvF3 w) a b)
  | 0x3B => setX (rvOp32 (rvF7 w) (rvF3 w) (rvRs2 w) a b)
  | 0x0F => if rvF3 w < 2 then some c else none
  | 0x53 => epFp c w
  | 0x43 => epFma c w false false
  | 0x47 => epFma c w false true
  | 0x4B => epFma c w true false
  | 0x4F => epFma c w true true
  | _ => none

/-- A 32-bit instruction, of which `ilen` bytes were fetched: the state before its pc and instret move on
(PRESUMED: notes/assumptions/9.md). -/
def epExec (s : State) (n : Nat) (w : RvWord) (ilen : Nat) : EpRes :=
  let c := getCtx s n
  let rd := rvRd w
  let a := xr c (rvRs1 w)
  let bad : EpRes := .exc 2 (Config.excTval s.nonce)
  let load (reg : Nat) : EpRes := match rvLoadLen w with
    | some len => epLoad s n (a + immI w).toNat len ilen reg fun v s => modCtx s n (rvLoadPut w v)
    | none => bad
  let store : EpRes := match rvStoreLen w with
    | some len => epStore s n (a + immS w).toNat len ilen (rvStoreVal c w len)
    | none => bad
  match rvBits w 0 7 with
  | 0x03 => load rd
  | 0x07 => load (32 + rd)
  | 0x23 => store
  | 0x27 => store
  | 0x2F =>
    match rvF3 w with
    | 2 => epAtomic s n a.toNat 4 (rvBits w 27 5) (rvRs2 w) rd
    | 3 => epAtomic s n a.toNat 8 (rvBits w 27 5) (rvRs2 w) rd
    | _ => bad
  | 0x73 =>
    if rvF3 w % 4 = 0 then
      if w = 0x00000073#32 then .exc 8 0
      else if w = 0x00100073#32 then .exc 3 (Config.excTval s.nonce)
      else bad
    else match epCsrOp s n w with
      | some s => .done s
      | none => bad
  | _ => epPure s n (rvCompute c w ilen)

/-! ### Fetch -/

/-- A parcel of 2 bytes at an address: an X window must grant it (R455). -/
def epParcel (s : State) (n : Nat) (a : Word) : Except EpRes (BitVec 16) :=
  let c := getCtx s n
  if !epMay s c a.toNat 2 false false true then .error (.exc 1 a)
  else if epHeld s a.toNat 2 then .error (epWaits s n a.toNat 2)
  else
    let bs := epBytes s n a.toNat 2
    if bs.any (·.psn) then .error (.exc 1 a) else .ok (BitVec.ofNat 16 (ofLE (bs.map (·.b))))

/-- The next instruction of a context, expanded, and its length.
(DESIGN CHOICE: notes/assumptions/43.md; DEDUCED: notes/assumptions/45.md). -/
def epFetch (s : State) (n : Nat) : Except EpRes (RvWord × Nat) :=
  let pc := (getCtx s n).pc
  match epParcel s n pc with
  | .error r => .error r
  | .ok lo =>
    if lo.extractLsb' 0 2 ≠ 3#2 then
      match expandC lo with
      | some w => .ok (w, 2)
      | none => .error (.exc 2 (Config.excTval s.nonce))
    else match epParcel s n (pc + 2) with
      | .error r => .error r
      | .ok hi =>
        if !winGrants (getCtx s n) pc.toNat 4 false false true then .error (.exc 1 (pc + 2)) else .ok (hi ++ lo, 4)

/-- What the next instruction of a context comes to (PRESUMED: notes/assumptions/9.md; DESIGN CHOICE: notes/assumptions/43.md). -/
def epNext (s : State) (n : Nat) : EpRes :=
  match epFetch s n with
  | .error r => r
  | .ok (w, len) =>
    match epExec s n w len with
    | .done s =>
      .done (modCtx s n fun c => { c with pc := c.pc + BitVec.ofNat 64 len, instret := c.instret + 1 })
    | r => r

/-- A context is ready when it is LIVE and not waiting (R453). -/
def ctxReady (c : Ctx) : Bool := c.st == .live && c.wait == .none

/-- An exception suspends its context and is reported (R452) (DESIGN CHOICE: notes/assumptions/43.md). -/
def suspend (s : State) (n code : Nat) (tval : Word) : State :=
  let c := getCtx s n
  let s := modCtx s n fun c => { c with st := .suspended, excCode := BitVec.ofNat 8 code, excTval := tval, resv := none }
  let d := ctxDie n
  { s with dies := vset s.dies d (let k := vget Die.reset s.dies d; { k with reports := k.reports ++ [(n, code, c.pc, tval)] }) }

end Sys2Proof.Machine
end

