-- ==== Sys2Proof/Machine/EpisodeEvents.lean ====
section
/-! DEFINITION. The events of the episode cores (R451 to R453, R457, R459 to R463, R466). -/

namespace Sys2Proof.Machine

/-- An answer that is the machine's next state. -/
abbrev EvOut := Host.Outcome State Fault Refusal

/-- The context resident on an episode core. -/
def residentCtx (s : State) (i : Nat) : Nat := 8 * i + (getEp s i).cur % 8

/-- Whether a context is resident on its core and ready. -/
def runsNow (s : State) (n : Nat) : Bool := n < 480 && residentCtx s (coreOfCtx n) == n && ctxReady (getCtx s n)

/-- A context has been resident on its core, and ready, on this tick: its budget counts the tick (R463)
(DESIGN CHOICE: notes/assumptions/42.md). -/
def noteResident (s : State) (n : Nat) : State :=
  if runsNow s n && !(getCtx s n).resident then modCtx s n fun c => { c with resident := true, budget := c.budget + 1 } else s

/-- The context that takes an episode core next: the first ready one after the resident in round-robin order (R453). -/
def nextReady (s : State) (i : Nat) : Option Nat :=
  let h := (getEp s i).cur % 8
  ((List.range 8).map fun k => (h + 1 + k) % 8).find? fun k => k != h && ctxReady (getCtx s (8 * i + k))

/-- Whether a context may still run on this tick: its budget counts the tick already, or the tests of its timers are still to come
(R462) (DESIGN CHOICE: notes/assumptions/42.md). -/
def mayCredit (s : State) (n : Nat) : Bool := (getCtx s n).resident || phaseOk s n rankTimers

/-- What a context that leaves its core keeps of a reservation: none (R451), but for one that the LR makes for whose return it leaves
(DESIGN CHOICE: notes/assumptions/42.md). -/
def leaveResv (c : Ctx) : Option (Nat × Nat) :=
  match c.wait with
  | .memory _ _ true => c.resv
  | _ => none

/-- Another context takes an episode core (R453). -/
def takeCore (s : State) (k h : Nat) : State :=
  noteResident (modEp (modCtx s (residentCtx s k) fun c => { c with resv := leaveResv c }) k fun e => { e with cur := h, ran := 0 }) (8 * k + h)

/-- An episode core switches contexts (R453) where the resident is not ready, or has run 4,096 cycles, and another is ready and may run
on this tick. -/
def switchNow (s : State) (k : Nat) : State :=
  match nextReady s k with
  | some h =>
    if 60 ≤ k ∨ !mayCredit s (8 * k + h) ∨ (ctxReady (getCtx s (residentCtx s k)) ∧ (getEp s k).ran < 4096) then s else takeCore s k h
  | none => s

/-- The context resident on an episode core executes one instruction (R451), once the core has switched to the one whose turn it is. A
context that begins to wait, or is suspended, leaves its core at once where another is ready (R453). -/
def execEpisodeCoreInstruction (i : BitVec 6) (s : State) : EvOut :=
  let s := switchNow s i.toNat
  let n := residentCtx s i.toNat
  .next (if !runsNow s n || !mayCredit s n then s
    else
      let s := noteResident s n
      switchNow (match epNext s n with
        | .done t | .wait t => t
        | .exc code tval => suspend s n code tval) i.toNat)

/-- The resident context is suspended where its next instruction raises an exception (R452). -/
def execContextException (x : CtxNum) (s : State) : EvOut :=
  let n := x.toNat
  .next (if !runsNow s n then s
    else match epNext s n with
      | .exc code tval => switchNow (suspend s n code tval) (coreOfCtx n)
      | .done _ | .wait _ => s)

/-- A waiting load of ACT_TAKE completes (R460); a core whose resident waits takes the context that has become ready (R453). -/
def execActTake (x : CtxNum) (s : State) : EvOut :=
  let n := x.toNat
  .next (match (getCtx s n).st, (getCtx s n).wait with
    | .live, .actTake rd len => if phaseOk s n rankTake then switchNow ((takeAction s n rd len).getD s) (coreOfCtx n) else s
    | _, _ => s)

/-- A waiting doorbell store of one kind completes (R461). -/
def bellEvent (s : State) (n : Nat) (which : Bool) : State :=
  match (getCtx s n).st, (getCtx s n).wait with
  | .live, .bell rew v len => if rew == which && phaseOk s n rankTake then switchNow ((ringBell s n rew v len).getD s) (coreOfCtx n) else s
  | _, _ => s

/-- A waiting store to OBS_BELL completes (R461). -/
def execObsBell (x : CtxNum) (s : State) : EvOut := .next (bellEvent s x.toNat false)

/-- A waiting store to REW_BELL completes (R461). -/
def execRewBell (x : CtxNum) (s : State) : EvOut := .next (bellEvent s x.toNat true)

/-- The oldest unexamined action message of a LIVE context is examined (R459). -/
def execActionExamination (x : CtxNum) (s : State) : EvOut := .next (examineNext s x.toNat)

/-- The step timer is tested (R463). -/
def execStepWatchdog (x : CtxNum) (s : State) : EvOut :=
  .next (if phaseOk s x.toNat rankTimers then testStep s x.toNat else s)

/-- The budget is tested (R463). -/
def execEpisodeBudget (x : CtxNum) (s : State) : EvOut :=
  .next (if phaseOk s x.toNat rankTimers then testBudget s x.toNat else s)

/-- The reports of a die that still stand: their context is SUSPENDED. -/
def standing (s : State) (d : Nat) : List (Nat × Nat × Word × Word) :=
  (vget Die.reset s.dies d).reports.filter fun r => (getCtx s r.1).st == .suspended

/-- Firmware ends the SUSPENDED context whose report is the oldest (R466). -/
def execSuspendedContextEnd (x : CtxNum) (s : State) : EvOut :=
  let n := x.toNat
  let d := ctxDie n
  .next (match standing s d with
    | (m, _, _, _) :: _ =>
      let c := getCtx s n
      if m == n then endEpisode s n (lastStep c) c.g0 5 c.excCode.toNat else s
    | [] => s)

/-- Zeros over a window (R457). -/
def scrubWindow (s : State) (n : Nat) (k : Window) : State :=
  let z := List.replicate k.limit (0 : Byte)
  if k.base < 0x200000 then sramPut s (coreOfCtx n) k.base z else writeBytes s k.base z

/-- The windows that a scrub zeroes. -/
def scrubbed (c : Ctx) : List Window := c.windows.filter fun k => k.valid && k.own

/-- The scrub of an ENDED context: its OWN windows are zeroed and SCRB clears (R457, R465). A window in a weight store waits for a refresh
window to end (R109). -/
def execScrub (x : CtxNum) (s : State) : EvOut :=
  let n := x.toNat
  let c := getCtx s n
  .next (if c.st != .ended || !c.scrb || (scrubbed c).any (fun k => epHeld s k.base k.limit) then s
    else
      let s := (scrubbed c).foldl (fun s k => scrubWindow s n k) s
      let s := modCtx s n fun c => { c with scrb := false }
      if c.unbind then unbindCtx s n else s)

/-- CONTEXT_SWITCH (R453). -/
def execContextSwitch (i : BitVec 6) (s : State) : EvOut := .next (switchNow s i.toNat)

end Sys2Proof.Machine
end

