-- ==== Sys2Proof/Machine/Faults.lean ====
section
/-! DEFINITION. Page walks of waiting agents, fault records and their answers (R102, R103, R418, R425 to R427), refresh windows
(R109) and hot lists (R431). -/

namespace Sys2Proof.Machine

/-! ### Where an agent stands -/

/-- Whether a record is of an agent. -/
def recIsOf (r : FaultRec) : Agent → Bool
  | .ap l => !r.adm && r.agent == .ap && r.core == l.toNat
  | .su l n => !r.adm && r.agent == .su && r.core == l.toNat && r.stream == n.toNat
  | .ce l => !r.adm && r.agent == .ce && r.core == l.toNat
  | .admission => r.adm

/-- The agent of a record. -/
def agentOf (r : FaultRec) : Agent :=
  if r.adm then .admission
  else match r.agent with
    | .su => .su (BitVec.ofNat 8 r.core) (BitVec.ofNat 4 r.stream)
    | .ce => .ce (BitVec.ofNat 8 r.core)
    | _ => .ap (BitVec.ofNat 8 r.core)

/-- Where an agent stands with a fault. -/
def fltOf (s : State) : Agent → AgentFault
  | .ap l => (getCore s l.toNat).apFlt
  | .su l n => (getStream s l.toNat n.toNat).flt
  | .ce l => (getCore s l.toNat).ceFlt
  | .admission => match s.admitting with
    | some a => a.flt
    | none => .clear

/-- The address an agent waits to translate. -/
def fltVaOf (s : State) : Agent → Word
  | .ap l => (getCore s l.toNat).apFltVa
  | .su l n => (getStream s l.toNat n.toNat).fltVa
  | .ce l => (getCore s l.toNat).ceFltVa
  | .admission => match s.admitting with
    | some a => a.va
    | none => 0

/-- An agent put elsewhere with its fault. -/
def setFlt (s : State) (a : Agent) (f : AgentFault) : State :=
  match a with
  | .ap l => modCore s l.toNat fun c => { c with apFlt := f, fetchWait := c.fetchWait && f != .clear }
  | .su l n => modStream s l.toNat n.toNat fun t => { t with flt := f }
  | .ce l => modCore s l.toNat fun c => { c with ceFlt := f }
  | .admission => { s with admitting := s.admitting.map fun x => { x with flt := f } }

/-- The die whose fault queue takes an agent's records (R425). -/
def agentDie : Agent → Nat
  | .ap l | .su l _ | .ce l => dieOf l.toNat
  | .admission => 0

/-! ### Records (R425) -/

/-- The capacity of a die's fault queue. -/
def fqCap : Nat := 1024

/-- The 64 bytes of a fault record (R425). -/
def FaultRec.image (r : FaultRec) : List Byte :=
  let info := r.fcode + r.core * 2 ^ 8 + (if r.adm then 0 else engCode r.agent) * 2 ^ 16 + r.stream * 2 ^ 19 + r.lvl * 2 ^ 23 +
    b2n r.write * 2 ^ 25 + b2n r.fetch * 2 ^ 26 + r.asid.toNat * 2 ^ 28 + r.lid.toNat * 2 ^ 40
  [info, r.va.toNat, r.pa, r.tick, r.key + r.lock * 2 ^ 4, r.seq].flatMap (toLE 8) ++ List.replicate 16 0

/-- The first member of a list that a test picks, and the list without it. -/
def pickFirst {α : Type} (p : α → Bool) : List α → Option (α × List α)
  | [] => none
  | x :: xs => if p x then some (x, xs) else (pickFirst p xs).map fun r => (r.1, x :: r.2)

/-- A record written to its die's queue, with its number. -/
def writeRecord (s : State) (d : Nat) (r : FaultRec) : State :=
  let r := { r with seq := s.fltSeq }
  let s := { s with fltSeq := s.fltSeq + 1,
                    dies := vset s.dies d (let k := vget Die.reset s.dies d; { k with fq := k.fq ++ [r] }) }
  if s.kindEn.getLsbD 4 then traceAdd s ⟨now s, 4, r.core, r.lid, r.fcode, r.va, BitVec.ofNat 64 r.pa⟩ else s

/-- FAULT_RECORD_WRITE (R425, R426): an agent's oldest record is written once its die's queue has room. A record of code 0x01
waits for its answer; the kill follows any other at once. An admission read that fails is rejected and kills nothing (R380).
(DESIGN CHOICE: notes/assumptions/75.md). -/
def execFaultRecordWrite (a : Agent) (s : State) : Out :=
  .next <| match pickFirst (fun r => recIsOf r a) s.fltPend with
    | none => s
    | some (r, rest) =>
      if fqCap ≤ (vget Die.reset s.dies (agentDie a)).fq.length then s
      else
        let n := s.fltSeq
        let s := writeRecord { s with fltPend := rest } (agentDie a) r
        if r.fcode == 1 then setFlt s a (.sent n)
        else if r.adm then { s with admitting := s.admitting.map fun x => { x with flt := .clear, answer := some (BitVec.ofNat 8 r.fcode) } }
        else killTask s r.lid r.fcode

/-! ### Answers (R426) -/

/-- The agent that waits for the answer to a record that firmware has taken; none for a withdrawn record. -/
def waitsFor (s : State) (seq : Nat) : Option FaultRec :=
  s.fltTaken.find? fun r => r.seq == seq && fltOf s (agentOf r) == .sent seq

/-- RETRY (R426): the agent walks again (DESIGN CHOICE: notes/assumptions/6.md). -/
def execRetry (seq : Word) (s : State) : Out :=
  .next <| match waitsFor s seq.toNat with
    | some r => setFlt s (agentOf r) (.again seq.toNat)
    | none => s

/-- KILL_RESPONSE (R426): the task is killed with the cause that firmware gives; an admission is rejected, with
cause 0x08 (R380, R483) (DESIGN CHOICE: notes/assumptions/6.md; DESIGN CHOICE: notes/assumptions/50.md). -/
def execKillResponse (seq : Word) (cause : BitVec 8) (s : State) : Out :=
  .next <| match waitsFor s seq.toNat with
    | none => s
    | some r =>
      let s := { s with fltTaken := s.fltTaken.filter fun k => k.seq != seq.toNat }
      if r.adm then { s with admitting := s.admitting.map fun x => { x with flt := .clear, answer := some 0x08 } }
      else killTask s r.lid cause.toNat

/-! ### Walks (R418, R427) -/

/-- A stream whose fault is resolved is OPEN again and counts it; the count saturates at 255 (R93, R103). -/
def streamResumes (s : State) (l n : Nat) : State :=
  modStream s l n fun t =>
    { t with flt := .clear, st := if t.st == .stalled then .opened else t.st,
             fltcnt := if t.fltcnt = 255 then 255 else t.fltcnt + 1 }

/-- A translation that a walk has found goes into the agent's TLB (R420). -/
def fillTlb (s : State) (a : Agent) (asid : BitVec 12) (va : Nat) (x : Trans) : State :=
  match a with
  | .ap l => modCore s l.toNat fun c => { c with apTlb := tlbAdd 64 c.apTlb asid va x }
  | .su l n => modStream s l.toNat n.toNat fun t => { t with tlb := tlbAdd 2 t.tlb asid va x }
  | .ce l => modCore s l.toNat fun c => { c with ceTlb := tlbAdd 2 c.ceTlb asid va x }
  | .admission => s

/-- A walk after a RETRY has found a translation: the agent goes on. -/
def walkDone (s : State) (a : Agent) (asid : BitVec 12) (va : Nat) (x : Trans) : State :=
  let s := fillTlb s a asid va x
  match a with
  | .su l n => streamResumes s l.toNat n.toNat
  | a => setFlt s a .clear

/-- The walk cache that an agent's walks use: that of its core (DESIGN CHOICE: notes/assumptions/13.md). -/
def agentWalk (s : State) : Agent → List WalkEnt
  | .ap l | .su l _ | .ce l => (getCore s l.toNat).walkCache
  | .admission => []

/-- PAGE_WALK (R418, R426): the walk of an agent that firmware told to try again. It finds a translation, or a fault for a new
record. -/
def execPageWalk (a : Agent) (s : State) : Out :=
  .next <| match fltOf s a with
    | .again seq =>
      match s.fltTaken.find? fun r => r.seq == seq with
      | none => s
      | some r =>
        let s := { s with fltTaken := s.fltTaken.filter fun k => k.seq != seq }
        let va := r.va.toNat % 2 ^ 48
        match walk s (agentWalk s a) r.asid va with
        | .ok x => walkDone s a r.asid va x
        | .error f => raiseFault (setFlt s a .unsent) { r with fcode := f.code, lvl := f.lvl, pa := f.pa }
    | _ => s

/-! ### Refresh windows (R109) -/

/-- The refresh window that a tick lies in: its bank group. -/
def windowAt (base tick : Nat) : Option Nat :=
  if tick < base then none
  else if (tick - base) % 4096 < 384 then some ((tick - base) / 4096 % 16)
  else none

/-- The window of the present tick. -/
def windowNow (s : State) : Option Nat := windowAt s.refbase.toNat (now s)

/-- REFRESH_WINDOW_START (R109): the window due on this tick begins. -/
def execRefreshWindowStart (s : State) : Out :=
  .next <| match windowNow s with
    | some g => { s with refresh := some g }
    | none => s

/-- REFRESH_WINDOW_END (R109): a window that does not reach this tick ends. -/
def execRefreshWindowEnd (s : State) : Out :=
  .next (if s.refresh == windowNow s then s else { s with refresh := none })

/-! ### Hot lists (R431) -/

/-- Whether one entry stands before another: by count descending, then by P ascending. -/
def hotBefore (a b : Nat × Nat) : Bool := decide (b.2 < a.2) || (a.2 == b.2 && decide (a.1 < b.1))

/-- An entry put in its place. -/
def hotInsert (x : Nat × Nat) : List (Nat × Nat) → List (Nat × Nat)
  | [] => [x]
  | y :: ys => if hotBefore x y then x :: y :: ys else y :: hotInsert x ys

/-- The list in the order of R431. -/
def hotSort (xs : List (Nat × Nat)) : List (Nat × Nat) := xs.foldr hotInsert []

/-- The number of the interval of the present tick. -/
def interval (s : State) : Nat := now s / 2 ^ 20

/-- A stack's interval ends: the hot list is written, and the sketch and the candidates are cleared. -/
def hotClose (s : State) (k : Nat) : State :=
  let st := tget Stack.reset s.hbm k
  if st.done < interval s then
    { s with hbm := tset s.hbm k { st with sketch := [], cand := [], hot := hotSort st.cand, done := interval s } }
  else s

/-- HOT_LIST_WRITE (R431) (DESIGN CHOICE: notes/assumptions/75.md). -/
def execHotListWrite (stack : BitVec 3) (s : State) : Out := .next (hotClose s stack.toNat)

end Sys2Proof.Machine
end

