-- ==== Sys2Proof/Machine/Links.lean ====
section
/-! DEFINITION. Bukuvo links: flits received, answered and forwarded, retransmission, training and removal of ports (R470 to
R478). -/

namespace Sys2Proof.Machine

/-- Whether a flit is a request. -/
def requestKind (k : BitVec 4) : Bool := k == 1 || k == 3 || k == 5

/-- What a port keeps of the flits it has sent, once a response shows that its far end has accepted the request: what it sent after
that (R474, R475) (DESIGN CHOICE: notes/assumptions/10.md). -/
def keptAfter (f : Flit) (sent : List (Flit × Vector (List Nat) 5)) : List (Flit × Vector (List Nat) 5) :=
  match sent.findIdx? fun e => requestKind e.1.kind && e.1.sdev == f.ddev && e.1.score == f.score && e.1.tag == f.tag with
  | some i => sent.drop (i + 1)
  | none => sent

/-- A response shows which flits have been accepted (DESIGN CHOICE: notes/assumptions/10.md). -/
def acceptSent (s : State) (f : Flit) : State :=
  if requestKind f.kind then s
  else { s with ports := s.ports.map fun p => (p.1, { p.2 with sent := keptAfter f p.2.sent }) }

/-- Whether an address of this device can be reached over a link: HBM, host buffer, and weight store, which links do not write
(R470). -/
def linkAt (wr : Bool) (a : Nat) : Bool :=
  match rowOf a with
  | some (.hbm _) | some .host => true
  | some (.vault _) => !wr
  | _ => false

/-- Whether `n` bytes of this device can be reached over a link. -/
def linkMay (a n : Nat) (wr : Bool) : Bool := oneRow a n && linkAt wr a && linkAt wr (a + n - 1)

/-- The page of a request through a converting page. -/
def flitPage (f : Flit) : Option (Trans × Nat) := f.page.map fun p => (⟨p.pte, p.lvl, 0⟩, p.va)

/-- The bytes of this device that a request of `n` delivered bytes touches (R118). -/
def flitRanges (f : Flit) (n : Nat) : List (Nat × Nat) :=
  match flitPage f with
  | some p => frameRanges p.1 p.2 n
  | none => [(f.addr.toNat, n)]

/-- Whether a request may be performed here. -/
def flitMay (f : Flit) (n : Nat) (wr : Bool) : Bool :=
  (flitRanges f n).all (fun r => linkMay r.1 r.2 wr) && (match flitPage f with
    | some p => gaugeOf p.1.pte != .ident && gaugeOf p.1.pte != .illegal
    | none => true)

/-- A response of this device to a request flit. -/
def respond (s : State) (f : Flit) (kind : BitVec 4) (r : Acf × Bool × Option FlitFault) (bs : List PByte) : State :=
  sendTo s { newFlit s kind f.sdev f.score.toNat f.addr f.tag with
             fmt := if kind == 2 then f.fmt else 0xF, acf := r.1, rmw := r.2.1, fault := r.2.2,
             marks := BitVec.ofNat 224 (ofBits (bs.map (·.psn))) } (bs.map (·.b))

/-- A fault that a request of `n` bytes meets here (R429, R495): its home is gone, or a lock is not its key. -/
def flitFault (s : State) (f : Flit) (n : Nat) : Option FlitFault :=
  let rs := flitRanges f n
  match goneGran s none rs with
  | some g => some ⟨0x19, BitVec.ofNat 52 g, 0⟩
  | none => f.key.bind fun k =>
      ((granules rs).find? fun g => lockOf s g != k.toNat).map fun g => ⟨0x11, BitVec.ofNat 52 g, BitVec.ofNat 4 (lockOf s g)⟩

/-- The answer to a request that meets a fault: the first mismatch of a die is latched there (R494). -/
def refuse (s : State) (f : Flit) (kind : BitVec 4) (e : FlitFault) : State :=
  respond (tagCapture s ⟨e.code.toNat, 0, e.granule.toNat, (f.key.getD 0).toNat, e.lock.toNat⟩) f kind (0, false, some e) []

/-- The fault of a request that stops at the poison that it reads (R182). -/
def poisonFault (s : State) (f : Flit) (n : Nat) : FlitFault :=
  let gs := granules (flitRanges f n)
  ⟨0x17, BitVec.ofNat 52 ((gs.find? fun g => anyPsn s g 32).getD (gs.headD 0)), 0⟩

/-- A read request performed at its home here (DESIGN CHOICE: notes/assumptions/47.md). -/
def linkRead (s : State) (f : Flit) : State :=
  let n := f.len.toNat
  if !flitMay f n false then s
  else match flitFault s f n with
    | some e => refuse s f 2 e
    | none =>
      let r := match flitPage f with
        | some p => readPage s p.1 p.2 n
        | none => (readPBytes s f.addr.toNat n, 0)
      if f.strict && r.1.any (·.psn) then refuse s f 2 (poisonFault s f n) else respond s f 2 (r.2, false, none) r.1

/-- A write performed at its home here: through a converting page as R116 says, each block with its scale (R117).
(DESIGN CHOICE: notes/assumptions/47.md). -/
def linkWrite (s : State) (f : Flit) (bs : List PByte) : State :=
  let n := bs.length
  if bs.isEmpty || !flitMay f n true then s
  else match flitFault s f n with
    | some e => refuse s f 4 e
    | none => match flitPage f with
      | some p =>
        if f.strict && mergePsn s p.1 p.2 n then refuse s f 4 (poisonFault s f n)
        else
          let r := writePage s p.1 p.2 bs
          respond r.1 f 4 (r.2.1, r.2.2 != 0, none) []
      | none =>
        let parts := (bs.zipIdx).map fun b => if f.mask.getLsbD b.2 then some b.1 else none
        respond ((runsFrom f.addr.toNat parts).foldl (fun s r => writePBytes s r.1 r.2) s) f 4 (0, false, none) []

/-- An AMO or CAS performed at its home here, indivisibly (R187, R478) (DESIGN CHOICE: notes/assumptions/47.md). -/
def linkAtomic (s : State) (f : Flit) : State :=
  let a := f.addr.toNat
  let n := if f.wide then 8 else 4
  if a % n != 0 || f.page.isSome || !flitMay f n true then s
  else match flitFault s f n with
    | some e => refuse s f 6 e
    | none =>
      if f.strict && anyPsn s a n then refuse s f 6 (poisonFault s f n)
      else
        let old := readNat s a n
        let t := if f.op == 15 then (if old = f.cmp.toNat % 2 ^ (8 * n) then writeNat s a n (f.opnd.toNat % 2 ^ (8 * n)) else s)
          else writeNat s a n (amoNew f.op.toNat n old f.opnd.toNat)
        respond t f 6 (0, false, none) ((toLE n old).map fun b => ⟨b, false⟩)

/-- The request of an access in transit that a response answers (R473). -/
def answers (f : Flit) (t : Transit) : Option Nat :=
  if t.remote && t.core == f.score.toNat && (match f.kind.toNat, accKind t.kind with
      | 2, some .read | 4, some .write | 6, some .amo => true
      | _, _ => false)
  then t.left.find? fun i => pieceTag t i == f.tag
  else none

/-- What the answers to an access have returned, in the order of its requests. -/
def gotBytes (t : Transit) : List PByte :=
  (List.range (transitPieces t).length).flatMap fun i => ((t.got.find? fun g => g.1 == i).map (·.2)).getD []

/-- The last request of an access is answered: it has been performed, its value returns, and it is acknowledged (R359, R361, R478).
The flags of a write go where R116 sends them. -/
def answered (s : State) (t : Transit) : State :=
  let bs := gotBytes t
  let s := rmwAdd s t.core t.rmw
  match t.kind with
  | .st | .stl _ => match t.eng with
    | .su => streamOr s t.core t.strm t.acf
    | .ce => modCore s t.core fun c => { c with ce := match c.ce with
        | x :: r => { x with acf := x.acf ||| t.acf } :: r
        | [] => [] }
    | _ => convOr s t.core t.acf
  | _ => if t.eng == .ap && t.id != 0 then returned (convOr s t.core t.acf) { t with val := BitVec.ofNat 64 (ofLE (bs.map (·.b))) }
    else returned s { t with bytes := bs }

/-- A request of the i-th access in transit is answered: what the response carries is kept until the last answer; a fault that it
reports ends the access (DESIGN CHOICE: notes/assumptions/48.md). -/
def pieceBack (s : State) (i : Nat) (t : Transit) (k : Nat) (f : Flit) (bs : List PByte) : State :=
  match f.fault with
  | some e => transitFault (goneTransit s i t) t
      ⟨e.code.toNat, 0, 2 ^ 51 + f.sdev.toNat * 2 ^ 42 + e.granule.toNat % 2 ^ 42, t.key, e.lock.toNat⟩
  | none =>
    let t := { t with left := t.left.filter (· != k), got := t.got ++ [(k, bs)], acf := t.acf ||| f.acf,
                      rmw := t.rmw + (if f.rmw then 1 else 0) }
    if !t.left.isEmpty then { s with transit := s.transit.set i t }
    else if t.eng == .ap && t.id != 0 && (gotBytes t).any (·.psn) then
      transitFault (goneTransit s i t) t ⟨0x17, 0, (((transitParts t).flatMap fun p => granules (frameRanges p.1 p.2.1 p.2.2)).headD 0), 0, 0⟩
    else answered (goneTransit s i t) t

/-- A response to an access of this device. -/
def linkReply (s : State) (f : Flit) (bs : List PByte) : State :=
  match s.transit.findIdx? fun t => (answers f t).isSome with
  | none => s
  | some i => match s.transit[i]? with
    | none => s
    | some t => pieceBack s i t ((answers f t).getD 0) f bs

/-- A flit for this device (DESIGN CHOICE: notes/assumptions/47.md). -/
def linkHere (s : State) (f : Flit) (bs : List PByte) : State :=
  match f.kind.toNat with
  | 1 => linkRead s f
  | 3 => linkWrite s f bs
  | 5 => linkAtomic s f
  | 2 | 4 | 6 => linkReply s f bs
  | _ => s

/-- Whether a flit's access waits for a refresh window here (R109). -/
def flitHeld (s : State) (f : Flit) : Bool :=
  f.ddev.toNat == devNum s && requestKind f.kind &&
    (flitRanges f (if f.kind == 5 then 8 else f.len.toNat)).any fun r => refreshIn s r.1 r.2

/-- FLIT_RECEIVE (R472, R473, R477): a good flit is performed, answered, or forwarded by the route table; a bad one asks for a
retransmission, and what follows it is dropped until then (R474). A header outside R473 has no effect
(DESIGN CHOICE: notes/assumptions/47.md; DESIGN CHOICE: notes/assumptions/73.md). -/
def execFlitReceive (port : BitVec 4) (f : Flit) (s : State) : Out :=
  let p := port.toNat
  let q := getPort s p
  .next <| if !q.up || q.resend || flitHeld s f then s
    else if !f.crcOk then modPort s p fun q => { q with resend := true }
    else if !flitSound f then s
    else
      let bs := flitData s p f
      let s := acceptSent (noteRx s p f bs) f
      if f.ddev.toNat == devNum s then linkHere s f ((bs.zipIdx).map fun b => ⟨b.1, f.marks.getLsbD b.2⟩) else sendTo s f bs

/-- The data bytes of a flit this device has sent, by the table it was coded with. -/
def sentData (e : Flit × Vector (List Nat) 5) : List Byte :=
  let n := e.1.len.toNat
  match e.1.raw, codedFmt e.1.fmt with
  | false, some (k, fm) => toLE n (packElems fm.width (decodeElems fm (expTable e.2 k fm) (n * 8 / fm.width) e.1.payload))
  | _, _ => toLE n (ofBits e.1.payload)

/-- The bad flit and every later one sent again, in order, from the table state after the last flit accepted (R474, R477): of
the flits that the port keeps, the far end has accepted the first `k` (DESIGN CHOICE: notes/assumptions/10.md). -/
def resendAll (s : State) (p k : Nat) : State :=
  match (getPort s p).sent.drop k with
  | [] => modPort s p fun q => { q with sent := [] }
  | e :: rest =>
    (e :: rest).foldl (fun s e => if e.1.payload.isEmpty then sendFlit s p e.1 [] else sendFlit s p e.1 (sentData e))
      (modPort s p fun q => { q with sent := [], tx := e.2 })

/-- FLIT_RETRANSMIT (R474): a port sends again what the far end has not accepted, and takes flits again after a bad one. -/
def execFlitRetransmit (port : BitVec 4) (s : State) : Out :=
  let p := port.toNat
  .next <| if (getPort s p).up then
      resendAll (modPort s p fun q => { q with resend := false }) p (Config.acceptedFlits s.nonce)
    else s

/-- PORT_TRAINING (R472, R477): the port is up, its tables ascend, and firmware writes the route table.
(DESIGN CHOICE: notes/assumptions/6.md). -/
def execPortTraining (port : BitVec 4) (routes : List (Nat × List (BitVec 4))) (s : State) : Out :=
  let s := modPort s port.toNat fun _ => { LinkPort.reset with up := true }
  .next { s with routes := routes.foldl (fun t r => if r.1 < 512 then tset t r.1 (r.2.take 4) else t) s.routes }

/-- Whether an access in transit was carried by one of some flits. -/
def carriedBy (dev : Nat) (fs : List Flit) (t : Transit) : Bool :=
  t.remote && fs.any fun f => requestKind f.kind && f.sdev.toNat == dev && f.score.toNat == t.core &&
    t.left.any fun i => pieceTag t i == f.tag

/-- An access lost on a port kills its task (R474): fault 0x14. -/
def loseAccess (s : State) (t : Transit) : State := transitFault (acknowledged s t) t (FInfo.plain 0x14)

/-- PORT_REMOVAL (R474): the port leaves the route table, and every access on a lost flit kills its task: one whose request the far
end has not accepted, and one whose response was on the port. Of the flits that the port keeps, the far end has accepted the first ones;
which responses are lost is open (DESIGN CHOICE: notes/assumptions/10.md; DESIGN CHOICE: notes/assumptions/73.md). -/
def execPortRemoval (port : BitVec 4) (s : State) : Out :=
  let p := port.toNat
  let unsent := carriedBy (devNum s) (((getPort s p).sent.drop (Config.acceptedFlits s.nonce)).map (·.1))
  let gone (t : Transit) : Bool := unsent t || (t.remote && (getPort s p).up && Config.responseLost s.nonce t.tag)
  let lost := s.transit.filter gone
  let s := { s with routes := s.routes.map fun r => (r.1, r.2.filter fun x => x.toNat != p),
                    transit := s.transit.filter fun t => !gone t }
  .next (lost.foldl loseAccess (modPort s p fun _ => LinkPort.reset))

end Sys2Proof.Machine
end

