-- ==== Sys2Proof/Machine/Mailbox.lean ====
section
/-! DEFINITION. The AP's mailbox words (R262 to R266). -/

namespace Sys2Proof.Machine

/-- The context and mailbox that a register names (R262): 0 action, 1 observation, 2 reward. -/
def mbName (v : Word) : Option (Nat × Nat) :=
  let x := v.toNat % 512
  let b := v.toNat / 512 % 4
  if v.toNat / 2048 ≠ 0 ∨ 480 ≤ x ∨ b = 3 then none else some (x, b)

/-- Whether a context is bound to the launch of the issuing core (R262). -/
def boundHere (s : State) (l n : Nat) : Bool := (getCtx s n).st != .unbound && (getCtx s n).lid == runLid s l

/-- The messages of a mailbox. -/
def boxCount (c : Ctx) (b : Nat) : Nat :=
  match b with
  | 0 => actCount c
  | 1 => c.obsBox.length
  | _ => c.rewBox.length

/-- A mailbox word on a named context: a precise stream-state fault where R262 says so, and an unresolvable fault for a context
not bound to the launch. The tests of the context's timers come first on a tick (R462). -/
def mbWord (k : Guard) (regs : List Reg) (a : Reg) (okBox : Nat → Bool) (body : State → Nat → Nat → Nat → State) (s : State) : Out :=
  apWord k (a :: regs) true (fun s l =>
    match mbName (rreg s l .ap a) with
    | none => streamTrap s
    | some (x, b) =>
      if !okBox b then streamTrap s
      else if !boundHere s l x then apFault s l (FInfo.plain 0x1D) .amo 0
      else body s l x b) s

/-- MBPUT (R263): a release at device scope. A message that carries poison is posted, and its launch is killed (R497).
(DESIGN CHOICE: notes/assumptions/41.md). -/
def execMbput (k : Guard) (d a b : Reg) (s : State) : Out :=
  mbWord k [d, b] a (· == 0) (fun s l x _ =>
    let v := rreg s l .ap b
    if !objOk s l v 256 then streamTrap s
    else if !apPerformed s l 3 then waitOn s l .ap [208]
    else if !phaseOk s x (rankMail l) then waitOn s l .ap [209]
    else if !bankTurn s l (apWho l 0) [(v.toNat, 256)] then bankWait s l .ap (apWho l 0) [(v.toNat, 256)]
    else
      let s := takePhase (testTimers s x) x (rankMail l)
      let c := getCtx s x
      if c.st == .ended then retire (wreg s l .ap d 2) l .ap
      else if 8 ≤ actCount c then retire (wreg s l .ap d 1) l .ap
      else
        let bs := readPBytes s (spBase l + v.toNat) 256
        let s := modCtx (spTouch (useBanks s l (apWho l 0) [(v.toNat, 256)]) l v.toNat 256) x fun c => { c with actBox := c.actBox ++ [⟨bs, false⟩] }
        let s := if bs.any (·.psn) then killTask s (runLid s l) 0x06 else s
        retire (wreg s l .ap d 0) l .ap) s

/-- MBGET (R264): an acquire at device scope; it waits for a message or for the release of the context, and writes its object as AP
stores (R225) (DESIGN CHOICE: notes/assumptions/41.md). -/
def execMbget (k : Guard) (d a b : Reg) (s : State) : Out :=
  mbWord k [d, b] a (· != 0) (fun s l x box =>
    let v := rreg s l .ap b
    if !objOk s l v 256 then streamTrap s
    else if (objReady true s l .ap).isSome then waitOn s l .ap [208]
    else if !phaseOk s x (rankMail l) then waitOn s l .ap [209]
    else
      let s := testTimers s x
      let c := getCtx s x
      match (if box = 1 then c.obsBox else c.rewBox) with
      | m :: rest =>
        if !bankTurn s l (apWho l 0) [(v.toNat, 256)] then bankWait s l .ap (apWho l 0) [(v.toNat, 256)]
        else
          let s := modCtx (takePhase s x (rankMail l)) x fun c => if box = 1 then { c with obsBox := rest } else { c with rewBox := rest }
          let s := writePBytes (useBanks s l (apWho l 0) [(v.toNat, 256)]) (spBase l + v.toNat) m
          retire (wreg s l .ap d (BitVec.ofNat 64 (msgHead m))) l .ap
      | [] =>
        if c.st == .ended then retire (wreg s l .ap d (BitVec.allOnes 64)) l .ap else waitOn s l .ap [209]) s

/-- MBPEEK (R265). -/
def execMbpeek (k : Guard) (d a : Reg) (s : State) : Out :=
  mbWord k [d] a (fun _ => true) (fun s l x box =>
    let c := getCtx s x
    let v := boxCount c box + if c.st == .ended then 0 else 16
    retire (wreg s l .ap d (BitVec.ofNat 64 v)) l .ap) s

end Sys2Proof.Machine
end

