-- ==== Sys2Proof/Machine/MatrixOps.lean ====
section
/-! DEFINITION. The fourteen matrix words (R328 to R351). -/

namespace Sys2Proof.Machine

/-- Whether an MMA is legal at issue (R328, R329). -/
def mmaLegal (w : MWord) (s : State) (l : Nat) : Bool :=
  let fa := fmtEntry s l w.aport.toNat
  let fb := fmtEntry s l w.bport.toNat
  match pairOf fa fb with
  | none => false
  | some p =>
    let g := w.kgrp.toNat + 1
    let z (q : Port) : Nat := slotSize s l q.toNat
    let need (ext : Nat) (f : Fmt) : Nat := if p.mx then 17 * ext * g else ext * (g * p.n) * (f.width / 8)
    decide (g ≤ p.gmax) && !(p.mx && (w.ta || w.tb)) && decide (need (rowsOf w) (fmtOf fa) ≤ z w.aport) &&
      decide (need (colsOf w) (fmtOf fb) ≤ z w.bport) &&
      (w.amode != 2 || (decide (4 * colsOf w ≤ z w.cport) &&
        fmtEntry s l w.cport.toNat == (if p.int then Fmt.int32.code else Fmt.fp32.code)))

/-- Array words that have issued and not started fill the buffer to its ease (R155). -/
def bufferHold (s : State) (l : Nat) : Option Hold :=
  let k := ((getCore s l).c3.filter fun f => f.op == 1 && !f.started).length
  if k < (vget 0 (cx s l).ease 4).toNat + 1 then none else some (.flags [210])

/-- MMA (R328 to R331): it issues into the array buffer. -/
def execMma (w : MWord) (s : State) : Out := matWord w 1 true (mmaLegal w) bufferHold (issueLater 1 w) s

/-- A word of the accumulator unit. -/
def accWord (op : Nat) (w : MWord) (legal : State → Nat → Bool) (s : State) : Out :=
  matWord w op true legal (issueHold op w) (issueStart op w) s

/-- The port's format entry is FP32 or INT32 (R332). -/
def portIs32 (w : MWord) (s : State) (l : Nat) : Bool := entry32 (fmtEntry s l w.aport.toNat)

/-- MZERO (R332). -/
def execMzero (w : MWord) (s : State) : Out := accWord 2 w (fun _ _ => true) s
/-- MFILL (R332). -/
def execMfill (w : MWord) (s : State) : Out := accWord 3 w (portIs32 w) s

/-- Whether TAIL stands on a slot boundary (R338). -/
def tailAligned (s : State) (l q : Nat) : Bool := let r := getRing s l q; r.tail % r.z == 0

/-- MDRAIN (R335 to R338). -/
def execMdrain (w : MWord) (s : State) : Out :=
  accWord 4 w (fun s l =>
    let o := (Fmt.ofCode w.ofmt).getD .fp32
    let z := slotSize s l w.cport.toNat
    tailAligned s l w.cport.toNat &&
      (if o == .mxfp4 then decide (17 ≤ z) else if o == .mxfp8 then decide (33 ≤ z) else true)) s

/-- MADD (R332). -/
def execMadd (w : MWord) (s : State) : Out := accWord 5 w (portIs32 w) s
/-- MSCALE (R333). -/
def execMscale (w : MWord) (s : State) : Out :=
  accWord 6 w (fun s l => portIs32 w s l && decide (1024 ≤ slotSize s l w.aport.toNat)) s
/-- MCOPY (R334). -/
def execMcopy (w : MWord) (s : State) : Out := accWord 7 w (fun _ _ => true) s

/-- MCFG (R346). -/
def execMcfg (w : MWord) (s : State) : Out :=
  matWord w 8 true (fun _ _ => true) afterAll (fun s l =>
    issueDone w (modX s l fun x => { x with mpfmt := vset x.mpfmt (w.imm.toNat % 32) (w.imm.extractLsb' 5 4) }) l
      (getPc s l .c3 + 24)) s

/-- MSTAT (R347). -/
def execMstat (w : MWord) (s : State) : Out := accWord 9 w (fun s l => tailAligned s l w.cport.toNat) s

/-- MTOK (R348): it pops its sources at issue and waits behind the words before it. -/
def execMtok (w : MWord) (s : State) : Out := matWord w 0xB true (fun _ _ => true) (fun _ _ => none) (issueLater 0xB w) s

/-- MBAR (R344). -/
def execMbar (w : MWord) (s : State) : Out := accWord 0xC w (fun _ _ => true) s

/-! ### MWAIT (R345) -/

/-- Whether arrivals of a core are still on their way to their homes. -/
def arrivalsOut (s : State) (l : Nat) : Bool :=
  s.barMsgs.any fun m => match m with
    | .arrive c .. => c == l
    | _ => false

/-- C3's wait at a barrier set. -/
def setC3Wait (s : State) (l : Nat) (a : ApWait) : State := modCore s l fun c => { c with c3Wait := a }

/-- BSTAT and STALE after an MWAIT (R345); a value of 2^32 reports STALE. -/
def mwaitStat (s : State) (l : Nat) (v : Word) : State :=
  let stale := v.getLsbD 32
  modCore s l fun c =>
    { c with x := { c.x with mstat := (c.x.mstat &&& 0xFFFFFFFF#64) |||
                      (if stale then 0x80#64 else (v &&& 0xFFFFFFFF#64) <<< 32) }
             tk := { c.tk with mset := c.tk.mset ||| (if stale then 0x80#64 else 0) } }

/-- The home of barrier `n` and the phase that an MWAIT waits for (R341, R345). -/
def mwaitName (s : State) (l n : Nat) : Nat × BitVec 32 := (c3Home s l n, (tget 0 (cx s l).mbph n).extractLsb' 0 32 - 1)

/-- An MWAIT that has met an unresolvable fault waits for the kill. -/
def mwaitFault (s : State) (l code pa : Nat) : State := setC3Wait (c3Fault s l (runLid s l) code pa) l (.polling 0)

/-- MWAIT asks its home, and then waits for the answer. -/
def mwaitAsk (s : State) (l n : Nat) : State :=
  let p := mwaitName s l n
  let home := p.1
  let v : Word := p.2.zeroExtend 64
  if 192 ≤ home then mwaitFault s l 0x1D 0
  else if isVacant s home then mwaitFault s l 0x19 (spBase home)
  else if home != l then setC3Wait { s with barMsgs := s.barMsgs ++ [.request 4 l home n v (runLid s l) false] } l .remote
  else if !homeTurn s l n 2 then homeHold s l n 2
  else
    let r := barAct (takeTurn s l n 2) home n l 4 v
    setC3Wait r.1 l r.2

/-- What an MWAIT waits for at issue: earlier words and arrivals, and the home's answer. -/
def mwaitHold (n : Nat) (s : State) (l : Nat) : Option Hold :=
  if !(getCore s l).c3.isEmpty then some .busy
  else if arrivalsOut s l then some (.flags [96 + n])
  else match (getCore s l).c3Wait with
    | .remote | .barrier => some (.flags [96 + n])
    | .polling _ => some .busy
    | _ => none

/-- MWAIT completes with the value that its home has answered (R345). -/
def mwaitEnd (w : MWord) (n : Nat) (v : Word) (s : State) : Out :=
  matWord w 0xA false (fun _ _ => true) (mwaitHold n) (fun s l =>
    issueDone w (mwaitStat (setC3Wait s l .none) l v) l (getPc s l .c3 + 24)) s

/-- MWAIT before the home has answered: its tokens have come, so that writes of MBPH they order are seen (R341), and the words
before it have retired. -/
def mwaitBegin (w : MWord) (n : Nat) (s : State) : State :=
  let l := s.current.core
  let toks := tokWaits s l .c3 w.tok
  if w.s && inMask s l .c3 && !(getEng s l .c3).inRegion then waitOn (modEng s l .c3 fun t => { t with atS := true }) l .c3 [210]
  else match (if toks.isEmpty then mwaitHold n s l else some (.flags toks)) with
    | some h => holdWide s l .c3 h
    | none => waitOn (mwaitAsk s l n) l .c3 [96 + n]

/-- MWAIT (R345): a refusal for the phase is the barrier-phase trap; a home without a barrier region is an unresolvable fault,
as for an arrival (R343). -/
def execMwait (w : MWord) (s : State) : Out :=
  let n := w.imm.toNat % 64
  let l := s.current.core
  match (getCore s l).c3Wait with
  | .got v => mwaitEnd w n v s
  | .refused phase =>
    .next (if phase then barrierTrap (setC3Wait s l .none) else mwaitFault s l 0x1D 0)
  | _ =>
    .next <| if s.current.eng != .c3 || tokSelf .c3 w.tok || modeBad s l w [] [] false then illegal s
      else mwaitBegin w n s

/-! ### Control flow (R349 to R351) -/

/-- The target of a matrix branch. -/
def matTarget (s : State) (l : Nat) (w : MWord) (taken : Bool) : Word :=
  getPc s l .c3 + (if taken then 24 * sx w.imm else 24)

/-- MJMP (R350). -/
def execMjmp (w : MWord) (s : State) : Out :=
  matWord w 0xD (!w.tb) (fun _ _ => true)
    (fun s l =>
      if w.amode = 2 ∧ !(getCore s l).c3.isEmpty then some .busy
      else if w.tb && boqFull s l 5 1 then some (.flags [boqFlag 5 1])
      else none)
    (fun s l =>
      let out := match w.amode.toNat with
        | 0 => true
        | 1 => w.lb && (closeLoop s l .c3).2
        | _ => (cx s l).mstat.getLsbD 6
      let s := if w.amode = 2 then modX s l fun x => { x with mstat := x.mstat &&& ~~~0x40#64 } else s
      let s := if w.tb then boqPush s l 5 1 out else s
      issueDone w s l (matTarget s l w (out && !w.ta))) s

/-- MBRQ (R351). -/
def execMbrq (w : MWord) (s : State) : Out :=
  matWord w 0xE false (fun _ _ => true) (fun s l => if (boqHead s l 1 5).isNone then some (.flags [boqFlag 1 5]) else none)
    (fun s l =>
      let out := (boqHead s l 1 5).getD false
      issueDone w (boqPop s l 1 5) l (matTarget s l w out)) s

end Sys2Proof.Machine
end

