-- ==== Sys2Proof/Machine/Diag.lean ====
section
/-! DEFINITION. Diagnostic space: what its registers read and how service firmware writes them (R468, R494, R499, R502, R503). -/

namespace Sys2Proof.Machine

/-- A field of a register. -/
def place (lo w x : Nat) : Nat := x % 2 ^ w * 2 ^ lo

/-- A flag of a register. -/
def flagAt (i : Nat) (b : Bool) : Nat := if b then 2 ^ i else 0

/-- SEC (R503). -/
def secReg (s : State) : Nat := s.secAct.toNat + flagAt 8 s.secLock + place 16 4 s.secAlarm.toNat + flagAt 20 s.keysZero

/-- PWR (R503) (DESIGN CHOICE: notes/assumptions/68.md). -/
def pwrReg (s : State) : Nat := s.pwrCap.toNat + place 16 7 (dutyOf s) + place 32 16 s.pwrWatts.toNat

/-- A dword of a die's TAGHIST (R503). -/
def tagReg (t : TagHist) (i : Nat) : Nat :=
  match i with
  | 0 => t.gran / 32 * 32 % 2 ^ 52 + place 56 4 t.key + place 60 4 t.lock
  | 1 => t.missed % 65536 + flagAt 16 t.valid
  | i => match t.ents[i - 2]? with
    | some e => e.1 % 16 + 16 + place 8 56 e.2
    | none => 0

/-- STATE of EPSTAT (R468). -/
def stateCode : CState → Nat
  | .unbound => 0 | .bound => 1 | .live => 2 | .suspended => 3 | .ended => 4

/-- EPSTAT of a context (R468). -/
def epstat (c : Ctx) : Nat :=
  stateCode c.st + flagAt 3 c.scrb + flagAt 4 c.checker + flagAt 5 c.follow + place 8 3 c.term.toNat + place 16 16 c.g0.toNat +
    place 32 16 c.eid.toNat + place 48 16 c.lid.toNat

/-- EPCNT of a context (R468) (DESIGN CHOICE: notes/assumptions/40.md). -/
def epcnt (c : Ctx) : Nat :=
  place 0 4 (actCount c) + place 4 4 c.obsBox.length + place 8 4 c.rewBox.length + place 16 8 c.out + place 24 8 c.drop.toNat +
    place 32 32 c.lstep.toNat

/-- A register of diagnostic space; an address that names none reads 0 (DESIGN CHOICE: notes/assumptions/53.md). -/
def diagReg (s : State) (a : Nat) : Nat :=
  if a % 8 ≠ 0 then 0
  else if 0x40 ≤ a ∧ a < 0xC0 then tagReg (vget Die.reset s.dies ((a - 0x40) / 0x40)).taghist ((a - 0x40) % 0x40 / 8)
  else if 0x100 ≤ a ∧ a < 0x1C0 then (getBlock s ((a - 0x100) / 8)).cnt % 2 ^ 32
  else if 0x110000 ≤ a ∧ a < 0x110000 + 16 * 480 then
    let c := getCtx s ((a - 0x110000) / 16)
    if a % 16 = 0 then epstat c else epcnt c
  else match a with
    | 0x00 => secReg s
    | 0x08 => pwrReg s
    | 0x10 => flagAt 0 s.frzArm
    | 0x18 => s.frzTick.toNat
    | 0x20 => s.kindEn.toNat + place 16 5 s.sampLog.toNat
    | 0x28 => place 12 40 (s.trcBase / 4096)
    | 0x30 => s.trcSize.toNat
    | _ => 0

/-- A 2-bit action as a write of SEC leaves it: value 3 is ignored, and under LOCK an action only rises (R503). -/
def actPut (lock : Bool) (old new : Nat) : Nat := if new = 3 ∨ (lock ∧ new < old) then old else new

/-- SEC written. -/
def secPut (s : State) (v : Word) : State :=
  let act := (List.range 4).foldl (fun n i =>
    n + 4 ^ i * actPut s.secLock (s.secAct.toNat / 4 ^ i % 4) (v.toNat / 4 ^ i % 4)) 0
  { s with secAct := BitVec.ofNat 8 act, secLock := s.secLock || v.getLsbD 8, secAlarm := s.secAlarm &&& ~~~v.extractLsb' 16 4,
           secTold := s.secTold &&& ~~~v.extractLsb' 16 4 }

/-- CLR of a die's TAGHIST (R494). -/
def clearTag (s : State) (d : Nat) : State :=
  { s with dies := vset s.dies d { vget Die.reset s.dies d with taghist := TagHist.reset } }

/-- A register of diagnostic space written by service firmware, under its access types (R6, R503).
(DESIGN CHOICE: notes/assumptions/53.md). -/
def diagPut (s : State) (a : Nat) (v : Word) : State :=
  match a with
  | 0x00 => secPut s v
  | 0x08 => { s with pwrCap := v.extractLsb' 0 12 }
  | 0x10 => { s with frzArm := v.getLsbD 0 }
  | 0x18 => { s with frzTick := v }
  | 0x20 => { s with kindEn := v.extractLsb' 0 16, sampLog := v.extractLsb' 16 5 }
  | 0x28 => { s with trcBase := v.toNat % 2 ^ 52 / 4096 * 4096 }
  | 0x30 => { s with trcSize := v.extractLsb' 0 32 }
  | 0x48 => if v.getLsbD 17 then clearTag s 0 else s
  | 0x88 => if v.getLsbD 17 then clearTag s 1 else s
  | _ => s

end Sys2Proof.Machine
end

