-- ==== Sys2Proof/Machine/ServiceCore.lean ====
section
/-! DEFINITION. One instruction of a service core over the state: an RV64 hart in M-mode on physical addresses (R10, R29, R450). The
manual names the instruction set and the mode; extensions, encodings, results, machine registers and exceptions are those that
episode cores have and those of the RISC-V specifications (PRESUMED: notes/assumptions/89.md). -/

namespace Sys2Proof.Machine

/-- What an instruction of a service core comes to. -/
inductive SvcRes where
  /-- It retires. -/
  | done (s : State)
  /-- It raises an exception: code and tval. -/
  | exc (code : Nat) (tval : Word)
  /-- It waits for a refresh window. -/
  | wait
  deriving Repr

/-! ### Registers -/

/-- A service core. -/
def getSvc (s : State) (k : Nat) : SvcCore := vget SvcCore.reset s.svc k

/-- The device with a service core changed. -/
def modSvc (s : State) (k : Nat) (f : SvcCore → SvcCore) : State := { s with svc := vset s.svc k (f (getSvc s k)) }

/-- The registers of a service core as those of a hart that computes. -/
def SvcCore.hart (h : SvcCore) : Ctx :=
  { Ctx.reset with x := h.x, f := h.f, fflags := h.fflags, frm := h.frm, pc := h.pc, resv := h.resv, instret := h.instret }

/-- The registers that an instruction has left. -/
def SvcCore.take (h : SvcCore) (c : Ctx) : SvcCore :=
  { h with x := c.x, f := c.f, fflags := c.fflags, frm := c.frm, pc := c.pc, resv := c.resv, instret := c.instret }

/-- The device with the registers of a service core changed. -/
def modHart (s : State) (k : Nat) (f : Ctx → Ctx) : State := modSvc s k fun h => h.take (f h.hart)

/-- The number of a service core in the cluster (R14, R450). -/
def svcHart (k : Nat) : Nat := if k < 2 then k else 30 + k

/-! ### Memory: physical addresses of the device (R111) -/

/-- Whether some of `n` bytes lie in a weight store, which only WSLOAD writes (R108) (PRESUMED: notes/assumptions/89.md). -/
def inVault (a n : Nat) : Bool := decide (a < 0x10C00000000) && decide (0x10000000000 < a + n)

/-- Whether all of `n` bytes lie in one row of the device's own memory that can be accessed. -/
def svcMay (s : State) (a n : Nat) : Bool :=
  rowOf a == rowOf (a + n - 1) &&
    match rowOf a with
    | some (.hbm _) | some .host => true
    | some (.vault l) => !s.deadVaults.contains l
    | some (.sp l) => !isVacant s l
    | _ => false

/-- A load (PRESUMED: notes/assumptions/89.md). -/
def svcLoad (s : State) (k a len : Nat) (put : Nat → Ctx → Ctx) : SvcRes :=
  if a % len ≠ 0 then .exc 4 (BitVec.ofNat 64 a)
  else if !svcMay s a len || (readPBytes s a len).any (·.psn) then .exc 5 (BitVec.ofNat 64 a)
  else if refreshIn s a len then .wait
  else .done (modHart s k (put (ofLE ((readPBytes s a len).map (·.b)))))

/-- A store: one to a weight store is not permitted (R108) (PRESUMED: notes/assumptions/89.md). -/
def svcStore (s : State) (a len v : Nat) : SvcRes :=
  if a % len ≠ 0 then .exc 6 (BitVec.ofNat 64 a)
  else if !svcMay s a len || inVault a len then .exc 7 (BitVec.ofNat 64 a)
  else .done (writeBytes s a (toLE len v))

/-- An AMO, LR or SC on `len` bytes (PRESUMED: notes/assumptions/89.md). -/
def svcAtomic (s : State) (k a len f5 rs2 rd : Nat) : SvcRes :=
  let c := (getSvc s k).hart
  let av := BitVec.ofNat 64 a
  let lr := f5 = 2
  let v := (xr c rs2).toNat % 2 ^ (8 * len)
  let bs := readPBytes s a len
  let old := ofLE (bs.map (·.b))
  let ext : Word := if len = 4 then (BitVec.ofNat 32 old).signExtend 64 else BitVec.ofNat 64 old
  let hit := resvHolds c.resv a len
  if (lr ∧ rs2 ≠ 0) ∨ ((rvAmo f5 (8 * len) 0 0).isNone ∧ !lr ∧ f5 ≠ 3) then .exc 2 (Config.excTval s.nonce)
  else if a % len ≠ 0 then .exc (if lr then 4 else 6) av
  else if !svcMay s a len || (!lr && inVault a len) || (f5 ≠ 3 && bs.any (·.psn)) then .exc (if lr then 5 else 7) av
  else if refreshIn s a len then .wait
  else if f5 = 3 then
    .done (modHart (if hit then writeBytes s a (toLE len v) else s) k fun c => { xw c rd (if hit then 0 else 1) with resv := none })
  else if lr then .done (modHart s k fun c => { xw c rd ext with resv := some (a, len) })
  else .done (modHart (writeBytes s a (toLE len ((rvAmo f5 (8 * len) old v).getD 0))) k fun c => xw c rd ext)

/-! ### Control and status registers -/

/-- mstatus: MIE and MPIE as they stand, MPP M-mode, and the floating-point state dirty. -/
def SvcCore.mstatus (h : SvcCore) : Word :=
  BitVec.ofNat 64 (flagAt 3 h.ie + flagAt 7 h.pie + 0x1800 + 0x6000 + 2 ^ 63)

/-- A register that M-mode may read: its value, and whether it may be written (PRESUMED: notes/assumptions/89.md). -/
def svcCsr (s : State) (k : Nat) (a : Nat) : Option (Word × Bool) :=
  let h := getSvc s k
  match a with
  | 0x001 => some (h.fflags.zeroExtend 64, true)
  | 0x002 => some (h.frm.zeroExtend 64, true)
  | 0x003 => some ((h.frm ++ h.fflags).zeroExtend 64, true)
  | 0x300 => some (h.mstatus, true)
  | 0x301 => some (0x800000000000112D, true)
  | 0x304 => some (h.mie, true)
  | 0x305 => some (h.mtvec, true)
  | 0x340 => some (h.mscratch, true)
  | 0x341 => some (h.mepc, true)
  | 0x342 => some (h.mcause, true)
  | 0x343 => some (h.mtval, true)
  | 0x344 => some (0, true)
  | 0xB00 => some (2 * s.tick, true)
  | 0xB02 => some (h.instret, true)
  | 0xC00 => some (2 * s.tick, false)
  | 0xC01 => some (s.tick, false)
  | 0xC02 => some (h.instret, false)
  | 0xF11 => some (0, false)
  | 0xF12 => some (0, false)
  | 0xF13 => some (0, false)
  | 0xF14 => some (BitVec.ofNat 64 (svcHart k), false)
  | _ => none

/-- A register written; misa, mip and the cycle count keep their values (PRESUMED: notes/assumptions/89.md). -/
def SvcCore.csrPut (h : SvcCore) (a : Nat) (v : Word) : SvcCore :=
  match a with
  | 0x001 => { h with fflags := v.extractLsb' 0 5 }
  | 0x002 => { h with frm := v.extractLsb' 0 3 }
  | 0x003 => { h with fflags := v.extractLsb' 0 5, frm := v.extractLsb' 5 3 }
  | 0x300 => { h with ie := v.getLsbD 3, pie := v.getLsbD 7 }
  | 0x304 => { h with mie := v }
  | 0x305 => { h with mtvec := v &&& ~~~3#64 }
  | 0x340 => { h with mscratch := v }
  | 0x341 => { h with mepc := v &&& ~~~1#64 }
  | 0x342 => { h with mcause := v }
  | 0x343 => { h with mtval := v }
  | 0xB02 => { h with instret := v }
  | _ => h

/-- A Zicsr instruction; none where it is illegal (PRESUMED: notes/assumptions/89.md). -/
def svcCsrOp (s : State) (k : Nat) (w : RvWord) : Option State :=
  let h := getSvc s k
  let a := rvBits w 20 12
  let src := if rvF3 w < 4 then xr h.hart (rvRs1 w) else BitVec.ofNat 64 (rvRs1 w)
  let wr := rvF3 w % 4 = 1 ∨ rvRs1 w ≠ 0
  match svcCsr s k a with
  | none => none
  | some (old, ok) =>
    if wr ∧ !ok then none
    else
      let new := if rvF3 w % 4 = 1 then src else if rvF3 w % 4 = 2 then old ||| src else old &&& ~~~src
      some (modHart (if wr then modSvc s k fun h => h.csrPut a new else s) k fun c => xw c (rvRd w) old)

/-! ### One instruction -/

/-- A 32-bit instruction, of which `ilen` bytes were fetched: the state before its pc and instret move on
(PRESUMED: notes/assumptions/89.md). -/
def svcExec (s : State) (k : Nat) (w : RvWord) (ilen : Nat) : SvcRes :=
  let c := (getSvc s k).hart
  let rd := rvRd w
  let a := xr c (rvRs1 w)
  let bad : SvcRes := .exc 2 (Config.excTval s.nonce)
  let load : SvcRes := match rvLoadLen w with
    | some len => svcLoad s k (a + immI w).toNat len (rvLoadPut w)
    | none => bad
  let store : SvcRes := match rvStoreLen w with
    | some len => svcStore s (a + immS w).toNat len (rvStoreVal c w len)
    | none => bad
  match rvBits w 0 7 with
  | 0x03 => load
  | 0x07 => load
  | 0x23 => store
  | 0x27 => store
  | 0x2F =>
    match rvF3 w with
    | 2 => svcAtomic s k a.toNat 4 (rvBits w 27 5) (rvRs2 w) rd
    | 3 => svcAtomic s k a.toNat 8 (rvBits w 27 5) (rvRs2 w) rd
    | _ => bad
  | 0x73 =>
    if rvF3 w % 4 = 0 then
      if w = 0x00000073#32 then .exc 11 0
      else if w = 0x00100073#32 then .exc 3 (Config.excTval s.nonce)
      else if w = 0x30200073#32 then
        .done (modSvc s k fun h => { h with pc := h.mepc - BitVec.ofNat 64 ilen, ie := h.pie, pie := true })
      else if w = 0x10500073#32 then .done s
      else bad
    else match svcCsrOp s k w with
      | some s => .done s
      | none => bad
  | _ => match rvCompute c w ilen with
    | some c => .done (modHart s k fun _ => c)
    | none => bad

/-- A parcel of 2 bytes of code. -/
def svcParcel (s : State) (a : Word) : Except SvcRes (BitVec 16) :=
  if !svcMay s a.toNat 2 || (readPBytes s a.toNat 2).any (·.psn) then .error (.exc 1 a)
  else if refreshIn s a.toNat 2 then .error .wait
  else .ok (BitVec.ofNat 16 (ofLE ((readPBytes s a.toNat 2).map (·.b))))

/-- The instruction at a service core's pc, expanded, and its length (PRESUMED: notes/assumptions/89.md). -/
def svcFetch (s : State) (k : Nat) : Except SvcRes (RvWord × Nat) :=
  let pc := (getSvc s k).pc
  match svcParcel s pc with
  | .error r => .error r
  | .ok lo =>
    if lo.extractLsb' 0 2 ≠ 3#2 then
      match expandC lo with
      | some w => .ok (w, 2)
      | none => .error (.exc 2 (Config.excTval s.nonce))
    else match svcParcel s (pc + 2) with
      | .error r => .error r
      | .ok hi => .ok (hi ++ lo, 4)

/-- What the next instruction of a service core comes to (PRESUMED: notes/assumptions/89.md). -/
def svcNext (s : State) (k : Nat) : SvcRes :=
  match svcFetch s k with
  | .error r => r
  | .ok (w, len) => svcExec s k w len

/-- Bytes of the instruction at the pc; 0 where it cannot be fetched. -/
def svcLen (s : State) (k : Nat) : Nat :=
  match svcFetch s k with
  | .error _ => 0
  | .ok (_, len) => len

/-- An exception of a service core: its handler at mtvec (PRESUMED: notes/assumptions/89.md). -/
def svcTrap (h : SvcCore) (code : Nat) (tval : Word) : SvcCore :=
  { h with mepc := h.pc, mcause := BitVec.ofNat 64 code, mtval := tval, pie := h.ie, ie := false, pc := h.mtvec }

/-- A service core executes the instruction at its pc (R450) (PRESUMED: notes/assumptions/89.md). -/
def svcStep (s : State) (k : Nat) : State :=
  match svcNext s k with
  | .done t => modSvc t k fun h => { h with pc := h.pc + BitVec.ofNat 64 (svcLen s k), instret := h.instret + 1 }
  | .exc code tval => modSvc s k fun h => svcTrap h code tval
  | .wait => s

/-- The service cores begin an accepted body at its first byte in the host buffer (R500) (PRESUMED: notes/assumptions/89.md). -/
def startSvc (s : State) : State := allSvc s fun h => { h with pc := BitVec.ofNat 64 (hostBase + 0x328) }

end Sys2Proof.Machine
end

