-- ==== Sys2Proof/Machine/Sha.lean ====
section
/-! DEFINITION. SHA-256 and the check of an RSASSA-PKCS1-v1_5 signature (R500, R501), as their standards define them
(PRESUMED: notes/assumptions/11.md). -/

namespace Sys2Proof.Machine

/-! ### Constants: the first 32 bits of the fractions of roots of primes -/

/-- Whether a number from 2 on has no divisor below it. -/
def isPrime (n : Nat) : Bool := decide (2 ≤ n) && (List.range n).all fun d => decide (d < 2) || n % d != 0

/-- The 64 primes below 312. -/
def primes64 : List Nat := (List.range 312).filter isPrime

/-- The greatest number whose k-th power does not pass `x`, with `b` bits still to find below `r`. -/
def rootFrom (k x : Nat) : Nat → Nat → Nat
  | 0, r => r
  | b + 1, r => rootFrom k x b (if (r + 2 ^ b) ^ k ≤ x then r + 2 ^ b else r)

/-- The first 32 bits of the fraction of the k-th root of `p`. -/
def rootFraction (k p : Nat) : Nat := rootFrom k (p * 2 ^ (32 * k)) 40 0 % 2 ^ 32

/-- The constant of each of the 64 rounds: from the cube roots of the primes. -/
def shaConsts : List (BitVec 32) := primes64.map fun p => BitVec.ofNat 32 (rootFraction 3 p)

/-! ### Numbers of bytes, the most significant first -/

/-- A big-endian number of bytes. -/
def ofBE (bs : List Byte) : Nat := ofLE bs.reverse

/-- A number as `n` big-endian bytes. -/
def toBE (n x : Nat) : List Byte := (toLE n x).reverse

/-! ### The compression of one block -/

/-- The eight working words. -/
structure ShaRegs where
  a : BitVec 32
  b : BitVec 32
  c : BitVec 32
  d : BitVec 32
  e : BitVec 32
  f : BitVec 32
  g : BitVec 32
  h : BitVec 32
  deriving DecidableEq, Repr

/-- The working words at the start: from the square roots of the first eight primes. -/
def ShaRegs.start : ShaRegs :=
  let v (i : Nat) : BitVec 32 := BitVec.ofNat 32 (rootFraction 2 (primes64.getD i 0))
  ⟨v 0, v 1, v 2, v 3, v 4, v 5, v 6, v 7⟩

/-- The words in order. -/
def ShaRegs.words (r : ShaRegs) : List (BitVec 32) := [r.a, r.b, r.c, r.d, r.e, r.f, r.g, r.h]

/-- Word by word sums. -/
def ShaRegs.plus (r q : ShaRegs) : ShaRegs :=
  ⟨r.a + q.a, r.b + q.b, r.c + q.c, r.d + q.d, r.e + q.e, r.f + q.f, r.g + q.g, r.h + q.h⟩

/-- A word rotated right by each of three amounts, the results added without carry. -/
def rot3 (x : BitVec 32) (i j k : Nat) : BitVec 32 := x.rotateRight i ^^^ x.rotateRight j ^^^ x.rotateRight k

/-- Two rotations and a shift of a word, added without carry. -/
def rotShift (x : BitVec 32) (i j k : Nat) : BitVec 32 := x.rotateRight i ^^^ x.rotateRight j ^^^ (x >>> k)

/-- Word `t` of a block's schedule, from the sixteen words before it, oldest first. -/
def scheduleWord (w : List (BitVec 32)) : BitVec 32 :=
  rotShift (w.getD 14 0) 17 19 10 + w.getD 9 0 + rotShift (w.getD 1 0) 7 18 3 + w.getD 0 0

/-- One round with its constant and its schedule word. -/
def ShaRegs.round (r : ShaRegs) (k w : BitVec 32) : ShaRegs :=
  let pick := (r.e &&& r.f) ||| (~~~r.e &&& r.g)
  let most := (r.a &&& r.b) ||| (r.c &&& (r.a ||| r.b))
  let step := r.h + rot3 r.e 6 11 25 + pick + k + w
  ⟨step + rot3 r.a 2 13 22 + most, r.a, r.b, r.c, r.d + step, r.e, r.f, r.g⟩

/-- The rounds of a block: each takes the oldest of sixteen schedule words and adds a new one. -/
def ShaRegs.rounds (r : ShaRegs) (w : List (BitVec 32)) : List (BitVec 32) → ShaRegs
  | [] => r
  | k :: ks => ShaRegs.rounds (r.round k (w.headD 0)) (w.tail ++ [scheduleWord w]) ks

/-- The words after one block of 64 bytes. -/
def ShaRegs.block (r : ShaRegs) (bs : List Byte) : ShaRegs :=
  r.plus (r.rounds ((List.range 16).map fun i => BitVec.ofNat 32 (ofBE ((bs.drop (4 * i)).take 4))) shaConsts)

/-- A message with its padding: a 1 bit, zeros, and the length in bits. -/
def shaPadded (bs : List Byte) : List Byte :=
  bs ++ 0x80 :: List.replicate ((119 - bs.length % 64) % 64) 0 ++ toBE 8 (8 * bs.length)

/-- SHA-256 of some bytes (PRESUMED: notes/assumptions/11.md). -/
def sha256 (bs : List Byte) : List Byte :=
  let m := shaPadded bs
  let r := (List.range (m.length / 64)).foldl (fun (r : ShaRegs) i => r.block ((m.drop (64 * i)).take 64)) ShaRegs.start
  r.words.flatMap fun w => toBE 4 w.toNat

/-! ### Signatures -/

/-- x to the power 65,537 modulo m: sixteen squarings and a product. -/
def rsaPow (x m : Nat) : Nat := iterSq m 16 (x % m) * x % m
where
  /-- Squarings modulo m. -/
  iterSq (m : Nat) : Nat → Nat → Nat
    | 0, y => y
    | n + 1, y => iterSq m n (y * y % m)

/-- The ASN.1 header that names SHA-256 and a digest of 32 bytes: SEQUENCE of 49, SEQUENCE of 13, OBJECT IDENTIFIER
2.16.840.1.101.3.4.2.1, NULL, OCTET STRING of 32. -/
def digestInfo : List Byte :=
  let oid : List Byte := [0x60, 0x86, 0x48, 1, 101, 3, 4, 2, 1]
  let algorithm : List Byte := [0x06, 9] ++ oid ++ [0x05, 0]
  [0x30, 49, 0x30, 13] ++ algorithm ++ [0x04, 32]

/-- The encoded message of a digest under a modulus of 384 bytes. -/
def pkcs1 (digest : List Byte) : List Byte :=
  let t := digestInfo ++ digest
  [0, 1] ++ List.replicate (384 - 3 - t.length) 0xFF ++ 0 :: t

/-- Whether a signature over a digest verifies under a public modulus with exponent 65,537: both are numbers stored little-endian
(R4). -/
def rsaOk (modulus sig digest : List Byte) : Bool :=
  decide (ofLE sig < ofLE modulus) && toBE 384 (rsaPow (ofLE sig) (ofLE modulus)) == pkcs1 digest

end Sys2Proof.Machine
end

