-- ==== Sys2Proof/Machine/Service.lean ====
section
/-! DEFINITION. Service firmware: the commands of the host, the life of episode contexts, partitions, map-out and restart, and
what firmware does on its own (R428, R448, R449, R456, R464, R465, R467, R485, R495, R496, R501). -/

namespace Sys2Proof.Machine

/-! ### The command ring (R485) -/

/-- A response: status and the values of dwords 2 and 3. -/
structure Resp where
  status : Nat
  v2 : Nat
  v3 : Nat
  deriving DecidableEq, Repr

/-- Done, without values. -/
def Resp.done : Resp := ⟨0, 0, 0⟩
/-- Refused. -/
def Resp.refused : Resp := ⟨1, 0, 0⟩
/-- Malformed. -/
def Resp.malformed : Resp := ⟨2, 0, 0⟩

/-- Whether service firmware runs: an image has been accepted, and no sensor has halted the device (R499, R500).
(DESIGN CHOICE: notes/assumptions/6.md). -/
def fwRuns (s : State) : Bool := s.host.bootState == 2 && !s.secHalt

/-- Whether firmware takes a command: one waits, and the response ring has room. -/
def cmdWaits (s : State) : Bool :=
  fwRuns s && s.host.sqHead != s.host.sqTail && decide ((s.host.srTail - s.host.srHead).toNat < 16)

/-- A dword of the next command's slot. -/
def cmdDword (s : State) (i : Nat) : Nat := winNat s (0x4003000 + 256 * (s.host.sqHead.toNat % 16) + 8 * i) 8

/-- The command is taken and its response written; then SR_TAIL advances (R486). -/
def respondCmd (s : State) (r : Resp) : State :=
  let h := s.host
  let s := winBytes s (0x4004000 + 32 * (h.srTail.toNat % 16)) ([s.sqSeq % 2 ^ 32, r.status, r.v2, r.v3].flatMap (toLE 8))
  { s with sqSeq := s.sqSeq + 1, host := { s.host with sqHead := h.sqHead + 1, srTail := h.srTail + 1 } }

/-- A command of one OP: it runs when it is the next, and answers. -/
def command (op : Nat) (body : Nat → Nat → Nat → State → Resp × State) (s : State) : Out :=
  .next <| if !cmdWaits s || cmdDword s 0 % 256 != op then s
    else if cmdDword s 0 / 256 != 0 then respondCmd s Resp.malformed
    else
      let r := body (cmdDword s 1) (cmdDword s 2) (cmdDword s 3) s
      respondCmd r.2 r.1

/-- An effect, and done. -/
def doneWith (s : State) : Resp × State := (Resp.done, s)

/-- The launch that a LID argument names, if it has not ended. -/
def liveLaunch (s : State) (d : Nat) : Option Launch :=
  match getLaunch s (BitVec.ofNat 16 d) with
  | some la => if la.st == .ended then none else some la
  | none => none

/-- A launch killed by the runtime (R433): the response is written once every departed access of it has been performed. -/
def killCmd (s : State) (lid : BitVec 16) : State :=
  let s := if s.host.begun then s else killLaunch (modHost s fun h => { h with begun := true }) lid 0x07
  if writesDone s lid then respondCmd (modHost s fun h => { h with begun := false }) Resp.done else s

/-- KILL (R433, R485). -/
def execKill (s : State) : Out :=
  .next <| if !cmdWaits s || cmdDword s 0 % 256 != 0x01 then s
    else if cmdDword s 0 / 256 != 0 || decide (65536 ≤ cmdDword s 1) then respondCmd s Resp.malformed
    else if !s.host.begun && (liveLaunch s (cmdDword s 1)).isNone then respondCmd s Resp.refused
    else killCmd s (BitVec.ofNat 16 (cmdDword s 1))

/-! ### Episode contexts (R456, R464 to R467) -/

/-- BIND (R465, R485). -/
def execBind (s : State) : Out :=
  command 0x02 (fun d1 d2 _ s =>
    if 480 ≤ d1 ∨ 65536 ≤ d2 then (Resp.malformed, s)
    else match liveLaunch s d2 with
      | none => (Resp.refused, s)
      | some la =>
        if (getCtx s d1).st != .unbound then (Resp.refused, s)
        else doneWith (modCtx s d1 fun c => { c with st := .bound, lid := la.lid })) s

/-- STOP (R465). -/
def execStop (s : State) : Out :=
  command 0x04 (fun d1 _ _ s =>
    if 480 ≤ d1 then (Resp.malformed, s)
    else
      let c := getCtx s d1
      match c.st with
      | .unbound => (Resp.refused, s)
      | .bound | .ended => doneWith s
      | .live | .suspended => doneWith (endEpisode s d1 (lastStep c) c.g0 6 0)) s

/-- A window entry (R455) (DESIGN CHOICE: notes/assumptions/51.md). -/
def windowOf (d0 d1 : Nat) (eid : BitVec 16) : Window :=
  { base := d0 % 2 ^ 52, limit := d1 % 2 ^ 40, r := d1.testBit 40, w := d1.testBit 41, x := d1.testBit 42, own := d1.testBit 43,
    valid := d1.testBit 44, eid := eid }

/-- Whether two windows of contexts share a byte: local SRAM only on one episode core (R456). -/
def winMeet (n m : Nat) (a b : Window) : Bool :=
  let loc (k : Window) : Bool := decide (k.base < 0x200000)
  loc a == loc b && (!loc a || coreOfCtx n == coreOfCtx m) && decide (a.base < b.base + b.limit) && decide (b.base < a.base + a.limit)

/-- Whether a window, valid or not, lies where R456 lets none lie, or grants what a weight-store window may not: one of no bytes lies
anywhere (DESIGN CHOICE: notes/assumptions/51.md). -/
def winAstray (k : Window) : Bool :=
  k.limit != 0 &&
    (if k.base < 0x200000 then decide (0x40000 < k.base + k.limit)
     else !oneRow k.base k.limit || (match rowOf k.base with
        | some (.hbm _) | some .host => false
        | some (.vault _) => k.w || k.x
        | _ => true))

/-- Whether a window alone breaks R456 or, for a checker, R467 (DESIGN CHOICE: notes/assumptions/51.md). -/
def winBad (checker : Bool) (k : Window) : Bool :=
  winAstray k || (k.valid && (k.base % 64 != 0 || k.limit % 64 != 0 || k.limit == 0 || (checker && !k.own && (k.w || !k.r))))

/-- Whether a set of valid windows clashes with those of another context (R456, R467). -/
def winClash (s : State) (n m : Nat) (checker : Bool) (ks : List Window) : Bool :=
  let o := getCtx s m
  let runs := o.st == .live || o.st == .suspended
  let held := runs || (o.st == .ended && o.scrb)
  m != n && held && ks.any fun a => (o.windows.filter (·.valid)).any fun b =>
    winMeet n m a b && (a.own || b.own || (runs && ((checker && b.w) || (a.w && o.checker))))

/-- An identifier that no context holds, from a proposed one on (R464) (DESIGN CHOICE: notes/assumptions/12.md). -/
def pickEid (s : State) : Nat → BitVec 16 → BitVec 16
  | 0, e => e
  | f + 1, e => if s.ctxs.any (fun c => c.2.eid == e) then pickEid s f (e + 1) else e

/-- An episode descriptor refused for a reserved bit (R464, R456) (DESIGN CHOICE: notes/assumptions/51.md). -/
def descBad (d : Nat → Nat) : Bool :=
  bitsAt (d 3) 2 14 != 0 || bitsAt (d 3) 48 16 != 0 || bitsAt (d 4) 48 16 != 0 || bitsAt (d 5) 48 16 != 0 || d 6 != 0 || d 7 != 0 ||
    ((List.range 8).any fun i => d (24 + i) != 0) ||
    (List.range 8).any fun i => d (8 + 2 * i) / 2 ^ 52 != 0 || d (9 + 2 * i) / 2 ^ 45 != 0

/-- A context as START leaves it (R464). -/
def startedCtx (c : Ctx) (d : Nat → Nat) (eid : BitVec 16) (ks : List Window) : Ctx :=
  let w (i : Nat) : Word := BitVec.ofNat 64 (d i)
  { emptyActions c with
    st := .live, checker := (d 3).testBit 0, follow := (d 3).testBit 1, g0 := BitVec.ofNat 16 (d 3 / 2 ^ 16),
    lag := BitVec.ofNat 16 (d 3 / 2 ^ 32), eid := eid, x := vset (vset (Vector.replicate 32 0) 2 (w 2)) 10 (w 1),
    f := Vector.replicate 32 0, fflags := 0, frm := 0, pc := w 0, resv := none, cycle := 0, instret := 0, wait := .none,
    excCode := 0, excTval := 0, act := [], obsBuf := List.replicate 256 0, rewBuf := List.replicate 256 0, delivered := false,
    lstep := 0, out := 0, drop := 0, resident := false, stepTimer := 0, budget := 0, stepWd := if d 4 = 0 then 2 ^ 24 else d 4, budgetMax := d 5,
    windows := ks }

/-- Whether a context's state lets it start (R465). -/
def mayStart (c : Ctx) : Bool :=
  c.st == .bound || (c.st == .ended && !c.scrb && c.obsBox.isEmpty && c.rewBox.isEmpty)

/-- Whether an episode descriptor's address is well formed: 256 bytes of device memory, aligned to 64. -/
def descAddrOk (a : Nat) : Bool := a % 64 == 0 && oneRow a 256 && decide ((tableRow a).getD 3 < 3)

/-- Whether a START waits to read its descriptor: it lies in a weight store in its refresh window (R109). -/
def startHeld (s : State) : Bool := cmdWaits s && cmdDword s 0 % 256 == 3 && refreshIn s (cmdDword s 2) 256

/-- START (R464, R465) (DESIGN CHOICE: notes/assumptions/12.md). -/
def execStart (s : State) : Out :=
  if startHeld s then .next s else command 0x03 (fun n a _ s =>
    if 480 ≤ n ∨ !descAddrOk a then (Resp.malformed, s)
    else
      let c := getCtx s n
      let d (i : Nat) : Nat := readNat s (a + 8 * i) 8
      let eid := pickEid s 481 (Config.freeEid s.nonce)
      let all := (List.range 8).map fun i => windowOf (d (8 + 2 * i)) (d (9 + 2 * i)) eid
      let ks := all.filter (·.valid)
      let chk := (d 3).testBit 0
      if !mayStart c || descBad d || all.any (winBad chk) || (s.ctxs.any fun m => winClash s n m.1 chk ks) then (Resp.refused, s)
      else doneWith (switchNow (modCtx s n fun c => startedCtx c d eid ks) (coreOfCtx n))) s

/-- EPREAD (R468, R485). -/
def execEpread (s : State) : Out :=
  command 0x06 (fun n _ _ s =>
    if 480 ≤ n then (Resp.malformed, s) else (⟨0, epstat (getCtx s n), epcnt (getCtx s n)⟩, s)) s

/-! ### Locks (R428, R494) -/

/-- A lock written: 0 is not listed. -/
def lockPut (t : Tab (BitVec 4)) (g : Nat) (v : BitVec 4) : Tab (BitVec 4) :=
  if v = 0 then t.filter (fun e => e.1 != g) else tset t g v

/-- The lock of a granule written at its home, and journalled there: the last 65,536 writes of a die (R494). -/
def writeLock (s : State) (a : Nat) (v : BitVec 4) : State :=
  let d := (homeDie a).getD 0
  { s with locks := lockPut s.locks (a / 32) v,
           dies := vset s.dies d (let k := vget Die.reset s.dies d
             { k with journal := ((a / 32 * 32, v.toNat, now s) :: k.journal).take 65536 }) }

/-- Whether bytes lie where locks are: HBM, weight store or host buffer. -/
def lockable (a n : Nat) : Bool := oneRow a n && decide ((tableRow a).getD 3 < 3)

/-- TAGSET (R428, R485). -/
def execTagset (s : State) : Out :=
  command 0x05 (fun a n l s =>
    if a % 32 ≠ 0 ∨ n % 32 ≠ 0 ∨ 16 ≤ l ∨ !lockable a (max n 1) then (Resp.malformed, s)
    else doneWith (forUp (n / 32) s fun i s => writeLock s (a + 32 * i) (BitVec.ofNat 4 l))) s

/-- OVFSET (R395, R485) (DESIGN CHOICE: notes/assumptions/52.md). -/
def execOvfset (s : State) : Out :=
  command 0x0C (fun l a n s =>
    if 191 < l ∨ 65535 < n ∨ (n ≠ 0 ∧ (a % 64 ≠ 0 ∨ 0x8000000000 < a + 64 * n)) then (Resp.malformed, s)
    else if isVacant s l || !(getCore s l).ovf.isEmpty then (Resp.refused, s)
    else doneWith (modCore s l fun c =>
      { c with ovfSize := n, ovfBase := if n = 0 then c.ovfBase else a, wovfSent := c.wovfSent && n == 0 })) s

/-! ### Map-out and restart (R495, R496) -/

/-- The LIDs of the records that a core holds. -/
def lidsOn (s : State) (l : Nat) : List (BitVec 16) := (coreRecs (getCore s l)).map (·.1)

/-- Launches with work on a core are killed: 0x07 for a record, 0x09 for a saved context. -/
def killHolders (s : State) (l : Nat) : State :=
  let sv := (getCore s l).saved.map (·.lid)
  let on := ((getCore s l).sram ++ (getCore s l).back ++ (getCore s l).waits ++ (getCore s l).ovf).map (·.lid) ++
    (match (cx s l).run with
     | some r => [r.lid]
     | none => []) ++ (getCore s l).conts.map (·.2.1)
  let s := on.foldl (fun s k => killLaunch s k 0x07) s
  sv.foldl (fun s k => killLaunch s k 0x09) s

/-- A core mapped out, and its vault with it or not. -/
def mapOut (s : State) (l : Nat) (vault : Bool) : State :=
  let s := killHolders s l
  let s := { s with vacant := if s.vacant.contains l then s.vacant else l :: s.vacant }
  if vault then
    modCore { s with deadVaults := if s.deadVaults.contains l then s.deadVaults else l :: s.deadVaults } l fun c =>
      { c with shadowSlots := 0 }
  else s

/-- VACMAP: bit L for each vacant core (R18). -/
def vacBits (s : State) : BitVec 192 := s.vacant.foldl (fun v l => v ||| BitVec.twoPow 192 l) 0

/-- Bytes written to the host buffer. -/
def hostBufPut (s : State) (off : Nat) (bs : List Byte) : State := writeBytes s (hostBase + off) bs

/-- MAPOUT (R495) (DESIGN CHOICE: notes/assumptions/74.md). -/
def execMapout (s : State) : Out :=
  command 0x07 (fun l v off s =>
    if 191 < l ∨ 1 < v ∨ 0x4000000 < off + 512 then (Resp.malformed, s)
    else if isVacant s l then (Resp.refused, s)
    else
      let s := mapOut s l (v == 1)
      let s := hostBufPut s off (toLE 512 (Config.serviceRecord (vacBits s)).toNat)
      (⟨0, s.vacant.length, 0⟩, s)) s

/-- Every item of R23 of a core at its reset value (R492, R496). What lies in its vault stays: its shadow slots and the
contexts in them; and so does what a gang holds (DEDUCED: notes/assumptions/57.md). -/
def resetCore (s : State) (l : Nat) : State :=
  modCore (clearSp (dropWaiter s l) l) l fun c =>
    { Core.reset with saved := c.saved, shadowSlots := c.shadowSlots, bound := c.bound, claim := c.claim }

/-- RESTART (R208, R496). -/
def execRestart (s : State) : Out :=
  command 0x08 (fun l _ _ s =>
    if 191 < l then (Resp.malformed, s)
    else if !(getCore s l).halted then (Resp.refused, s)
    else
      let lid := (cx s l).residentLid
      let s := if (lidsOn s l).contains lid then killLaunch s lid 0x07 else s
      doneWith (resetCore s l)) s

/-! ### Attestation and diagnostics (R501) -/

/-- The first 128 bytes of an attestation report (DESIGN CHOICE: notes/assumptions/54.md). -/
def reportHead (s : State) (d1 d2 : Nat) : List Byte :=
  toLE 8 d1 ++ toLE 8 d2 ++ toLE 8 (s.devId.toNat % 512) ++ toBE 32 s.bodyHash.toNat ++ toLE 24 (vacBits s).toNat ++
    toLE 8 (secReg s) ++ toLE 8 (now s) ++ List.replicate 32 0

/-- ATTEST (R501) (PRESUMED: notes/assumptions/11.md). -/
def execAttest (s : State) : Out :=
  command 0x09 (fun d1 d2 off s =>
    if off % 64 ≠ 0 ∨ 0x4000000 < off + 512 then (Resp.malformed, s)
    else
      let b := reportHead s d1 d2
      let sig := Config.identitySign (BitVec.ofNat 256 (ofBE (sha256 b)))
      doneWith (hostBufPut s off (b ++ toLE 384 sig.toNat))) s

/-- IDKEY (R501) (PRESUMED: notes/assumptions/11.md; DESIGN CHOICE: notes/assumptions/55.md). -/
def execIdkey (s : State) : Out :=
  command 0x0A (fun _ _ off s =>
    if 0x4000000 < off + 384 then (Resp.malformed, s)
    else doneWith (hostBufPut s off (toLE 384 Config.identityModulus.toNat))) s

/-- DREAD (R501, R503). -/
def execDread (s : State) : Out :=
  command 0x0B (fun a _ _ s => if a % 8 ≠ 0 ∨ 2 ^ 24 ≤ a then (Resp.malformed, s) else (⟨0, diagReg s a, 0⟩, s)) s

/-! ### Partitions (R448, R449) -/

/-- A partition. -/
def getPart (s : State) (p : Nat) : Partition := tget Partition.reset s.parts p

/-- The device with a partition replaced. -/
def setPart (s : State) (p : Nat) (k : Partition) : State := { s with parts := tset s.parts p k }

/-- Whether a partition is outside FREE and SAVED. -/
def Partition.holds (k : Partition) : Bool := k.st == .running || k.st == .halted

/-- Whether another partition outside FREE and SAVED has one of some cores. -/
def coresTaken (s : State) (p : Nat) (cores : List Nat) : Bool :=
  s.parts.any fun q => q.1 != p && q.2.holds && q.2.cores.any cores.contains

/-- PARTITION_CREATE (R437, R448). -/
def execPartitionCreate (p : BitVec 3) (cores : List CoreNum) (asids : List (BitVec 12)) (s : State) : Out :=
  let k := getPart s p.toNat
  let cs := cores.map (·.toNat)
  .next <| if !fwRuns s || k.st != .free || cs.any (fun l => decide (191 < l)) || coresTaken s p.toNat cs then s
    else setPart s p.toNat ⟨.running, cs, asids, []⟩

/-- PARTITION_HALT (R443, R448): every core of the partition is asked to stop, and starts no record. -/
def execPartitionHalt (p : BitVec 3) (s : State) : Out :=
  let k := getPart s p.toNat
  .next <| if !fwRuns s || k.st != .running then s
    else k.cores.foldl (fun s l => haltDone (modCore s l fun c => { c with stop := .halt }) l) (setPart s p.toNat { k with st := .halted })

/-- What a SAVE puts by of a core: everything but the saved contexts, which keep their slots; the core's registers return to their reset
values (DEDUCED: notes/assumptions/58.md).
(DESIGN CHOICE: notes/assumptions/13.md) (DESIGN CHOICE: notes/assumptions/94.md). -/
def saveCore (s : State) (l : Nat) : (Nat × Core × List Host.Cell × List Nat) × State :=
  let c := getCore s l
  ((l, { c with saved := [], apTlb := [], ceTlb := [], walkCache := [] }, spCells s l, spMarks s l),
   modCore (clearSp s l) l fun c => { Core.reset with saved := c.saved, shadowSlots := c.shadowSlots })

/-- PARTITION_SAVE (R443, R448): once every core has stopped (DEDUCED: notes/assumptions/58.md) (DESIGN CHOICE: notes/assumptions/75.md). -/
def execPartitionSave (p : BitVec 3) (s : State) : Out :=
  let k := getPart s p.toNat
  .next <| if !fwRuns s || k.st != .halted || !k.cores.all (fun l => (getCore s l).stop == .stopped) then s
    else
      let r := k.cores.foldl (fun (a : List (Nat × Core × List Host.Cell × List Nat) × State) l =>
        let x := saveCore a.2 l
        (a.1 ++ [x.1], x.2)) ([], s)
      setPart r.2 p.toNat { k with st := .saved, save := r.1 }

/-- A core that a SAVE has put by, loaded again (DEDUCED: notes/assumptions/58.md). -/
def loadCore (s : State) (v : Nat × Core × List Host.Cell × List Nat) : State :=
  modCore (loadSp s v.1 v.2.2.1 v.2.2.2) v.1 fun c => { v.2.1 with saved := c.saved, shadowSlots := c.shadowSlots, stop := .stopped }

/-- A core of a halted partition goes on: one that had stopped is restored (DEDUCED: notes/assumptions/58.md). -/
def resumeCore (s : State) (l : Nat) : State :=
  let s' := modCore s l fun c => { c with stop := .none }
  if (getCore s l).stop == .stopped then trace s' 8 l 1 0 0 else s'

/-- The launches with records or saved contexts on a core of a partition, saved or not (R449). -/
def holdersOf (s : State) (k : Partition) (l : Nat) : List (BitVec 16) :=
  lidsOn s l ++ (getCore s l).saved.map (·.lid) ++ k.save.flatMap fun v => if v.1 == l then (coreRecs v.2.1).map (·.1) else []

/-- A partition that holds a vacant core is not restored: launches there are killed with cause 0x09, and the core leaves the
partition (R449). -/
def dropVacant (s : State) (p : Nat) (k : Partition) : State :=
  let gone := k.cores.filter (isVacant s)
  let s := (gone.flatMap (holdersOf s k)).foldl (fun s i => killLaunch s i 0x09) s
  let k := getPart s p
  setPart s p { k with cores := k.cores.filter fun l => !gone.contains l, save := k.save.filter fun v => !gone.contains v.1 }

/-- PARTITION_RESTORE (R448, R449): a HALTED partition resumes; a SAVED one is loaded and HALTED. -/
def execPartitionRestore (p : BitVec 3) (s : State) : Out :=
  let k := getPart s p.toNat
  .next <| if !fwRuns s || !(k.st == .halted || k.st == .saved) then s
    else if k.cores.any (isVacant s) then dropVacant s p.toNat k
    else match k.st with
      | .halted => k.cores.foldl resumeCore (setPart s p.toNat { k with st := .running })
      | _ =>
        if coresTaken s p.toNat k.cores then s
        else setPart (k.save.foldl loadCore s) p.toNat { k with st := .halted, save := [] }

/-- PARTITION_DESTROY (R448): its launches are killed with cause 0x07. -/
def execPartitionDestroy (p : BitVec 3) (s : State) : Out :=
  let k := getPart s p.toNat
  .next <| if !fwRuns s || !(k.st == .halted || k.st == .saved) then s
    else
      let lids := (s.launches.filter fun la => k.asids.contains la.asid && la.st != .ended).map (·.lid)
      let s := lids.foldl (fun s i => killLaunch s i 0x07) s
      let s := if k.st == .halted then k.cores.foldl (fun s l => modCore s l fun c => { c with stop := .none }) s else s
      setPart s p.toNat Partition.reset

/-! ### What firmware does on its own (R450) -/

/-- The oldest record of a die's fault queue taken (R425). -/
def takeFault (s : State) (d : Nat) : State :=
  let k := vget Die.reset s.dies d
  match k.fq with
  | [] => s
  | r :: rest =>
    let s := { s with dies := vset s.dies d { k with fq := rest, lastFault := r.image } }
    if r.fcode == 1 then { s with fltTaken := s.fltTaken ++ [r] } else s

/-- A command whose OP the table does not list is answered as malformed (R485) (DESIGN CHOICE: notes/assumptions/56.md). -/
def unknownCmd (s : State) : State :=
  let op := cmdDword s 0 % 256
  if cmdWaits s && (op == 0 || decide (0x0C < op)) then respondCmd s Resp.malformed else s

/-- SERVICE_CORE_INSTRUCTION (R450): what an instruction of the firmware does to the device (DESIGN CHOICE: notes/assumptions/73.md). -/
def execServiceCoreInstruction (a : FirmwareAction) (s : State) : Out :=
  .next <| if !fwRuns s then s
    else match a with
      | .takeFault d => takeFault s (if d then 1 else 0)
      | .writeMem pa bytes => if inVault pa bytes.length then s else writeBytes s pa bytes
      | .copyMem src dst len => if refreshIn s src len || inVault dst len then s else writePBytes s dst (readPBytes s src len)
      | .readDiag k rd a => modHart s k.toNat fun c => xw c rd.toNat (BitVec.ofNat 64 (diagReg s a.toNat))
      | .setTvec l ap c0 => modX s l.toNat fun x => { x with tvecAp := ap &&& ~~~63#64, tvecC0 := c0 &&& ~~~63#64 }
      | .setWdog l limit => modCore s l.toNat fun c => { c with wdogLimit := limit }
      | .setRefBase v => { s with refbase := v }
      | .setDevId v => { s with devId := v &&& 0x0000FFFFFFFF01FF#64 }
      | .setShadow l n => if 42 < n.toNat then s else modCore s l.toNat fun c => { c with shadowSlots := n.toNat }
      | .setAsidBase pa => { s with asidBase := pa.toNat }
      | .readHotList _ => s
      | .mapOut l v => if isVacant s l.toNat || decide (191 < l.toNat) then s else mapOut s l.toNat v
      | .hart k => svcStep s k.toNat
      | .other => unknownCmd s

end Sys2Proof.Machine
end

