-- ==== Sys2Proof/Machine/Package.lean ====
section
/-! DEFINITION. The package: reset and boot, the test access port and the fast scan port, sensors, power, block gating, and
writes of registers (R6, R19, R23, R24, R27, R492 to R495, R499, R500, R502). -/

namespace Sys2Proof.Machine

/-! ### Reset and boot (R19, R23, R27, R500) -/

/-- DEVICE_RESET (R23, R24, R27): the device is held in reset at tick 0. HBM and vaults hold no value that a read must return;
what other devices hold, and the schedule, are not the device's. The test access port keeps its instruction, and the scan port its
datum (DESIGN CHOICE: notes/assumptions/87.md). -/
def execDeviceReset (s : State) : Out :=
  .next { State.reset with
    mem := s.mem.filter fun c => decide (0x8000000000000 ≤ c.1)
    granPsn := s.granPsn.filter fun g => decide (0x8000000000000 ≤ g)
    tap := s.tap, scanData := s.scanData, nonce := s.nonce, current := s.current, tape := s.tape }

/-- RESET_RELEASE (R27): the global tick becomes 1. -/
def execResetRelease (s : State) : Out :=
  .next <| if s.inReset then { s with inReset := false, tick := 1, turn := 0, refresh := windowAt s.refbase.toNat 1 } else s

/-- Bytes of the image in the host buffer (R500) (PRESUMED: notes/assumptions/11.md). -/
def imageBytes (s : State) (off n : Nat) : List Byte := readBytes s (hostBase + off) n

/-- Whether the image of a length passes the checks that refuse it (R500): its length, and its Length field. -/
def imageSized (s : State) (len : Nat) : Bool :=
  decide (0x328 ≤ len) && decide (len ≤ 0x4000000) && ofLE (imageBytes s 0 8) == len

/-- Whether the three checks of R500 pass: the modulus is the fused one, the body has its hash, and the signature verifies.
(PRESUMED: notes/assumptions/11.md). -/
def imageOk (s : State) (len : Nat) : Bool :=
  imageSized s len &&
    (sha256 (imageBytes s 0x28 384) == toBE 32 Config.keyHash.toNat &&
      (sha256 (imageBytes s 0x328 (len - 0x328)) == imageBytes s 8 32 &&
        rsaOk (imageBytes s 0x28 384) (imageBytes s 0x1A8 384) (sha256 (imageBytes s 0 0x28))))

/-- IMAGE_VERIFICATION (R500). -/
def execImageVerification (s : State) : Out :=
  .next <| if s.host.bootState != 1 || s.secHalt then s
    else if imageOk s s.host.bootLen.toNat then
      { modHost (startSvc s) (fun h => { h with bootState := 2 }) with bodyHash := BitVec.ofNat 256 (ofBE (imageBytes s 8 32)) }
    else modHost s fun h => { h with bootState := 3 }

/-- VACANCY_MAP_WRITE (R16, R19, R500): firmware writes the map of the service record, and sets READY.
(DESIGN CHOICE: notes/assumptions/6.md). -/
def execVacancyMapWrite (map : BitVec 192) (s : State) : Out :=
  .next <| if !fwRuns s || s.host.ready then s
    else modHost { s with vacant := (List.range 192).filter map.getLsbD } fun h => { h with ready := true }

/-! ### Scan-out (R493) -/

/-- BYPASS (DESIGN CHOICE: notes/assumptions/74.md). -/
def execBypass (s : State) : Out := .next { s with tap := .bypass }
/-- IDCODE. -/
def execIdcode (s : State) : Out := .next { s with tap := .idcode, scanData := Config.idcode.zeroExtend 64 }
/-- SAMPLE/PRELOAD. -/
def execSamplePreload (s : State) : Out := .next { s with tap := .samplePreload, scanData := Config.boundary s.nonce }
/-- EXTEST. -/
def execExtest (s : State) : Out := .next { s with tap := .extest }

/-- Whether the fast scan port reads a physical address: HBM or a vault. -/
def scanMem (pa : Nat) : Bool :=
  match rowOf pa with
  | some (.hbm _) | some (.vault _) => true
  | _ => false

/-- FAST_SCAN_READ (R493, R503): a read of a weight store in its refresh window waits (R109). -/
def execFastScanRead (a : ScanAddr) (s : State) : Out :=
  .next <| match a with
    | .mem pa => if scanMem pa && !refreshIn s pa 8 then { s with scanData := readWord s pa } else s
    | .diag a => { s with scanData := BitVec.ofNat 64 (diagReg s a.toNat) }
    | .csr l n => { s with scanData := csrRead s l.toNat n.toNat }

/-! ### Sensors and tag history (R494, R499) -/

/-- The least core of a block (R12, R15). -/
def blockCore (b : Nat) : Nat := 32 * (b / 4) + 4 * (b % 4)

/-- The cores of a block. -/
def blockCores (b : Nat) : List Nat := (List.range 8).map fun k => blockCore b + 16 * (k / 4) + k % 4

/-- Every block writes a security alarm record (R490, R499) (DESIGN CHOICE: notes/assumptions/63.md). -/
def alarmRecords (s : State) : State :=
  if s.kindEn.getLsbD 10 then
    forUp 24 s fun b s => traceAdd s ⟨now s, 10, blockCore b, 0, s.secAlarm.toNat, 0, 0⟩
  else s

/-- SENSOR_TRIP (R499): voltage, glitch, temperature or shield (DESIGN CHOICE: notes/assumptions/68.md). -/
def execSensorTrip (n : BitVec 2) (s : State) : Out :=
  let s := alarmRecords { s with secAlarm := s.secAlarm ||| BitVec.twoPow 4 n.toNat }
  .next <| match s.secAct.toNat / 4 ^ n.toNat % 4 with
    | 1 => { s with secTold := s.secTold ||| BitVec.twoPow 4 n.toNat }
    | 2 => { modHost s (fun h => { h with ready := false }) with keysZero := true, secHalt := true }
    | _ => s

/-- TAGHIST_CLEAR (R494). -/
def execTaghistClear (die : Bool) (s : State) : Out := .next (if fwRuns s then clearTag s (if die then 1 else 0) else s)

/-! ### Power (R502) and block gating (R492) -/

/-- DUTY_SET (R502): firmware measures the power, and under a cap sets DUTY.
(DESIGN CHOICE: notes/assumptions/6.md; DESIGN CHOICE: notes/assumptions/68.md). -/
def execDutySet (d : BitVec 7) (watts : BitVec 16) (s : State) : Out :=
  .next <| if !fwRuns s then s
    else if s.pwrCap = 0 ∨ d = 0 ∨ 64 < d.toNat then { s with pwrWatts := watts }
    else { s with pwrDuty := d, pwrWatts := watts }

/-- Whether a core holds nothing that keeps its block powered. -/
def coreIdle (s : State) (l : Nat) : Bool :=
  let c := getCore s l
  (coreRecs c).isEmpty && c.saved.isEmpty && c.bound.isNone && !c.claim && c.x.rings.toList.all (fun r => !r.conf) &&
    c.x.streams.toList.all fun t => t.st == .closed

/-- A block loses its power: its cores return to their reset values, and what its buffer still held is counted.
(DEDUCED: notes/assumptions/57.md). -/
def gateNow (s : State) (b : Nat) : State :=
  let k := getBlock s b
  let d := if b < 12 then 0 else 1
  let s := modDie s d fun e => { e with gateLost := tset e.gateLost b (tget 0 e.gateLost b + k.buf.length + k.lost) }
  modBlock ((blockCores b).foldl resetCore s) b fun k => { k with buf := [], lost := 0, gated := true, gating := none }

/-- BLOCK_GATING (R492): firmware asks an idle block to give up its power; it does so once its buffer is empty.
(DESIGN CHOICE: notes/assumptions/6.md; DESIGN CHOICE: notes/assumptions/64.md). -/
def execBlockGating (b : BitVec 5) (s : State) : Out :=
  let n := b.toNat
  let k := getBlock s n
  .next <| if !fwRuns s || decide (24 ≤ n) || k.gated then s
    else if !(blockCores n).all (coreIdle s) then modBlock s n fun k => { k with gating := none }
    else if k.buf.isEmpty then gateNow s n
    else modBlock s n fun k => { k with gating := some (k.gating.getD (now s)) }

/-- 22,000 ticks after gating began, it proceeds whatever the buffer holds (R492) (DESIGN CHOICE: notes/assumptions/64.md). -/
def gateLimit (s : State) (n : Nat) : State :=
  match (getBlock s n).gating with
  | some t =>
    if now s < t + 22000 then s
    else if (blockCores n).all (coreIdle s) then gateNow s n
    else modBlock s n fun k => { k with gating := none }
  | none => s

/-- GATING_TIMEOUT (R492); the end of the tick brings it at the latest (DESIGN CHOICE: notes/assumptions/64.md). -/
def execGatingTimeout (b : BitVec 5) (s : State) : Out := .next (gateLimit s b.toNat)

/-- BLOCK_POWER_UP (R492): the block's first record counts what gating discarded (DESIGN CHOICE: notes/assumptions/63.md). -/
def execBlockPowerUp (b : BitVec 5) (s : State) : Out :=
  let n := b.toNat
  let k := getBlock s n
  let d := if n < 12 then 0 else 1
  .next <| if !fwRuns s || !k.gated then s
    else
      let lost := tget 0 (vget Die.reset s.dies d).gateLost n
      let s := modDie s d fun e => { e with gateLost := tset e.gateLost n 0 }
      modBlock s n fun k => { k with gated := false, buf := [⟨now s, 9, blockCore n, 0, lost, 0, 0⟩] }

/-! ### Trace buffers drained (R491) -/

/-- Whether one trace record stands before another: by tick, then by core, then by kind.
(DESIGN CHOICE: notes/assumptions/63.md; DESIGN CHOICE: notes/assumptions/66.md). -/
def traceBefore (a b : TraceRec) : Bool :=
  decide (a.tick < b.tick) || (a.tick == b.tick && (decide (a.core < b.core) || (a.core == b.core && decide (a.kind < b.kind))))

/-- The least record of a list, and the others. -/
def traceLeast : List TraceRec → Option (TraceRec × List TraceRec)
  | [] => none
  | r :: t => match traceLeast t with
    | none => some (r, t)
    | some (m, rest) => if traceBefore m r then some (m, r :: rest) else some (r, t)

/-- The 32 bytes of a record (R490). -/
def traceBytes (r : TraceRec) : List Byte :=
  toLE 8 r.tick ++ toLE 1 r.kind ++ toLE 1 r.core ++ toLE 2 r.lid.toNat ++ toLE 4 r.a ++ toLE 8 r.b0.toNat ++ toLE 8 r.b1.toNat

/-- The next record of a block, of a tick that is over, is written to its slice; a block that gating waits for loses its power
with its last record (DESIGN CHOICE: notes/assumptions/66.md). -/
def traceDrain (s : State) (b : Nat) : State :=
  let k := getBlock s b
  let n := s.trcSize.toNat
  match traceLeast k.buf with
  | none => s
  | some (r, rest) =>
    if n = 0 ∨ 24 ≤ b ∨ now s ≤ r.tick then s
    else
      let a := s.trcBase + (b * n + k.cnt % n) * 32
      let s := if (rowOf a).isSome then writeBytes s a (traceBytes r) else s
      let s := modBlock s b fun k => { k with buf := rest, cnt := k.cnt + 1 }
      if rest.isEmpty && k.gating.isSome && (blockCores b).all (coreIdle s) then gateNow s b else s

/-! ### Register writes (R6, R481, R503) -/

/-- REGISTER_WRITE (R6): firmware writes a register of diagnostic space, or the host a control register; each field takes the
write as its access type says (DESIGN CHOICE: notes/assumptions/6.md). -/
def execRegisterWrite (r : RegAddr) (v : Word) (s : State) : Out :=
  .next <| match r with
    | .diag a => if fwRuns s then diagPut s a.toNat v else s
    | .host off => if hostServes s then ctrlPut s off.toNat (v.setWidth 32) else s

end Sys2Proof.Machine
end

