-- ==== Sys2Proof/Machine/Tick.lean ====
section
/-! DEFINITION. The global tick and what happens at its edges (R27 to R30, R109, R143, R431, R442, R463, R487 to R490), freezing
(R493), and the schedule: which move an empty one stands for (DESIGN CHOICE: notes/assumptions/2.md). -/

namespace Sys2Proof.Machine

/-! ### Classes of the engines (R487) -/

/-- The engines in the order of their codes. -/
def allEngs : List Eng := [.ap, .c0, .c1, .c2, .c3, .su, .ce]

/-- The class code of R487. -/
def HeadClass.code : HeadClass → Nat
  | .issue => 0 | .flag => 1 | .busy => 2 | .empty => 3

/-- Whether an engine that fetches holds a word. -/
def holdsWord (s : State) (l : Nat) (e : Eng) : Bool :=
  (cx s l).run.isSome && (match e with
    | .ap => (cx s l).handlerMode || !apEnded s l
    | e => !(codeDone s l e && (getEng s l e).rep == 0))

/-- The rings that a stream waits on: those it fills that cannot be pushed, those it drains that hold nothing, and the remote ring of a
ring-to-ring stream (DESIGN CHOICE: notes/assumptions/62.md). -/
def suRings (s : State) (l : Nat) (d : BitVec 1024) : List Nat :=
  let r := dfield d 28 5
  ((dFills d).filter fun q => !(getRing s l q).canPush) ++ ((dDrains d).filter fun q => !(getRing s l q).avail (getRing s l q).head) ++
    (if dDir d == 2 && !(getRing s (dfield d 20 8) r).canPush then [r] else [])

/-- What the stream at the head of the SU's queue waits for where it has done nothing on this tick
(DESIGN CHOICE: notes/assumptions/62.md). -/
def suClass (s : State) (l : Nat) (t : Stream) : HeadClass × List Nat :=
  let d := t.desc
  if !dutyOk s then (.busy, [])
  else if !t.started && t.st == .opened then (.flag, [fifoKey (dTkw d) 6])
  else if t.flt != .clear || t.refw || !t.far.isEmpty || t.begun then (.flag, [208])
  else if t.owed != 0 then (.flag, [fifoKey 6 (dTks d)])
  else
    let qs := suRings s l d
    (if qs.isEmpty then .busy else .flag, qs.map (64 + ·))

/-- What an engine does that has not tried to issue on this tick (DESIGN CHOICE: notes/assumptions/62.md). -/
def idleClass (s : State) (l : Nat) (e : Eng) : HeadClass × List Nat :=
  match e with
  | .su => match suHead s l with
    | none => (.empty, [])
    | some j => suClass s l (getStream s l j)
  | .ce => match (getCore s l).ce with
    | [] => (.empty, [])
    | x :: _ =>
      if !dutyOk s then (.busy, [])
      else if !x.started && x.tkw != 0 then (.flag, [fifoKey x.tkw 7])
      else if (getCore s l).ceFlt != .clear then (.flag, [208])
      else (.busy, [])
  | e =>
    if !holdsWord s l e then (.empty, [])
    else if dutyOk s && (getEng s l e).atS then (.flag, [210])
    else (.busy, [])

/-- The class of an engine on this tick, and the flags it waits on (DESIGN CHOICE: notes/assumptions/62.md). -/
def classOf (s : State) (l : Nat) (e : Eng) : HeadClass × List Nat :=
  match (getCore s l).heads.find? fun h => h.1 == e with
  | some h => h.2
  | none => idleClass s l e

/-- A counter advanced, in 48 bits (R489). -/
def clsBump (t : Tab Nat) (k : Nat) : Tab Nat := tset t k ((tget 0 t k + 1) % 2 ^ 48)

/-- Whether a core is present and powered. -/
def presentCore (s : State) (l : Nat) : Bool := !isVacant s l && powered s l

/-- The flags of the banks for which requests have waited on this tick (R488). -/
def bankFlagsOf (s : State) (l : Nat) : List Nat :=
  ((getCore s l).bankQ.filter fun q => q.last == now s).flatMap fun q => q.short.map (160 + ·)

/-- The counters of a core after this tick (R489) (DESIGN CHOICE: notes/assumptions/62.md). -/
def countClasses (s : State) (l : Nat) : State :=
  if !presentCore s l || (cx s l).clsHold then s
  else
    let flags (t : Tab Nat) (fs : List Nat) : Tab Nat := fs.foldl (fun t f => clsBump t (0x300 + f)) t
    modX s l fun x =>
      { x with cls := flags (allEngs.foldl (fun t e =>
          let k := classOf s l e
          flags (clsBump t (0x200 + 4 * (engCode e - 1) + k.1.code)) k.2) x.cls) (bankFlagsOf s l) }

/-! ### Classifier samples (R490) -/

/-- Whether the cores write samples on this tick. -/
def sampleDue (s : State) : Bool :=
  s.sampLog != 0 && now s % 2 ^ s.sampLog.toNat == 0 && s.sampled != now s && s.kindEn.getLsbD 7

/-- One core's sample. -/
def sampleOf (s : State) (l : Nat) : Nat :=
  (allEngs.map fun e => (classOf s l e).1.code * 4 ^ (engCode e - 1)).foldl (· + ·) 0

/-- Every core writes a sample. -/
def samples (s : State) : State :=
  forUp 192 { s with sampled := now s } fun l t => traceAdd t ⟨now s, 7, l, runLid s l, 0, BitVec.ofNat 64 (sampleOf s l), 0⟩

/-- Whether the class of an engine that moves data can change no more on this tick: it has moved something, or it has nothing to move. -/
def movedOrNone (s : State) (l : Nat) (e : Eng) (none : Bool) : Bool :=
  none || (getCore s l).heads.any fun h => h.1 == e && h.2.1 == .issue

/-- Whether the classes of a core's engines can change no more on this tick. -/
def classesStand (s : State) (l : Nat) : Bool :=
  fetchers.all (fun e => !canTry s l e) && movedOrNone s l .su (suHead s l).isNone && movedOrNone s l .ce (getCore s l).ce.isEmpty

/-- TRACE_SAMPLE (R490): on a tick whose samples are due, once no class can change; the end of the tick brings them at the latest. -/
def execTraceSample (s : State) : Host.Outcome State Fault Refusal :=
  .next (if sampleDue s && s.cores.all (fun c => classesStand s c.1) then samples s else s)

/-! ### The edges of a tick -/

/-- What a core does by the end of a tick: accesses that may depart do, C3 words that may start do, a core that has drained for a
partition halt stops, and its watchdog advances. -/
def endCore (s : State) (l : Nat) : State :=
  if !presentCore s l then s
  else
    let s := if (getCore s l).defer then s else drainAp s l
    let s := haltDone (forUp (getCore s l).c3.length s fun i s => tryStart s l i) l
    modCore s l fun c => { c with wdogCnt := if c.x.run.isSome && !c.x.handlerMode then c.wdogCnt + 1 else c.wdogCnt }

/-- Examination of every message that a tick has brought (R459, R462). -/
def examineAll (s : State) (n : Nat) : State := iter (fun s => examineNext s n) (getCtx s n).actBox.length s

/-- The end of a tick for a context: timers are tested and messages examined (R462, R463) (DESIGN CHOICE: notes/assumptions/42.md). -/
def endCtx (s : State) (n : Nat) : State :=
  if (getCtx s n).st != .live then s
  else examineAll (testTimers s n) n

/-- Whether a context's wait for device memory is over. -/
def memoryReady (s : State) (c : Ctx) : Bool :=
  match c.wait with
  | .memory a n _ => !epHeld s a n
  | _ => false

/-- The beginning of a tick for a context: the step timer counts a tick on which an answer is outstanding (R463), and a wait for device
memory that is over ends (R453) (DESIGN CHOICE: notes/assumptions/42.md). -/
def beginCtx (s : State) (n : Nat) : State :=
  modCtx s n fun c =>
    { c with stepTimer := if c.st == .live && c.out != 0 then c.stepTimer + 1 else c.stepTimer
             wait := if memoryReady s c then .none else c.wait, resident := false }

/-- One of the two cycles of an episode core in a tick: the first is that of the context resident as the tick begins, the second that of the
one resident as it ends (R29, R451, R453) (DESIGN CHOICE: notes/assumptions/42.md). -/
def epCycle (s : State) (i : Nat) : State :=
  let n := residentCtx s i
  if runsNow s n then modEp (modCtx s n fun c => { c with cycle := c.cycle + 1 }) i fun e => { e with ran := e.ran + 1 } else s

/-- The beginning of a tick for an episode core: a core whose resident was waiting takes the next context that is ready (R453). -/
def beginEp (s : State) (i : Nat) : State :=
  let idle := !ctxReady (getCtx s (residentCtx s i))
  let s := ((s.ctxs.filter fun c => c.1 / 8 == i).map (·.1)).foldl beginCtx s
  let s := match nextReady s i with
    | some h => if idle && decide (i < 60) then takeCore s i h else s
    | none => s
  epCycle (noteResident s (residentCtx s i)) i

/-- The episode cores that have a context. -/
def epsUsed (s : State) : List Nat := (s.ctxs.map fun c => c.1 / 8).eraseDups

/-- The end of a tick (DESIGN CHOICE: notes/assumptions/65.md). -/
def endTick (s : State) : State :=
  if s.secHalt then s
  else
    let s := (s.cores.map (·.1)).foldl endCore s
    let s := forUp 192 s fun l s => countClasses (if clrDue s l then clearCls s l else s) l
    let s := (s.blocks.map (·.1)).foldl gateLimit s
    let s := (epsUsed s).foldl epCycle s
    let s := hotSettle ((s.ctxs.map (·.1)).foldl endCtx s)
    if sampleDue s then samples s else s

/-- The first repeat of a cluster that must land by now (R143).
(DESIGN CHOICE: notes/assumptions/1.md; DESIGN CHOICE: notes/assumptions/70.md). -/
def dueFlight (s : State) (l : Nat) (c2 : Bool) : Option Nat :=
  (getCore s l).vfl.findIdx? fun f => f.c2 == c2 && decide (f.due ≤ now s)

/-- The repeats of a cluster that must land by now do. -/
def landDue (s : State) (l : Nat) (c2 : Bool) : State :=
  iter (fun s => match dueFlight s l c2 with
    | some i => landFlight s l i
    | none => s) (getCore s l).vfl.length s

/-- The beginning of a tick for a core: results that are due have landed, those of C1 before those of C2 (R150), the array's slots are
freed, user mode begins after the TRETs (R207), and every engine may try again. -/
def beginCore (s : State) (l : Nat) : State :=
  let s := modCore s l fun c => { c with tk := TickNote.none, bankQ := c.bankQ.filter fun q => q.live (now s) }
  let s := freeKept (landDue (landDue s l false) l true) l
  let s := if (cx s l).han.leave then leaveHandler s l else s
  modCore s l fun c =>
    { c with tried := [], heads := [], served := [], wovfSent := c.wovfSent && !decide (c.ovf.length < c.ovfSize),
             x := { c.x with engs := c.x.engs.map fun t => { t with ready := false, granted := false, slow := false, pos0 := t.pos } } }

/-- The beginning of a tick. -/
def beginTick (s : State) : State :=
  let s := { s with refresh := windowNow s, turn := 0 }
  let s := (s.cores.map (·.1)).foldl beginCore s
  let s := (epsUsed s).foldl beginEp s
  (s.hbm.map (·.1)).foldl hotClose s

/-- The package freezes at the end of this tick, which FRZ_TICK then holds (R493) (DESIGN CHOICE: notes/assumptions/65.md). -/
def freezeNow (s : State) : State := { endTick s with frozen := true, frzTick := s.tick }

/-- Whether the armed FRZ_TICK is this tick. -/
def freezeDue (s : State) : Bool := s.frzArm && s.frzTick == s.tick

/-- FREEZE (R493): a low level on FRZ_N has been synchronised on this tick. -/
def execFreeze (s : State) : Host.Outcome State Fault Refusal := .next (if s.frozen || s.inReset then s else freezeNow s)

/-- FREEZE_AT_TICK (R493) (DESIGN CHOICE: notes/assumptions/65.md). -/
def execFreezeAtTick (s : State) : Host.Outcome State Fault Refusal :=
  .next (if s.frozen || s.inReset || !freezeDue s then s else freezeNow s)

/-- The global tick advances by 1 (R27), unless the package freezes at the end of this one (DESIGN CHOICE: notes/assumptions/1.md). -/
def advanceTick (s : State) : State :=
  if freezeDue s then freezeNow s
  else
    let t := endTick s
    beginTick { t with tick := t.tick + 1 }

/-! ### Errors of the memories -/

/-- An uncorrectable error appears in a granule, or a single-bit error in a granule of a scratchpad (R63, R430).
(DESIGN CHOICE: notes/assumptions/67.md). -/
def eccError (s : State) (pa : Nat) (single : Bool) : State :=
  if isSp pa then
    if single then { s with eccSoft := markSet s.eccSoft (pa / 64 * 64) true }
    else { s with eccBad := markSet s.eccBad (pa / 64 * 64) true }
  else if single then s
  else match rowOf pa with
    | some (.hbm _) | some (.vault _) | some .host => { s with eccBad := markSet s.eccBad (pa / 32 * 32) true }
    | _ => s

/-! ### The schedule -/

/-- Moves that are neither words nor events of the table (DESIGN CHOICE: notes/assumptions/2.md) (DESIGN CHOICE: notes/assumptions/13.md). -/
def otherMove (m : Move) (s : State) : State :=
  if s.frozen || s.inReset then s
  else match m with
    | .tick => advanceTick s
    | .depart l i =>
      if !s.secHalt && (getCore s l.toNat).apFlt == .clear && mayDepart s l.toNat i then departEnt s l.toNat i else s
    | .setDefer l d => modCore s l.toNat fun c => { c with defer := d }
    | .prefetch l n => if s.secHalt then s else prefetch s l.toNat n.toNat
    | .unit l => ceUnit s l.toNat
    | .walkFill l va =>
      modCore s l.toNat fun c => match walkNext s c.walkCache c.x.asid va.toNat with
        | some e => { c with walkCache := e :: c.walkCache }
        | none => c
    | .walkEvict l => modCore s l.toNat fun c => { c with walkCache := [] }
    | .nextPage l k =>
      if k.toNat < 16 then streamNextPage s l.toNat k.toNat else if k.toNat < 18 then ceNextPage s l.toNat (k == 17) else s
    | .traceDrain b => traceDrain s b.toNat
    | .eccError pa single => eccError s pa single
    | .issue .. | .event _ => s

/-- An answer of a move. -/
abbrev MoveOut := Host.Outcome State Fault Refusal

/-- What an agent told to try again does next. -/
def agentMoves (s : State) (a : Agent) : List (State → MoveOut) :=
  match fltOf s a with
  | .clear | .sent _ | .unsent => []
  | .again _ => [execPageWalk a]

/-- What one stream may do. -/
def streamMoves (s : State) (l : Nat) (n : Nat) : List (State → MoveOut) :=
  let c : CoreNum := BitVec.ofNat 8 l
  let j : BitVec 4 := BitVec.ofNat 4 n
  if (getStream s l n).st == .closed then []
  else [execStreamStart c j, execStreamSlotCommit c j, execBindOffCommit c j, execStreamSlotDrain c j,
        execRemoteSlotTransfer c j] ++ agentMoves s (.su c j)

/-- What one core may do on a tick, in the order of the default schedule: the SU commits before words of the AP see their streams
(R230); `issue` is the try of an engine. -/
def coreMoves (issue : Nat → Eng → State → MoveOut) (s : State) (l : Nat) : List (State → MoveOut) :=
  let c : CoreNum := BitVec.ofNat 8 l
  let k := getCore s l
  let engs : List (State → MoveOut) := [issue l .c0, issue l .c1, issue l .c2, issue l .c3, issue l .ap]
  [execTrapEntry c, execClsClear c, execRecordRetirement c, execContinuationPush c, execPreemptionStop c, execHandlerStopLimit c,
    execContextSave c, execContextRestore c, execRecordExamine c, execRecordSelection c, execWatchdog c, execHpcC3Write c,
    execLockstepRendezvous c] ++
  (List.range 16).flatMap (streamMoves s l) ++
  engs ++ engs ++
  ((List.range k.c3.length).map fun i => execMatrixWordStart c i) ++
  (List.replicate k.c3.length (execMatrixWordRetirement c 0)) ++
  (if k.ce.isEmpty then [] else [execCopyTransferStart c, execCopyTransferComplete c]) ++
  (((k.waits ++ k.ovf ++ k.sram).zipIdx.filter fun q => q.1.woken && !q.1.awake).map fun q => execWatchWake c q.2) ++
  (List.replicate (s.transit.filter fun t => t.core == l).length (execAcknowledgement c)) ++
  agentMoves s (.ap c) ++ agentMoves s (.ce c) ++
  k.waiters.flatMap fun w => if w.registered then [] else [execBarwaitRepoll (BitVec.ofNat 8 w.core) w.c3]

/-- What the launches of the device do on a tick after the cores: their root records are pushed last (R389). -/
def rootMoves (s : State) : List (State → MoveOut) :=
  (s.launches.filter fun k => k.st != .ended).map fun k => execRootRecordPush k.lid

/-- What the device may do on a tick. -/
def deviceMoves (s : State) : List (State → MoveOut) :=
  [execTaskKill, execCompletionEntryWrite, execAdmission, execGangAdmission, execDetectorCopyUpdate, execAsidRetirement] ++
  (s.fltPend.map fun r => execFaultRecordWrite (agentOf r)) ++
  agentMoves s .admission ++
  ((s.launches.filter fun k => k.st != .ended).flatMap fun k =>
    [execReplanEvent k.lid, execLaunchEnd k.lid]) ++
  (List.range s.transit.length).map execAccessPerform

/-- What barrier homes may do on a tick: requests and arrivals in the order of R261, and refusals that return. -/
def barrierMoves (s : State) : List (State → MoveOut) :=
  let refusal : BarMsg → Bool
    | .refusal .. => true
    | _ => false
  List.replicate s.barMsgs.length (fun t => match nextMsg t with
    | some i => execBarrierRequestAtHome i t
    | none => .next t) ++
  List.replicate s.barMsgs.length fun t => match t.barMsgs.findIdx? refusal with
    | some i => execBarrierPhaseReply i t
    | none => .next t

/-- What one context may do on a tick. -/
def ctxMoves (p : Nat × Ctx) : List (State → MoveOut) :=
  let x : CtxNum := BitVec.ofNat 9 p.1
  match p.2.st with
  | .live => [execActTake x, execObsBell x, execRewBell x]
  | .suspended => [execSuspendedContextEnd x]
  | .ended => if p.2.scrb then [execScrub x] else []
  | _ => []

/-- What one episode core may do on a tick. -/
def epMoves (i : Nat) : List (State → MoveOut) :=
  let k : BitVec 6 := BitVec.ofNat 6 i
  [execContextSwitch k, execEpisodeCoreInstruction k, execEpisodeCoreInstruction k]

/-- The moves of one tick in the order of the default schedule; a device halted by a sensor has none (R499).
(DESIGN CHOICE: notes/assumptions/2.md). -/
def agenda (issue : Nat → Eng → State → MoveOut) (s : State) : List (State → MoveOut) :=
  if s.secHalt then []
  else
    deviceMoves s ++ s.cores.flatMap (fun c => coreMoves issue s c.1) ++ rootMoves s ++ barrierMoves s ++ s.ctxs.flatMap ctxMoves ++
      (epsUsed s).flatMap epMoves ++
      (s.blocks.filter fun b => !b.2.buf.isEmpty).map fun b t => .next (traceDrain t b.1)

/-- What an empty schedule stands for: the end of reset, each move of the tick in its turn, and then the next tick.
(DESIGN CHOICE: notes/assumptions/2.md). -/
def defaultStep (issue : Nat → Eng → State → MoveOut) (s : State) : MoveOut :=
  if s.inReset then execResetRelease s
  else match (agenda issue s)[s.turn]? with
    | some f => f { s with turn := s.turn + 1 }
    | none => .next (advanceTick s)

end Sys2Proof.Machine
end

