-- ==== Sys2Proof/Machine/Dispatch.lean ====
section
/-! DEFINITION. The dispatch: one arm for each constructor of `Instr`, each one call of that instruction's meaning. -/

namespace Sys2Proof.Machine

open Sys2Proof

def exec (i : Instr) (s : State) : Host.Outcome State Fault Refusal :=
  match i with
  | .add k d a b => Sys2Proof.Machine.execAdd k d a b s
  | .sub k d a b => Sys2Proof.Machine.execSub k d a b s
  | .and k d a b => Sys2Proof.Machine.execAnd k d a b s
  | .or k d a b => Sys2Proof.Machine.execOr k d a b s
  | .xor k d a b => Sys2Proof.Machine.execXor k d a b s
  | .andn k d a b => Sys2Proof.Machine.execAndn k d a b s
  | .shl k d a b => Sys2Proof.Machine.execShl k d a b s
  | .shr k d a b => Sys2Proof.Machine.execShr k d a b s
  | .sra k d a b => Sys2Proof.Machine.execSra k d a b s
  | .min k d a b => Sys2Proof.Machine.execMin k d a b s
  | .max k d a b => Sys2Proof.Machine.execMax k d a b s
  | .minu k d a b => Sys2Proof.Machine.execMinu k d a b s
  | .maxu k d a b => Sys2Proof.Machine.execMaxu k d a b s
  | .slt k d a b => Sys2Proof.Machine.execSlt k d a b s
  | .sltu k d a b => Sys2Proof.Machine.execSltu k d a b s
  | .seq k d a b => Sys2Proof.Machine.execSeq k d a b s
  | .mul k d a b => Sys2Proof.Machine.execMul k d a b s
  | .mulh k d a b => Sys2Proof.Machine.execMulh k d a b s
  | .mulhu k d a b => Sys2Proof.Machine.execMulhu k d a b s
  | .div k d a b => Sys2Proof.Machine.execDiv k d a b s
  | .divu k d a b => Sys2Proof.Machine.execDivu k d a b s
  | .rem k d a b => Sys2Proof.Machine.execRem k d a b s
  | .remu k d a b => Sys2Proof.Machine.execRemu k d a b s
  | .clz k d a => Sys2Proof.Machine.execClz k d a s
  | .ctz k d a => Sys2Proof.Machine.execCtz k d a s
  | .popc k d a => Sys2Proof.Machine.execPopc k d a s
  | .bext k d a b => Sys2Proof.Machine.execBext k d a b s
  | .bins k d a b => Sys2Proof.Machine.execBins k d a b s
  | .kcmpEq k d a b => Sys2Proof.Machine.execKcmpEq k d a b s
  | .kcmpNe k d a b => Sys2Proof.Machine.execKcmpNe k d a b s
  | .kcmpLt k d a b => Sys2Proof.Machine.execKcmpLt k d a b s
  | .kcmpGe k d a b => Sys2Proof.Machine.execKcmpGe k d a b s
  | .kcmpLtu k d a b => Sys2Proof.Machine.execKcmpLtu k d a b s
  | .kcmpGeu k d a b => Sys2Proof.Machine.execKcmpGeu k d a b s
  | .kand k d a b => Sys2Proof.Machine.execKand k d a b s
  | .kor k d a b => Sys2Proof.Machine.execKor k d a b s
  | .knot k d a => Sys2Proof.Machine.execKnot k d a s
  | .addi k d a imm => Sys2Proof.Machine.execAddi k d a imm s
  | .andi k d a imm => Sys2Proof.Machine.execAndi k d a imm s
  | .ori k d a imm => Sys2Proof.Machine.execOri k d a imm s
  | .xori k d a imm => Sys2Proof.Machine.execXori k d a imm s
  | .shli k d a n => Sys2Proof.Machine.execShli k d a n s
  | .shri k d a n => Sys2Proof.Machine.execShri k d a n s
  | .srai k d a n => Sys2Proof.Machine.execSrai k d a n s
  | .slti k d a imm => Sys2Proof.Machine.execSlti k d a imm s
  | .lui k d imm => Sys2Proof.Machine.execLui k d imm s
  | .addpc k d imm => Sys2Proof.Machine.execAddpc k d imm s
  | .ld k d a off size => Sys2Proof.Machine.execLd k d a off size s
  | .ldu k d a off size => Sys2Proof.Machine.execLdu k d a off size s
  | .st k d a off size => Sys2Proof.Machine.execSt k d a off size s
  | .ldx k d a b zx size => Sys2Proof.Machine.execLdx k d a b zx size s
  | .stx k d a b size => Sys2Proof.Machine.execStx k d a b size s
  | .lda k d a sc zx size => Sys2Proof.Machine.execLda k d a sc zx size s
  | .stl k d a sc size => Sys2Proof.Machine.execStl k d a sc size s
  | .amoW k d a b sc fn => Sys2Proof.Machine.execAmoW k d a b sc fn s
  | .amoD k d a b sc fn => Sys2Proof.Machine.execAmoD k d a b sc fn s
  | .cas k d a b sc wide => Sys2Proof.Machine.execCas k d a b sc wide s
  | .fence k sc => Sys2Proof.Machine.execFence k sc s
  | .qalign k => Sys2Proof.Machine.execQalign k s
  | .b k off => Sys2Proof.Machine.execB k off s
  | .bk k off => Sys2Proof.Machine.execBk k off s
  | .bccEq k d a imm => Sys2Proof.Machine.execBccEq k d a imm s
  | .bccNe k d a imm => Sys2Proof.Machine.execBccNe k d a imm s
  | .bccLt k d a imm => Sys2Proof.Machine.execBccLt k d a imm s
  | .bccGe k d a imm => Sys2Proof.Machine.execBccGe k d a imm s
  | .bccLtu k d a imm => Sys2Proof.Machine.execBccLtu k d a imm s
  | .bccGeu k d a imm => Sys2Proof.Machine.execBccGeu k d a imm s
  | .jal k d imm => Sys2Proof.Machine.execJal k d imm s
  | .jalr k d a imm => Sys2Proof.Machine.execJalr k d a imm s
  | .loop k a imm => Sys2Proof.Machine.execLoop k a imm s
  | .brq k d imm => Sys2Proof.Machine.execBrq k d imm s
  | .bqpush k d a => Sys2Proof.Machine.execBqpush k d a s
  | .tksig k d => Sys2Proof.Machine.execTksig k d s
  | .tkwait k d => Sys2Proof.Machine.execTkwait k d s
  | .scfg k n a => Sys2Proof.Machine.execScfg k n a s
  | .sopen k n => Sys2Proof.Machine.execSopen k n s
  | .sclose k n => Sys2Proof.Machine.execSclose k n s
  | .seos k n => Sys2Proof.Machine.execSeos k n s
  | .smark k n a => Sys2Proof.Machine.execSmark k n a s
  | .srewind k n => Sys2Proof.Machine.execSrewind k n s
  | .sforkG k n q a => Sys2Proof.Machine.execSforkG k n q a s
  | .sforkT k n q => Sys2Proof.Machine.execSforkT k n q s
  | .sstat k n a => Sys2Proof.Machine.execSstat k n a s
  | .ssave k n a => Sys2Proof.Machine.execSsave k n a s
  | .srest k n a => Sys2Proof.Machine.execSrest k n a s
  | .swait k n c => Sys2Proof.Machine.execSwait k n c s
  | .sbase k n a => Sys2Proof.Machine.execSbase k n a s
  | .rcfg k q a => Sys2Proof.Machine.execRcfg k q a s
  | .rhead k q a => Sys2Proof.Machine.execRhead k q a s
  | .rtail k q a => Sys2Proof.Machine.execRtail k q a s
  | .rpop k q a => Sys2Proof.Machine.execRpop k q a s
  | .rpush k q a => Sys2Proof.Machine.execRpush k q a s
  | .rwait k q c => Sys2Proof.Machine.execRwait k q c s
  | .copy k a => Sys2Proof.Machine.execCopy k a s
  | .copyw k d a => Sys2Proof.Machine.execCopyw k d a s
  | .wsload k a => Sys2Proof.Machine.execWsload k a s
  | .spawn k d a => Sys2Proof.Machine.execSpawn k d a s
  | .exit k => Sys2Proof.Machine.execExit k s
  | .join k a b => Sys2Proof.Machine.execJoin k a b s
  | .park k a => Sys2Proof.Machine.execPark k a s
  | .waitf k d a b => Sys2Proof.Machine.execWaitf k d a b s
  | .append k d a b => Sys2Proof.Machine.execAppend k d a b s
  | .take k d a => Sys2Proof.Machine.execTake k d a s
  | .quiet k d => Sys2Proof.Machine.execQuiet k d s
  | .barinit k a b => Sys2Proof.Machine.execBarinit k a b s
  | .bararr k d a b => Sys2Proof.Machine.execBararr k d a b s
  | .barwait k d a b => Sys2Proof.Machine.execBarwait k d a b s
  | .barstat k d a => Sys2Proof.Machine.execBarstat k d a s
  | .mbput k d a b => Sys2Proof.Machine.execMbput k d a b s
  | .mbget k d a b => Sys2Proof.Machine.execMbget k d a b s
  | .mbpeek k d a => Sys2Proof.Machine.execMbpeek k d a s
  | .csrr k d n => Sys2Proof.Machine.execCsrr k d n s
  | .csrw k d n => Sys2Proof.Machine.execCsrw k d n s
  | .csrx k d n => Sys2Proof.Machine.execCsrx k d n s
  | .trap k code => Sys2Proof.Machine.execTrap k code s
  | .tret k => Sys2Proof.Machine.execTret k s
  | .halt k => Sys2Proof.Machine.execHalt k s
  | .tick k d => Sys2Proof.Machine.execTick k d s
  | .tlbinv k d n => Sys2Proof.Machine.execTlbinv k d n s
  | .asidret k d => Sys2Proof.Machine.execAsidret k d s
  | .spcfg k d => Sys2Proof.Machine.execSpcfg k d s
  | .syncg k mask ease => Sys2Proof.Machine.execSyncg k mask ease s
  | .loopc k off => Sys2Proof.Machine.execLoopc k off s
  | .rotclr k mask => Sys2Proof.Machine.execRotclr k mask s
  | .ease k d n => Sys2Proof.Machine.execEase k d n s
  | .vadd w => Sys2Proof.Machine.execVadd w s
  | .vsub w => Sys2Proof.Machine.execVsub w s
  | .vmul w => Sys2Proof.Machine.execVmul w s
  | .vmulh w => Sys2Proof.Machine.execVmulh w s
  | .vmac w => Sys2Proof.Machine.execVmac w s
  | .vmin w => Sys2Proof.Machine.execVmin w s
  | .vmax w => Sys2Proof.Machine.execVmax w s
  | .vabs w => Sys2Proof.Machine.execVabs w s
  | .vneg w => Sys2Proof.Machine.execVneg w s
  | .vand w => Sys2Proof.Machine.execVand w s
  | .vor w => Sys2Proof.Machine.execVor w s
  | .vxor w => Sys2Proof.Machine.execVxor w s
  | .vshl w => Sys2Proof.Machine.execVshl w s
  | .vshr w => Sys2Proof.Machine.execVshr w s
  | .vsra w => Sys2Proof.Machine.execVsra w s
  | .vqshr w => Sys2Proof.Machine.execVqshr w s
  | .vqmul w => Sys2Proof.Machine.execVqmul w s
  | .vsat w => Sys2Proof.Machine.execVsat w s
  | .vfadd w => Sys2Proof.Machine.execVfadd w s
  | .vfsub w => Sys2Proof.Machine.execVfsub w s
  | .vfmul w => Sys2Proof.Machine.execVfmul w s
  | .vfma w => Sys2Proof.Machine.execVfma w s
  | .vfms w => Sys2Proof.Machine.execVfms w s
  | .vfmin w => Sys2Proof.Machine.execVfmin w s
  | .vfmax w => Sys2Proof.Machine.execVfmax w s
  | .vfrcp w => Sys2Proof.Machine.execVfrcp w s
  | .vfrsq w => Sys2Proof.Machine.execVfrsq w s
  | .vfexp2 w => Sys2Proof.Machine.execVfexp2 w s
  | .vflog2 w => Sys2Proof.Machine.execVflog2 w s
  | .vfabs w => Sys2Proof.Machine.execVfabs w s
  | .vfneg w => Sys2Proof.Machine.execVfneg w s
  | .vcmp w => Sys2Proof.Machine.execVcmp w s
  | .vfcmp w => Sys2Proof.Machine.execVfcmp w s
  | .vsel w => Sys2Proof.Machine.execVsel w s
  | .vmov w => Sys2Proof.Machine.execVmov w s
  | .vbcast w => Sys2Proof.Machine.execVbcast w s
  | .vperm w => Sys2Proof.Machine.execVperm w s
  | .vshuf w => Sys2Proof.Machine.execVshuf w s
  | .vslide w => Sys2Proof.Machine.execVslide w s
  | .vpack w => Sys2Proof.Machine.execVpack w s
  | .vunpk w => Sys2Proof.Machine.execVunpk w s
  | .vredadd w => Sys2Proof.Machine.execVredadd w s
  | .vredmax w => Sys2Proof.Machine.execVredmax w s
  | .vredmin w => Sys2Proof.Machine.execVredmin w s
  | .vfredadd w => Sys2Proof.Machine.execVfredadd w s
  | .vscan w => Sys2Proof.Machine.execVscan w s
  | .vcvt w => Sys2Proof.Machine.execVcvt w s
  | .vxpand w => Sys2Proof.Machine.execVxpand w s
  | .vmxq w => Sys2Proof.Machine.execVmxq w s
  | .vmxd w => Sys2Proof.Machine.execVmxd w s
  | .vpart w => Sys2Proof.Machine.execVpart w s
  | .vcomp w => Sys2Proof.Machine.execVcomp w s
  | .vexpd w => Sys2Proof.Machine.execVexpd w s
  | .vgath w => Sys2Proof.Machine.execVgath w s
  | .vscat w => Sys2Proof.Machine.execVscat w s
  | .vpush w => Sys2Proof.Machine.execVpush w s
  | .vpushBoff w => Sys2Proof.Machine.execVpushBoff w s
  | .pand w => Sys2Proof.Machine.execPand w s
  | .por w => Sys2Proof.Machine.execPor w s
  | .pxor w => Sys2Proof.Machine.execPxor w s
  | .pnot w => Sys2Proof.Machine.execPnot w s
  | .pcnt w => Sys2Proof.Machine.execPcnt w s
  | .pfirst w => Sys2Proof.Machine.execPfirst w s
  | .twrow w => Sys2Proof.Machine.execTwrow w s
  | .trcol w => Sys2Proof.Machine.execTrcol w s
  | .tclr w => Sys2Proof.Machine.execTclr w s
  | .vjmp w => Sys2Proof.Machine.execVjmp w s
  | .vbrq w => Sys2Proof.Machine.execVbrq w s
  | .vbrp w => Sys2Proof.Machine.execVbrp w s
  | .mma w => Sys2Proof.Machine.execMma w s
  | .mzero w => Sys2Proof.Machine.execMzero w s
  | .mfill w => Sys2Proof.Machine.execMfill w s
  | .mdrain w => Sys2Proof.Machine.execMdrain w s
  | .madd w => Sys2Proof.Machine.execMadd w s
  | .mscale w => Sys2Proof.Machine.execMscale w s
  | .mcopy w => Sys2Proof.Machine.execMcopy w s
  | .mcfg w => Sys2Proof.Machine.execMcfg w s
  | .mstat w => Sys2Proof.Machine.execMstat w s
  | .mwait w => Sys2Proof.Machine.execMwait w s
  | .mtok w => Sys2Proof.Machine.execMtok w s
  | .mbar w => Sys2Proof.Machine.execMbar w s
  | .mjmp w => Sys2Proof.Machine.execMjmp w s
  | .mbrq w => Sys2Proof.Machine.execMbrq w s
  | .vectorResultLanding l c2 n => Sys2Proof.Machine.execVectorResultLanding l c2 n s
  | .lockstepRendezvous l => Sys2Proof.Machine.execLockstepRendezvous l s
  | .matrixWordStart l n => Sys2Proof.Machine.execMatrixWordStart l n s
  | .matrixWordRetirement l n => Sys2Proof.Machine.execMatrixWordRetirement l n s
  | .barrierRequestAtHome n => Sys2Proof.Machine.execBarrierRequestAtHome n s
  | .barrierPhaseReply n => Sys2Proof.Machine.execBarrierPhaseReply n s
  | .barwaitRepoll l c3 => Sys2Proof.Machine.execBarwaitRepoll l c3 s
  | .streamStart l n => Sys2Proof.Machine.execStreamStart l n s
  | .streamSlotCommit l n => Sys2Proof.Machine.execStreamSlotCommit l n s
  | .bindOffCommit l n => Sys2Proof.Machine.execBindOffCommit l n s
  | .streamSlotDrain l n => Sys2Proof.Machine.execStreamSlotDrain l n s
  | .remoteSlotTransfer l n => Sys2Proof.Machine.execRemoteSlotTransfer l n s
  | .pageWalk a => Sys2Proof.Machine.execPageWalk a s
  | .faultRecordWrite a => Sys2Proof.Machine.execFaultRecordWrite a s
  | .retry seq => Sys2Proof.Machine.execRetry seq s
  | .killResponse seq cause => Sys2Proof.Machine.execKillResponse seq cause s
  | .shootdown asid va => Sys2Proof.Machine.execShootdown asid va s
  | .asidRetirement => Sys2Proof.Machine.execAsidRetirement s
  | .copyTransferStart l => Sys2Proof.Machine.execCopyTransferStart l s
  | .copyTransferComplete l => Sys2Proof.Machine.execCopyTransferComplete l s
  | .refreshWindowStart => Sys2Proof.Machine.execRefreshWindowStart s
  | .refreshWindowEnd => Sys2Proof.Machine.execRefreshWindowEnd s
  | .accessPerform n => Sys2Proof.Machine.execAccessPerform n s
  | .acknowledgement l => Sys2Proof.Machine.execAcknowledgement l s
  | .hotListWrite stack => Sys2Proof.Machine.execHotListWrite stack s
  | .admission => Sys2Proof.Machine.execAdmission s
  | .rootRecordPush lid => Sys2Proof.Machine.execRootRecordPush lid s
  | .gangAdmission => Sys2Proof.Machine.execGangAdmission s
  | .completionEntryWrite => Sys2Proof.Machine.execCompletionEntryWrite s
  | .recordExamine l => Sys2Proof.Machine.execRecordExamine l s
  | .recordSelection l => Sys2Proof.Machine.execRecordSelection l s
  | .recordRetirement l => Sys2Proof.Machine.execRecordRetirement l s
  | .continuationPush l => Sys2Proof.Machine.execContinuationPush l s
  | .detectorCopyUpdate => Sys2Proof.Machine.execDetectorCopyUpdate s
  | .watchWake l n => Sys2Proof.Machine.execWatchWake l n s
  | .replanEvent lid => Sys2Proof.Machine.execReplanEvent lid s
  | .launchEnd lid => Sys2Proof.Machine.execLaunchEnd lid s
  | .taskKill => Sys2Proof.Machine.execTaskKill s
  | .preemptionStop l => Sys2Proof.Machine.execPreemptionStop l s
  | .handlerStopLimit l => Sys2Proof.Machine.execHandlerStopLimit l s
  | .contextSave l => Sys2Proof.Machine.execContextSave l s
  | .contextRestore l => Sys2Proof.Machine.execContextRestore l s
  | .trapEntry l => Sys2Proof.Machine.execTrapEntry l s
  | .watchdog l => Sys2Proof.Machine.execWatchdog l s
  | .hpcC3Write l => Sys2Proof.Machine.execHpcC3Write l s
  | .clsClear l => Sys2Proof.Machine.execClsClear l s
  | .registerWrite r v => Sys2Proof.Machine.execRegisterWrite r v s
  | .activate ch => Sys2Proof.Machine.execActivate ch s
  | .precharge ch => Sys2Proof.Machine.execPrecharge ch s
  | .read off n => Sys2Proof.Machine.execRead off n s
  | .write off bytes => Sys2Proof.Machine.execWrite off bytes s
  | .writeWithByteMask off bytes => Sys2Proof.Machine.execWriteWithByteMask off bytes s
  | .refresh ch => Sys2Proof.Machine.execRefresh ch s
  | .selfRefresh ch => Sys2Proof.Machine.execSelfRefresh ch s
  | .powerDownEntry ch => Sys2Proof.Machine.execPowerDownEntry ch s
  | .powerDownExit ch => Sys2Proof.Machine.execPowerDownExit ch s
  | .modeRegisterRead ch r => Sys2Proof.Machine.execModeRegisterRead ch r s
  | .modeRegisterWrite ch r v => Sys2Proof.Machine.execModeRegisterWrite ch r v s
  | .trainingSequence ch => Sys2Proof.Machine.execTrainingSequence ch s
  | .lqTailWrite v => Sys2Proof.Machine.execLqTailWrite v s
  | .cqHeadWrite v => Sys2Proof.Machine.execCqHeadWrite v s
  | .sqTailWrite v => Sys2Proof.Machine.execSqTailWrite v s
  | .srHeadWrite v => Sys2Proof.Machine.execSrHeadWrite v s
  | .kill => Sys2Proof.Machine.execKill s
  | .bind => Sys2Proof.Machine.execBind s
  | .start => Sys2Proof.Machine.execStart s
  | .stop => Sys2Proof.Machine.execStop s
  | .tagset => Sys2Proof.Machine.execTagset s
  | .epread => Sys2Proof.Machine.execEpread s
  | .mapout => Sys2Proof.Machine.execMapout s
  | .restart => Sys2Proof.Machine.execRestart s
  | .attest => Sys2Proof.Machine.execAttest s
  | .idkey => Sys2Proof.Machine.execIdkey s
  | .dread => Sys2Proof.Machine.execDread s
  | .ovfset => Sys2Proof.Machine.execOvfset s
  | .partitionCreate p cores asids => Sys2Proof.Machine.execPartitionCreate p cores asids s
  | .partitionHalt p => Sys2Proof.Machine.execPartitionHalt p s
  | .partitionSave p => Sys2Proof.Machine.execPartitionSave p s
  | .partitionRestore p => Sys2Proof.Machine.execPartitionRestore p s
  | .partitionDestroy p => Sys2Proof.Machine.execPartitionDestroy p s
  | .episodeCoreInstruction n => Sys2Proof.Machine.execEpisodeCoreInstruction n s
  | .actTake x => Sys2Proof.Machine.execActTake x s
  | .obsBell x => Sys2Proof.Machine.execObsBell x s
  | .rewBell x => Sys2Proof.Machine.execRewBell x s
  | .actionExamination x => Sys2Proof.Machine.execActionExamination x s
  | .stepWatchdog x => Sys2Proof.Machine.execStepWatchdog x s
  | .episodeBudget x => Sys2Proof.Machine.execEpisodeBudget x s
  | .contextException x => Sys2Proof.Machine.execContextException x s
  | .suspendedContextEnd x => Sys2Proof.Machine.execSuspendedContextEnd x s
  | .scrub x => Sys2Proof.Machine.execScrub x s
  | .contextSwitch n => Sys2Proof.Machine.execContextSwitch n s
  | .flitReceive port f => Sys2Proof.Machine.execFlitReceive port f s
  | .flitRetransmit port => Sys2Proof.Machine.execFlitRetransmit port s
  | .portTraining port routes => Sys2Proof.Machine.execPortTraining port routes s
  | .portRemoval port => Sys2Proof.Machine.execPortRemoval port s
  | .deviceReset => Sys2Proof.Machine.execDeviceReset s
  | .bootLenWrite v => Sys2Proof.Machine.execBootLenWrite v s
  | .imageVerification => Sys2Proof.Machine.execImageVerification s
  | .vacancyMapWrite map => Sys2Proof.Machine.execVacancyMapWrite map s
  | .freeze => Sys2Proof.Machine.execFreeze s
  | .freezeAtTick => Sys2Proof.Machine.execFreezeAtTick s
  | .bypass => Sys2Proof.Machine.execBypass s
  | .idcode => Sys2Proof.Machine.execIdcode s
  | .samplePreload => Sys2Proof.Machine.execSamplePreload s
  | .extest => Sys2Proof.Machine.execExtest s
  | .fastScanRead a => Sys2Proof.Machine.execFastScanRead a s
  | .sensorTrip n => Sys2Proof.Machine.execSensorTrip n s
  | .taghistClear die => Sys2Proof.Machine.execTaghistClear die s
  | .dutySet d watts => Sys2Proof.Machine.execDutySet d watts s
  | .blockGating b => Sys2Proof.Machine.execBlockGating b s
  | .gatingTimeout b => Sys2Proof.Machine.execGatingTimeout b s
  | .blockPowerUp b => Sys2Proof.Machine.execBlockPowerUp b s
  | .traceSample => Sys2Proof.Machine.execTraceSample s
  | .resetRelease => Sys2Proof.Machine.execResetRelease s
  | .serviceCoreInstruction a => Sys2Proof.Machine.execServiceCoreInstruction a s

end Sys2Proof.Machine
end

