-- ==== Sys2Proof/Machine/Step.lean ====
section
/-! DEFINITION. One step of the device: the next move of the schedule. An engine's try fetches the word at its program counter,
decodes it and runs it; an event runs; or the tick advances. -/

namespace Sys2Proof.Machine

/-- An engine tries the word at its head. -/
def stepWord (s : State) (l : Nat) (e : Eng) : Host.Outcome State Fault Refusal :=
  if canTry s l e then
    match fetch (beginTry s l e) l e with
    | .outside => .next (illegal (beginTry s l e))
    | .wait t => .next (fetchPending t)
    | .word w t =>
      match decodeFetched e w with
      | none => .next (illegal (withWord t w))
      | some i => exec i (withWord t w)
  else .next s

/-- One move (DESIGN CHOICE: notes/assumptions/2.md). -/
def stepMove (m : Move) (s : State) : Host.Outcome State Fault Refusal :=
  match m with
  | .issue l e => stepWord s l.toNat e
  | .event i => if eventOk s i then exec i s else .next s
  | m => .next (otherMove m s)

/-- One step: the head of the schedule, or the default move of an empty one (DESIGN CHOICE: notes/assumptions/72.md). -/
def step (s : State) : Host.Outcome State Fault Refusal :=
  match s.tape with
  | m :: rest => stepMove m { s with tape := rest, nonce := s.nonce + 1 }
  | [] => if s.frozen then .fault .frozen else defaultStep (fun l e s => stepWord s l e) { s with nonce := s.nonce + 1 }

/-- The device with an instruction's word placed where the next step fetches. -/
def State.withFetchWord (s : State) (nbits w : Nat) : State := placeWord s nbits w

end Sys2Proof.Machine
end

