-- ==== Sys2Proof/Safety.lean ====
section
/-! DEFINITION. What claims are said in: the invariant that every step keeps, when a word has its effect, and what it leaves
alone. -/

namespace Sys2Proof.Safety

open Sys2Proof.Machine

/-- The memory is in its canonical form: addresses strictly rising, no cell equal to what an unlisted address reads as. -/
def MemOk (s : State) : Prop := Memory.wf s.mem = true

/-! ### What a scalar word needs and what it leaves alone -/

/-- When a scalar word has its effect: its engine is one of those that may run it and holds its registers (R121, R123), the
mode allows it, C0 has met the other members after a stop (R157), its registers are available (R128), its guard is 1 (R122), and in a lockstep region every member has come as
far as the word needs and the word may issue (R154, R156). -/
structure Goes (engs : List Eng) (k : Guard) (regs : List Reg) (hOk xw : Bool) (s : State) : Prop where
  engine : s.current.eng ∈ engs
  file : s.current.eng = .c0 → ∀ r ∈ regs, r.toNat < 16
  mode : (cx s s.current.core).handlerMode = true → hOk = true
  met : mustMeet s s.current.core s.current.eng = false
  ready : ∀ r ∈ regs, regPending s s.current.core s.current.eng r = false
  guard : rk s s.current.core s.current.eng k.toNat = true
  turn : s.current.eng = .c0 → c0InRegion s s.current.core = true →
    (xw = true → allReached s s.current.core (getEng s s.current.core .c0).pos = true) ∧ mayIssueS s s.current.core .c0 = true

/-- An engine without what a retiring word may touch: its program counter and its place in a region. -/
def calm (t : EngSt) : EngSt := { t with pc := 0, pos := 0, ready := false, granted := false, rejoin := false }

/-- A core without what every retiring scalar word may touch: the scalar registers and predicates, program counters and
loop levels, which a statement gives one by one; and the place of a cluster in its region, the mark that a cluster has issued
(R249), the classifier's note of the heads (R487), and the model's own note of the tick in progress. -/
def stripped (c : Core) : Core :=
  { c with
    heads := []
    tk := TickNote.none
    x := { c.x with
      apRegs := Vector.replicate 32 0, eRegs := Vector.replicate 16 0
      kap := Vector.replicate 8 false, kc0 := Vector.replicate 8 false
      loops := Vector.replicate 2 (0, 0, 0, false)
      engs := c.x.engs.map calm
      run := c.x.run.map fun r => { r with epIssued := true } } }

/-- A state with one core stripped. -/
def bare (l : Nat) (s : State) : State := modCore s l stripped

/-- The next word of an engine, or what the loop ends of R193 name on the AP in user mode. -/
def nextPc (s : State) (l : Nat) (e : Eng) : Word :=
  if e = .ap ∧ (cx s l).handlerMode = false then (loopEnd (cx s l) (getPc s l .ap) 2).2 else getPc s l e + 4

/-- The loop levels once the word at the program counter has retired (R193). -/
def nextLevels (s : State) (l : Nat) (e : Eng) : Vector (Word × BitVec 32 × BitVec 11 × Bool) 2 :=
  if e = .ap ∧ (cx s l).handlerMode = false then (loopEnd (cx s l) (getPc s l .ap) 2).1.loops else (cx s l).loops

/-- The loop levels once a branch to an address has been taken (R194). -/
def branchLevels (s : State) (l : Nat) (e : Eng) (a : Word) : Vector (Word × BitVec 32 × BitVec 11 × Bool) 2 :=
  if e = .ap ∧ (cx s l).handlerMode = false then (loopLeave (cx s l) a 2).loops else (cx s l).loops

/-- `t` is `u` with the scalar registers, predicates, program counter and loop levels named, and all else as it stood: the
frame of a scalar word. -/
structure After (u t : State) (l : Nat) (e : Eng) (regs : Reg → Word) (preds : Nat → Bool) (pc : Word)
    (lv : Vector (Word × BitVec 32 × BitVec 11 × Bool) 2) : Prop where
  reg : ∀ r, rreg t l e r = regs r
  pred : ∀ k, rk t l e k = preds k
  other : ∀ m, (m = .ap ∨ m = .c0) → m ≠ e → (∀ r, rreg t l m r = rreg u l m r) ∧ ∀ k, rk t l m k = rk u l m k
  next : getPc t l e = pc
  pcs : ∀ m, m ≠ e → getPc t l m = getPc u l m
  levels : (cx t l).loops = lv
  bytes : ∀ a, readByte t a = readByte u a
  rest : bare l t = bare l u

/-- The scalar registers of an engine with `d` holding `v`; g0 of the AP discards it (R169). -/
def withReg (s : State) (l : Nat) (e : Eng) (d : Reg) (v : Word) (r : Reg) : Word :=
  if r = d ∧ ¬(e = .ap ∧ d = 0) then v else rreg s l e r

/-- The predicates of an engine with `d` holding `v`; k0 discards it (R169). -/
def withPred (s : State) (l : Nat) (e : Eng) (d : Reg) (v : Bool) (k : Nat) : Bool :=
  if k = d.toNat ∧ d ≠ 0 then v else rk s l e k

/-- A word that has written one register, or discarded what it would write to g0, and goes on to the next word. -/
def WroteReg (s t : State) (d : Reg) (v : Word) : Prop :=
  let l := s.current.core
  let e := s.current.eng
  After s t l e (withReg s l e d v) (rk s l e) (nextPc s l e) (nextLevels s l e)

/-- A word that has acted on the rest of the state as `u` shows and goes on to the next word. -/
def Acted (s u t : State) : Prop :=
  let l := s.current.core
  let e := s.current.eng
  After u t l e (rreg u l e) (rk u l e) (nextPc u l e) (nextLevels u l e)

end Sys2Proof.Safety
end

