-- ==== Sys2Proof/Certificates/Slice0/Obligations.lean ====
section
/-! DEFINITION. The statements for the provers, and the words they are said in. -/

namespace Sys2Proof.Claims

open Sys2Proof.Machine Sys2Proof.Safety

/-! ### Arithmetic (R169 to R175) -/

/-- The greatest w of R172: the requested width, or what is left above the position. -/
def fieldW (b : Word) : Nat := min (b.toNat / 256 % 128) (64 - b.toNat % 64)

/-- What a word of two register operands writes to D, by the tables of R170 and R171. -/
def aluResult : Instr → Option (Guard × Reg × Reg × Reg × (Word → Word → Word))
  | .add k d a b => some (k, d, a, b, fun a b => BitVec.ofNat 64 (a.toNat + b.toNat))
  | .sub k d a b => some (k, d, a, b, fun a b => BitVec.ofInt 64 (a.toInt - b.toInt))
  | .and k d a b => some (k, d, a, b, fun a b => a &&& b)
  | .or k d a b => some (k, d, a, b, fun a b => a ||| b)
  | .xor k d a b => some (k, d, a, b, fun a b => a ^^^ b)
  | .andn k d a b => some (k, d, a, b, fun a b => a &&& ~~~b)
  | .shl k d a b => some (k, d, a, b, fun a b => BitVec.ofNat 64 (a.toNat * 2 ^ (b.toNat % 64)))
  | .shr k d a b => some (k, d, a, b, fun a b => BitVec.ofNat 64 (a.toNat / 2 ^ (b.toNat % 64)))
  | .sra k d a b => some (k, d, a, b, fun a b => BitVec.ofInt 64 (a.toInt / 2 ^ (b.toNat % 64)))
  | .min k d a b => some (k, d, a, b, fun a b => BitVec.ofInt 64 (Min.min a.toInt b.toInt))
  | .max k d a b => some (k, d, a, b, fun a b => BitVec.ofInt 64 (Max.max a.toInt b.toInt))
  | .minu k d a b => some (k, d, a, b, fun a b => BitVec.ofNat 64 (Min.min a.toNat b.toNat))
  | .maxu k d a b => some (k, d, a, b, fun a b => BitVec.ofNat 64 (Max.max a.toNat b.toNat))
  | .slt k d a b => some (k, d, a, b, fun a b => if a.toInt < b.toInt then 1 else 0)
  | .sltu k d a b => some (k, d, a, b, fun a b => if a.toNat < b.toNat then 1 else 0)
  | .seq k d a b => some (k, d, a, b, fun a b => if a = b then 1 else 0)
  | .mul k d a b => some (k, d, a, b, fun a b => BitVec.ofInt 64 (a.toInt * b.toInt))
  | .mulh k d a b => some (k, d, a, b, fun a b => BitVec.ofInt 64 (a.toInt * b.toInt / 2 ^ 64))
  | .mulhu k d a b => some (k, d, a, b, fun a b => BitVec.ofNat 64 (a.toNat * b.toNat / 2 ^ 64))
  | .div k d a b => some (k, d, a, b, fun a b => if b = 0 then BitVec.ofInt 64 (-1) else BitVec.ofInt 64 (a.toInt.tdiv b.toInt))
  | .divu k d a b => some (k, d, a, b, fun a b => if b = 0 then BitVec.ofNat 64 (2 ^ 64 - 1) else BitVec.ofNat 64 (a.toNat / b.toNat))
  | .rem k d a b => some (k, d, a, b, fun a b =>
      if b = 0 then a else BitVec.ofInt 64 (a.toInt - b.toInt * a.toInt.tdiv b.toInt))
  | .remu k d a b => some (k, d, a, b, fun a b => if b = 0 then a else BitVec.ofNat 64 (a.toNat % b.toNat))
  | _ => none

/-- What a word of one register operand and perhaps an immediate writes to D, by the tables of R170 and R173. -/
def aluUnResult : Instr → Option (Guard × Reg × Reg × (Word → Word))
  | .clz k d a => some (k, d, a, fun a => BitVec.ofNat 64 ((List.range 64).reverse.takeWhile fun i => !a.getLsbD i).length)
  | .ctz k d a => some (k, d, a, fun a => BitVec.ofNat 64 ((List.range 64).takeWhile fun i => !a.getLsbD i).length)
  | .popc k d a => some (k, d, a, fun a => BitVec.ofNat 64 ((List.range 64).filter a.getLsbD).length)
  | .addi k d a imm => some (k, d, a, fun a => BitVec.ofInt 64 (a.toInt + imm.toInt))
  | .andi k d a imm => some (k, d, a, fun a => a &&& BitVec.ofInt 64 imm.toInt)
  | .ori k d a imm => some (k, d, a, fun a => a ||| BitVec.ofInt 64 imm.toInt)
  | .xori k d a imm => some (k, d, a, fun a => a ^^^ BitVec.ofInt 64 imm.toInt)
  | .shli k d a n => some (k, d, a, fun a => BitVec.ofNat 64 (a.toNat * 2 ^ n.toNat))
  | .shri k d a n => some (k, d, a, fun a => BitVec.ofNat 64 (a.toNat / 2 ^ n.toNat))
  | .srai k d a n => some (k, d, a, fun a => BitVec.ofInt 64 (a.toInt / 2 ^ n.toNat))
  | .slti k d a imm => some (k, d, a, fun a => if a.toInt < imm.toInt then 1 else 0)
  | _ => none

/-- What a word without register operands writes to D: LUI, ADDPC (R174), TICK (R209) and CSRR (R203). -/
def constResult : Instr → Option (Guard × Reg × (State → Nat → Eng → Word))
  | .lui k d imm => some (k, d, fun _ _ _ => BitVec.ofInt 64 (imm.toInt * 2 ^ 12))
  | .addpc k d imm => some (k, d, fun s l e => getPc s l e + BitVec.ofInt 64 (imm.toInt * 2 ^ 12))
  | .tick k d => some (k, d, fun s _ _ => s.tick)
  | .csrr k d n => some (k, d, fun s l _ => csrRead s l n.toNat)
  | _ => none

/-- Whether CONV_RMW and CONV_ACF hold the counts and flags of every earlier access of the AP, where the AP names one of them: R128 has a
later word wait for them. -/
def FlagsKnown (s : State) (l : Nat) (e : Eng) (n : Nat) : Prop :=
  n = 0x042 ∨ n = 0x043 → e = .ap → (∀ q ∈ (getCore s l).apq, accKind q.kind = none) ∧
    ∀ t ∈ s.transit, t.core = l → t.eng = .ap → t.performed = true

/-- What a word of the predicate group writes to kD (R175): the engine's own registers and predicates are read. -/
def predResult : Instr → Option (Guard × Reg × List Reg × (State → Nat → Eng → Bool))
  | .kcmpEq k d a b => some (k, d, [a, b], fun s l e => decide (rreg s l e a = rreg s l e b))
  | .kcmpNe k d a b => some (k, d, [a, b], fun s l e => decide (rreg s l e a ≠ rreg s l e b))
  | .kcmpLt k d a b => some (k, d, [a, b], fun s l e => decide ((rreg s l e a).toInt < (rreg s l e b).toInt))
  | .kcmpGe k d a b => some (k, d, [a, b], fun s l e => decide ((rreg s l e b).toInt ≤ (rreg s l e a).toInt))
  | .kcmpLtu k d a b => some (k, d, [a, b], fun s l e => decide ((rreg s l e a).toNat < (rreg s l e b).toNat))
  | .kcmpGeu k d a b => some (k, d, [a, b], fun s l e => decide ((rreg s l e b).toNat ≤ (rreg s l e a).toNat))
  | .kand k d a b => some (k, d, [], fun s l e => rk s l e a.toNat && rk s l e b.toNat)
  | .kor k d a b => some (k, d, [], fun s l e => rk s l e a.toNat || rk s l e b.toNat)
  | .knot k d a => some (k, d, [], fun s l e => !rk s l e a.toNat)
  | _ => none

/-! ### Branches, jumps, loops and queues (R189 to R202, R217 to R220) -/

/-- The condition of a branch word and its offset in words (R189, R190). -/
def branchOf : Instr → Option (Guard × List Reg × Word × (State → Nat → Eng → Bool))
  | .b k off => some (k, [], off.signExtend 64, fun _ _ _ => true)
  | .bk k off => some (0, [], off.signExtend 64, fun s l e => !rk s l e k.toNat)
  | .bccEq k d a imm => some (k, [d, a], imm.signExtend 64, fun s l e => decide (rreg s l e d = rreg s l e a))
  | .bccNe k d a imm => some (k, [d, a], imm.signExtend 64, fun s l e => decide (rreg s l e d ≠ rreg s l e a))
  | .bccLt k d a imm => some (k, [d, a], imm.signExtend 64, fun s l e => decide ((rreg s l e d).toInt < (rreg s l e a).toInt))
  | .bccGe k d a imm => some (k, [d, a], imm.signExtend 64, fun s l e => decide ((rreg s l e a).toInt ≤ (rreg s l e d).toInt))
  | .bccLtu k d a imm => some (k, [d, a], imm.signExtend 64, fun s l e => decide ((rreg s l e d).toNat < (rreg s l e a).toNat))
  | .bccGeu k d a imm => some (k, [d, a], imm.signExtend 64, fun s l e => decide ((rreg s l e a).toNat ≤ (rreg s l e d).toNat))
  | _ => none

/-- The link and target of a jump word (R189): JALR takes its target from A as it was. -/
def jumpOf : Instr → Option (Guard × Reg × List Reg × (State → Nat → Eng → Word))
  | .jal k d imm => some (k, d, [], fun s l e => getPc s l e + 4 * imm.signExtend 64)
  | .jalr k d a imm => some (k, d, [a], fun s l e => (rreg s l e a + imm.signExtend 64) &&& ~~~3#64)
  | _ => none

/-- A word that leaves for an address, with the registers named, on a state that it has acted on as `u` shows. -/
def Left (s u t : State) (regs : Reg → Word) (a : Word) : Prop :=
  let l := s.current.core
  let e := s.current.eng
  After u t l e regs (rk u l e) a (branchLevels u l e a)

/-- Whether a LOOP word is illegal where it stands (R192, R195). -/
def LoopStops (s : State) : Prop :=
  let x := cx s s.current.core
  let lv (i : Nat) : Word × BitVec 32 × BitVec 11 × Bool := vget (0, 0, 0, false) x.loops i
  (lv 1).2.2.2 = true ∨ x.handlerMode = true ∨
    ((lv 0).2.2.2 = true ∧ getPc s s.current.core .ap = (lv 0).1 + 4 * (BitVec.ofNat 64 (lv 0).2.2.1.toNat - 1))

/-- The state with one branch-outcome queue replaced. -/
def withBoq (s : State) (l p c : Nat) (q : List (Bool × Nat)) : State :=
  modX s l fun x => { x with boq := tset x.boq (8 * p + c) q }

/-- Whether an engine has a branch-outcome queue with an engine code (R197): the AP with C0 to C3, each of them with the AP. -/
def boqPeer (e : Eng) (d : Reg) : Prop := if e = .ap then 2 ≤ d.toNat ∧ d.toNat ≤ 5 else d.toNat = 1

/-- The token FIFOs that serve between two engines: in handler mode those between the AP, C0 and C3 (R141, R438). -/
def fifos (s : State) (l p c : Nat) : Tab Nat × Tab Nat :=
  let x := cx s l
  if x.handlerMode = true ∧ (p = 1 ∨ p = 2 ∨ p = 5) ∧ (c = 1 ∨ c = 2 ∨ c = 5) then (x.han.fifo, x.han.reserved)
  else (x.fifo, x.fifoRes)

/-- Tokens in a FIFO, and its entries that words in flight have reserved. -/
def tokens (s : State) (l p c : Nat) : Nat × Nat :=
  (tget 0 (fifos s l p c).1 (8 * p + c), tget 0 (fifos s l p c).2 (8 * p + c))

/-- The state with the tokens of one FIFO set. -/
def withTokens (s : State) (l p c n : Nat) : State :=
  modX s l fun x =>
    if x.handlerMode = true ∧ (p = 1 ∨ p = 2 ∨ p = 5) ∧ (c = 1 ∨ c = 2 ∨ c = 5) then
      { x with han := { x.han with fifo := tset x.han.fifo (8 * p + c) n } }
    else { x with fifo := tset x.fifo (8 * p + c) n }

/-- LoopClose on a cluster without rotating registers (R159): LC counts down to 0, then EC. -/
def loopClosed (s : State) (l : Nat) (e : Eng) : State :=
  modEng s l e fun t =>
    if t.lc ≠ 0 then { t with lc := t.lc - 1 } else if t.ec ≠ 0 then { t with ec := t.ec - 1 } else t

/-- The state in which a mask and an ease of some buffers wait for the next rendezvous (R153). -/
def asked (s : State) (l : Nat) (mask : Option (BitVec 4)) (bufs : List Nat) (n : BitVec 8) : State :=
  modX s l fun x =>
    { x with maskNext := if mask.isSome then mask else x.maskNext
             easeNext := bufs.foldl (fun v i => vset v i (some n)) x.easeNext }

/-- The state in which a mask and an ease of some buffers have taken effect, in the place of what waited for the same (R153). -/
def granted (s : State) (l : Nat) (mask : Option (BitVec 4)) (bufs : List Nat) (n : BitVec 8) : State :=
  modX s l fun x =>
    { x with mask := mask.getD x.mask
             maskNext := if mask.isSome then none else x.maskNext
             ease := bufs.foldl (fun v i => vset v i n) x.ease
             easeNext := bufs.foldl (fun v i => vset v i none) x.easeNext }

/-- Whether members of the sync group other than C0 are in a region. -/
def OthersIn (s : State) (l : Nat) : Prop := ∃ e ∈ regionMembers s l, e ≠ .c0

/-- The state whose C0 has left its region, if no other member is in it (R153). -/
def c0Out (s : State) (l : Nat) : State :=
  if (regionMembers s l).any (· != .c0) then s else modEng s l .c0 fun t => { t with inRegion := false, pos := 0 }

/-- The state in which what was asked for has taken effect (R153). -/
def installed (s : State) (l : Nat) : State :=
  modX s l fun x =>
    { x with mask := x.maskNext.getD x.mask
             maskNext := none
             ease := (List.range 5).foldl (fun v i => vset v i ((vget none x.easeNext i).getD (vget 0 x.ease i))) x.ease
             easeNext := Vector.replicate 5 none }

/-- The state after a SYNCG or EASE has asked: what it asks takes effect at once unless other members are in a region (R153). -/
def askedNow (s : State) (l : Nat) (mask : Option (BitVec 4)) (bufs : List Nat) (n : BitVec 8) : State :=
  if (regionMembers s l).any (· != .c0) then asked s l mask bufs n else granted s l mask bufs n

/-- The buffers whose ease a SYNCG sets (R217). -/
def syncBufs (mask : BitVec 4) : List Nat :=
  ((List.range 4).filter fun i => mask.getLsbD i) ++ (if mask.getLsbD 3 then [4] else [])

/-! ### Memory words of the AP (R176 to R188, R357 to R361) -/

/-- What a memory word asks for: its guard, the registers it names, its kind, effective address, width, data and destination. -/
structure MemW where
  k : Guard
  regs : List Reg
  kind : State → Nat → QKind
  ea : State → Nat → Word
  n : Nat
  data : State → Nat → Word
  dst : Reg

/-- The memory words that access memory, by R179 and R184 to R186: the D field of a store names its data, and that of CAS is
compared. -/
def memOf : Instr → Option MemW
  | .ld k d a off sz => some ⟨k, [d, a], fun _ _ => .ld false, fun s l => rreg s l .ap a + off.signExtend 64 * BitVec.ofNat 64 (2 ^ sz.toNat),
      2 ^ sz.toNat, fun _ _ => 0, d⟩
  | .ldu k d a off sz => some ⟨k, [d, a], fun _ _ => .ld true, fun s l => rreg s l .ap a + off.signExtend 64 * BitVec.ofNat 64 (2 ^ sz.toNat),
      2 ^ sz.toNat, fun _ _ => 0, d⟩
  | .st k d a off sz => some ⟨k, [d, a], fun _ _ => .st, fun s l => rreg s l .ap a + off.signExtend 64 * BitVec.ofNat 64 (2 ^ sz.toNat),
      2 ^ sz.toNat, fun s l => rreg s l .ap d, 0⟩
  | .ldx k d a b zx sz => some ⟨k, [d, a, b], fun _ _ => .ld zx, fun s l => rreg s l .ap a + rreg s l .ap b * BitVec.ofNat 64 (2 ^ sz.toNat),
      2 ^ sz.toNat, fun _ _ => 0, d⟩
  | .stx k d a b sz => some ⟨k, [d, a, b], fun _ _ => .st, fun s l => rreg s l .ap a + rreg s l .ap b * BitVec.ofNat 64 (2 ^ sz.toNat),
      2 ^ sz.toNat, fun s l => rreg s l .ap d, 0⟩
  | .lda k d a sc zx sz => some ⟨k, [d, a], fun _ _ => .lda sc.toNat zx, fun s l => rreg s l .ap a, 2 ^ sz.toNat, fun _ _ => 0, d⟩
  | .stl k d a sc sz => some ⟨k, [d, a], fun _ _ => .stl sc.toNat, fun s l => rreg s l .ap a, 2 ^ sz.toNat, fun s l => rreg s l .ap d, 0⟩
  | .amoW k d a b sc fn => some ⟨k, [d, a, b], fun _ _ => .amo sc.toNat fn.toNat, fun s l => rreg s l .ap a, 4, fun s l => rreg s l .ap b, d⟩
  | .amoD k d a b sc fn => some ⟨k, [d, a, b], fun _ _ => .amo sc.toNat fn.toNat, fun s l => rreg s l .ap a, 8, fun s l => rreg s l .ap b, d⟩
  | .cas k d a b sc wide => some ⟨k, [d, a, b], fun s l => .cas sc.toNat (rreg s l .ap d), fun s l => rreg s l .ap a,
      if wide then 8 else 4, fun s l => rreg s l .ap b, d⟩
  | _ => none

/-- The value an AMO writes, at its width (R185). -/
def amoValue (w fn : Nat) (old b : BitVec w) : BitVec w :=
  match fn with
  | 0 => old + b
  | 1 => old &&& b
  | 2 => old ||| b
  | 3 => old ^^^ b
  | 4 => if b.toInt < old.toInt then b else old
  | 5 => if old.toInt < b.toInt then b else old
  | 6 => if b.toNat < old.toNat then b else old
  | 7 => if old.toNat < b.toNat then b else old
  | _ => b

/-- What an access of `n` bytes that finds `old` gives its register (R179, R184 to R186). -/
def gives (k : QKind) (n old : Nat) : Option Word :=
  match k with
  | .ld zx | .lda _ zx => some (if zx then (BitVec.ofNat (8 * n) old).setWidth 64 else (BitVec.ofNat (8 * n) old).signExtend 64)
  | .amo _ _ | .cas _ _ => some ((BitVec.ofNat (8 * n) old).signExtend 64)
  | _ => none

/-- What an access of `n` bytes that finds `old` writes; none where it writes nothing. -/
def puts (k : QKind) (n old : Nat) (data : Word) : Option Nat :=
  match k with
  | .st | .stl _ => some (data.toNat % 2 ^ (8 * n))
  | .amo _ fn => some (amoValue (8 * n) fn (BitVec.ofNat (8 * n) old) (BitVec.ofNat (8 * n) data.toNat)).toNat
  | .cas _ cmp => if old = cmp.toNat % 2 ^ (8 * n) then some (data.toNat % 2 ^ (8 * n)) else none
  | _ => none

/-- Byte `i` of a little-endian number (R4). -/
def leByte (x i : Nat) : Byte := BitVec.ofNat 8 (x / 256 ^ i)

/-- The AP's queues are empty, no access of the AP is on its way, and accesses depart as they enter. -/
structure Clear (s : State) (l : Nat) : Prop where
  queue : (getCore s l).apq = []
  now' : (getCore s l).defer = false
  fault : (getCore s l).apFlt = .clear
  away : ∀ t ∈ s.transit, t.core = l → t.eng ≠ .ap

/-- At system scope every write of the core off its die is acknowledged (R361). -/
def Acked (s : State) (l : Nat) (k : QKind) : Prop := scopeOf k = some 4 → (getCore s l).ackOut = 0

/-- Whether bytes of the scratchpad meet the barrier region (R65). -/
def InBarrier (s : State) (l off n : Nat) : Prop :=
  (cx s l).baren = true ∧ off < ((cx s l).rgnend + 1) * 4096 ∧ (cx s l).rgnend * 4096 < off + n

/-- The number of the AP's next access counted. -/
def numbered (s : State) (l : Nat) : State := modX s l fun x => { x with nextWord := x.nextWord + 1 }

/-- The state with one access in the AP's empty queues, numbered. -/
def queued (s : State) (l : Nat) (m : MemW) : State :=
  modCore (numbered s l) l fun c => { c with
    apq := [⟨(cx s l).nextWord + 1, m.kind s l, m.ea s l, m.n, m.data s l, m.dst, false, 0, 0, 0⟩] }

/-- The state with the AP's queues empty. -/
def emptied (s : State) (l : Nat) : State := modCore s l fun c => { c with apq := [] }

/-- No other requester has been served by the banks of some bytes of a core on this tick, or waits for them (R61, R62). -/
def Alone (s : State) (l who : Nat) (rs : List (Nat × Nat)) : Prop :=
  ∀ b ∈ banksIn rs, (∀ u ∈ (getCore s l).tk.banks, u.1 = b → u.2 = who) ∧ ∀ q ∈ (getCore s l).bankQ, q.who ≠ who → b ∉ q.banks

/-- The state after an access to `n` bytes of the own scratchpad that writes `v`, or nothing: an aligned one is made whole, a
misaligned one byte by byte (R178). Its banks serve it (R62), and ECC_STAT counts what it reads (R498). -/
def spDone (u : State) (l who off n : Nat) (whole : Bool) (k : AKind) (v : Option Nat) : State :=
  let one (u : State) (o w : Nat) (x : Option Nat) : State :=
    let r := useBanks (readTouch u l k o w) l who [(o, w)]
    match x with
    | some x => writeNat r (spBase l + o) w x
    | none => r
  if whole then one u off n v else forUp n u fun i u => one u (off + i) 1 (v.map fun x => (leByte x i).toNat)

/-- What the bytes of a checked access hold after it: the state, for an access that finds `old` (R115, R116, R119). -/
def worked (s : State) (l : Nat) (ps : List (Trans × Nat × Nat)) (k : QKind) (n : Nat) (data : Word) : State :=
  match puts k n (ofLE ((readParts s ps).1.map (·.b))) data with
  | some v =>
    let w := writeParts s ps ((toLE n v).map fun b => ⟨b, false⟩)
    rmwAdd (convOr w.1 l w.2.1) l w.2.2
  | none => match k with
    | .ld _ | .lda _ _ => convOr s l (readParts s ps).2
    | _ => s

/-- The number that a checked access finds. -/
def found (s : State) (ps : List (Trans × Nat × Nat)) : Nat := ofLE ((readParts s ps).1.map (·.b))

/-- Whether a checked access of a kind meets no poison (R182). -/
def NoPoison (s : State) (ps : List (Trans × Nat × Nat)) (k : QKind) : Prop :=
  match k with
  | .st | .stl _ => ∀ p ∈ ps, mergePsn s p.1 p.2.1 p.2.2 = false
  | _ => ∀ b ∈ (readParts s ps).1, b.psn = false

/-- A part of a misaligned access, from its byte `i` on, that may be made: it is checked as far as its page goes (R178), is homed
on the core's die, where its banks serve it (R62), and meets no poison; on an identity page it is one byte
(notes/assumptions/84.md). `u` is the state in which it is made. -/
structure PartOk (s : State) (l who va key n i : Nat) (k : QKind) (ak : AKind) (ps : List (Trans × Nat × Nat)) (w : Nat) (u : State) : Prop where
  check : ∃ qs tlb, checkVa s (some (dieOf l)) (getCore s l).walkCache (getCore s l).apTlb 64 (cx s l).asid (runLid s l) (va + i)
      (min (n - i) (0x8000 - (va + i) % 0x8000)) key ak = (.ok qs, tlb) ∧
    (if qs.all fun p => gaugeOf p.1.pte == .ident then ps = qs.map (fun p => (p.1, p.2.1, 1)) ∧ w = 1
      else ps = qs ∧ w = min (n - i) (0x8000 - (va + i) % 0x8000)) ∧
    u = useParts (hotParts (touchReads (modCore s l fun c => { c with apTlb := tlb }) ak ps) ps) who ps
  near : partsNear ps (dieOf l) = true
  alone : ∀ r ∈ spOf ps, Alone s r.1 who r.2
  clean : NoPoison u ps k

/-- The parts of a misaligned access one after the other: from a state and what has been read so far to the state after its last
part and all that it has read. Between parts its entry stays in the queue. -/
inductive Made (l va key n : Nat) (k : QKind) (ak : AKind) (data : Word) (e : QEnt) : State → Nat → Nat → State → Nat → Prop
  | last (s : State) (i got : Nat) (ps : List (Trans × Nat × Nat)) (w : Nat) (u : State) :
      PartOk s l (apWho l e.id) va key n i k ak ps w u → i + w = n →
      Made l va key n k ak data e s i got (worked u l ps k w (data >>> (8 * i))) (got + found u ps * 2 ^ (8 * i))
  | more (s : State) (i got : Nat) (ps : List (Trans × Nat × Nat)) (w : Nat) (u t : State) (g : Nat) :
      PartOk s l (apWho l e.id) va key n i k ak ps w u → i + w < n →
      (let h := if owes k then got + found u ps * 2 ^ (8 * i) else 0
       Made l va key n k ak data e
         (modCore (worked u l ps k w (data >>> (8 * i))) l fun c => { c with
           apq := [{ e with sent := i + w, back := if owes k then i + w else 0, got := h }] }) (i + w) h t g) →
      Made l va key n k ak data e s i got t g

/-! ### Control registers, traps and system words (R203 to R216, R435 to R441) -/

/-- The CSRs that user mode may write (R204): those with a field that is not RO and that no rule keeps for handler mode. -/
def UserCsr (n : Nat) : Prop :=
  n ∈ [0x043, 0x090, 0x091, 0x0B0, 0x0B1, 0x0CE, 0x0E0] ∨ (0x080 ≤ n ∧ n ≤ 0x087) ∨ (0x100 ≤ n ∧ n < 0x140)

/-- Whether no handler word of C3 is in flight: TRET and a write that clears HMM wait for that (R441). -/
def C3Quiet (s : State) (l : Nat) : Prop := ∀ f ∈ (getCore s l).c3, f.handler = false

/-- The state whose handler fetch of C3 has stopped (R441). -/
def fetchStopped (s : State) (l : Nat) : State :=
  modX s l fun x => { x with han := { x.han with c3pc := none, start := false } }

/-- The state with a CSR written (R203); a write that clears HMM stops C3's handler fetch. -/
def csrWritten (s : State) (l n : Nat) (v : Word) : State :=
  csrWrite (if n = 0x0C9 ∧ v.getLsbD 1 = false then fetchStopped s l else s) l n v

/-- A core at a bundle boundary on which a trap of an engine can be entered at once: nothing in flight would land or be withdrawn,
and no engine of a lower code can raise one on the same tick (R435, R436). -/
structure Settled (s : State) (l : Nat) (e : Eng) : Prop where
  user : (cx s l).handlerMode = false
  noTrap : (getCore s l).trap = none
  boundary : atBoundary s l (some e) = true
  first : lowestRaiser s l e = true
  vectors : (getCore s l).vfl = []
  matrix : (getCore s l).c3 = []

/-- A core that has taken a trap (R435 steps 3 to 5, R206): the trap CSRs and EPCs hold what the rules say, the AP and C0 stand
at their vectors in handler mode with empty handler FIFOs, and registers and memory keep their values. -/
structure InHandler (s t : State) (l : Nat) (e : Eng) (cause : BitVec 8) (code : BitVec 12) (pc : Word) (word : BitVec 192)
    (epc : Word) : Prop where
  mode : (cx t l).handlerMode = true
  cause : (cx t l).tcause.toNat = cause.toNat + 256 * (e.code % 8) + 4096 * code.toNat
  tpc : (cx t l).tpc = pc
  tword : (cx t l).tword = word
  epcs : ∀ i, i < 5 → vget 0 (cx t l).epc i = if engOf i = e then epc else (vget EngSt.reset (cx s l).engs i).pc
  vectors : getPc t l .ap = (cx s l).tvecAp ∧ getPc t l .c0 = (cx s l).tvecC0
  fifos : (cx t l).han.fifo = [] ∧ (cx t l).han.reserved = []
  regs : ∀ m r, rreg t l m r = rreg s l m r
  preds : ∀ m k, rk t l m k = rk s l m k
  bytes : ∀ a, readByte t a = readByte s a

/-- Whether SPCFG may not install a partition (R216, R66). -/
def SpcfgBad (s : State) (l : Nat) (v : Word) : Prop :=
  let x := cx s l
  let n := v.toNat % 512
  let b := v.getLsbD 9
  2 ^ 10 ≤ v.toNat ∨ 256 < n + b.toNat ∨ (∃ r ∈ x.rings.toList, r.n ≠ 0) ∨ (∃ t ∈ x.streams.toList, t.st ≠ .closed) ∨
    ((∃ w ∈ (getCore s l).waiters, w.registered = true) ∧ x.baren = true ∧ (b = false ∨ n ≠ x.rgnend))

/-- The TLB entries of a core that an invalidation leaves (R213, R422): those of other ASIDs, and of the ASID those whose page
does not contain the address named. -/
def dropped (asid : Option (BitVec 12)) (va : Option Nat) (t : List TlbEnt) : List TlbEnt :=
  t.filter fun e => match asid, va with
    | none, _ => false
    | some a, none => e.asid != a
    | some a, some v => e.asid != a || e.vpn != v / 2 ^ (15 + 11 * e.lvl)

/-- The entries of a walk cache that it leaves. -/
def droppedWalks (asid : Option (BitVec 12)) (va : Option Nat) (t : List WalkEnt) : List WalkEnt :=
  t.filter fun e => match asid, va with
    | none, _ => false
    | some a, none => e.asid != a
    | some a, some v => e.asid != a || e.vpn != v / 2 ^ (15 + 11 * e.lvl)

/-- A core whose every TLB has dropped the entries named. -/
def invalidated (asid : Option (BitVec 12)) (va : Option Nat) (c : Core) : Core :=
  { c with
    apTlb := dropped asid va c.apTlb
    ceTlb := dropped asid va c.ceTlb
    walkCache := droppedWalks asid va c.walkCache
    x := { c.x with streams := c.x.streams.map fun t => { t with tlb := dropped asid va t.tlb } } }

/-! ### Words of the AP that act on the core's objects (R68 to R77, R93 to R101, R228 to R266) -/

/-- What a word of the AP does: its guard and registers, whether handler mode allows it, what it waits for before it looks at
anything, when it is a precise stream-state fault, when else it has its effect, that effect, and the register it writes. -/
structure ActW where
  k : Guard
  regs : List Reg
  user : Bool := false
  ready : State → Nat → Prop := fun _ _ => True
  fault : State → Nat → Prop := fun _ _ => False
  go : State → Nat → Prop := fun _ _ => True
  act : State → Nat → State := fun s _ => s
  out : Option (Reg × (State → Nat → Word)) := none

/-- The word has had its effect and written its register: the frame of a word of the AP, on the state after its effect. -/
def Did (s : State) (w : ActW) (t : State) : Prop :=
  let l := s.current.core
  let u := w.act s l
  After u t l .ap
    (match w.out with
      | some (d, f) => withReg u l .ap d (f s l)
      | none => rreg u l .ap) (rk u l .ap) (nextPc u l .ap) (nextLevels u l .ap)

/-- Every word of a table has its effect when its conditions hold. -/
def AllAct (table : Instr → Option ActW) : Prop :=
  ∀ (i : Instr) (w : ActW), table i = some w → ∀ s : State,
    Goes [.ap] w.k w.regs (!w.user) false s → w.ready s s.current.core → ¬w.fault s s.current.core → w.go s s.current.core →
      ∃ t, exec i s = .next t ∧ Did s w t

/-- `u` is `s` but for a core's notes of the tick in progress: which banks have served, which requests wait for theirs, and which
streams a word has acted on. -/
def Noted (s u : State) (l : Nat) : Prop := ∃ tk q, u = modCore s l fun c => { c with tk := tk, bankQ := q }

/-- Every word of a table is a precise stream-state fault when its condition says so. -/
def AllFault (table : Instr → Option ActW) : Prop :=
  ∀ (i : Instr) (w : ActW), table i = some w → ∀ s : State, s.eccBad = [] → s.eccSoft = [] →
    Goes [.ap] w.k w.regs (!w.user) false s → w.ready s s.current.core → w.fault s s.current.core →
      ∃ u, Noted s u s.current.core ∧ exec i s = .next (streamTrap u)

/-- Whether an object of `n` bytes may lie at an offset (R68, R224): in the private AP region, at a multiple of 64. -/
def ObjAt (s : State) (l : Nat) (v : Word) (n : Nat) : Prop :=
  v.toNat + n ≤ 0x100000 ∧ v.toNat % 64 = 0 ∧ ((cx s l).rgnend + (cx s l).baren.toNat) * 4096 ≤ v.toNat

/-- Whether an object can be read: its banks serve the word (R62), and it holds no poison. -/
def CleanAt (s : State) (l : Nat) (v : Word) (n : Nat) : Prop :=
  Alone s l (apWho l 0) [(v.toNat, n)] ∧ ∀ j, j < n → readPsn s (spBase l + v.toNat + j) = false

/-- The state once a word has read an object: its banks have served, and ECC_STAT counts what it read (R63). -/
def objSeen (s : State) (l : Nat) (v : Word) (n : Nat) : State :=
  spTouch (useBanks s l (apWho l 0) [(v.toNat, n)]) l v.toNat n

/-- No access of the AP is in its queues. -/
def Idle (s : State) (l : Nat) : Prop := (getCore s l).apq = []

/-- The number that an object holds. -/
def objVal (s : State) (l : Nat) (v : Word) (n : Nat) : Nat := readNat s (spBase l + v.toNat) n

/-- DIR of a descriptor fills a ring: a memory-to-ring stream or a gather (R79). -/
def Filling (d : BitVec 1024) : Prop := dDir d = 0 ∨ dDir d = 3

/-- Whether the rings that a stream names are free for it (R75, R94): configured, served by no open stream, and for a ring to
fill, by no pipe; a tee has slots of one size in two rings (R100). -/
def RingsFree (s : State) (l : Nat) (d : BitVec 1024) : Prop :=
  let free (q : Nat) : Prop := (getRing s l q).n ≠ 0 ∧
    ∀ t ∈ (cx s l).streams.toList, t.st ≠ .closed → q ∉ dFills t.desc ∧ q ∉ dDrains t.desc
  (∀ q ∈ dFills d, free q ∧ pipeInto s l q = false) ∧ (∀ q ∈ dDrains d, free q) ∧
    (Filling d → dTeen d = true → (getRing s l (dRing d)).z = (getRing s l (dTee d)).z ∧ dTee d ≠ dRing d)

/-- A stream at the start of a pass (R94): it has been open since then, or since an earlier tick on which it was opened. -/
def reopened (t : Stream) (tick : Nat) (idx : Vector (BitVec 32) 5) : Stream :=
  { t with idx := idx, st := .opened, dcount := 0, started := decide (dTkw t.desc = 0), tkc := 0, ahead := [], far := [], flt := .clear
           openedAt := if t.st = .opened ∨ t.st = .stalled then t.openedAt else tick }

/-- A stream has no slot that it has begun and not committed. -/
def Unbegun (t : Stream) : Prop := t.wrote = none ∧ t.sent = 0

/-- The format entries of the rings that a stream fills (R321). -/
def formatted (s : State) (l : Nat) (d : BitVec 1024) : State :=
  modX s l fun x => { x with mpfmt := (dFills d).foldl (fun v q => vset v q (BitVec.ofNat 4 (dfield d 6 4))) x.mpfmt }

/-- A stream closed (R95): its register keeps its descriptor alone, and an unanswered fault of it is withdrawn. -/
def shut (s : State) (l n : Nat) : State :=
  modStream (withdrawFault s l n) l n fun t => { Stream.reset with desc := t.desc, tlb := t.tlb }

/-- The stream words, by R93 to R101 and R228 to R230. -/
def streamOf : Instr → Option ActW
  | .scfg k n a => some
    { k := k, regs := [a], ready := Idle
      fault := fun s l => ¬ObjAt s l (rreg s l .ap a) 128 ∨ (CleanAt s l (rreg s l .ap a) 128 ∧
        ((getStream s l n.toNat).st ≠ .closed ∨ descOk (BitVec.ofNat 1024 (objVal s l (rreg s l .ap a) 128)) = false))
      go := fun s l => CleanAt s l (rreg s l .ap a) 128
      act := fun s l => modStream (objSeen s l (rreg s l .ap a) 128) l n.toNat fun t =>
        { Stream.reset with desc := BitVec.ofNat 1024 (objVal s l (rreg s l .ap a) 128), tlb := t.tlb } }
  | .sopen k n => some
    { k := k, regs := [], ready := fun s l => dShard (getStream s l n.toNat).desc = 0 ∨ Idle s l
      fault := fun s l => let t := getStream s l n.toNat
        t.st ≠ .closed ∨ descOk t.desc = false ∨ ¬RingsFree s l t.desc ∨ shardOf s l t.desc = none
      act := fun s l => let t := getStream s l n.toNat
        formatted (modStream s l n.toNat fun t =>
          { reopened t (now s) (Vector.replicate 5 0) with shard := (shardOf s l t.desc).getD 0, fltcnt := 0, firstXfer := true }) l t.desc }
  | .sclose k n => some
    { k := k, regs := []
      go := fun s l => Unbegun (getStream s l n.toNat)
      act := fun s l => if (getStream s l n.toNat).st = .closed then s else shut s l n.toNat }
  | .seos k n => some
    { k := k, regs := []
      fault := fun s l => (getStream s l n.toNat).st = .closed ∨ ¬Filling (getStream s l n.toNat).desc
      act := fun s l => modStream s l n.toNat fun t =>
        if t.eosp then t else { t with eosp := true, boPend := decide (t.st = .done) } }
  | .smark k n a => some
    { k := k, regs := [a]
      fault := fun s l => (getRing s l (dRing (getStream s l n.toNat).desc)).n = 0
      act := fun s l =>
        let d := (getStream s l n.toNat).desc
        let lin := (rreg s l .ap a).toNat % 2 ^ 32 * slotCap (dFmt d) ((getRing s l (dRing d)).z * 256)
        modStream s l n.toNat fun t =>
          { t with marker := idxOf d (if endless d then lin else min lin (dTotal d)), markv := true } }
  | .srewind k n => some
    { k := k, regs := []
      fault := fun s l => let t := getStream s l n.toNat
        t.st = .closed ∨ ¬Filling t.desc ∨ t.markv = false ∨ ∃ q ∈ dFills t.desc, (getRing s l q).boff = true
      act := fun s l => modStream s l n.toNat fun t =>
        let u := { reopened t (now s) t.marker with boe := false, boPend := false, doneTok := false }
        if t.st = .stalled then { u with st := .stalled, flt := t.flt } else u }
  | .sstat k n a => some
    { k := k, regs := [a], out := some (a, fun s l => (statusWord (getStream s l n.toNat)).zeroExtend 64) }
  | .ssave k n a => some
    { k := k, regs := [a], ready := Idle
      fault := fun s l => ¬ObjAt s l (rreg s l .ap a) 192
      go := fun s l => Unbegun (getStream s l n.toNat) ∧ Alone s l (apWho l 0) [((rreg s l .ap a).toNat, 192)]
      act := fun s l =>
        let t := getStream s l n.toNat
        let u := writeBytes (useBanks s l (apWho l 0) [((rreg s l .ap a).toNat, 192)]) (spBase l + (rreg s l .ap a).toNat) (saveRec t)
        if t.st = .closed then u else shut u l n.toNat }
  | .swait k n c => some
    { k := k, regs := []
      fault := fun s l => let t := getStream s l n.toNat
        (t.st = .closed ∧ c.toNat ≤ 1) ∨ (c = 1 ∧ t.eosp = false)
      go := fun s l => let t := getStream s l n.toNat
        (c = 0 ∧ t.st = .done) ∨ (c = 1 ∧ t.boe = true) ∨ (c = 2 ∧ t.st ≠ .stalled) ∨ (c = 3 ∧ (t.st = .closed ∨ t.st = .done)) }
  | .sbase k n a => some
    { k := k, regs := [a]
      fault := fun s l => let t := getStream s l n.toNat
        t.st ≠ .closed ∧ t.st ≠ .done
      act := fun s l =>
        let v := rreg s l .ap a
        let t := getStream s l n.toNat
        if t.st = .closed then modStream s l n.toNat fun t => { t with desc := setBase t.desc v, dcount := 0 }
        else formatted (modStream s l n.toNat fun t =>
          { reopened { t with desc := setBase t.desc v } (now s) (Vector.replicate 5 0) with
            markv := false, eosp := false, boe := false, boPend := false, boFirst := t.boPend
            doneTok := t.boPend && t.doneTok }) l t.desc }
  | _ => none

/-- Forks and restores (R99, R101, R228). -/
def copyStreamOf : Instr → Option ActW
  | .sforkG k n q a => some
    { k := k, regs := []
      fault := fun s l =>
        let t := getStream s l n.toNat
        (getStream s l a.toNat).st ≠ .closed ∨
          (t.st ≠ .closed ∧ claimable s l q.toNat (dDir t.desc == 0 || dDir t.desc == 3) = false)
      act := fun s l =>
        let t := getStream s l n.toNat
        let st : SState := if t.st = .stalled then .opened else t.st
        modStream s l a.toNat fun u =>
          { t with
            desc := setCtl (setCtl t.desc 10 5 q.toNat) 47 1 0, st := st, ahead := [], tlb := u.tlb, flt := .clear, fltVa := 0
            started := true, sent := 0, sentPsn := false, boPend := decide (st = .done) && t.eosp && !t.boe
            boFirst := false, doneTok := false, owed := 0, far := [], wrote := none, closing := false, openedAt := now s } }
  | .sforkT k n q => some
    { k := k, regs := []
      fault := fun s l => let t := getStream s l n.toNat
        t.st ≠ .closed ∨ ¬Filling t.desc ∨ dRing t.desc = q.toNat
      act := fun s l => modStream s l n.toNat fun t => { t with desc := setCtl (setCtl t.desc 47 1 1) 48 5 q.toNat } }
  | .srest k n a => some
    { k := k, regs := [a], ready := Idle
      fault := fun s l =>
        let v := rreg s l .ap a
        let x := objVal s l v 192
        ¬ObjAt s l v 192 ∨ (CleanAt s l v 192 ∧ ((getStream s l n.toNat).st ≠ .closed ∨ descOk (BitVec.ofNat 1024 x) = false ∨
          x / 2 ^ 1376 % 2 ^ 32 ≠ 0 ∨ x / 2 ^ 1472 ≠ 0 ∨
          ((x / 2 ^ 1344 % 4 = 1 ∨ x / 2 ^ 1344 % 4 = 2) ∧ shardOf s l (BitVec.ofNat 1024 x) = none)))
      go := fun s l => CleanAt s l (rreg s l .ap a) 192
      act := fun s l =>
        let v := rreg s l .ap a
        let x := objVal s l v 192
        let d := BitVec.ofNat 1024 x
        let u := modStream (objSeen s l v 192) l n.toNat (loadRec x (now s) ((shardOf s l d).getD 0))
        if (getStream u l n.toNat).st = .opened then formatted u l d else u }
  | _ => none

/-- The slot at HEAD given up whole (R74, R77). -/
def headFreed (r : Ring) : Ring :=
  { r with fe := r.fe &&& ~~~(BitVec.twoPow 256 r.head), cur := 0, head := (r.head + 1) % r.n
           boff := r.boff && r.head != r.boffAt }

/-- The slot at TAIL full, with the bytes it holds (R72). -/
def tailFilled (r : Ring) : Ring :=
  { r with fe := r.fe ||| BitVec.twoPow 256 r.tailSlot, tail := (r.tail + r.z) % (r.n * r.z) }

/-- Whether slot TAIL is empty, with no push to it still on its way (R72, R302). -/
def TailFree (r : Ring) : Prop :=
  r.fe.getLsbD r.tailSlot = false ∧ (r.tail % r.z = 0 → ∀ u ∈ r.claims, u / r.z ≠ r.tailSlot)

/-- The bytes of the slot at TAIL: where they start and how many they are. -/
def tailSpan (r : Ring) : Nat × Nat := ((r.base + r.z * r.tailSlot) * 256, r.z * 256)

/-- The AP has reached rings on this tick (R76). -/
def reached (s : State) (l q : Nat) : State := modCore s l fun c => { c with served := (q, 4) :: c.served }

/-- The ring words, by R69, R70 and R231 to R235. -/
def ringOf : Instr → Option ActW
  | .rcfg k q a => some
    { k := k, regs := [a]
      fault := fun s l => streamFills s l q.toNat = true ∨ streamDrains s l q.toNat = true ∨
        (getRing s l q.toNat).fullCount ≠ 0 ∨ rcfgRing s l q.toNat (rreg s l .ap a) = none
      act := fun s l => modRing s l q.toNat fun r =>
        let v := rreg s l .ap a
        if v = 0 then { Ring.reset with gen := r.gen + 1 }
        else { Ring.reset with
          base := v.toNat % 2 ^ 12, z := v.toNat / 2 ^ 16 % 2 ^ 9, n := v.toNat / 2 ^ 32 % 2 ^ 9, gen := r.gen + 1 } }
  | .rhead k q a => some
    { k := k, regs := [a]
      act := fun s l => reached s l q.toNat
      out := some (a, fun s l => let r := getRing s l q.toNat
        if r.n = 0 then 0
        else BitVec.ofNat 64 (r.head + r.cur * 2 ^ 8 + r.fullCount * 2 ^ 16 + (r.base + r.z * r.head) * 256 * 2 ^ 32)) }
  | .rtail k q a => some
    { k := k, regs := [a]
      act := fun s l => reached s l q.toNat
      out := some (a, fun s l => let r := getRing s l q.toNat
        if r.n = 0 then 0
        else BitVec.ofNat 64 (r.tail + (r.n - r.fullCount) * 2 ^ 16 + r.boff.toNat * 2 ^ 25 + 2 ^ 26 +
          (r.base + r.z * r.tailSlot) * 256 * 2 ^ 32)) }
  | .rpop k q a => some
    { k := k, regs := [a]
      fault := fun s l => (getRing s l q.toNat).n = 0 ∨ streamDrains s l q.toNat = true
      go := fun s l => let r := getRing s l q.toNat
        Idle s l ∧ r.fe.getLsbD r.head = true ∧ r.head ∉ r.kept
      act := fun s l => modRing (reached s l q.toNat) l q.toNat headFreed
      out := some (a, fun s l => let r := getRing s l q.toNat
        BitVec.ofNat 64 ((r.base + r.z * r.head) * 256 +
          if r.boff ∧ r.head = r.boffAt then 2 ^ 63 else 0)) }
  | .rpush k q a => some
    { k := k, regs := [a]
      fault := fun s l => let r := getRing s l q.toNat
        r.n = 0 ∨ streamFills s l q.toNat = true ∨ r.tail % r.z ≠ 0 ∨ r.boff = true
      go := fun s l => let r := getRing s l q.toNat
        Idle s l ∧ TailFree r ∧ r.boffPend = false ∧ (a ≠ 0 → Alone s l (apWho l 0) [tailSpan r])
      act := fun s l =>
        let r := getRing s l q.toNat
        if a = 0 then modRing (reached s l q.toNat) l q.toNat tailFilled
        else modRing (writeBytes (reached (useBanks s l (apWho l 0) [tailSpan r]) l q.toNat) (spBase l + (r.base + r.z * r.tailSlot) * 256)
          (toLE 8 (rreg s l .ap a).toNat ++ List.replicate (r.z * 256 - 8) 0)) l q.toNat fun r =>
            { tailFilled r with boff := true, boffAt := r.tailSlot, boffPend := false } }
  | .rwait k q c => some
    { k := k, regs := []
      fault := fun s l => (getRing s l q.toNat).n = 0
      go := fun s l => let r := getRing s l q.toNat
        (c = 0 ∧ r.fe.getLsbD r.head = true) ∨ (c = 1 ∧ TailFree r) ∨ (c = 2 ∧ r.fullCount = 0) ∨
          (c = 3 ∧ r.boff = true) }
  | _ => none

/-! ### Copies, records, lists, barriers and mailboxes (R236 to R266) -/

/-- Every older access of the AP has been performed at every scope: none is queued and none is on its way. -/
def Still (s : State) (l : Nat) : Prop := Idle s l ∧ ∀ t ∈ s.transit, t.core = l → t.eng ≠ .ap

/-- Whether a copy descriptor breaks R236: LEN of 2^40 or more, a reserved bit of CTL, or a token engine of 7. -/
def copyBad (x : Nat) : Prop :=
  let ctl := x / 2 ^ 192 % 2 ^ 32
  2 ^ 40 ≤ x / 2 ^ 128 % 2 ^ 64 ∨ 64 ≤ ctl ∨ ctl % 8 = 7 ∨ ctl / 8 = 7

/-- The transfer that a copy descriptor at an offset asks for (R236). -/
def asked' (x off : Nat) (wsl : Bool) (ret : Option Reg) : Xfer :=
  { src := BitVec.ofNat 64 x, dst := BitVec.ofNat 64 (x / 2 ^ 64), len := x / 2 ^ 128 % 2 ^ 64
    tkw := x / 2 ^ 192 % 8, tks := x / 2 ^ 195 % 2 ^ 29, off := off, wsl := wsl, started := false, pos := 0, wpos := 0
    buf := [], acf := 0, cflt := 0, ended := false, ret := ret, far := [] }

/-- The AP waits for nothing that a word of its own began. -/
def apFree (s : State) (l : Nat) : Prop := (getCore s l).apWait = .none

/-- A transfer handed to the CE, which holds at most four (R239). -/
def copyAct (k : Guard) (a : Reg) (wsl : Bool) : ActW :=
  { k := k, regs := [a], ready := Idle
    fault := fun s l => let v := rreg s l .ap a
      ¬ObjAt s l v 32 ∨ (CleanAt s l v 32 ∧ copyBad (objVal s l v 32))
    go := fun s l => CleanAt s l (rreg s l .ap a) 32 ∧ (getCore s l).ce.length < 4
    act := fun s l => let v := rreg s l .ap a
      modCore (objSeen s l v 32) l fun c => { c with ce := c.ce ++ [asked' (objVal s l v 32) v.toNat wsl none] } }

/-- The launch of the running record, and the number of the continuation's depth (R244). -/
def runDepth (s : State) (l : Nat) : Nat := match (cx s l).run with
  | some r => r.img.depth.toNat
  | none => 0

/-- Whether an object holds an image that a scheduling word accepts (R385): its launch is here and the image passes the checks. -/
def ImageOk (s : State) (l : Nat) (v : Word) : Prop :=
  ∃ k, runLaunch s l = some k ∧ imgOk k (objVal s l v 64) = true

/-- The record ends in one way once the word has retired (R245). -/
def ending (s : State) (l : Nat) (k : EndKind) : State :=
  modX s l fun x => { x with run := x.run.map fun r => { r with ended := some k } }

/-- The scheduling words, by R244 to R248 and R254. -/
def recordOf : Instr → Option ActW
  | .copy k a => some (copyAct k a false)
  | .wsload k a => some (copyAct k a true)
  | .spawn k d a => some
    { k := k, regs := [a, d], user := true, ready := Still
      fault := fun s l => let v := rreg s l .ap a
        ¬ObjAt s l v 64 ∨ (CleanAt s l v 64 ∧ ¬ImageOk s l v)
      go := fun s l => let v := rreg s l .ap a
        CleanAt s l v 64 ∧ ∀ la, runLaunch s l = some la →
          let img := recOf (objVal s l v 64)
          let c := placeCore la img.wid
          runDepth s l + 1 ≤ 24 → isVacant s c = false ∧ (l ∈ (getCore s c).places ∨ queueRoom s c = true) ∧ (getCore s l).apFlt = .clear ∧
            (img.jaddr = 0 ∨ ∃ y u, joinAmo (holdPlace (objSeen s l v 64) l c) l img.jaddr 1 = .ok y u)
      act := fun s l =>
        let v := rreg s l .ap a
        let u := objSeen s l v 64
        match runLaunch s l with
        | none => u
        | some la =>
          let img : Rec := { recOf (objVal s l v 64) with depth := BitVec.ofNat 5 (runDepth s l + 1) }
          let c := placeCore la img.wid
          if 24 < runDepth s l + 1 then u
          else pushRec (detAdd (freePlace (if img.jaddr = 0 then u else match joinAmo (holdPlace u l c) l img.jaddr 1 with
            | .ok _ w => w
            | _ => u) l c) la.lid 0 1) c img la.lid (if l = c then 0 else l + 1)
      out := some (d, fun s l => if 24 < runDepth s l + 1 then 1 else 0) }
  | .exit k => some
    { k := k, regs := [], user := true, ready := Still, act := fun s l => ending s l .exit }
  | .join k a b => some
    { k := k, regs := [b, a], user := true, ready := Still
      fault := fun s l => let v := rreg s l .ap b
        ¬ObjAt s l v 64 ∨ (CleanAt s l v 64 ∧ ¬ImageOk s l v)
      go := fun s l => CleanAt s l (rreg s l .ap b) 64
      act := fun s l => let v := rreg s l .ap b
        ending (objSeen s l v 64) l
          (.join (rreg s l .ap a) { recOf (objVal s l v 64) with depth := BitVec.ofNat 5 (runDepth s l) }) }
  | .park k a => some
    { k := k, regs := [a], user := true, ready := Still
      fault := fun s l => let v := rreg s l .ap a
        ¬ObjAt s l v 64 ∨ (CleanAt s l v 64 ∧ (¬ImageOk s l v ∨
          ∃ la, runLaunch s l = some la ∧ placeCore la (recOf (objVal s l v 64)).wid ≠ l))
      go := fun s l => CleanAt s l (rreg s l .ap a) 64
      act := fun s l => let v := rreg s l .ap a
        ending (objSeen s l v 64) l
          (.park { recOf (objVal s l v 64) with depth := BitVec.ofNat 5 (runDepth s l) }) }
  | .quiet k d => some
    { k := k, regs := [d], user := true
      out := some (d, fun s l => match runLaunch s l with
        | none => 0
        | some la =>
          let seen := if l < 96 then (la.items, la.term) else (la.items1, la.term1)
          BitVec.ofNat 64 (min (2 ^ 32 - 1) seen.1 * 2 ^ 32 + seen.2.toNat)) }
  | _ => none

/-- The list that a register names: the items of a launch's list on a die (R250, R409). -/
def Names (s : State) (l : Nat) (v : Word) (la : Launch) : Prop :=
  v.toNat < 2 ^ 13 ∧ runLaunch s l = some la ∧ la.lbase ≤ v.toNat % 2 ^ 12 ∧ v.toNat % 2 ^ 12 < la.lbase + la.lcnt

/-- The items of the list that a register names, and the cores whose TAKE waits on it, oldest first. -/
def items (s : State) (v : Word) : List Word := tget [] (vget Die.reset s.dies (v.toNat / 2 ^ 12)).lists (v.toNat % 2 ^ 12)
def waiting (s : State) (v : Word) : List Nat := tget [] (vget Die.reset s.dies (v.toNat / 2 ^ 12)).takers (v.toNat % 2 ^ 12)

/-- The mailbox words' operands: context, mailbox and, for MBPUT and MBGET, the object (R262). -/
def Boxed (s : State) (l : Nat) (v : Word) (x b : Nat) : Prop :=
  v.toNat < 2 ^ 11 ∧ x = v.toNat % 2 ^ 9 ∧ x < 480 ∧ b = v.toNat / 2 ^ 9 ∧ b < 3 ∧
    (getCtx s x).st ≠ .unbound ∧ (getCtx s x).lid = runLid s l

/-- The steps of R462 that stand behind a mailbox word of core `l`, words of higher cores among them, have not been taken on this
tick. -/
def mailTurn (s : State) (l x : Nat) : Prop := (getCtx s x).phase.1 ≠ now s ∨ (getCtx s x).phase.2 ≤ 3000 + l

/-- A mailbox word of core `l` has taken its step of R462. -/
def mailTaken (s : State) (l x : Nat) : State := modCtx s x fun c => { c with phase := (now s, 3000 + l) }

/-- What the home of a barrier object on this core does for a word of its AP, in its turn: the state, and the value that D receives. -/
def barDoes (s : State) (l : Nat) (fn : Nat) (a b : Word) : Option (State × Word) :=
  match barAct (takeTurn s l (a.toNat % 64) 1) l (a.toNat % 64) l fn b with
  | (t, .got v) => some (t, v)
  | _ => none

/-- The barrier words: number, guard, destination and operands (R256). -/
def barOf : Instr → Option (Nat × Guard × Reg × Reg × Reg)
  | .barinit k a b => some (0, k, 0, a, b)
  | .bararr k d a b => some (1, k, d, a, b)
  | .barwait k d a b => some (2, k, d, a, b)
  | .barstat k d a => some (3, k, d, a, 0)
  | _ => none

/-! ### What the stream units and the copy engine do on their own (R81 to R104, R236 to R238) -/

/-- The registers of a core, its predicates and program counters as they were: an engine that moves data touches none of them. -/
def EnginesKept (s t : State) (l : Nat) : Prop :=
  (∀ e r, rreg t l e r = rreg s l e r) ∧ (∀ e k, rk t l e k = rk s l e k) ∧ ∀ e, getPc t l e = getPc s l e

/-- A FIFO has room for `n` more tokens (R141, R142). -/
def TokenRoom (s : State) (l p c n : Nat) : Prop := (tokens s l p c).1 + (tokens s l p c).2 + n ≤ 8

/-- A stream has finished work that calls for `n` tokens of TKS: they are pushed to the FIFO, or owed while it is full (R88). -/
def TokensOf (s t : State) (l j n : Nat) : Prop :=
  let k := dTks (getStream t l j).desc
  if k = 0 then (getStream t l j).owed = 0
  else (tokens t l 6 k).1 + (getStream t l j).owed = (tokens s l 6 k).1 + n ∧ (TokenRoom s l 6 k n → (getStream t l j).owed = 0)

/-- One token where a slot is the last of TKN slots (R88). -/
def everyTkn (x : Stream) : Nat := if dTkn x.desc ≠ 0 ∧ dTkn x.desc ≤ x.tkc + 1 then 1 else 0

/-- The coordinates of the element at a count, dimension 0 fastest (R81). -/
def coords (d : BitVec 1024) (lin : Nat) : List Int :=
  (List.range (dRank d)).map fun i => ((lin / ((List.range i).map (dSize d)).prod % dSize d i : Nat) : Int) + dOrg d i

/-- Whether an element is in bounds (R81). -/
def inBounds (d : BitVec 1024) (lin : Nat) : Bool := ((coords d lin).zipIdx).all fun c => decide (0 ≤ c.1 ∧ c.1 < dLim d c.2)

/-- The scratchpad offset of an element of a stream whose BASE names the scratchpad (R81, R82). -/
def elemAt (d : BitVec 1024) (lin : Nat) : Int :=
  (dBase d : Int) + (((coords d lin).zipIdx).map fun c => c.1 * dStride d c.2).sum * ((dFmt d).width / 8 : Nat)

/-- A stream of elements of 8 bits or more that lie in its own scratchpad: of the `count` elements from a count on, each that is in bounds
lies whole in the scratchpad and outside the barrier region, and no bank of the scratchpad serves or awaits another requester. -/
structure InPad (s : State) (c n count lin : Nat) : Prop where
  plain : 8 ≤ (dFmt (getStream s c n).desc).width ∧ isMx (dFmt (getStream s c n).desc) = false
  unsharded : dShard (getStream s c n).desc = 0
  rank : 1 ≤ dRank (getStream s c n).desc
  base : dBase (getStream s c n).desc < 2 ^ 48
  alone : Alone s c (suWho c n) [(0, 0x100000)]
  ends : lin + count ≤ dTotal (getStream s c n).desc
  place : ∀ m, m < count → inBounds (getStream s c n).desc (lin + m) = true →
    0 ≤ elemAt (getStream s c n).desc (lin + m) ∧
    elemAt (getStream s c n).desc (lin + m) + ((dFmt (getStream s c n).desc).width / 8 : Nat) ≤ 0x100000 ∧
    ¬InBarrier s c (elemAt (getStream s c n).desc (lin + m)).toNat ((dFmt (getStream s c n).desc).width / 8)

/-- The fill pattern of an element position (R83). -/
def fillOf (d : BitVec 1024) : Nat :=
  if dFmt d = .int64 then ((BitVec.ofNat 32 (dFill d)).signExtend 64).toNat else dFill d % 2 ^ (dFmt d).width

/-- Slot HEAD of ring-to-memory stream `n` is committed: it is given up whole, and `count` elements from the count `lin` on have
been written (R74, R86); the stream is DONE after its last element (R94), and its tokens follow (R88). -/
def Drained (s t : State) (c n count lin : Nat) : Prop :=
  let x := getStream s c n
  let d := x.desc
  let y := getStream t c n
  let last := dTotal d ≤ lin + slotCap (dFmt d) ((getRing s c (dRing d)).z * 256)
  EnginesKept s t c ∧ (∀ z, readByte t z = readByte s z) ∧ getRing t c (dRing d) = headFreed (getRing s c (dRing d)) ∧
    y.desc = d ∧ y.idx = idxOf d (lin + count) ∧ y.dcount = x.dcount + BitVec.ofNat 64 count ∧ y.wrote = none ∧
    y.st = (if last then .done else x.st) ∧ TokensOf s t c n (everyTkn x + if last then 1 else 0)

/-- A transfer has left the CE: its TKS token is pushed where it has one, and a COPYW's register receives its STATUS (R237, R239). -/
def LeftCe (s t : State) (c : Nat) (x : Xfer) (xs : List Xfer) : Prop :=
  (getCore t c).ce = xs ∧
  (∀ k, (tokens t c 7 k).1 = (tokens s c 7 k).1 + if k = x.tks ∧ x.tks ≠ 0 then 1 else 0) ∧
  ∀ r, rreg t c .ap r = match x.ret with
    | some d => withReg s c .ap d (BitVec.ofNat 64 (1 + 2 * x.cflt.toNat + 2 ^ 8 * x.acf.toNat)) r
    | none => rreg s c .ap r

/-! ### Vector words (R134 to R161, R267 to R313) -/

/-- When the next repeat of a vector word issues: on C1 or C2 in user mode, with its ports' units there and in turn (R73, R76),
the banks of those units free for it (R62), its bank conflicts behind it (R161) and C0 far enough (R156, R219); and for the first repeat also its tokens there (R141), its rings
legal (R75) and its place in a lockstep region reached (R154). `pushes` names the rings pushed into and `ticks` the further
ticks that its banks take. -/
structure Repeats (w : VWord) (sh : VShape) (pushes : List Nat) (ticks : Nat) (s : State) : Prop where
  engine : s.current.eng = .c1 ∨ s.current.eng = .c2
  user : (cx s s.current.core).handlerMode = false
  other : tokSelf s.current.eng w.tok = false
  first : (getEng s s.current.core s.current.eng).rep = 0 →
    tokWaits s s.current.core s.current.eng w.tok = [] ∧ ringIllegal s s.current.core (portsOf w sh) pushes = false ∧
      (w.s = true → inGroup s s.current.core s.current.eng = true →
        (getEng s s.current.core s.current.eng).inRegion = true ∧ mayIssueS s s.current.core s.current.eng = true)
  units : portWaits s s.current.core (portsOf w sh) = []
  served : Alone s s.current.core (vPlace (s.current.eng == .c2)) (portBytes s s.current.core (portsOf w sh))
  turns : ∀ q ∈ portsOf w sh ++ pushes, ringTurn s s.current.core s.current.eng q = true
  banks : stallHold s s.current.core s.current.eng
    ((if (bankFlags (s.current.eng == .c2) (vregsRead s s.current.core (s.current.eng == .c2) w sh
      (getEng s s.current.core s.current.eng).rep)).isEmpty then 0 else 1) + ticks) (fun _ => []) = none
  behind : (w.lb = true ∨ (sh.useA = true ∧ opIsReg w.a = false ∧ opRing w.a = none) ∨
      (sh.useB = true ∧ opIsReg w.b = false ∧ opRing w.b = none) ∨
      rotates w sh (getEng s s.current.core s.current.eng).rep = true) →
    c0Behind s s.current.core s.current.eng (effPos s s.current.core s.current.eng) = false

/-- What a repeat reads: its operands at repeat r, A before B (R134, R135, R158, R270). -/
def inputs (s : State) (w : VWord) (sh : VShape) : VIn :=
  let l := s.current.core
  let c2 := s.current.eng == .c2
  let r := (getEng s l s.current.eng).rep
  let a := readSrc s l c2 w (sh.useA && !sh.srcP) w.a r
  let b := readSrc a.1 l c2 w (sh.useB && !sh.srcP) w.b r
  { a := a.2, b := b.2
    d := if (sh.dst && !sh.dP) || sh.dIdx then rv s l c2 (vphysOf s l c2 w.d r) else VReg.zero
    pa := if sh.srcP && sh.useA then rp s l c2 (pphysOf s l c2 w.a r) else 0
    pb := if sh.srcP && sh.useB then rp s l c2 (pphysOf s l c2 w.b r) else 0
    pd := if sh.dst && sh.dP then rp s l c2 (pphysOf s l c2 w.d r) else 0
    g := guardOf s l c2 w }

/-- Whether the repeat that issues closes the cluster's loop (R143, R159). -/
def closing (s : State) (w : VWord) : Bool :=
  w.lb && (getEng s s.current.core s.current.eng).rep == w.rep.toNat

/-- A flight once the repeat has issued: p8 as a loop close has written it stands above the writes of earlier repeats (R159,
R306). -/
def settled (s t : State) (w : VWord) (f : VFlight) : VFlight :=
  if closing s w = true ∧ f.c2 = (s.current.eng == .c2) then
    { f with writes := f.writes.map (supersede (.pred (pphys 8 (rbOf t s.current.core f.c2)) 0 (BitVec.allOnes 256))) }
  else f

/-- An engine without what the issue of a wide word may touch. -/
def stillEng (t : EngSt) : EngSt :=
  { calm t with rep := 0, word := 0, cur := none, notBefore := 0, slow := false, inRegion := false, atS := false, lc := 0, ec := 0 }

/-- A core without what the issue of a vector repeat may touch, which a statement gives one by one. -/
def vecBare (c : Core) : Core :=
  { c with
    heads := [], served := [], vfl := [], tk := TickNote.none, bankQ := []
    x := { c.x with
      engs := c.x.engs.map stillEng, fifo := [], fifoRes := [], rings := Vector.replicate 32 Ring.reset
      p1 := Vector.replicate 16 0, p2 := Vector.replicate 16 0, rb1 := 0, rb2 := 0, vstat1 := 0, vstat2 := 0, nextWord := 0
      run := c.x.run.map fun r => { r with epIssued := true } } }

/-- The cluster has closed its loop (R159): LC counts down to 0, then EC; the rotating base goes down by 1, and p8 is all ones
while LC was not 0. -/
def LoopShut (s t : State) : Prop :=
  let l := s.current.core
  let e := s.current.eng
  let c2 := e == .c2
  let g := getEng s l e
  (getEng t l e).lc = (if g.lc = 0 then 0 else g.lc - 1) ∧ (getEng t l e).ec = (if g.lc = 0 ∧ g.ec ≠ 0 then g.ec - 1 else g.ec) ∧
    rbOf t l c2 = rbOf s l c2 - 1 ∧
    ∀ n, n < 16 → rp t l c2 n = if n = pphys 8 (rbOf t l c2) then (if g.lc = 0 then 0 else BitVec.allOnes 256) else rp s l c2 n

/-- One repeat has issued: its writes are in flight until its landing bound (R143), its ports have given their units, its tokens
are taken and its engine goes on to the next repeat or the next word; and nothing else has changed. -/
structure Issued (w : VWord) (sh : VShape) (pushes : List Nat) (s t : State) (ws : List VWrite) (acf : Acf) (oob : Bool) : Prop where
  flight : ∃ id pos, (getCore t s.current.core).vfl = ((getCore s s.current.core).vfl ++
    [({ c2 := s.current.eng == .c2, word := id, issued := now s, due := now s + w.bound, writes := ws, acf := acf, oob := oob
        tok := w.tok.dst, pos := pos } : VFlight)]).map (settled s t w)
  pc : getPc t s.current.core s.current.eng = getPc s s.current.core s.current.eng +
    (if (getEng s s.current.core s.current.eng).rep = w.rep.toNat then 12 else 0)
  rep : (getEng t s.current.core s.current.eng).rep =
    if (getEng s s.current.core s.current.eng).rep = w.rep.toNat then 0 else (getEng s s.current.core s.current.eng).rep + 1
  pcs : ∀ m, m ≠ s.current.eng → getPc t s.current.core m = getPc s s.current.core m
  counters : ∀ m, m ≠ s.current.eng ∨ closing s w = false →
    (getEng t s.current.core m).lc = (getEng s s.current.core m).lc ∧ (getEng t s.current.core m).ec = (getEng s s.current.core m).ec
  shut : closing s w = true → LoopShut s t
  preds : ∀ c2 n, closing s w = false ∨ c2 ≠ (s.current.eng == .c2) →
    rp t s.current.core c2 n = rp s s.current.core c2 n ∧ rbOf t s.current.core c2 = rbOf s s.current.core c2
  ports : ∀ q, q ∉ pushes → getRing t s.current.core q =
    iter Ring.afterUnit ((portsOf w sh).count q) (getRing s s.current.core q)
  status : ∀ c2, (∀ q ∈ portsOf w sh, (getRing s s.current.core q).boff = false) ∨ c2 ≠ (s.current.eng == .c2) →
    vstat t s.current.core (vEng c2) = vstat s s.current.core (vEng c2)
  tokens : ∀ p c, p < 8 → c < 8 → Claims.tokens t s.current.core p c =
    ((Claims.tokens s s.current.core p c).1 -
        (if (getEng s s.current.core s.current.eng).rep = 0 ∧ c = engCode s.current.eng then (tokSrcs w.tok).count p else 0),
      (Claims.tokens s s.current.core p c).2 +
        (if (getEng s s.current.core s.current.eng).rep = 0 ∧ p = engCode s.current.eng ∧ c = w.tok.dst.toNat ∧ c ≠ 0 then 1 else 0))
  bytes : ∀ a, readByte t a = readByte s a
  rest : s.eccBad = [] → s.eccSoft = [] → modCore t s.current.core vecBare = modCore s s.current.core vecBare

/-- A vector word whose result is elements of one register: its operands, the width of an element of D, and what it puts into
element k of D: none keeps the old one. -/
structure VecW where
  w : VWord
  sh : VShape
  wd : Nat
  out : VIn → Nat → Option El

/-- An element under the guard (R137, R268): an inactive element is 0 with ZM, else it stays. -/
def under (w : VWord) (wd : Nat) (g : BitVec 256) (k : Nat) (x : El) : Option El :=
  if g.getLsbD (k * wd / 8) then some x else if w.zm then some ⟨0, 0, false⟩ else none

/-- Elements of the word's own type, each under the guard. -/
def eachEl (w : VWord) (sh : VShape) (f : VIn → Nat → El) : Option VecW :=
  some ⟨w, sh, w.ty.width, fun i k => under w w.ty.width i.g k (f i k)⟩

/-- n elements of a width that fill part PART of D (R269). -/
def partEl (w : VWord) (sh : VShape) (wd n : Nat) (f : VIn → Nat → El) : Option VecW :=
  some ⟨w, sh, wd, fun i k =>
    if w.part * n ≤ k ∧ k < w.part * n + n then under w wd i.g k (f i (k - w.part * n)) else none⟩

/-- An exact integer result, wrapped or saturated (R277). -/
def intEl (t : Fmt) (sat : Bool) (x : Int) (psn : Bool) : El :=
  if sat then ⟨(max (minInt t) (min (maxInt t) x) % (2 ^ t.width : Nat)).toNat, if x < minInt t ∨ maxInt t < x then fSAT else 0, psn⟩
  else ⟨(x % (2 ^ t.width : Nat)).toNat, 0, psn⟩

/-- Whether element k of A, of B or of either is poisoned (R275). -/
def psnA (w : VWord) (i : VIn) (k : Nat) : Bool := elPsn w.ty.width i.a k
def psnAB (w : VWord) (i : VIn) (k : Nat) : Bool := elPsn w.ty.width i.a k || elPsn w.ty.width i.b k

/-- A word on the integers in A, B and D. -/
def intW (w : VWord) (sat dRead : Bool) (f : Int → Int → Int → Int) : Option VecW :=
  let t := w.ty
  eachEl w (shAB dRead) fun i k => intEl t sat
    (f (intOf t (el t.width i.a k)) (intOf t (el t.width i.b k)) (intOf t (el t.width i.d k)))
    (psnAB w i k || (dRead && elPsn t.width i.d k))

/-- A word on the patterns in A and B. -/
def bitW (w : VWord) (f : Nat → Nat → Nat) : Option VecW :=
  eachEl w (shAB false) fun i k =>
    ⟨f (el w.ty.width i.a k) (el w.ty.width i.b k) % 2 ^ w.ty.width, 0, psnAB w i k⟩

/-- A word on the floating-point values in A, B and D, rounded once (R279). -/
def fltW (w : VWord) (dRead : Bool) (f : FNum → FNum → FNum → FNum × Acf) : Option VecW :=
  let t := ffOf w.ty
  let wd := w.ty.width
  eachEl w (shAB dRead) fun i k =>
    let x := f (decodeF t (el wd i.a k)) (decodeF t (el wd i.b k)) (decodeF t (el wd i.d k))
    let r := roundF x.1 t (rmodeOf w.mod.toNat) false
    ⟨r.1, x.2 ||| r.2, psnAB w i k || (dRead && elPsn wd i.d k)⟩

/-- A function of one floating-point value. -/
def fltUnW (w : VWord) (f : FNum → FNum × Acf) : Option VecW :=
  eachEl w (shA false) fun i k =>
    let x := f (decodeF (ffOf w.ty) (el w.ty.width i.a k))
    let r := roundF x.1 (ffOf w.ty) (rmodeOf w.mod.toNat) false
    ⟨r.1, x.2 ||| r.2, psnA w i k⟩

/-- A word on the sign of a floating-point pattern; of a NaN it makes the canonical NaN (R280). -/
def signW (w : VWord) (f : Bool → Bool) : Option VecW :=
  let ft := ffOf w.ty
  let h := 2 ^ (ft.width - 1)
  eachEl w (shA false) fun i k =>
    let x := el w.ty.width i.a k
    ⟨if (decodeF ft x).isNan then ft.canonNaN else x % h + if f (x.testBit (ft.width - 1)) then h else 0, 0, psnA w i k⟩

/-- An element copied. -/
def cpEl (w : VWord) (v : VReg) (k : Nat) : El := ⟨el w.ty.width v k, 0, elPsn w.ty.width v k⟩

/-- The governing bit of element k in the guard (R267). -/
def activeAt (w : VWord) (i : VIn) (k : Nat) : Bool := i.g.getLsbD (k * w.ty.width / 8)

/-- Element `k` of the integers that a scan sums up to and, unless it is exclusive, with element k (R289). -/
def scanAt (w : VWord) (i : VIn) (k : Nat) : Int :=
  let n := if w.mod.getLsbD 0 then k else k + 1
  let xs := ((List.range n).filter (activeAt w i)).map fun j => intOf w.ty (el w.ty.width i.a j)
  intOf w.ty (el w.ty.width i.b 0) + xs.sum

/-- Vector words that write elements, by R276 to R284, R289 to R291, R294, R296 and R305. -/
def vecOf : Instr → Option VecW
  | .vadd w => intW w (w.mod.getLsbD 0) false fun a b _ => a + b
  | .vsub w => intW w (w.mod.getLsbD 0) false fun a b _ => a - b
  | .vmul w => intW w (w.mod.getLsbD 0) false fun a b _ => a * b
  | .vmulh w => intW w false false fun a b _ => a * b / (2 ^ w.ty.width : Nat)
  | .vmac w => intW w (w.mod.getLsbD 0) true fun a b d => d + a * b
  | .vmin w => intW w false false fun a b _ => if a ≤ b then a else b
  | .vmax w => intW w false false fun a b _ => if a ≤ b then b else a
  | .vabs w => eachEl w (shA false) fun i k =>
      let a := intOf w.ty (el w.ty.width i.a k)
      intEl w.ty (w.mod.getLsbD 0) (if a < 0 then -a else a) (psnA w i k)
  | .vneg w => eachEl w (shA false) fun i k =>
      intEl w.ty (w.mod.getLsbD 0) (-intOf w.ty (el w.ty.width i.a k)) (psnA w i k)
  | .vand w => bitW w fun a b => a &&& b
  | .vor w => bitW w fun a b => a ||| b
  | .vxor w => bitW w fun a b => a ^^^ b
  | .vshl w => eachEl w (shAB false) fun i k =>
      intEl w.ty (w.mod.getLsbD 0) (intOf w.ty (el w.ty.width i.a k) * (2 ^ (el w.ty.width i.b k % w.ty.width) : Nat)) (psnAB w i k)
  | .vshr w => bitW w fun a b => a / 2 ^ (b % w.ty.width)
  | .vsra w => bitW w fun a b =>
      ((signedOf w.ty.width a / (2 ^ (b % w.ty.width) : Nat)) % (2 ^ w.ty.width : Nat)).toNat
  | .vqshr w => partEl w (shAB true) (modFmt w).width w.ty.lanes fun i k =>
      let x := signedOf w.ty.width (el w.ty.width i.a k)
      let n := el w.ty.width i.b k % 64
      intEl (modFmt w) true (if n = 0 then x else (x + (2 ^ (n - 1) : Nat)) / (2 ^ n : Nat)) (psnAB w i k)
  | .vqmul w => eachEl w (shAB false) fun i k =>
      intEl .int32 true ((signedOf 32 (el 32 i.a k) * signedOf 32 (el 32 i.b k) + 2 ^ 30) / 2 ^ 31) (psnAB w i k)
  | .vsat w => eachEl w (shA false) fun i k =>
      let x := intOf w.ty (el w.ty.width i.a k)
      let g := modFmt w
      ⟨(max (minInt g) (min (maxInt g) x) % (2 ^ w.ty.width : Nat)).toNat, if x < minInt g ∨ maxInt g < x then fSAT else 0, psnA w i k⟩
  | .vfadd w => fltW w false fun a b _ => a.add b
  | .vfsub w => fltW w false fun a b _ => a.add b.neg
  | .vfmul w => fltW w false fun a b _ => a.mul b
  | .vfma w => fltW w true fun a b d => a.fma b d
  | .vfms w => fltW w true fun a b d => a.fma b d.neg
  | .vfmin w => eachEl w (shAB false) fun i k => ⟨fMinMax w.ty false (el w.ty.width i.a k) (el w.ty.width i.b k), 0, psnAB w i k⟩
  | .vfmax w => eachEl w (shAB false) fun i k => ⟨fMinMax w.ty true (el w.ty.width i.a k) (el w.ty.width i.b k), 0, psnAB w i k⟩
  | .vfrcp w => fltUnW w recip
  | .vfrsq w => fltUnW w rsqrt
  | .vfexp2 w => fltUnW w exp2
  | .vflog2 w => fltUnW w log2
  | .vfabs w => signW w fun _ => false
  | .vfneg w => signW w fun b => !b
  | .vsel w => some ⟨w, shAB false, w.ty.width, fun i k => some (if activeAt w i k then cpEl w i.a k else cpEl w i.b k)⟩
  | .vmov w => eachEl w (shA false) fun i k => cpEl w i.a k
  | .vbcast w => eachEl w (shA false) fun i _ => cpEl w i.a w.imm.toNat
  | .vperm w => eachEl w (shAB false) fun i k =>
      let j := el w.ty.width i.b k % w.ty.lanes
      ⟨el w.ty.width i.a j, 0, elPsn w.ty.width i.a j || elPsn w.ty.width i.b k⟩
  | .vslide w => eachEl w (shAB false) fun i k =>
      if k + w.imm.toNat < w.ty.lanes then cpEl w i.a (k + w.imm.toNat) else cpEl w i.b (k + w.imm.toNat - w.ty.lanes)
  | .vshuf w => eachEl w (if w.mod.toNat < 4 then shAB false else shA false) fun i k =>
      let n := w.ty.lanes
      let h := n / 2
      match w.mod.toNat with
      | 0 => if k % 2 = 1 then cpEl w i.b (k / 2) else cpEl w i.a (k / 2)
      | 1 => if k % 2 = 1 then cpEl w i.b (h + k / 2) else cpEl w i.a (h + k / 2)
      | 2 => if k < h then cpEl w i.a (2 * k) else cpEl w i.b (2 * (k - h))
      | 3 => if k < h then cpEl w i.a (2 * k + 1) else cpEl w i.b (2 * (k - h) + 1)
      | 4 => cpEl w i.a (n - 1 - k)
      | _ => cpEl w i.a (k ^^^ 1)
  | .vpack w =>
      let wd := w.ty.width
      let h := wd / 2
      let unsigned := w.mod.getLsbD 1
      let lo : Int := if unsigned then 0 else -(2 ^ (h - 1) : Nat)
      let hi : Int := (if unsigned then (2 ^ h : Nat) else (2 ^ (h - 1) : Nat)) - 1
      some ⟨w, shAB false, h, fun i k =>
        let v := if k < w.ty.lanes then i.a else i.b
        let j := k % w.ty.lanes
        let x := signedOf wd (el wd v j)
        under w h i.g k
          (if w.mod.getLsbD 0 then
            ⟨(max lo (min hi x) % (2 ^ h : Nat)).toNat, if x < lo ∨ hi < x then fSAT else 0, elPsn wd v j⟩
          else ⟨(x % (2 ^ h : Nat)).toNat, 0, elPsn wd v j⟩)⟩
  | .vunpk w =>
      let h := w.ty.width / 2
      eachEl w (shA false) fun i k =>
        let j := w.part * w.ty.lanes + k
        ⟨if w.mod.getLsbD 1 then el h i.a j else (signedOf h (el h i.a j) % (2 ^ w.ty.width : Nat)).toNat, 0, elPsn h i.a j⟩
  | .vscan w => some ⟨w, shAB false, w.ty.width, fun i k =>
      let n := if w.mod.getLsbD 0 then k else k + 1
      some (intEl w.ty (w.mod.getLsbD 1) (scanAt w i k)
        (elPsn w.ty.width i.b 0 || (List.range n).any fun j => activeAt w i j && psnA w i j))⟩
  | .vcvt w =>
      let src := modFmt w
      let one (i : VIn) (j : Nat) : El :=
        let r := cvtEl src w.ty (rmodeOf (w.mod.toNat / 16)) (w.mod.getLsbD 6) (el src.width i.a j)
        ⟨r.1, r.2, elPsn src.width i.a j⟩
      if w.ty.width < src.width then partEl w (shA true) w.ty.width (2048 / src.width) one
      else if src.width < w.ty.width then eachEl w (shA false) fun i k => one i (w.part * w.ty.lanes + k)
      else eachEl w (shA false) one
  | .vxpand w =>
      let cb := if w.mod.getLsbD 0 then 3 else 4
      eachEl w (shAB false) fun i k =>
        let c := (i.a.bits.extractLsb' (cb * (w.part * w.ty.lanes + k)) cb).toNat
        ⟨el w.ty.width i.b c, 0, bitsPsn i.a (cb * (w.part * w.ty.lanes + k)) cb || elPsn w.ty.width i.b c⟩
  | .vmxd w =>
      let mx8 := w.mod.getLsbD 0
      let bb := if mx8 then 32 else 16
      let ef : FFmt := if mx8 then .e4m3 else .e2m1
      eachEl w (shA false) fun i n =>
        let b := w.part * (w.ty.lanes / 32) + n / 32
        let so := mxBlocks mx8 * bb + b
        let c := (i.a.bits.extractLsb' (8 * (bb * b) + ef.width * (n % 32)) ef.width).toNat
        let r := mxDequant (i.a.bits.extractLsb' (8 * so) 8).toNat [c] ef (ffOf w.ty) (rmodeOf (w.mod.toNat / 2)) (w.mod.getLsbD 6)
        ⟨r.1.headD 0, r.2, ((List.range bb).any fun j => i.a.psn.getLsbD (bb * b + j)) || i.a.psn.getLsbD so⟩
  | .vcomp w => some ⟨w, shA (!w.zm), w.ty.width, fun i k =>
      match ((List.range w.ty.lanes).filter (activeAt w i))[k]? with
      | some j => some (cpEl w i.a j)
      | none => if w.zm then some ⟨0, 0, false⟩ else none⟩
  | .vexpd w => some ⟨w, shA (!w.zm), w.ty.width, fun i k =>
      if activeAt w i k then some (cpEl w i.a ((List.range k).filter (activeAt w i)).length)
      else if w.zm then some ⟨0, 0, false⟩ else none⟩
  | .pcnt w => some ⟨w, ⟨true, false, true, false, false, true, false⟩, 32, fun i k =>
      some ⟨if k = 0 then ((List.range w.ty.lanes).filter fun j =>
        i.pa.getLsbD (j * w.ty.width / 8) && activeAt w i j).length else 0, 0, false⟩⟩
  | _ => none

/-- Vector words that write one element at position 0 of D and 0 above it: the width of that element, what it is, from the
active elements of A, its flags, and its poison (R285 to R288). -/
def reduceOf : Instr → Option (VWord × Nat × (VIn → Nat × Acf))
  | .vredadd w =>
      let rt : Fmt := if w.ty.width ≤ 16 then .int32 else w.ty
      some (w, rt.width, fun i =>
        let xs := ((List.range w.ty.lanes).filter (activeAt w i)).map fun k => intOf w.ty (el w.ty.width i.a k)
        let x := intEl rt (w.mod.getLsbD 1) ((if w.mod.getLsbD 0 then intOf rt (el rt.width i.d 0) else 0) + xs.sum) false
        (x.v, x.f))
  | .vredmax w => some (w, w.ty.width, fun i => (redExtreme w.ty true ((if w.mod.getLsbD 0 then [el w.ty.width i.d 0] else []) ++
      ((List.range w.ty.lanes).filter (activeAt w i)).map (el w.ty.width i.a)), 0))
  | .vredmin w => some (w, w.ty.width, fun i => (redExtreme w.ty false ((if w.mod.getLsbD 0 then [el w.ty.width i.d 0] else []) ++
      ((List.range w.ty.lanes).filter (activeAt w i)).map (el w.ty.width i.a)), 0))
  | .vfredadd w => some (w, 32, fun i =>
      let leaves := (List.range w.ty.lanes).map fun k =>
        if activeAt w i k then some (decodeF (ffOf w.ty) (el w.ty.width i.a k)) else none
      let r := redTree (Nat.log2 w.ty.lanes) leaves 0
      let r := if w.mod.getLsbD 0 then
        let n := redNode (some (decodeF .fp32 (el 32 i.d 0))) r.1
        (n.1, r.2 ||| n.2) else r
      ((roundF (r.1.getD FNum.zero) .fp32 .rne false).1, r.2))
  | _ => none

/-- Vector words that write a predicate: their operands, and bit n of D (R281, R304, R305). -/
def predOf2 : Instr → Option (VWord × VShape × (VIn → Nat → Bool))
  | .vcmp w => some (w, ⟨true, true, false, false, false, true, true⟩, fun i n => cmpBit w i n fun a b =>
      let x := intOf w.ty a
      let y := intOf w.ty b
      some (if x < y then .lt else if x = y then .eq else .gt))
  | .vfcmp w => some (w, ⟨true, true, false, false, false, true, true⟩, fun i n => cmpBit w i n fun a b =>
      let x := decodeF (ffOf w.ty) a
      let y := decodeF (ffOf w.ty) b
      if x.isNan || y.isNan then none else some (if FNum.cmp x y < 0 then .lt else if FNum.cmp x y = 0 then .eq else .gt))
  | .pand w => some (w, ⟨true, true, true, false, false, true, true⟩, fun i n => mix w i n (i.pa.getLsbD n && i.pb.getLsbD n))
  | .por w => some (w, ⟨true, true, true, false, false, true, true⟩, fun i n => mix w i n (i.pa.getLsbD n || i.pb.getLsbD n))
  | .pxor w => some (w, ⟨true, true, true, false, false, true, true⟩, fun i n => mix w i n (i.pa.getLsbD n ^^ i.pb.getLsbD n))
  | .pnot w => some (w, ⟨true, true, true, false, false, true, false⟩, fun i n => mix w i n (!i.pa.getLsbD n))
  | .pfirst w => some (w, ⟨true, true, true, false, false, true, false⟩, fun i n =>
      let k := n * 8 / w.ty.width
      let both (k : Nat) : Bool := i.pa.getLsbD (k * w.ty.width / 8) && activeAt w i k
      both k && !(List.range k).any both)
  | _ => none
where
  /-- A bit under its own guard bit. -/
  mix (w : VWord) (i : VIn) (n : Nat) (b : Bool) : Bool := if i.g.getLsbD n then b else !w.zm && i.pd.getLsbD n
  /-- The bit of a comparison's element under that element's governing bit: MOD names the relation. -/
  cmpBit (w : VWord) (i : VIn) (n : Nat) (c : Nat → Nat → Option Ordering) : Bool :=
    let k := n * 8 / w.ty.width
    let o := c (el w.ty.width i.a k) (el w.ty.width i.b k)
    if activeAt w i k then
      match w.mod.toNat with
      | 0 => o = some .eq
      | 1 => o ≠ some .eq
      | 2 => o = some .lt
      | 3 => o = some .lt ∨ o = some .eq
      | 4 => o = some .gt
      | 5 => o = some .gt ∨ o = some .eq
      | 6 => o = none
      | _ => o ≠ none
    else !w.zm && i.pd.getLsbD n

/-- A flag is set for some active result (R268). -/
def FlagsOf (wd : Nat) (f : Acf) (out : Nat → Option El) : Prop :=
  ∀ b, b < 5 → (f.getLsbD b = true ↔ ∃ k x, k < 2048 / wd ∧ out k = some x ∧ (x.f.getLsbD b = true ∨ (b = 4 ∧ x.psn = true)))

/-- A register whose elements are those that a word puts there, the others as they were (R268, R275). -/
def ElemsOf (wd : Nat) (old v : VReg) (out : Nat → Option El) : Prop :=
  ∀ k, k < 2048 / wd → match out k with
    | some x => el wd v k = x.v ∧ ∀ j, j < wd / 8 → v.psn.getLsbD (k * (wd / 8) + j) = x.psn
    | none => el wd v k = el wd old k ∧ ∀ j, j < wd / 8 → v.psn.getLsbD (k * (wd / 8) + j) = old.psn.getLsbD (k * (wd / 8) + j)

/-- The scratchpad offset of lane i of a gather or scatter, none out of bounds (R297, R299): `idx` holds its signed element
index, the e-register `e` base and length in bytes. -/
def laneAt (s : State) (l : Nat) (w : VWord) (idx : VReg) (e : Word) (scatter : Bool) (i : Nat) : Option Nat :=
  let wb := w.ty.width / 8
  let x := signedOf 32 (el 32 idx i)
  let base := e.toNat % 2 ^ 20 / wb * wb
  let a := base + x.toNat * wb
  let lim := (cx s l).rgnend * 4096
  let barrier : Prop := (cx s l).baren = true ∧ lim ≤ a ∧ a < lim + 4096
  if 0 ≤ x ∧ x.toNat * wb + wb ≤ min (e.toNat / 2 ^ 32 % 2 ^ 21) (2 ^ 20) ∧ a + wb ≤ 2 ^ 20 ∧ (scatter = true → lim ≤ a) ∧ ¬barrier
    then some a else none

/-- The active lanes of a repeat: lane i takes element PART × lanes + i (R297). -/
def laneOn (w : VWord) (i : VIn) (k : Nat) : Bool := activeAt w i (w.part * min 64 w.ty.lanes + k)

/-- The bytes of the block that VMXQ makes of elements 32 j to 32 j + 31 (R54, R293). -/
def mxOf (w : VWord) (i : VIn) (j : Nat) : Nat × List Nat × Acf :=
  mxQuant ((List.range 32).map fun n => decodeF (ffOf w.ty) (el w.ty.width i.a (32 * j + n)))
    (if w.mod.getLsbD 0 then .e4m3 else .e2m1) (rmodeOf (w.mod.toNat / 2))

/-- No landing of a flight of a cluster is one that other engines see: it writes no tile register and no scratchpad byte, and raises no flag
(R149, R274). -/
def Unseen (c2 : Bool) (f : VFlight) : Prop := f.c2 = c2 → (∀ x ∈ f.writes, x.shared = false) ∧ f.acf = 0 ∧ f.oob = false

/-- When a branch of C1 or C2 issues: as `Repeats` says of a word without ports. `rot` says whether it names a register that the
rotating base moves. Where it pushes a token, no earlier word of its cluster still has a write in flight to what other clusters
read, nor flags that VSTAT is to hold (R149, R274). -/
structure Branches (w : VWord) (rot : Bool) (s : State) : Prop where
  engine : s.current.eng = .c1 ∨ s.current.eng = .c2
  user : (cx s s.current.core).handlerMode = false
  other : tokSelf s.current.eng w.tok = false
  tokens : tokWaits s s.current.core s.current.eng w.tok = []
  region : w.s = true → inGroup s s.current.core s.current.eng = true →
    (getEng s s.current.core s.current.eng).inRegion = true ∧ mayIssueS s s.current.core s.current.eng = true
  behind : w.lb = true ∨ rot = true → c0Behind s s.current.core s.current.eng (effPos s s.current.core s.current.eng) = false
  landed : w.tok.dst ≠ 0 → ∀ f ∈ (getCore s s.current.core).vfl, Unseen (s.current.eng == .c2) f

/-- A branch has issued on the state that it has acted on as `u` shows: it is taken or falls through, closes its loop where LB
is 1, takes its tokens and gives its own at once, and nothing else has changed. -/
structure Branched (w : VWord) (s u t : State) (taken : Bool) : Prop where
  pc : getPc t s.current.core s.current.eng = getPc s s.current.core s.current.eng + if taken then 12 * w.imm.signExtend 64 else 12
  pcs : ∀ m, m ≠ s.current.eng → getPc t s.current.core m = getPc s s.current.core m
  shut : w.lb = true → LoopShut s t
  counters : ∀ m, m ≠ s.current.eng ∨ w.lb = false →
    (getEng t s.current.core m).lc = (getEng s s.current.core m).lc ∧ (getEng t s.current.core m).ec = (getEng s s.current.core m).ec
  preds : ∀ c2 n, w.lb = false ∨ c2 ≠ (s.current.eng == .c2) →
    rp t s.current.core c2 n = rp s s.current.core c2 n ∧ rbOf t s.current.core c2 = rbOf s s.current.core c2
  rings : ∀ q, getRing t s.current.core q = getRing s s.current.core q
  status : ∀ e, vstat t s.current.core e = vstat u s.current.core e
  tokens : ∀ p c, p < 8 → c < 8 → Claims.tokens t s.current.core p c =
    ((Claims.tokens s s.current.core p c).1 - (if c = engCode s.current.eng then (tokSrcs w.tok).count p else 0) +
        (if p = engCode s.current.eng ∧ c = w.tok.dst.toNat ∧ c ≠ 0 then 1 else 0),
      (Claims.tokens s s.current.core p c).2)
  bytes : ∀ a, readByte t a = readByte s a
  rest : w.lb = false → modCore t s.current.core vecBare = modCore u s.current.core vecBare

/-- Whether a cluster's loop goes on (R159). -/
def goesOn (g : EngSt) : Bool := decide (g.lc ≠ 0 ∨ 1 < g.ec.toNat)

/-- The outcome of VBRP over the governing bits of A (R313). -/
def outcome (w : VWord) (p : BitVec 256) : Bool :=
  let bs := (List.range w.ty.lanes).map fun k => p.getLsbD (k * w.ty.width / 8)
  match w.mod.toNat % 4 with
  | 0 => decide (true ∈ bs)
  | 1 => decide (false ∉ bs)
  | 2 => decide (true ∉ bs)
  | _ => decide (false ∈ bs)

/-- What is left of the writes of an older flight of a cluster once a flight of it has landed (R145). -/
def overtaken (f g : VFlight) : VFlight :=
  if g.c2 = f.c2 then { g with writes := g.writes.map fun w => f.writes.foldl (fun o n => supersede n o) w } else g

/-! ### Matrix words (R315 to R351) -/

/-- When a matrix word issues, beside what its own rule asks: on C3, in a mode that allows its ports and tiles (R106, R352), with
its rings legal (R75), its tokens there (R141), no pinned word waiting before it (R339), and its place in a lockstep region
reached (R154, R156). -/
structure MatGoes (w : MWord) (op : Nat) (hOk : Bool) (s : State) : Prop where
  engine : s.current.eng = .c3
  other : tokSelf .c3 w.tok = false
  mode : modeBad s s.current.core w (portsRead op w ++ portsWritten op w ++ portsNamed op w) (tilesRead op w ++ tilesWritten op w) hOk = false
  rings : ringIllegal s s.current.core (portsRead op w) (portsWritten op w) = false
  tokens : tokWaits s s.current.core .c3 w.tok = []
  pinned : pinWaits s s.current.core = false
  region : w.s = true → inGroup s s.current.core .c3 = true → (cx s s.current.core).handlerMode = false →
    (getEng s s.current.core .c3).inRegion = true ∧ mayIssueS s s.current.core .c3 = true
  behind : w.lb = true → c0Behind s s.current.core .c3 (effPos s s.current.core .c3) = false

/-- A core without what the issue of a matrix word may touch, which a statement gives one by one. -/
def matBare (c : Core) : Core :=
  { c with
    heads := [], served := [], tk := TickNote.none
    x := { c.x with
      engs := c.x.engs.map stillEng, fifo := [], fifoRes := []
      han := { c.x.han with fifo := [], reserved := [], c3pc := none }
      run := c.x.run.map fun r => { r with epIssued := true } } }

/-- A matrix word has issued on the state that it has acted on as `u` shows: C3 goes on at `pc`, closes its loop where LB is 1,
has taken its tokens, and gives its own at once where the word is done, else reserves their place; nothing else has changed. -/
structure MatIssued (w : MWord) (s u t : State) (pc : Word) (done : Bool) : Prop where
  pc : getPc t s.current.core .c3 = pc
  pcs : ∀ m, m ≠ .c3 → getPc t s.current.core m = getPc s s.current.core m
  counters : ∀ m, let g := getEng s s.current.core m
    (getEng t s.current.core m).lc = (if m = .c3 ∧ w.lb = true ∧ g.lc ≠ 0 then g.lc - 1 else g.lc) ∧
    (getEng t s.current.core m).ec = (if m = .c3 ∧ w.lb = true ∧ g.lc = 0 ∧ g.ec ≠ 0 then g.ec - 1 else g.ec)
  tokens : ∀ p c, p < 8 → c < 8 →
    let mine : Prop := p = 5 ∧ c = w.tok.dst.toNat ∧ c ≠ 0
    Claims.tokens t s.current.core p c =
      ((Claims.tokens s s.current.core p c).1 - (if c = 5 then (tokSrcs w.tok).count p else 0) + (if done = true ∧ mine then 1 else 0),
        (Claims.tokens s s.current.core p c).2 + if done = false ∧ mine then 1 else 0)
  bytes : ∀ a, readByte t a = readByte u a
  rest : modCore t s.current.core matBare = modCore u s.current.core matBare

/-- The state with a flight behind the others. -/
def behindAll (s : State) (l : Nat) (f : C3Flight) : State := modCore s l fun c => { c with c3 := c.c3 ++ [f] }

/-- The flight of a word that has issued and not started (R316, R320): its ports' format entries are those of its issue. -/
def fresh (s : State) (op : Nat) (w : MWord) : C3Flight :=
  let l := s.current.core
  let e (q : Port) : BitVec 4 := vget 0 (cx s l).mpfmt q.toNat
  { op := op, w := w, word := s.current.word, pc := getPc s l .c3, fa := e w.aport, fb := e w.bport, fc := e w.cport
    handler := (cx s l).handlerMode, started := false, start := 0, u := none, slots := [], bof := false, smiss := false
    keep := [], due := 0, out := none, acf := 0 }

/-- Bytes of the slots of the ring of a port. -/
def zOf (s : State) (l : Nat) (q : Port) : Nat := (getRing s l q.toNat).z * 256

/-- The words that start on their issue tick, with their opcodes and what makes them legal (R332 to R338, R344, R347). -/
def startOf : Instr → Option (MWord × Nat × (State → Nat → Prop))
  | .mzero w => some (w, 2, fun _ _ => True)
  | .mfill w => some (w, 3, fun s l => wide w s l)
  | .mdrain w => some (w, 4, fun s l =>
      (getRing s l w.cport.toNat).tail % (getRing s l w.cport.toNat).z = 0 ∧
      (w.ofmt = Fmt.mxfp4.code → 17 ≤ zOf s l w.cport) ∧ (w.ofmt = Fmt.mxfp8.code → 33 ≤ zOf s l w.cport))
  | .madd w => some (w, 5, fun s l => wide w s l)
  | .mscale w => some (w, 6, fun s l => wide w s l ∧ 1024 ≤ zOf s l w.aport)
  | .mcopy w => some (w, 7, fun _ _ => True)
  | .mstat w => some (w, 9, fun s l => (getRing s l w.cport.toNat).tail % (getRing s l w.cport.toNat).z = 0)
  | .mbar w => some (w, 0xC, fun _ _ => True)
  | _ => none
where
  /-- The format entry of APORT is FP32 or INT32. -/
  wide (w : MWord) (s : State) (l : Nat) : Prop :=
    vget 0 (cx s l).mpfmt w.aport.toNat = Fmt.fp32.code ∨ vget 0 (cx s l).mpfmt w.aport.toNat = Fmt.int32.code

/-- Ticks from the start of a word to its retirement, with the bytes that it writes (R319). -/
def ticksOf (op : Nat) (w : MWord) (mx : Bool) (bytes : Nat) : Nat :=
  let mn := (w.mext.toNat + 1) * (w.next.toNat + 1)
  if op = 1 then (if mx then 16 else 32) * (w.kgrp.toNat + 1) + 7
  else if op = 2 then 4
  else if op = 3 ∨ op = 5 then (mn + 255) / 256 + 3
  else if op = 6 ∨ op = 7 then (mn + 1023) / 1024 + 3
  else if op = 4 then (bytes + 1023) / 1024 + 3
  else if op = 9 then 2 else 1

/-- The tick on which every other condition of the word at C3's head first held (R339). -/
def firstHeld (s : State) (l : Nat) : Nat :=
  let nb := (getEng s l .c3).notBefore
  if nb = 0 then now s else nb - 1

/-- Whether a pinned word that is ready on tick u starts on this tick and not late: its STAMP is this tick (R339). -/
def onTime (s : State) (w : MWord) (u : Nat) : Prop :=
  w.pin = true → (w.stamp - BitVec.ofNat 32 u).toNat < 2 ^ 31 ∧ u + (w.stamp - BitVec.ofNat 32 u).toNat = now s

/-- The status of MSTAT_C3, or of HMSTAT in handler mode, that an MSTAT writes (R347, R441). -/
def statOf (s : State) (l : Nat) : Nat :=
  if (cx s l).handlerMode then (cx s l).han.hmstat.toNat else (cx s l).mstat.toNat

/-- The bytes of a list of slots read as one number for each element of `b` bytes. -/
def nthOf (bs : List (List PByte)) (b n : Nat) : Nat := ofLE (((bs.flatten.drop (n * b)).take b).map (·.b))

/-- What a word that retires leaves in element (i, j) of its region, with whether it is poisoned; none where it writes none
(R326, R330, R332 to R334). -/
def leaves (s : State) (l : Nat) (f : C3Flight) (i j : Nat) : Option (Nat × Bool) :=
  let n := f.w.next.toNat + 1
  let old := accGet s l f.w.acct.toNat i j
  let num (x : Nat) : Int := intOf .int32 x
  let int := f.fa == Fmt.int32.code
  match f.op with
  | 1 => match pairOf f.fa f.fb, f.slots with
    | some p, a :: b :: rest => let r := mmaElem p f a b (rest.headD ⟨[], false⟩) old i j; some (r.1.v.toNat, r.1.psn)
    | _, _ => none
  | 2 => some (0, false)
  | 3 => ringElem f (i * n + j)
  | 5 => (ringElem f (i * n + j)).map fun x =>
      ((if int then (accAddInt old.v.toNat (num x.1)).1 else (accAdd old.v.toNat (decodeF .fp32 x.1)).1), old.psn || x.2)
  | 6 => (ringElem f (if f.w.imm.getLsbD 0 then i else j)).map fun x =>
      ((if int then ((max (minInt .int32) (min (maxInt .int32) ((num old.v.toNat * num x.1 + 2 ^ 30) / 2 ^ 31))) % (2 ^ 32 : Nat)).toNat
        else (roundF ((decodeF .fp32 old.v.toNat).mul (decodeF .fp32 x.1)).1 .fp32 .rne false).1), old.psn || x.2)
  | 7 => some (old.v.toNat, old.psn)
  | _ => none

/-- The tile that a word that retires writes. -/
def tileTo (f : C3Flight) : Nat := if f.op = 7 then f.w.imm.toNat % 16 else f.w.acct.toNat

/-! ### Faults, records, launches and contexts (R245 to R254, R377 to R447) -/

/-- The state with a kill of a launch asked for, at most one at a time for each (R433). -/
def killAsked (s : State) (lid : BitVec 16) (cause : BitVec 8) : State :=
  if lid = 0 ∨ ∃ p ∈ s.killPend, p.1 = lid then s else { s with killPend := s.killPend ++ [(lid, cause)] }

/-- The one record that firmware has taken under a number. -/
def TakenAs (s : State) (seq : Nat) (r : FaultRec) : Prop :=
  r ∈ s.fltTaken ∧ r.seq = seq ∧ ∀ k ∈ s.fltTaken, k.seq = seq → k = r

/-- The state without the records that firmware has taken under a number. -/
def unasked (s : State) (seq : Nat) : State := { s with fltTaken := s.fltTaken.filter fun k => k.seq != seq }

/-- What R386 puts into the registers of a core when a record of a launch starts there. -/
structure Began (s t : State) (l : Nat) (la : Launch) (q : QRec) (ep : Nat) : Prop where
  args : ∀ r : Reg, rreg t l .ap r = ([0, la.args, q.img.wid, q.img.fp, q.img.a0, q.img.a1, q.img.a2] : List Word).getD r.toNat 0
  scalars : ∀ r : Reg, r.toNat < 16 → rreg t l .c0 r = 0
  preds : ∀ e k, 0 < k → k < 8 → rk t l e k = false
  pcs : ∀ e, e ≠ .su → e ≠ .ce → getPc t l e = (la.code.getD (5 * q.img.sel.toNat + engIdx e) ⟨0, 0⟩).base
  mode : (cx t l).handlerMode = false
  loops : ∀ i, i < 2 → let p := vget (0, 0, 0, false) (cx s l).loops i
    vget (0, 0, 0, false) (cx t l).loops i = (p.1, p.2.1, p.2.2.1, false)
  waits : (getCore t l).apWait = .none ∧ (getCore t l).apWatch = none ∧ (getCore t l).apFar = [] ∧ (getCore t l).fetchFar = []
  lockstep : (cx t l).mask = 15 ∧ (cx t l).rb1 = 0 ∧ (cx t l).rb2 = 0
  launch : (cx t l).residentLid = la.lid ∧ (getCore t l).wdogCnt = 0
  run : ∃ code, (cx t l).run = some
    { img := q.img, lid := la.lid, code := code, eprio := BitVec.ofNat 2 ep, ended := none, epIssued := false, inTake := false, retired := false }
  /-- R387: on a core whose resident launch is another, the scratchpad reads 0 and the rings are unconfigured. -/
  entry : (cx s l).residentLid ≠ la.lid ∨ (getCore s l).needEntry = true → (∀ a, a < 0x100000 → readByte t (spBase l + a) = 0) ∧
    (∀ i, i < 32 → (getRing t l i).n = 0) ∧ (cx t l).asid = la.asid
  stay : (cx s l).residentLid = la.lid → (getCore s l).needEntry = false →
    (∀ a, readByte t a = readByte s a) ∧ (∀ c2 n, rv t l c2 n = rv s l c2 n) ∧ ∀ i, getRing t l i = getRing s l i

/-- The record of a core has retired: every stream is closed and no token is left (R245, R386). -/
structure Shut (t : State) (l : Nat) : Prop where
  streams : ∀ n, n < 16 → (getStream t l n).st = .closed
  tokens : (cx t l).fifo = [] ∧ (cx t l).fifoRes = [] ∧ (cx t l).boq = []
  run : ∀ r, (cx t l).run = some r → r.retired = true

/-- The retired record has left its core: nothing runs there, and its streams and tokens are as its retirement left them. -/
structure LeftCore (u t : State) (l : Nat) : Prop where
  run : (cx t l).run = none
  streams : ∀ n, getStream t l n = getStream u l n
  tokens : (cx t l).fifo = (cx u l).fifo ∧ (cx t l).fifoRes = (cx u l).fifoRes ∧ (cx t l).boq = (cx u l).boq

/-- LIVE of a launch on die 0, and TERM (R253). -/
def counts (s : State) (lid : BitVec 16) : Option (Nat × Nat × Bool) := (getLaunch s lid).map fun k => (k.items, k.live, k.term)

/-- The same once a record has left LIVE. -/
def lessOne (p : Nat × Nat × Bool) : Nat × Nat × Bool := (p.1, p.2.1 - 1, p.2.2 || decide (p.1 = 0 ∧ p.2.1 - 1 = 0))

/-- A reference of a join object has been released as `v` shows, which left COUNT at c (R246, R247): below 0 the task is killed with
0x05, above 0 the record is gone from its core and from LIVE, and at 0 `last` holds. -/
def Released (v t : State) (l : Nat) (lid : BitVec 16) (c : Int) (last : Prop) : Prop :=
  (∀ z, readByte t z = readByte v z) ∧
    (c < 0 → LeftCore v t l ∧ t.killPend = (killAsked v lid 0x05).killPend) ∧
    (0 < c → LeftCore v t l ∧ t.killPend = v.killPend ∧ counts t lid = (counts v lid).map lessOne) ∧
    (c = 0 → last)

/-- A record of an image and a launch stands behind the queue of a core as it was, entered on this tick and not yet examined; no
record of this tick stands there (R389). -/
def Queued (s t : State) (c : Nat) (img : Rec) (lid : BitVec 16) : Prop :=
  ∃ q, q.img = img ∧ q.lid = lid ∧ q.entry = now s ∧ q.watch = none ∧ q.examined = false ∧ q.held = false ∧
    ((getCore s c).back = [] ∧ (getCore s c).sram.length < 8 →
      (getCore t c).sram = (getCore s c).sram ++ [q] ∧ (getCore t c).back = []) ∧
    ((getCore s c).back ≠ [] ∨ 8 ≤ (getCore s c).sram.length →
      (getCore t c).sram = (getCore s c).sram ∧ (getCore t c).back.getLast? = some q ∧
        (getCore t c).back.length = (getCore s c).back.length + 1)

/-- No record of this tick stands in the queue of a core, which has room (R389). -/
def Room (s : State) (c : Nat) : Prop :=
  queueRoom s c = true ∧ ∀ q ∈ (getCore s c).sram ++ (getCore s c).back, q.entry ≠ now s

/-- A core holds no record and no saved context of a launch. -/
def Rid (lid : BitVec 16) (c : Core) : Prop := (∀ r ∈ coreRecs c, r.1 ≠ lid) ∧ ∀ v ∈ c.saved, v.lid ≠ lid

/-- A saved context whose record is of a launch is saved under that launch. -/
def SavedOwn (lid : BitVec 16) (c : Core) : Prop := ∀ v ∈ c.saved, ∀ r, v.ctx.run = some r → r.lid = lid → v.lid = lid

/-! ### The host port, service firmware and the package (R437 to R449, R464 to R503) -/

/-- The state with the host port changed. -/
def onHost (s : State) (f : HostPort → HostPort) : State := { s with host := f s.host }

/-- Dword `i` of the command that firmware takes next (R485). -/
def argOf (s : State) (i : Nat) : Nat := winNat s (0x4003000 + 256 * (s.host.sqHead.toNat % 16) + 8 * i) 8

/-- A well-formed command of an OP waits, firmware runs, and the response ring has room. -/
def Waits (s : State) (op : Nat) : Prop :=
  s.host.bootState = 2 ∧ s.secHalt = false ∧ s.host.sqHead ≠ s.host.sqTail ∧
    (s.host.srTail - s.host.srHead).toNat < 16 ∧ argOf s 0 = op

/-- A command done without values. -/
def okResp : Resp := { status := 0, v2 := 0, v3 := 0 }

/-- Firmware runs. -/
def Runs (s : State) : Prop := s.host.bootState = 2 ∧ s.secHalt = false

/-- The launch of a number has not ended. -/
def LiveLaunch (s : State) (lid : BitVec 16) (la : Launch) : Prop := getLaunch s lid = some la ∧ la.st ≠ .ended

/-- Bytes `bs` stand at `a`, and every other byte is as it was. -/
def Wrote (s t : State) (a : Nat) (bs : List Byte) : Prop :=
  (∀ i, i < bs.length → readByte t (a + i) = bs.getD i 0) ∧ ∀ z, z < a ∨ a + bs.length ≤ z → readByte t z = readByte s z

/-- A context as it was, but for whether it holds its core and what that makes of its budget and its reservation (R451, R453, R463). -/
def SameButTurn (c d : Ctx) : Prop := d = { c with resident := d.resident, budget := d.budget, resv := d.resv }

/-- None of `n` bytes lies in a weight store (R108, R111). -/
def OffVaults (a n : Nat) : Prop := a + n ≤ 0x10000000000 ∨ 0x10C00000000 ≤ a

/-- Where the host buffer begins (R111). -/
def bufBase : Nat := hostBase

/-! ### Episode cores and links (R450 to R478) -/

/-- ADDI rd, rs1, imm. -/
def wAddi (rd rs1 : BitVec 5) (imm : BitVec 12) : RvWord := imm ++ rs1 ++ 0#3 ++ rd ++ 0x13#7
/-- ADD, or SUB, rd, rs1, rs2. -/
def wAdd (sub : Bool) (rd rs1 rs2 : BitVec 5) : RvWord := (if sub then 0x20#7 else 0#7) ++ rs2 ++ rs1 ++ 0#3 ++ rd ++ 0x33#7
/-- LUI rd, imm. -/
def wLui (rd : BitVec 5) (imm : BitVec 20) : RvWord := imm ++ rd ++ 0x37#7

/-- The instruction at a context's pc is `w`, four bytes long, and the context is resident and ready, may run on this tick (R462), and keeps
its core. -/
def AtWord (s : State) (n : Nat) (w : RvWord) : Prop :=
  runsNow s n = true ∧ mayCredit s n = true ∧ epFetch s n = .ok (w, 4) ∧ ((getEp s (coreOfCtx n)).ran < 4096 ∨ nextReady s (coreOfCtx n) = none)

/-- A context suspended by ECALL (R452). -/
structure Called (s t : State) (n : Nat) : Prop where
  st : (getCtx t n).st = .suspended
  code : (getCtx t n).excCode = 8
  pc : (getCtx t n).pc = (getCtx s n).pc
  regs : (getCtx t n).x = (getCtx s n).x
  others : ∀ m, m ≠ n → SameButTurn (getCtx s m) (getCtx t m)
  mem : t.mem = s.mem
  cores : t.cores = s.cores

/-- A context after an instruction that writes rd and goes on. -/
structure Stepped (s t : State) (n rd : Nat) (v : Word) : Prop where
  reg : ∀ r, r < 32 → xr (getCtx t n) r = if r = rd ∧ rd ≠ 0 then v else xr (getCtx s n) r
  pc : (getCtx t n).pc = (getCtx s n).pc + 4
  instret : (getCtx t n).instret = (getCtx s n).instret + 1
  st : (getCtx t n).st = .live
  f : (getCtx t n).f = (getCtx s n).f
  boxes : (getCtx t n).actBox = (getCtx s n).actBox ∧ (getCtx t n).obsBox = (getCtx s n).obsBox ∧
    (getCtx t n).rewBox = (getCtx s n).rewBox
  others : ∀ m, m ≠ n → getCtx t m = getCtx s m
  mem : t.mem = s.mem
  cores : t.cores = s.cores

/-- The message that ends an episode (R458): STEP, GEN and TERM, the detail, and the tick. -/
def endMsg (s : State) (step : BitVec 32) (gen : BitVec 16) (term detail : Nat) : List PByte :=
  (toLE 8 (step.toNat + gen.toNat * 2 ^ 32 + term * 2 ^ 48) ++ toLE 8 detail ++ toLE 8 (now s) ++ List.replicate 232 0).map
    fun b => ⟨b, false⟩

/-- A context whose episode has ended with a terminal message (R457, R458). -/
def Ended (s t : State) (n : Nat) (m : List PByte) (term : Nat) : Prop :=
  let c := getCtx s n
  let d := getCtx t n
  d.st = .ended ∧ d.scrb = true ∧ d.term = BitVec.ofNat 3 term ∧ d.actBox = [] ∧ d.hasCur = false ∧
    d.obsBox = c.obsBox ++ (if c.checker then [] else [m]) ∧ d.rewBox = c.rewBox ++ (if c.checker then [m] else []) ∧
    (∀ k, k ≠ n → getCtx t k = getCtx s k) ∧ t.mem = s.mem ∧ t.cores = s.cores

/-- Whether the events of R462 up to step `k` may still happen for a context on this tick. -/
def InTurn (s : State) (n k : Nat) : Prop := (getCtx s n).phase.1 ≠ now s ∨ (getCtx s n).phase.2 ≤ k

/-- A response to a request flit, as this device puts it on its way (R473, R478). -/
def replyTo (s : State) (f : Flit) (kind fmt : BitVec 4) : Flit :=
  { kind := kind, ddev := f.sdev, sdev := BitVec.ofNat 9 (devNum s), score := f.score, fmt := fmt, raw := true, len := 0
    addr := f.addr, tag := f.tag, op := 0, wide := false, opnd := 0, cmp := 0, mask := BitVec.allOnes 224, page := none, key := none, strict := false
    marks := 0, acf := 0, rmw := false, fault := none, payload := [], crcOk := true }

/-- The marks of `n` bytes at an address, as a response carries them (R182). -/
def marksAt (s : State) (a n : Nat) : BitVec 224 := BitVec.ofNat 224 (ofBits ((List.range n).map fun i => readPsn s (a + i)))

/-- The fault that a request for `n` bytes meets at its home: none, where the home stands and the lock of every granule is the request's key, if
it has one (R429, R495). -/
def HomeAllows (s : State) (f : Flit) (n : Nat) : Prop :=
  f.page = none ∧ goneGran s none [(f.addr.toNat, n)] = none ∧
    ∀ k, f.key = some k → ∀ g, g % 32 = 0 → f.addr.toNat < g + 32 → g < f.addr.toNat + n → lockOf s g = k.toNat

/-! ### The whole machine -/

/-- The scalar, predicate and vector registers that read as a constant (R23, R169). -/
structure ConstantReads (s : State) (l : Nat) : Prop where
  g0 : rreg s l .ap 0 = 0
  k0 : ∀ e, rk s l e 0 = true
  p0 : ∀ c2, rp s l c2 0 = BitVec.allOnes 256

/-- The scalar registers that a program of a core sees after a device reset (R23). -/
structure CoreAtReset (s : State) (l : Nat) : Prop where
  regs : ∀ e r, rreg s l e r = 0
  preds : ∀ e k, 0 < k → rk s l e k = false
  pcs : ∀ e, getPc s l e = 0
  vregs : ∀ c2 n, rv s l c2 n = VReg.zero
  vpreds : ∀ c2 n, 0 < n → rp s l c2 n = 0
  mode : (cx s l).handlerMode = false
  asid : (cx s l).asid = 0
  streams : ∀ i, (getStream s l i).st = .closed
  rings : ∀ q, (getRing s l q).n = 0
  mask : (cx s l).mask = 0b1111
  tiles : (cx s l).tiles = [] ∧ (cx s l).acc = []
  limit : (cx s l).accLimit = 16
  matrixMode : (cx s l).hmm = false
  idle : (cx s l).run = none
  counter : (getCore s l).ackOut = 0
  queues : (getCore s l).sram = [] ∧ (getCore s l).back = [] ∧ (getCore s l).waits = [] ∧ (getCore s l).ovf = []

/-! ### Parts of statements -/

/-- Words of two register operands write D by R170 and R171, and leave all else but the program counter, the loop levels and
the place in a region alone. -/
def RegisterWordsWriteTheirResultPart : Prop :=
  ∀ (i : Instr) (k : Guard) (d a b : Reg) (f : Word → Word → Word), aluResult i = some (k, d, a, b, f) →
    ∀ s : State, Goes [.ap, .c0] k [d, a, b] true true s →
      ∃ t, exec i s = .next t ∧
        WroteReg s t d (f (rreg s s.current.core s.current.eng a) (rreg s s.current.core s.current.eng b))

/-- Words of one register operand, with or without an immediate, write D by R170 and R173. -/
def ImmediateWordsWriteTheirResultPart : Prop :=
  ∀ (i : Instr) (k : Guard) (d a : Reg) (f : Word → Word), aluUnResult i = some (k, d, a, f) →
    ∀ s : State, Goes [.ap, .c0] k [d, a] true true s →
      ∃ t, exec i s = .next t ∧ WroteReg s t d (f (rreg s s.current.core s.current.eng a))

/-- BEXT and BINS write D by R172: the field that B gives, taken from A, or put from A into D. -/
def BitFieldWordsPart : Prop :=
  ∀ (k : Guard) (d a b : Reg) (s : State), Goes [.ap, .c0] k [d, a, b] true true s →
    let l := s.current.core
    let e := s.current.eng
    let va := rreg s l e a
    let vb := rreg s l e b
    let vd := rreg s l e d
    let pos := vb.toNat % 64
    (∃ t, exec (.bext k d a b) s = .next t ∧ WroteReg s t d (BitVec.ofNat 64 (va.toNat / 2 ^ pos % 2 ^ fieldW vb))) ∧
    ∃ t v, exec (.bins k d a b) s = .next t ∧ WroteReg s t d v ∧
      ∀ n, n < 64 → v.getLsbD n = if pos ≤ n ∧ n < pos + fieldW vb then va.getLsbD (n - pos) else vd.getLsbD n

/-- LUI, ADDPC, TICK and CSRR write D by R174, R209 and R203; a CSRR of CONV_RMW or CONV_ACF on the AP does so once the
counts and flags of earlier accesses are known (R128). -/
def ConstantTickAndCsrReadsPart : Prop :=
  ∀ (i : Instr) (k : Guard) (d : Reg) (f : State → Nat → Eng → Word), constResult i = some (k, d, f) →
    ∀ s : State, Goes [.ap, .c0] k [d] true true s →
      (∀ n, i = .csrr k d n → FlagsKnown s s.current.core s.current.eng n.toNat) →
      ∃ t, exec i s = .next t ∧ WroteReg s t d (f s s.current.core s.current.eng)

/-- Words of the predicate group write kD by R175. -/
def PredicateWordsWriteTheirResultPart : Prop :=
  ∀ (i : Instr) (k : Guard) (d : Reg) (rs : List Reg) (f : State → Nat → Eng → Bool), predResult i = some (k, d, rs, f) →
    wf i = true → ∀ s : State, Goes [.ap, .c0] k (d :: rs) true false s →
      let l := s.current.core
      let e := s.current.eng
      ∃ t, exec i s = .next t ∧
        After s t l e (rreg s l e) (withPred s l e d (f s l e)) (nextPc s l e) (nextLevels s l e)

/-- JAL and JALR write the link PC + 4 to D and go to their target, taken from the registers as they were (R189). -/
def JumpWordsPart : Prop :=
  ∀ (i : Instr) (k : Guard) (d : Reg) (rs : List Reg) (f : State → Nat → Eng → Word), jumpOf i = some (k, d, rs, f) →
    ∀ s : State, Goes [.ap, .c0] k (d :: rs) true true s →
      let l := s.current.core
      let e := s.current.eng
      ∃ t, exec i s = .next t ∧ Left s s t (withReg s l e d (getPc s l e + 4)) (f s l e)

/-- LOOP traps as illegal where R192 and R195 say; else it skips its body on a count of 0, or opens the innermost free level. -/
def LoopWordPart : Prop :=
  ∀ (k : Guard) (a : Reg) (imm : BitVec 12) (s : State),
    let l := s.current.core
    let pc := getPc s l .ap
    let cnt := (rreg s l .ap a).extractLsb' 0 32
    let lv : Nat := if (vget (0, 0, 0, false) (cx s l).loops 0).2.2.2 then 1 else 0
    (LoopStops s → exec (.loop k a imm) s = .next (illegal s)) ∧
    (¬LoopStops s → Goes [.ap] k [a] false false s → ∃ t, exec (.loop k a imm) s = .next t ∧
      if cnt = 0 then Left s s t (rreg s l .ap) (pc + 4 * (imm.signExtend 64 + 1))
      else Acted s (modX s l fun x => { x with loops := vset x.loops lv (pc + 4, cnt, imm.extractLsb' 0 11, true) }) t)

/-- LOOPC closes C0's loop and branches while it goes on (R220, R159); ROTCLR sets the rotating bases it names to 0 (R219). -/
def LoopCloseAndRotationWordsPart : Prop :=
  ∀ (k : Guard) (off : BitVec 22) (mask : BitVec 2) (s : State),
    let l := s.current.core
    let t0 := getEng s l .c0
    (Goes [.c0] k [] false false s → ∃ t, exec (.loopc k off) s = .next t ∧
      if t0.lc ≠ 0 ∨ 1 < t0.ec.toNat then Left s (loopClosed s l .c0) t (rreg s l .c0) (getPc s l .c0 + 4 * off.signExtend 64)
      else Acted s (loopClosed s l .c0) t) ∧
    (Goes [.c0] k [] false true s → ∃ t, exec (.rotclr k mask) s = .next t ∧
      Acted s (modX s l fun x => { x with rb1 := if mask.getLsbD 0 then 0 else x.rb1
                                          rb2 := if mask.getLsbD 1 then 0 else x.rb2 }) t)

/-- BQPUSH pushes predicate kA into the queue to D while it holds fewer than 16 entries (R197); BRQ pops the oldest entry of the
queue from D that was pushed on an earlier tick, and branches when it is 1 (R198). Another engine code is illegal. -/
def BranchQueueWordsPart : Prop :=
  ∀ (k : Guard) (d a : Reg) (imm : BitVec 12) (s : State),
    let l := s.current.core
    let e := s.current.eng
    (¬boqPeer e d → exec (.bqpush k d a) s = .next (illegal s) ∧ exec (.brq k d imm) s = .next (illegal s)) ∧
    (boqPeer e d → Goes [.ap, .c0] k [] false false s →
      let q := tget [] (cx s l).boq (8 * engCode e + d.toNat)
      (q.length < 16 → ∃ t, exec (.bqpush k d a) s = .next t ∧
        Acted s (withBoq s l (engCode e) d.toNat (q ++ [(rk s l e a.toNat, now s)])) t) ∧
      ∀ b n p, tget [] (cx s l).boq (8 * d.toNat + engCode e) = (b, n) :: p → n < now s →
        let u := withBoq s l d.toNat (engCode e) p
        ∃ t, exec (.brq k d imm) s = .next t ∧
          if b then Left s u t (rreg u l e) (getPc s l e + 4 * imm.signExtend 64) else Acted s u t)

/-- TKSIG adds a token to the FIFO to D, where no older access of the AP is left to perform and an entry is free (R201); TKWAIT
takes one from the FIFO of D (R202). An engine's own code, and in handler mode the codes without a handler FIFO, are illegal. -/
def TokenWordsPart : Prop :=
  ∀ (k : Guard) (d : Reg) (s : State),
    let l := s.current.core
    let e := s.current.eng
    let ok := d.toNat ≠ engCode e ∧ ((cx s l).handlerMode = true → d = 1 ∨ d = 2 ∨ d = 5)
    (¬ok → exec (.tksig k d) s = .next (illegal s) ∧ exec (.tkwait k d) s = .next (illegal s)) ∧
    (ok → Goes [.ap, .c0] k [] true false s →
      (let n := tokens s l (engCode e) d.toNat
       n.1 + n.2 < 8 → (e = .ap → (getCore s l).apq = []) → ∃ t, exec (.tksig k d) s = .next t ∧
         Acted s (withTokens s l (engCode e) d.toNat (n.1 + 1)) t) ∧
      (let n := tokens s l d.toNat (engCode e)
       0 < n.1 → ∃ t, exec (.tkwait k d) s = .next t ∧
         Acted s (withTokens s l d.toNat (engCode e) (n.1 - 1)) t))

/-- EASE sets the ease of one buffer, and SYNCG the mask and the ease of the buffers it names, at once or, while other members
are in a region, for the next rendezvous; C0 leaves its region if no other member is in it (R217, R218, R153). A SYNCG whose
mask holds C0 then waits as at an S-word, until the rendezvous at which it retires (R152). That C0 leaves its region only where no other
member is in it is the model's choice (notes/assumptions/38.md). -/
def SyncWordsPart : Prop :=
  ∀ (k : Guard) (d : Reg) (n : BitVec 8) (mask : BitVec 4) (s : State), Goes [.c0] k [] false false s →
    let l := s.current.core
    let u := askedNow (c0Out s l) l (some mask) (syncBufs mask) n
    (∃ t, exec (.ease k d n) s = .next t ∧ Acted s (askedNow s l none [d.toNat] n) t) ∧
    ((getEng s l .c0).atS = false → mask.getLsbD 0 = false → ∃ t, exec (.syncg k mask n) s = .next t ∧ Acted s u t) ∧
    ((getEng s l .c0).atS = false → mask.getLsbD 0 = true → ∃ t, exec (.syncg k mask n) s = .next t ∧
      After (modEng u l .c0 fun t => { t with atS := true }) t l .c0 (rreg s l .c0) (rk s l .c0) (getPc s l .c0) (cx s l).loops) ∧
    ((getEng s l .c0).atS = true → ∃ t, exec (.syncg k mask n) s = .next t ∧
      After s t l .c0 (rreg s l .c0) (rk s l .c0) (getPc s l .c0) (cx s l).loops)

/-- LOCKSTEP_RENDEZVOUS: when no member other than C0 is in a region and every unfinished member of the new mask waits at an
S-word, what was asked for takes effect and those members enter a region at position 0; C0's SYNCG is its position-0 word and
retires (R152, R153). After a stop the members whose next words are S-words meet without the others, once each has shown its next word,
and C0 goes on with the word at which it stood (R157, R439). That a new mask without an unfinished member takes effect at once, with no
one in a region, and how the members meet after a stop are the model's choices (notes/assumptions/38.md). -/
def LockstepRendezvousPart : Prop :=
  ∀ (l : CoreNum) (s : State),
    let n := l.toNat
    let s0 := c0Out s n
    let u := installed s0 n
    let at' (e : Eng) : Prop := (getEng s0 n e).atS = true ∧ (getEng s0 n e).inRegion = false
    (cx s n).handlerMode = false → ¬OthersIn s n → (members u n ≠ [] ∨ (cx s n).maskNext ≠ none) →
    (∀ e ∈ members u n, at' e ∨ ((cx s n).meet = true ∧ (getEng s0 n e).rejoin = false)) →
    (members u n = [] ∨ ∃ e ∈ members u n, at' e) →
    ((getEng s n .c0).inRegion = false → (getEng s n .c0).pos = 0) →
      ∃ t, exec (.lockstepRendezvous l) s = .next t ∧
        (∀ e, e ∈ members u n → at' e → getEng t n e =
          let first : Bool := e == .c0 && !(getEng s0 n .c0).rejoin
          { getEng s0 n e with inRegion := true, atS := false, ready := false, granted := false, slow := false, rejoin := false, pos0 := 0
                               pos := if first then 1 else 0
                               pc := if first then (getEng s n e).pc + 4 else (getEng s n e).pc }) ∧
        (∀ e, ¬(e ∈ members u n ∧ at' e) → getEng t n e = getEng s0 n e) ∧
        (cx t n).mask = (cx u n).mask ∧ (cx t n).ease = (cx u n).ease ∧ (cx t n).maskNext = none ∧ (cx t n).meet = false ∧
        (∀ m, m ≠ n → getCore t m = getCore s m) ∧ ∀ a, readByte t a = readByte s a

/-- A store or atomic to the barrier region in user mode traps precisely as a privilege violation, and writes nothing (R180). -/
def BarrierRegionStoresTrapPart : Prop :=
  ∀ (i : Instr) (m : MemW), memOf i = some m → ∀ s : State, Goes [.ap] m.k m.regs true false s →
    let l := s.current.core
    (cx s l).handlerMode = false → isStore (m.kind s l) = true → (m.ea s l).toNat < 0x100000 →
    InBarrier s l (m.ea s l).toNat m.n → exec i s = .next (privTrap s)

/-- FENCE and QALIGN access no memory, and with nothing older under way they are over at once (R183, R188). -/
def FenceWordsPart : Prop :=
  ∀ (k : Guard) (sc : BitVec 3) (s : State), Goes [.ap] k [] true false s → Clear s s.current.core →
    (Acked s s.current.core (.fence sc.toNat) →
      ∃ t, exec (.fence k sc) s = .next t ∧ Acted s (numbered s s.current.core) t) ∧
    ∃ t, exec (.qalign k) s = .next t ∧ Acted s (numbered s s.current.core) t

/-- CSRW and CSRX write a CSR under its access types, and CSRX puts its old value into D (R203, R204); on the AP a write of LC or
EC is illegal (R221), and in user mode a write of a register that user mode may not write is a privilege trap. A write of CONV_RMW or
CONV_ACF by the AP follows the counts and flags of its earlier accesses (R128). -/
def CsrWriteWordsPart : Prop :=
  ∀ (k : Guard) (d : Reg) (n : BitVec 12) (s : State),
    let l := s.current.core
    let e := s.current.eng
    let v := rreg s l e d
    let u := csrWritten s l n.toNat v
    (e = .ap → 0x080 ≤ n.toNat → n.toNat ≤ 0x087 →
      exec (.csrw k d n) s = .next (illegal s) ∧ exec (.csrx k d n) s = .next (illegal s)) ∧
    ((e = .ap → ¬(0x080 ≤ n.toNat ∧ n.toNat ≤ 0x087)) → Goes [.ap, .c0] k [d] true true s → FlagsKnown s l e n.toNat →
      ((cx s l).handlerMode = false → ¬UserCsr n.toNat →
        (e = .c0 → c0InRegion s l = false ∧ (getEng s l .c0).rejoin = false) →
        exec (.csrw k d n) s = .next (privTrap s) ∧ exec (.csrx k d n) s = .next (privTrap s)) ∧
      (((cx s l).handlerMode = false → UserCsr n.toNat) → (n.toNat = 0x0C9 → v.getLsbD 1 = false → C3Quiet s l) →
        (∃ t, exec (.csrw k d n) s = .next t ∧ Acted s u t) ∧
        ∃ t, exec (.csrx k d n) s = .next t ∧
          After u t l e (withReg s l e d (csrRead s l n.toNat)) (rk u l e) (nextPc u l e) (nextLevels u l e)))

/-- A write of a CSR leaves what every other CSR reads as it was. -/
def CsrWritesAreSeparatePart : Prop :=
  ∀ (s : State) (l n m : Nat) (v : Word), n ≠ m → csrRead (csrWrite s l n v) l m = csrRead s l m

/-- What a CSR reads after a write: RW fields take the value, W1C fields lose the bits written 1 but for those of VSTAT and MSTAT_C3
that were set on the same tick (R274, R324), RO fields and reserved bits keep theirs (R6, R204). -/
def CsrWritesReadBackPart : Prop :=
  ∀ (s : State) (l : Nat) (v : Word),
    let rd (n : Nat) : Word := csrRead (csrWrite s l n v) l n
    let tk := (getCore s l).tk
    (∀ n, 0x100 ≤ n → n < 0x140 → rd n = v &&& 0x1FFFFFFFFFF#64) ∧
    (∀ n, n = 0x070 ∨ n = 0x072 ∨ n = 0x0C5 ∨ n = 0x0C6 → rd n = v) ∧
    (∀ n, n = 0x071 ∨ n = 0x073 → rd n = v &&& 0x800007FFFFFFFFFF#64) ∧
    (∀ n, 0x080 ≤ n → n ≤ 0x083 → rd n = v &&& 0xFFFFFFFF#64) ∧
    (∀ n, 0x084 ≤ n → n ≤ 0x087 → rd n = v &&& 0xFF#64) ∧
    (∀ n, n = 0x0C7 ∨ n = 0x0C8 ∨ n = 0x0CD → rd n = v &&& ~~~63#64) ∧
    rd 0x090 = csrRead s l 0x090 &&& (~~~(v &&& 0x7F#64) ||| tk.vset1.setWidth 64) ∧
    rd 0x091 = csrRead s l 0x091 &&& (~~~(v &&& 0x7F#64) ||| tk.vset2.setWidth 64) ∧
    rd 0x043 = csrRead s l 0x043 &&& ~~~(v &&& 0x1F#64) ∧
    rd 0x0B1 = csrRead s l 0x0B1 &&& (~~~(v &&& 0xFF#64) ||| tk.mset) ∧
    rd 0x0CE = csrRead s l 0x0CE &&& ~~~(v &&& 0xFF#64) ∧
    (v.toNat % 32 ≤ 16 → rd 0x044 = v &&& 0x1F#64) ∧
    rd 0x0B0 = v &&& 1#64 ∧
    rd 0x0C9 = (csrRead s l 0x0C9 &&& 1#64) ||| (v &&& 2#64) ∧
    rd 0x0E0 = v &&& 2#64 ∧
    ∀ n, n = 0x010 ∨ n = 0x040 ∨ n = 0x041 ∨ n = 0x0A0 ∨ n = 0x0A4 ∨ n = 0x0C0 ∨ n = 0x0C1 ∨ n = 0x0CA ∨ n = 0x0D3 →
      csrWrite s l n v = s

/-- A trap (R435, R436): in user mode at a bundle boundary it is entered, where no engine of a lower code can raise one on that
tick; else it waits, and of two that wait since one tick the one of the lower engine code stands. With a vector of 0 it kills the
task with cause 0x02, and in handler mode with cause 0x03. -/
def TakingATrapPart : Prop :=
  ∀ (s : State) (l : Nat) (x : Trap),
    let killed (t : State) (cause : BitVec 8) : Prop :=
      runLid s l ≠ 0 → (∀ p ∈ s.killPend, p.1 ≠ runLid s l) → t.killPend = s.killPend ++ [(runLid s l, cause)]
    (Settled s l x.eng → (cx s l).tvecAp ≠ 0 → (cx s l).tvecC0 ≠ 0 →
      InHandler s (takeTrap s l x) l x.eng x.cause x.code x.pc x.word x.epc) ∧
    (Settled s l x.eng → (cx s l).tvecAp = 0 ∨ (cx s l).tvecC0 = 0 →
      killed (takeTrap s l x) 0x02 ∧ (cx (takeTrap s l x) l).handlerMode = false) ∧
    ((cx s l).handlerMode = true → killed (takeTrap s l x) 0x03 ∧ (cx (takeTrap s l x) l) = cx s l) ∧
    ((cx s l).handlerMode = false → (getCore s l).trap = none →
      atBoundary s l (some x.eng) = false ∨ lowestRaiser s l x.eng = false →
      (getCore (takeTrap s l x) l).trap = some { x with tick := now s } ∧ cx (takeTrap s l x) l = cx s l) ∧
    ∀ u, (cx s l).handlerMode = false → (getCore s l).trap = some u → u.tick = now s →
      (getCore (takeTrap s l x) l).trap = (if engCode x.eng < engCode u.eng then some { x with tick := now s } else some u) ∧
        cx (takeTrap s l x) l = cx s l

/-- The precise traps of R121, R205, R211 and R258 name their word: TPC and the engine's EPC are the word's address. -/
def PreciseTrapsNameTheirWordPart : Prop :=
  ∀ (s : State), let l := s.current.core
    let e := s.current.eng
    Settled s l e → (cx s l).tvecAp ≠ 0 → (cx s l).tvecC0 ≠ 0 →
      InHandler s (illegal s) l e 0x01 0 (getPc s l e) s.current.word (getPc s l e) ∧
      InHandler s (privTrap s) l e 0x02 0 (getPc s l e) s.current.word (getPc s l e) ∧
      InHandler s (streamTrap s) l e 0x03 0 (getPc s l e) s.current.word (getPc s l e) ∧
      InHandler s (barrierTrap s) l e 0x04 0 (getPc s l e) s.current.word (getPc s l e)

/-- TRAP raises the breakpoint trap with its code; the engine's EPC is PC + 4 (R206). -/
def TrapWordPart : Prop :=
  ∀ (k : Guard) (code : BitVec 12) (s : State), Goes [.ap, .c0] k [] true false s →
    let l := s.current.core
    let e := s.current.eng
    Settled s l e → (cx s l).tvecAp ≠ 0 → (cx s l).tvecC0 ≠ 0 →
      ∃ t, exec (.trap k code) s = .next t ∧ InHandler s t l e 0x05 code (getPc s l e) s.current.word (getPc s l e + 4)

/-- TRET (R207, R439, R441): the first of the AP and C0 waits for the other; with the second the handler ends, its tokens that still wait
are discarded (R438), and as the next tick begins the core is in user mode with every engine at its EPC. -/
def ReturnFromTrapPart : Prop :=
  ∀ (k : Guard) (s : State), Goes [.ap, .c0] k [] true false s →
    let l := s.current.core
    let e := s.current.eng
    let o : Eng := if e = .ap then .c0 else .ap
    (cx s l).handlerMode = true → C3Quiet s l →
      ∃ t, exec (.tret k) s = .next t ∧
        (∀ m r, rreg t l m r = rreg s l m r) ∧ (∀ m j, rk t l m j = rk s l m j) ∧ (∀ a, readByte t a = readByte s a) ∧
        (cx t l).handlerMode = true ∧ (getEng t l e).holds = true ∧ getPc t l e = getPc s l e ∧ (cx t l).epc = (cx s l).epc ∧
        ((getEng s l o).holds = true →
          (cx t l).han.leave = true ∧ (∀ q ∈ (getCore t l).apq, isSig q.kind = false) ∧
          ∀ u : State, (cx u l).han.leave = true → (getCore u l).vfl = [] → (getCore u l).c3 = [] →
            let v := beginCore u l
            (cx v l).handlerMode = false ∧ (∀ m, m ≠ .su → m ≠ .ce → getPc v l m = vget 0 (cx u l).epc (engIdx m)) ∧
              (getEng v l .ap).holds = false ∧ (getEng v l .c0).holds = false ∧ (cx v l).han.fifo = [] ∧ (cx v l).han.reserved = [] ∧
              (∀ m r, rreg v l m r = rreg u l m r) ∧ (∀ m j, rk v l m j = rk u l m j) ∧ ∀ a, readByte v a = readByte u a)

/-- HALT in handler mode with no word in flight stops the AP and C0, and changes no other state (R208). -/
def HaltWordPart : Prop :=
  ∀ (k : Guard) (s : State), Goes [.ap] k [] true false s →
    let l := s.current.core
    (cx s l).handlerMode = true → (getCore s l).apq = [] → (getCore s l).vfl = [] → (getCore s l).c3 = [] →
    (∀ e ∈ clusters, (getEng s l e).rep = 0) →
      ∃ t, exec (.halt k) s = .next t ∧ Acted s (modCore s l fun c => { c with halted := true }) t

/-- TRET, HALT, TLBINV and ASIDRET are precise privilege traps in user mode (R205). -/
def PrivilegedWordsTrapInUserModePart : Prop :=
  ∀ (k : Guard) (d : Reg) (n : BitVec 12) (s : State), (cx s s.current.core).handlerMode = false →
    (Goes [.ap, .c0] k [] true false s →
      (s.current.eng = .c0 → c0InRegion s s.current.core = false ∧ (getEng s s.current.core .c0).rejoin = false) →
      exec (.tret k) s = .next (privTrap s)) ∧
    (Goes [.ap] k [] true false s → exec (.halt k) s = .next (privTrap s)) ∧
    (Goes [.ap] k [d] true false s →
      exec (.tlbinv k d n) s = .next (privTrap s) ∧ exec (.asidret k d) s = .next (privTrap s))

/-- TLBINV drops the issuing core's entries (R213): those of the walk cache that an address names are those whose part of the tree
translates it, which is the model's choice (notes/assumptions/13.md); ASIDRET starts a retirement (R214), whose end and a SHOOTDOWN (R422) drop the
entries of every core. -/
def InvalidationWordsPart : Prop :=
  ∀ (s : State),
    let l := s.current.core
    let all (u : State) (asid : Option (BitVec 12)) (va : Option Nat) : State :=
      { u with cores := u.cores.map fun c => (c.1, invalidated asid va c.2) }
    (∀ (k : Guard) (d : Reg) (n : BitVec 12), Goes [.ap] k [d] true false s → (cx s l).handlerMode = true →
      let v := rreg s l .ap d
      (apPerformed s l 3 = true → ∃ t, exec (.tlbinv k d n) s = .next t ∧
        Acted s (modCore s l (invalidated (some n) (if v = 0 then none else some (v.toNat % 2 ^ 48)))) t) ∧
      (s.retBusy = false → ∃ t, exec (.asidret k d) s = .next t ∧
        Acted s { s with retAsid := v.extractLsb' 0 12, retBusy := true } t)) ∧
    (s.retBusy = true → (∀ x ∈ s.launches, x.asid = s.retAsid → x.st = .ended) →
      exec .asidRetirement s = .next { all s (some s.retAsid) none with retBusy := false }) ∧
    ∀ (asid : Option (BitVec 12)) (va : Option (BitVec 48)), (∀ t ∈ s.transit, t.performed = true) →
      exec (.shootdown asid va) s = .next (all s asid (va.map (·.toNat)))

/-- SPCFG installs a partition that R216 allows once no access of the AP to the scratchpad is pending; one that it does not allow,
also because a barrier waiter is registered, is the precise stream-state fault. That only accesses to offsets below 2^20 count as accesses
of the AP to the scratchpad is the model's choice (notes/assumptions/13.md). -/
def PartitionWordPart : Prop :=
  ∀ (k : Guard) (d : Reg) (s : State), Goes [.ap] k [d] true false s →
    let l := s.current.core
    let v := rreg s l .ap d
    (SpcfgBad s l v → exec (.spcfg k d) s = .next (streamTrap s)) ∧
    (¬SpcfgBad s l v → (∀ q ∈ (getCore s l).apq, accKind q.kind ≠ none → 0x100000 ≤ q.ea.toNat) →
      ∃ t, exec (.spcfg k d) s = .next t ∧
        Acted s (modX s l fun x => { x with rgnend := v.toNat % 512, baren := v.getLsbD 9 }) t)

/-- TRAP_ENTRY enters a raised trap once every engine stands at a bundle boundary and no engine of a lower code can raise one on its
tick (R435, R436); a watchdog or pre-emption trap names the AP's first unissued word. WATCHDOG raises the watchdog trap when the
count reaches WDOG_LIMIT × 65,536 (R442); that TWORD0 to TWORD2 of this trap are 0 is the model's choice (log 86). -/
def TrapEntryAndWatchdogPart : Prop :=
  ∀ (l : CoreNum) (s : State),
    let n := l.toNat
    (∀ t, (getCore s n).trap = some t → (cx s n).handlerMode = false → atBoundary s n (some t.eng) = true →
      (t.tick < now s ∨ lowestRaiser s n t.eng = true) →
        exec (.trapEntry l) s = .next (enterTrap s n
          (if t.cause = 7 ∨ t.cause = 8 then { t with pc := getPc s n .ap, epc := getPc s n .ap } else t))) ∧
    ((getCore s n).wdogLimit ≠ 0 → (getCore s n).wdogLimit.toNat * 65536 ≤ (getCore s n).wdogCnt → (cx s n).handlerMode = false →
      (cx s n).run ≠ none → dying s (runLid s n) = false →
        let pc := getPc s n .ap
        exec (.watchdog l) s = .next (takeTrap s n { cause := 0x07, eng := .ap, code := 0, pc := pc, word := 0, epc := pc, tick := 0 }))

/-- HPC_C3_WRITE starts the handler fetch of C3 that a write of HPC_C3 asked for (R441); CLS_CLEAR zeroes the counters on a tick after
that of the write of CLR (R489). -/
def HandlerFetchAndCounterClearPart : Prop :=
  ∀ (l : CoreNum) (s : State),
    let n := l.toNat
    ((cx s n).han.start = true → (cx s n).handlerMode = true → (cx s n).hmm = true →
      exec (.hpcC3Write l) s =
        .next (modX s n fun x => { x with han := { x.han with c3pc := some x.han.hpc, start := false } })) ∧
    ∀ t, (cx s n).clsClr = some t → exec (.clsClear l) s = .next
      (if t < now s then modX s n fun x => { x with cls := [], clsClr := none } else s)

/-- Stream words have their effect by R93 to R101. What the rules leave open is the model's choice: SOPEN of a register with a descriptor
that SCFG would not load faults (log 82), and so does one with a sharding descriptor that cannot be used (log 19); SCLOSE drops owed
tokens (log 81); SBASE keeps an owed bind-off before the new pass (log 18); SREWIND drops one, the count toward the next TKN token
starts again with a pass, and SWAIT .boe faults while EOSP is 0 (log 90). -/
def StreamWordsActPart : Prop := AllAct streamOf

/-- Forks and restores have their effect by R99 and R101. What the rules leave open is the model's choice: what a record has no field for
(logs 19 and 90), which rings a fork asks for (log 83) and the token that a copy needs (log 20). -/
def StreamCopyWordsActPart : Prop := AllAct copyStreamOf

/-- Stream and ring words on a stream or ring in the wrong state, or on an object that R224 rejects, are precise stream-state
faults; which of them the model adds is said in logs 19, 79, 82, 83 and 90. -/
def StreamStateFaultsPart : Prop := AllFault streamOf ∧ AllFault copyStreamOf ∧ AllFault ringOf

/-- Ring words have their effect by R231 to R235. -/
def RingWordsActPart : Prop := AllAct ringOf

/-- What the ring operations do to a slot's full bit (R72 to R74, R77): HEAD freed is empty and the bind-off bit goes with the
bind-off slot; TAIL filled is full; every other slot keeps its bit; and HEAD and TAIL move on by one slot. -/
def RingSlotsPart : Prop :=
  ∀ (r : Ring), 0 < r.n → r.n ≤ 256 → 0 < r.z → r.head < r.n → r.tail < r.n * r.z → r.tail % r.z = 0 →
    (∀ i, i < r.n → (r.freeHead.isFull i = true ↔ i ≠ r.head ∧ r.isFull i = true)) ∧
    r.freeHead.head = (r.head + 1) % r.n ∧ r.freeHead.cur = 0 ∧ r.freeHead.tail = r.tail ∧
    (r.freeHead.boff = true ↔ r.boff = true ∧ r.isBoff r.head = false) ∧
    (let f := (r.setFe r.tailSlot true).advTail
     (∀ i, i < r.n → (f.isFull i = true ↔ i = r.tailSlot ∨ r.isFull i = true)) ∧
     f.tailSlot = (r.tailSlot + 1) % r.n ∧ f.tail % r.z = 0 ∧ f.tail < r.n * r.z ∧ f.head = r.head ∧ f.boff = r.boff)

/-- COPYW hands its transfer to the CE and waits for its end (R239); once the transfer has left the CE, which wrote D, it goes
on. -/
def CopyAndWaitWordPart : Prop :=
  ∀ (k : Guard) (d a : Reg) (s : State), Goes [.ap] k [d, a] true false s →
    let l := s.current.core
    let v := rreg s l .ap a
    (apFree s l → Idle s l → ObjAt s l v 32 → CleanAt s l v 32 → ¬copyBad (objVal s l v 32) → (getCore s l).ce.length < 4 →
      ∃ t, exec (.copyw k d a) s = .next t ∧ getPc t l .ap = getPc s l .ap ∧ (getCore t l).apWait = .copyw ∧
        (getCore t l).ce = (getCore s l).ce ++ [asked' (objVal s l v 32) v.toNat false (some d)] ∧
        (∀ r, rreg t l .ap r = rreg s l .ap r) ∧ ∀ x, readByte t x = readByte s x) ∧
    ((getCore s l).apWait = .copyw → (∀ x ∈ (getCore s l).ce, x.ret = none) →
      ∃ t, exec (.copyw k d a) s = .next t ∧ Acted s (modCore s l fun c => { c with apWait := .none }) t)

/-- WAITF writes what it reads once that is at least B. The 64th poll that finds less registers a watch of the line where the record
may park; the next that finds less parks the record, and every other poll waits (R249). -/
def WaitForValueWordPart : Prop :=
  ∀ (k : Guard) (d a b : Reg) (s : State), Goes [.ap] k [d, a, b] false false s →
    let l := s.current.core
    let ea := rreg s l .ap a
    Idle s l → (getCore s l).apFlt = .clear → (ea.toNat % 8 = 0 ∨ classify ea = .bad) →
    ∀ (p : Spot) (u w : State) (x : Nat), apSpot s l ea 8 .read = .ok p u → spotNat u l ea p = .ok x w →
      let n := match (getCore s l).apWait with
        | .polling n => n
        | _ => 0
      let on (m : ApWait) (v : Option (Nat × Bool)) : State := modCore w l fun c => { c with apWait := m, apWatch := v }
      let waits (v : State) : Prop := ∃ t, exec (.waitf k d a b) s = .next t ∧
        After v t l .ap (rreg w l .ap) (rk w l .ap) (getPc w l .ap) (cx w l).loops
      ((rreg w l .ap b).toNat ≤ x → ∃ t, exec (.waitf k d a b) s = .next t ∧
        After (on .none none) t l .ap (withReg w l .ap d (BitVec.ofNat 64 x)) (rk w l .ap) (nextPc w l .ap) (nextLevels w l .ap)) ∧
      (x < (rreg w l .ap b).toNat →
        ((getCore w l).apWatch = none → (n ≠ 63 ∨ mayPark w l = false) → waits (on (.polling (n + 1)) none)) ∧
        ((getCore w l).apWatch = none → n = 63 → mayPark w l = true → waits (on (.polling 64) (some (spotLine l p, false)))) ∧
        ∀ v, (getCore w l).apWatch = some v → ∃ t, exec (.waitf k d a b) s = .next t ∧
          Acted s (ending (on .none none) l (.waitf v.1 v.2)) t)

/-- What the barrier words do to an object at its home (R257 to R260): the words PHASE, EXPECT, ARRC, ARRN and the four STATs, and no byte
outside the object's 64. BARARR may flip once or twice. BARWAIT gives the status of a phase that has ended, or STALE from a difference of 3
on; it waits, registered, for the phase in progress and the next one, and is refused for a later one. The place of 64 registered
waiters is the model's reading (log 39). -/
def BarrierObjectsPart : Prop :=
  ∀ (s : State) (h n core : Nat) (b : Word), MemOk s → (cx s h).baren = true → n < 64 → h < 192 → (cx s h).rgnend < 256 →
    let word (t : State) (i : Nat) : BitVec 32 := barGet t h n i
    let p := b.extractLsb' 0 32
    let st := b.extractLsb' 32 32
    let d := (p - word s 0).toNat
    let outside (t : State) : Prop := ∀ a, ¬(barAddr s h n ≤ a ∧ a < barAddr s h n + 64) → readByte t a = readByte s a
    (p ≠ 0 → b.toNat < 2 ^ 32 → (∀ w ∈ (getCore s h).waiters, w.obj = n → w.registered = false) →
      ∃ t, barAct s h n core 0 b = (t, .got 0) ∧ outside t ∧ ∀ i, i < 8 → word t i = if i = 1 then p else 0) ∧
    (d = 0 → word s 2 + 1 ≠ word s 1 → ∃ t, barAct s h n core 1 b = (t, .got 0) ∧ outside t ∧
      ∀ i, i < 8 → word t i = if i = 2 then word s 2 + 1 else if i = 4 + p.toNat % 4 then word s i ||| st else word s i) ∧
    (d = 1 → (word s 3).toNat < (word s 1).toNat → word s 2 ≠ word s 1 →
      ∃ t, barAct s h n core 1 b = (t, .got 0) ∧ outside t ∧
        ∀ i, i < 8 → word t i = if i = 3 then word s 3 + 1 else if i = 4 + p.toNat % 4 then word s i ||| st else word s i) ∧
    (d = 0 → word s 2 + 1 = word s 1 → word s 3 ≠ word s 1 → ∃ t, barAct s h n core 1 b = (t, .got 1) ∧ outside t ∧
      ∀ i, i < 8 → word t i =
        if i = 0 then word s 0 + 1 else if i = 2 then word s 3 else if i = 3 then 0
        else if i = 4 + (p + 2).toNat % 4 then 0 else if i = 4 + p.toNat % 4 then word s i ||| st else word s i) ∧
    (d = 0 → word s 2 + 1 = word s 1 → word s 3 = word s 1 → word s 1 ≠ 0 → ∃ t, barAct s h n core 1 b = (t, .got 1) ∧ outside t ∧
      ∀ i, i < 8 → word t i =
        if i = 0 then word s 0 + 2 else if i = 2 ∨ i = 3 then 0
        else if i = 4 + (p + 2).toNat % 4 ∨ i = 4 + (p + 3).toNat % 4 then 0 else if i = 4 + p.toNat % 4 then word s i ||| st else word s i) ∧
    (let seen := barTouch s h n
     let e := (word s 0 - p).toNat
     ((1 < d ∨ (d = 1 ∧ (word s 1).toNat ≤ (word s 3).toNat)) → barAct s h n core 1 b = (seen, .refused true)) ∧
     barAct s h n core 3 b = (seen, .got (word s 2 ++ word s 0)) ∧
     (b.toNat < 2 ^ 32 →
       (0 < e → e < 3 → barAct s h n core 2 b = (seen, .got ((word s (4 + p.toNat % 4)).zeroExtend 64))) ∧
       (3 ≤ e → e < 2 ^ 31 → barAct s h n core 2 b = (seen, .got (BitVec.ofNat 64 (2 ^ 32)))) ∧
       (d ≤ 1 → barAct s h n core 2 b = (modCore seen h fun c => { c with
         waiters := c.waiters ++ [⟨core, false, n, p, decide ((c.waiters.filter (·.registered)).length < 64), now s⟩] }, .barrier)) ∧
       (1 < d → d ≤ 2 ^ 31 → barAct s h n core 2 b = (seen, .refused true))))

/-- BARRIER_REQUEST_AT_HOME performs the request of an AP, MWAIT or C3 arrival at its home (R261, R342), an arrival on a later tick than
its word retired, and the request of a killed launch unheard (R374); BARRIER_PHASE_REPLY raises the barrier-phase trap of a refused
arrival, on a core that still runs its launch (R343); BARWAIT_REPOLL repeats the read of a waiter that is not registered, in its turn,
every 64 ticks (R261). How long a message takes, and that each is an event, is the model's choice (log 32; of C3's, log 30). -/
def BarrierEventsPart : Prop :=
  (∀ (i : Nat) (s : State) (core home n fn : Nat) (b : Word) (lid : BitVec 16) (dead : Bool),
    s.barMsgs[i]? = some (.request fn core home n b lid dead) →
    msgBehind s i (.request fn core home n b lid dead) = false → homeTurn s home n (3 + core) = true → isVacant s home = false →
      let r := barAct (takeTurn { s with barMsgs := s.barMsgs.eraseIdx i } home n (3 + core)) home n core fn b
      exec (.barrierRequestAtHome i) s =
        .next (if dead then r.1
          else modCore r.1 core fun c => if fn = 4 then { c with c3Wait := r.2 } else { c with apWait := r.2 })) ∧
  (∀ (i : Nat) (s : State) (core : Nat) (lid : BitVec 16) (home n : Nat) (pc : Word) (word : BitVec 192) (p st : BitVec 32) (tick : Nat),
    s.barMsgs[i]? = some (.arrive core lid home n pc word p st tick) → msgBehind s i (.arrive core lid home n pc word p st tick) = false →
    tick < now s →
    homeTurn s home n (3 + core) = true → home < 192 → isVacant s home = false → (cx s home).baren = true →
    let v := barTouch (takeTurn { s with barMsgs := s.barMsgs.eraseIdx i } home n (if core = home then 2 else 3 + core)) home n
    (∀ u f, arrive v home n p st = some (u, f) → exec (.barrierRequestAtHome i) s = .next u) ∧
    (arrive v home n p st = none →
      exec (.barrierRequestAtHome i) s = .next { v with barMsgs := v.barMsgs ++ [.refusal core lid pc word] })) ∧
  (∀ (i : Nat) (s : State) (core : Nat) (lid : BitVec 16) (pc : Word) (word : BitVec 192),
    s.barMsgs[i]? = some (.refusal core lid pc word) → (cx s core).handlerMode = false →
    (∃ r, (cx s core).run = some r ∧ r.lid = lid) →
      let t := { s with barMsgs := s.barMsgs.eraseIdx i }
      exec (.barrierPhaseReply i) s = .next (takeTrap t core
        { cause := 0x04, eng := .c3, code := 0, pc := pc, word := word, epc := getPc s core .c3, tick := 0 })) ∧
  ∀ (l : CoreNum) (c3 : Bool) (s : State) (home : Nat) (w : Waiter) (v : Word),
    s.cores.findSome? (fun c => ((c.2.waiters.find? fun w => w.core == l.toNat && w.c3 == c3 && !w.registered)).map fun w => (c.1, w)) =
      some (home, w) → now s ≠ w.since → (now s - w.since) % 64 = 0 → isVacant s home = false →
    homeTurn s home w.obj (waiterPlace home w) = true →
    let u := barTouch (takeTurn s home w.obj (waiterPlace home w)) home w.obj
    phaseView u home w.obj w.phase = .ended v →
      exec (.barwaitRepoll l c3) s = .next (modCore
        (modCore u home fun c => { c with waiters := c.waiters.filter (· ≠ w) }) w.core
        fun c => if w.c3 then { c with c3Wait := .got v } else { c with apWait := .got v })

/-- STREAM_START pops the stream's TKW token and starts it (R88). COPY_TRANSFER_START starts the oldest transfer, with its TKW
token where it has one (R237). -/
def StreamAndCopyStartPart : Prop :=
  (∀ (l : CoreNum) (n : BitVec 4) (s : State),
    let c := l.toNat
    let x := getStream s c n.toNat
    let k := (tokens s c (dTkw x.desc) 6).1
    suRuns s c = true → x.st = .opened → x.started = false → 0 < k →
      exec (.streamStart l n) s = .next
        (modStream (withTokens s c (dTkw x.desc) 6 (k - 1)) c n.toNat fun t => { t with started := true })) ∧
  ∀ (l : CoreNum) (s : State) (x : Xfer) (xs : List Xfer),
    let c := l.toNat
    let k := (tokens s c x.tkw 7).1
    (getCore s c).ce = x :: xs → suRuns s c = true → x.started = false → (x.tkw ≠ 0 → 0 < k) →
      exec (.copyTransferStart l) s = .next
        (modCore (if x.tkw = 0 then s else withTokens s c x.tkw 7 (k - 1)) c fun y =>
          { y with ce := { x with started := true, cflt := if x.wsl ∧ leaseCount s ≠ 0 then 1 else 0 } :: xs })

/-- COPY_TRANSFER_COMPLETE: once the transfer's last byte has been written and performed, or a copy fault has ended it, STATUS is written and
the transfer leaves the CE, with its TKS token where it has one, once the FIFO has room, and COPYW's register where it has one (R236 to
R239). How the units of a transfer follow one another is the model's choice (logs 23 and 31). -/
def CopyTransferCompletePart : Prop :=
  ∀ (l : CoreNum) (s : State) (x y : Xfer) (ys : List Xfer), MemOk s →
    let c := l.toNat
    let u := iter (fun s => ceUnit s c) ((x.len - x.pos + 63) / 64 + (x.len - x.wpos) / 8 + 2) s
    (getCore s c).ce.head? = some x → suRuns s c = true → x.started = true → x.ended = false →
    (getCore u c).ce = y :: ys → (getCore u c).ceFlt = .clear → (y.cflt ≠ 0 ∨ (y.len ≤ y.pos ∧ y.len ≤ y.wpos)) →
    writesOut u c .ce 0 = false → Alone u c (ceWho c) [(y.off + 0x1C, 4)] →
      ∃ t, exec (.copyTransferComplete l) s = .next t ∧
        readNat t (spBase c + y.off + 0x1C) 4 = 1 + 2 * y.cflt.toNat + 2 ^ 8 * y.acf.toNat ∧
        (∀ z, z < spBase c + y.off + 0x1C ∨ spBase c + y.off + 0x20 ≤ z → readByte t z = readByte u z) ∧
        ((y.tks ≠ 0 → TokenRoom u c 7 y.tks 1) → LeftCe u t c y ys) ∧
        (y.tks ≠ 0 → ¬TokenRoom u c 7 y.tks 1 → (getCore t c).ce = { y with ended := true } :: ys ∧ EnginesKept u t c)

/-- A transfer that has ended and waited for room in its TKS FIFO leaves the CE with its token (R237). -/
def CopyTransferTokenPart : Prop :=
  ∀ (l : CoreNum) (s : State) (x : Xfer) (xs : List Xfer),
    let c := l.toNat
    (getCore s c).ce = x :: xs → suRuns s c = true → x.started = true → x.ended = true → (x.tks ≠ 0 → TokenRoom s c 7 x.tks 1) →
      ∃ t, exec (.copyTransferComplete l) s = .next t ∧ LeftCe s t c x xs ∧ ∀ z, readByte t z = readByte s z

/-- STREAM_SLOT_COMMIT: the next slot of a filling stream goes whole into its rings at TAIL, both of them where it is teed, and becomes full
(R72, R84, R100); the indices name the element after it, and the elements it carries are counted (R77, R93). Its tokens are pushed, or
owed while their FIFO is full (R88). What indices a gather has at hand, and that it fills its slots so, is the model's reading (log 17). -/
def StreamSlotCommitPart : Prop :=
  ∀ (l : CoreNum) (n : BitVec 4) (s u : State) (a : Ahead), MemOk s →
    let c := l.toNat
    let x := getStream s c n.toNat
    let d := x.desc
    canWork s c n.toNat = true → Filling d → (∀ q ∈ dFills d, (getRing s c q).canPush = true) →
    Alone s c (suWho c n.toNat) (fillBytes s c d) →
    (dDir d = 0 → linOf d x.idx < dTotal d) → (dDir d = 3 → dIport d ∉ dFills d) → (dFills d).Nodup →
    nextSlot s c n.toNat = .ok (some a) u → a.elems ≠ 0 →
      ∃ t, exec (.streamSlotCommit l n) s = .next t ∧ EnginesKept s t c ∧
        (let y := getStream t c n.toNat
         let last := a.last ∧ dDir d = 0
         y.desc = d ∧ y.idx = a.idx ∧ (x.ahead = [] → a.idx = idxOf d (linOf d x.idx + a.elems)) ∧
           y.dcount = x.dcount + BitVec.ofNat 64 a.elems ∧ y.oob = (x.oob || a.oob) ∧ (y.st = if last then .done else .opened) ∧
           y.boPend = (x.boPend || (decide last && x.eosp && !x.boe)) ∧
           TokensOf u t c n.toNat (everyTkn x + if last ∧ ¬(x.eosp = true ∧ x.boe = false) then 1 else 0)) ∧
        (∀ q ∈ dFills d, getRing t c q = tailFilled (getRing u c q)) ∧
        let lo (q : Nat) : Nat := spBase c + (getRing u c q).slotOff (getRing u c q).tailSlot
        let z := a.bytes.length
        (∀ p ∈ dFills d, ∀ q ∈ dFills d, p ≠ q → lo p + z ≤ lo q ∨ lo q + z ≤ lo p) →
          (∀ q ∈ dFills d, ∀ i, i < z → readByte t (lo q + i) = (a.bytes.getD i ⟨0, false⟩).b) ∧
          ∀ b, (∀ q ∈ dFills d, b < lo q ∨ lo q + z ≤ b) → readByte t b = readByte u b

/-- What the next slot of a memory-to-ring stream holds (R81 to R84): of elements of 8 bits or more in the own scratchpad, each one in bounds at
its place, and the fill pattern at every other position; the indices after it name the element after its last. -/
def SlotElementsPart : Prop :=
  ∀ (c n count : Nat) (s : State),
    let x := getStream s c n
    let d := x.desc
    let w := (dFmt d).width / 8
    let cap := slotCap (dFmt d) ((getRing s c (dRing d)).z * 256)
    let lin := linOf d x.idx
    dDir d = 0 → x.ahead = [] → InPad s c n count lin → count = min cap (dTotal d - lin) →
      ∃ a u, nextSlot s c n = .ok (some a) u ∧ a.elems = count ∧ a.idx = idxOf d (lin + count) ∧
        (a.last = true ↔ dTotal d ≤ lin + count) ∧ (a.oob = true ↔ ∃ m, m < count ∧ inBounds d (lin + m) = false) ∧
        a.bytes.length = (getRing s c (dRing d)).z * 256 ∧ (∀ z, readByte u z = readByte s z) ∧
        ∀ m j, m < cap → j < w → (a.bytes.getD (m * w + j) ⟨0, false⟩).b =
          if m < count ∧ inBounds d (lin + m) = true then readByte s (spBase c + (elemAt d (lin + m)).toNat + j)
          else leByte (fillOf d) j

/-- BIND_OFF_COMMIT: a bind-off that a stream owes takes one slot of each ring that it fills, whose first 8 bytes hold DCOUNT and whose rest is
0; the ring's bind-off bit is set (R77, R98), and the DONE token that waited for it follows (R88). One of the pass before is
committed first, which is the model's reading of R98 (log 18). -/
def BindOffCommitPart : Prop :=
  ∀ (l : CoreNum) (n : BitVec 4) (s : State), MemOk s →
    let c := l.toNat
    let x := getStream s c n.toNat
    suRuns s c = true → x.owed = 0 → spokenTo s c n.toNat = false → (dFills x.desc).Nodup →
    (∀ q ∈ dFills x.desc, (getRing s c q).canPush = true ∧ 0 < (getRing s c q).z) →
    Alone s c (suWho c n.toNat) (fillBytes s c x.desc) → x.boFirst = true ∨ x.boPend = true →
    let lo (q : Nat) : Nat := spBase c + (getRing s c q).slotOff (getRing s c q).tailSlot
    let z (q : Nat) : Nat := (getRing s c q).z * 256
    (∀ p ∈ dFills x.desc, ∀ q ∈ dFills x.desc, p ≠ q → lo p + z p ≤ lo q ∨ lo q + z q ≤ lo p) →
      ∃ t, exec (.bindOffCommit l n) s = .next t ∧ EnginesKept s t c ∧
        (let y := getStream t c n.toNat
         y.doneTok = false ∧ TokensOf s t c n.toNat (if x.doneTok then 1 else 0) ∧
           if x.boFirst = true then y.boFirst = false ∧ y.dcount = 0 ∧ y.boe = x.boe ∧ y.boPend = x.boPend
           else y.boe = true ∧ y.boPend = false ∧ y.dcount = x.dcount) ∧
        (∀ q ∈ dFills x.desc,
          getRing t c q = { tailFilled (getRing s c q) with boff := true, boffAt := (getRing s c q).tailSlot, boffPend := false } ∧
          readNat t (lo q) 8 = x.dcount.toNat ∧ ∀ i, 8 ≤ i → i < z q → readByte t (lo q + i) = 0) ∧
        ∀ b, (∀ q ∈ dFills x.desc, b < lo q ∨ lo q + z q ≤ b) → readByte t b = readByte s b

/-- STREAM_SLOT_DRAIN: slot HEAD of a ring-to-memory stream is written as drainSlot's pass says; once its writes have all been
performed at device scope it is given up whole (R74, R86), the stream is DONE after its last element (R94) and its tokens are pushed
(R88). Poison that leaves the core kills its launch (R497). In what order and in how many steps the pass goes is the model's choice
(log 31). -/
def StreamSlotDrainPart : Prop :=
  ∀ (l : CoreNum) (n : BitVec 4) (s : State) (oob : Bool),
    let c := l.toNat
    let x := getStream s c n.toNat
    let d := x.desc
    let r := getRing s c (dRing d)
    let lin := linOf d x.idx
    let count := min (slotCap (dFmt d) (r.z * 256)) (dTotal d - lin)
    canWork s c n.toNat = true → dDir d = 1 → r.n ≠ 0 → lin < dTotal d → r.fe.getLsbD r.head = true → r.boff = false →
    let from' := if x.sent = 0 then useBanks s c (suWho c n.toNat) [r.headBytes] else s
    (x.wrote = none → (x.sent = 0 → Alone s c (suWho c n.toNat) [r.headBytes]) →
     ∀ psn u, drainSlot c n.toNat (slotBytes s c (dRing d) r.head) count lin [] from' = .ok (oob, psn) u →
      let killed (w : State) : State := if psn then killTask w (runLid w c) 0x06 else w
      let v := spTouch u c (r.slotOff r.head) (r.z * 256)
      (writesOut v c .su n.toNat = true →
        exec (.streamSlotDrain l n) s = .next (killed (modStream v c n.toNat fun t => { t with wrote := some oob }))) ∧
      (writesOut v c .su n.toNat = false → ∃ t, exec (.streamSlotDrain l n) s = .next t ∧ Drained v t c n.toNat count lin)) ∧
    (x.wrote = some oob → writesOut s c .su n.toNat = false →
      ∃ t, exec (.streamSlotDrain l n) s = .next t ∧ Drained s t c n.toNat count lin)

/-- What the pass over a slot of a ring-to-memory stream writes (R81 to R84, R86): of elements of 8 bits or more in the own scratchpad, each one
in bounds at its place, where no later one overlaps it, and no byte beside them; an element out of bounds is dropped and sets OOB. -/
def DrainElementsPart : Prop :=
  ∀ (c n count lin : Nat) (bs : List PByte) (s : State), MemOk s →
    let x := getStream s c n
    let d := x.desc
    let w := (dFmt d).width / 8
    let there (m : Nat) : Prop := m < count ∧ inBounds d (lin + m) = true
    let at' (m : Nat) : Nat := spBase c + (elemAt d (lin + m)).toNat
    dDir d = 1 → x.sent = 0 → InPad s c n count lin → (getCore s c).ackOut ≤ 65535 →
      ∃ oob u, drainSlot c n bs count lin [] s = .ok (oob, x.sentPsn) u ∧ (oob = true ↔ ∃ m, m < count ∧ inBounds d (lin + m) = false) ∧
        (∀ m j, there m → j < w → (∀ k, m < k → there k → at' k + w ≤ at' m ∨ at' m + w ≤ at' k) →
          readByte u (at' m + j) = (bs.getD (m * w + j) ⟨0, false⟩).b) ∧
        ∀ b, (∀ m, there m → b < at' m ∨ at' m + w ≤ b) → readByte u b = readByte s b

/-- REMOTE_SLOT_TRANSFER: slot HEAD moves whole into the slot at TAIL of the other core's ring, and is given up (R72, R74, R87);
the stream is DONE after its last element (R94), and its tokens follow (R88). -/
def RemoteSlotTransferPart : Prop :=
  ∀ (l : CoreNum) (n : BitVec 4) (s : State), MemOk s →
    let c := l.toNat
    let x := getStream s c n.toNat
    let d := x.desc
    let m := dRcore d
    let r := getRing s c (dRing d)
    let w := getRing s m (dRring d)
    canWork s c n.toNat = true → dDir d = 2 → (m = c → dRring d ≠ dRing d) → m < 192 → isVacant s m = false → r.n ≠ 0 → linOf d x.idx < dTotal d →
    r.fe.getLsbD r.head = true → r.boff = false → w.canPush = true → w.z = r.z →
    Alone s c (suWho c n.toNat) [r.headBytes] → Alone s m (suWho c n.toNat) [w.tailBytes] →
      ∃ t, exec (.remoteSlotTransfer l n) s = .next t ∧ EnginesKept s t c ∧
        getRing t c (dRing d) = headFreed r ∧ getRing t m (dRring d) = tailFilled w ∧
        (let cap := slotCap (dFmt d) (r.z * 256)
         let lin := linOf d x.idx
         let y := getStream t c n.toNat
         y.idx = idxOf d (min (lin + cap) (dTotal d)) ∧ y.dcount = x.dcount + BitVec.ofNat 64 (min cap (dTotal d - lin)) ∧
           y.st = (if dTotal d ≤ lin + cap then .done else x.st) ∧
           TokensOf s t c n.toNat (everyTkn x + if dTotal d ≤ lin + cap then 1 else 0)) ∧
        let lo := spBase m + w.slotOff w.tailSlot
        (∀ i, i < r.z * 256 → readByte t (lo + i) = readByte s (spBase c + r.slotOff r.head + i)) ∧
        ∀ z, z < lo ∨ lo + r.z * 256 ≤ z → readByte t z = readByte s z

/-- A reduction issues a repeat that writes its element at position 0 of D and 0 above it (R285 to R288). The mark of poison on the extremes
is the model's choice (log 36). -/
def VectorReductionsPart : Prop :=
  ∀ (i : Instr) (w : VWord) (wd : Nat) (r : VIn → Nat × Acf), reduceOf i = some (w, wd, r) → wf i = true → ∀ s : State,
    let sh := shA (w.mod.getLsbD 0)
    Repeats w sh [] 0 s →
      let n := vphysOf s s.current.core (s.current.eng == .c2) w.d (getEng s s.current.core s.current.eng).rep
      let x := inputs s w sh
      let psn := ((List.range w.ty.lanes).any fun k => activeAt w x k && psnA w x k) || (w.mod.getLsbD 0 && elPsn wd x.d 0)
      ∃ t d, exec i s = .next t ∧
        Issued w sh [] s t [.vreg n d (BitVec.allOnes 256)] ((r x).2 ||| if psn then fPSN else 0) false ∧
        d.bits = BitVec.ofNat 2048 ((r x).1 % 2 ^ wd) ∧ ∀ j, j < 256 → d.psn.getLsbD j = (psn && decide (j < wd / 8))

/-- The extreme of some patterns (R287, R280): the largest or smallest of them that is no NaN, of two zeros −0 for the smallest and +0 for the
largest; the end of the type's range, or an infinity, for none of them. That NaNs alone give the canonical NaN is the model's choice (log 36). -/
def ExtremeValuesPart : Prop :=
  ∀ (t : Fmt) (big : Bool) (xs : List Nat), (∀ x ∈ xs, x < 2 ^ t.width) →
    let r := redExtreme t big xs
    let v (x : Nat) : FNum := decodeF (ffOf t) x
    let ns := xs.filter fun x => !(v x).isNan
    (t.isInt = true →
      (xs = [] → r = ((if big then minInt t else maxInt t) % (2 ^ t.width : Nat)).toNat) ∧
      (xs ≠ [] → r ∈ xs ∧ ∀ x ∈ xs, if big then intOf t x ≤ intOf t r else intOf t r ≤ intOf t x)) ∧
    ((t = .fp32 ∨ t = .fp16 ∨ t = .bf16) →
      (xs = [] → v r = .inf big) ∧
      (xs ≠ [] → ns = [] → r = (ffOf t).canonNaN) ∧
      (ns ≠ [] → r ∈ ns ∧ ∀ x ∈ ns, (if big then FNum.cmp (v x) (v r) ≤ 0 else 0 ≤ FNum.cmp (v x) (v r)) ∧
        (FNum.cmp (v x) (v r) = 0 → (v r).sign = big → (v x).sign = big)))

/-- A comparison or predicate word issues a repeat that writes the bits its rule gives (R281, R304, R305). That a comparison of poisoned active
elements sets PSN is the model's reading of R275 (log 36). -/
def VectorPredicateWordsPart : Prop :=
  ∀ (i : Instr) (w : VWord) (sh : VShape) (b : VIn → Nat → Bool), predOf2 i = some (w, sh, b) → wf i = true → ∀ s : State,
    Repeats w sh [] 0 s →
      let n := pphysOf s s.current.core (s.current.eng == .c2) w.d (getEng s s.current.core s.current.eng).rep
      let x := inputs s w sh
      let psn : Bool := !sh.srcP && (List.range w.ty.lanes).any fun k => activeAt w x k && psnAB w x k
      ∃ t p, exec i s = .next t ∧ Issued w sh [] s t [.pred n p (BitVec.allOnes 256)] (if psn then fPSN else 0) false ∧
        ∀ j, j < 256 → p.getLsbD j = b x j

/-- VGATH puts the scratchpad element of each active lane, or the fill value out of bounds, into part PART of D (R297, R298),
once the banks that hold them serve it (R62, R300). -/
def VectorGatherPart : Prop :=
  ∀ (w : VWord) (s : State), wf (.vgath w) = true →
    let l := s.current.core
    let c2 := s.current.eng == .c2
    let r := (getEng s l s.current.eng).rep
    let sh : VShape := ⟨true, false, false, false, true, true, true⟩
    let x := inputs s w sh
    let n := min 64 w.ty.lanes
    let wb := w.ty.width / 8
    let at' := laneAt s l w x.a (gatherReg s l w) false
    let put (j : Nat) : El := match at' j with
      | some a => ⟨readNat s (spBase l + a) wb, 0, elPsn 32 x.a j || (List.range wb).any fun b => readPsn s (spBase l + a + b)⟩
      | none => ⟨immElem w.ty w.imm, 0, elPsn 32 x.a j⟩
    let out (k : Nat) : Option El := if w.part * n ≤ k ∧ k < w.part * n + n then under w w.ty.width x.g k (put (k - w.part * n)) else none
    Repeats w sh [] (gatherBank w s l c2 r).1 s → Alone s l (vPlace c2) (gatherAsks w s l c2 r) →
      ∃ t d f, exec (.vgath w) s = .next t ∧
        Issued w sh [] s t [.vreg (vphysOf s l c2 w.d r) d (BitVec.allOnes 256)] f
          ((List.range n).any fun j => laneOn w x j && (at' j).isNone) ∧
        ElemsOf w.ty.width x.d d out ∧ FlagsOf w.ty.width f out

/-- VSCAT issues writes of each active lane's element at its offset; of several lanes at one offset the highest stands (R299). -/
def VectorScatterPart : Prop :=
  ∀ (w : VWord) (s : State), wf (.vscat w) = true →
    let l := s.current.core
    let sh : VShape := ⟨false, false, false, true, false, true, true⟩
    let x := inputs s w sh
    let n := min 64 w.ty.lanes
    let wb := w.ty.width / 8
    let at' (j : Nat) : Option Nat := if laneOn w x j then laneAt s l w x.d (gatherReg s l w) true j else none
    let pos (j : Nat) : Nat := w.part * n + j
    Repeats w sh [] 0 s →
      ∃ t bs f, exec (.vscat w) s = .next t ∧
        Issued w sh [] s t (if bs = [] then [] else [.scat bs]) f ((List.range n).any fun j => laneOn w x j && (at' j).isNone) ∧
        ∀ z b, (z, b) ∈ bs ↔ ∃ j a, j < n ∧ at' j = some a ∧ (∀ i, i < n → j < i → at' i ≠ some a) ∧ a ≤ z ∧ z < a + wb ∧
          b = ⟨leByte (el w.ty.width x.a (pos j)) (z - a), psnA w x (pos j) || elPsn 32 x.d j⟩

/-- VPUSH claims the unit at TAIL and issues its write; VPUSH.boff claims the whole slot at TAIL for a bind-off (R302,
R303). What a claim holds a producer to is the model's reading (log 35). -/
def VectorPushesPart : Prop :=
  ∀ (w : VWord) (q : Port) (s : State),
    let l := s.current.core
    let n := q.toNat
    let sh : VShape := ⟨false, false, false, false, false, true, false⟩
    let x := inputs s w sh
    let r := iter Ring.afterUnit ((portsOf w sh).count n) (getRing s l n)
    w.d = .port q → (getRing s l n).canPush = true → Repeats w sh [n] 0 s →
      (wf (.vpush w) = true → ∃ t v f, exec (.vpush w) s = .next t ∧
        Issued w sh [n] s t [.unit n (r.tail + 65536 * (r.base + r.tail)) r.gen v] f false ∧
        getRing t l n = { r with tail := (r.tail + 1) % (r.n * r.z), claims := r.tail :: r.claims } ∧
        ElemsOf w.ty.width x.a v fun k =>
          some (if w.zm = true ∧ activeAt w x k = false then ⟨0, 0, false⟩ else cpEl w x.a k)) ∧
      (wf (.vpushBoff w) = true → ((getEng s l s.current.eng).rep = 0 → (getRing s l n).tail % (getRing s l n).z = 0) →
        ∃ t, exec (.vpushBoff w) s = .next t ∧
          Issued w sh [n] s t [.boff n r.tailSlot r.gen ((r.base + r.z * r.tailSlot) * 256) (r.z * 256) (BitVec.ofNat 64 (el 64 x.a 0))] (if elPsn 64 x.a 0 then fPSN else 0) false ∧
          getRing t l n =
            { r with tail := (r.tail + r.z) % (r.n * r.z), boffPend := true, claims := (List.range r.z).map (r.tail + ·) ++ r.claims })

/-- VECTOR_RESULT_LANDING: a repeat issued on an earlier tick lands (R143): each of its writes is performed, older writes of
the cluster to the same elements are superseded (R145), and its flags stand in VSTAT (R274). Where its word pushes a token, the
older writes of its cluster to what other clusters read, and older flags, land before it (R149), and the token is pushed with the last repeat
of the word (R141). When a repeat lands, and what an older write then keeps, is the model's choice (log 70). -/
def VectorResultLandingPart : Prop :=
  ∀ (l : CoreNum) (c2 : Bool) (i k : Nat) (f : VFlight) (s : State),
    let c := l.toNat
    let fs := (getCore s c).vfl
    flightAt fs c2 i = some k → fs[k]? = some f → mayLand s c f = true → f.c2 = c2 →
      (f.tok ≠ 0 → ∀ j h g, j < i → flightAt fs c2 j = some h → fs[h]? = some g → mayLand s c g = true → g.tok = 0 →
        ¬Unseen c2 g → (∀ o ∈ fs.take h, Unseen c2 o) →
          ∃ t, exec (.vectorResultLanding l c2 j) s = .next t ∧ (mayLand t c f = true →
            exec (.vectorResultLanding l c2 i) s = exec (.vectorResultLanding l c2 (i - 1)) t)) ∧
      ((f.tok ≠ 0 → ∀ o ∈ fs.take k, Unseen c2 o) →
      ∃ t, exec (.vectorResultLanding l c2 i) s = .next t ∧ EnginesKept s t c ∧
        (getCore t c).vfl = (fs.take k).map (overtaken f) ++ fs.drop (k + 1) ∧
        (let last := f.tok ≠ 0 ∧ (∀ g ∈ fs.take k ++ fs.drop (k + 1), g.c2 = c2 → g.word ≠ f.word) ∧ (getEng s c (vEng c2)).word ≠ f.word
         ∀ p q, p < 8 → q < 8 → tokens t c p q = if last ∧ p = engCode (vEng c2) ∧ q = f.tok.toNat then
           ((tokens s c p q).1 + 1, (tokens s c p q).2 - 1) else tokens s c p q) ∧
        vstat t c (vEng c2) = vstat s c (vEng c2) ||| (if f.oob then 0x40 else 0) ||| f.acf.zeroExtend 7 ∧
        (∀ n v m, f.writes = [.vreg n v m] → n < 64 → (∀ a, readByte t a = readByte s a) ∧
          (∀ j, j < 256 → el 8 (rv t c c2 n) j = (if m.getLsbD j then el 8 v j else el 8 (rv s c c2 n) j) ∧
            (rv t c c2 n).psn.getLsbD j = (if m.getLsbD j then v.psn.getLsbD j else (rv s c c2 n).psn.getLsbD j)) ∧
          ∀ d n', (d, n') ≠ (c2, n) → rv t c d n' = rv s c d n') ∧
        (∀ n v m n' v' m', f.writes = [.vreg n v m, .vreg n' v' m'] → n < 64 → n' < 64 → n ≠ n' → (∀ a, readByte t a = readByte s a) ∧
          ∀ d r j, j < 256 →
            let src : VReg := if d = c2 ∧ r = n ∧ m.getLsbD j = true then v else if d = c2 ∧ r = n' ∧ m'.getLsbD j = true then v' else rv s c d r
            el 8 (rv t c d r) j = el 8 src j ∧ (rv t c d r).psn.getLsbD j = src.psn.getLsbD j) ∧
        (∀ n v m, f.writes = [.pred n v m] → n < 16 → (∀ a, readByte t a = readByte s a) ∧
          (∀ j, j < 256 → n ≠ 0 → (rp t c c2 n).getLsbD j = if m.getLsbD j then v.getLsbD j else (rp s c c2 n).getLsbD j) ∧
          ∀ d n', (d, n') ≠ (c2, n) → rp t c d n' = rp s c d n') ∧
        (∀ cs, f.writes = [.cells cs] → (cs.map Prod.fst).Nodup → (c2 = true ∨ (getCore s c).c2Land.1 ≠ now s) →
          (∀ z v, (z, v) ∈ cs → tget Elem.zero (cx t c).tiles z = v) ∧
          ∀ z, z ∉ cs.map Prod.fst → tget Elem.zero (cx t c).tiles z = tget Elem.zero (cx s c).tiles z) ∧
        (∀ q u g v, f.writes = [.unit q u g v] → MemOk s → q < 32 → (getRing s c q).gen = g → (getRing s c q).z ≠ 0 →
          let lo := spBase c + u / 65536 * 256
          let r := getRing s c q
          let p := u % 65536
          (∀ j, j < 256 → (readByte t (lo + j)).toNat = el 8 v j) ∧
          (∀ a, a < lo ∨ lo + 256 ≤ a → readByte t a = readByte s a) ∧
          ((getRing t c q).fe.getLsbD (p / r.z) = true ↔ r.fe.getLsbD (p / r.z) = true ∨
            (p / r.z < 256 ∧ ∀ j, j < r.z → p / r.z * r.z + j = p ∨ p / r.z * r.z + j ∈ r.landed))) ∧
        (∀ q i g off len n, f.writes = [.boff q i g off len n] → MemOk s → q < 32 → i < 256 → 256 ≤ len → len % 256 = 0 →
          let r := getRing s c q
          let lo := spBase c + off
          let r' := getRing t c q
          (∀ j, j < len → readByte t (lo + j) = if j < 8 then n.extractLsb' (8 * j) 8 else 0) ∧
          (∀ a, a < lo ∨ lo + len ≤ a → readByte t a = readByte s a) ∧
          (r.gen ≠ g → r' = r) ∧
          (r.gen = g → r'.fe = r.fe ||| BitVec.twoPow 256 i ∧ r'.boff = true ∧ r'.boffAt = i ∧ r'.boffPend = false)) ∧
        ∀ bs, f.writes = [.scat bs] → MemOk s → (bs.map Prod.fst).Nodup → (c2 = true ∨ (getCore s c).c2Land.1 ≠ now s) →
          (∀ z v, (z, v) ∈ bs → readByte t (spBase c + z) = v.b) ∧
          ∀ a, (∀ z v, (z, v) ∈ bs → a ≠ spBase c + z) → readByte t a = readByte s a)

/-- MCFG sets one format entry once every earlier C3 word has retired (R346); MJMP branches always, while its loop goes on, or
when BOF is 1, which it clears, and may push its outcome to the AP (R350); MBRQ pops the AP's branch-outcome queue (R351). -/
def MatrixConfigAndBranchesPart : Prop :=
  ∀ (w : MWord) (s : State),
    let l := s.current.core
    let pc := getPc s l .c3
    let far (b : Bool) : Word := pc + if b then 24 * w.imm.signExtend 64 else 24
    (wf (.mcfg w) = true → MatGoes w 8 true s → (getCore s l).c3 = [] → ∃ t, exec (.mcfg w) s = .next t ∧
      MatIssued w s (modX s l fun x => { x with mpfmt := vset x.mpfmt (w.imm.toNat % 32) (w.imm.extractLsb' 5 4) }) t (pc + 24) true) ∧
    (wf (.mjmp w) = true → MatGoes w 0xD (!w.tb) s → (w.amode = 2 → (getCore s l).c3 = []) →
      let q := tget [] (cx s l).boq (8 * 5 + 1)
      (w.tb = true → q.length < 16) →
        let o := if w.amode = 0 then true else if w.amode = 1 then w.lb && goesOn (getEng s l .c3) else (cx s l).mstat.getLsbD 6
        let u := if w.amode = 2 then modX s l fun x => { x with mstat := x.mstat &&& ~~~0x40#64 } else s
        ∃ t, exec (.mjmp w) s = .next t ∧
          MatIssued w s (if w.tb then withBoq u l 5 1 (q ++ [(o, now s)]) else u) t (far (o && !w.ta)) true) ∧
    (wf (.mbrq w) = true → MatGoes w 0xE false s → ∀ b n p, tget [] (cx s l).boq (8 * 1 + 5) = (b, n) :: p → n < now s →
      ∃ t, exec (.mbrq w) s = .next t ∧ MatIssued w s (withBoq s l 1 5 p) t (far b) true)

/-- MMA issues into the array buffer while the buffer holds fewer array words than its ease allows (R155, R316); it is legal where
R56 has its pair of formats, and its slots hold its operands (R328, R329). MTOK waits behind the words before it (R348). -/
def MatrixBufferWordsPart : Prop :=
  ∀ (w : MWord) (s : State),
    let l := s.current.core
    (wf (.mma w) = true → MatGoes w 1 true s →
      ((getCore s l).c3.filter fun f => f.op == 1 && !f.started).length ≤ (vget 0 (cx s l).ease 4).toNat →
      ∀ p, pairOf (vget 0 (cx s l).mpfmt w.aport.toNat) (vget 0 (cx s l).mpfmt w.bport.toNat) = some p →
        let g := w.kgrp.toNat + 1
        let need (ext : Nat) (q : Port) : Nat :=
          if p.mx then 17 * ext * g else ext * (g * p.n) * ((fmtOf (vget 0 (cx s l).mpfmt q.toNat)).width / 8)
        g ≤ p.gmax → (p.mx = true → w.ta = false ∧ w.tb = false) → need (w.mext.toNat + 1) w.aport ≤ zOf s l w.aport →
        need (w.next.toNat + 1) w.bport ≤ zOf s l w.bport →
        (w.amode = 2 → 4 * (w.next.toNat + 1) ≤ zOf s l w.cport ∧
          vget 0 (cx s l).mpfmt w.cport.toNat = (if p.int then Fmt.int32.code else Fmt.fp32.code)) →
          ∃ t, exec (.mma w) s = .next t ∧ MatIssued w s (behindAll s l (fresh s 1 w)) t (getPc s l .c3 + 24) false) ∧
    (wf (.mtok w) = true → MatGoes w 0xB true s →
      ∃ t, exec (.mtok w) s = .next t ∧ MatIssued w s (behindAll s l (fresh s 0xB w)) t (getPc s l .c3 + 24) false)

/-- A word of the accumulator unit, MSTAT or MBAR starts on its issue tick (R316): it takes the slot at HEAD of its port, or sets
BOF where that is a bind-off; a drain forms its slots and MSTAT its status, the tick and zeros; and it is due by R319. -/
def MatrixStartWordsPart : Prop :=
  ∀ (i : Instr) (w : MWord) (op : Nat) (legal : State → Nat → Prop), startOf i = some (w, op, legal) → wf i = true →
    ∀ s : State,
      let l := s.current.core
      MatGoes w op true s → legal s l → startHold s l op w (getCore s l).c3 = none → onTime s w (firstHeld s l) →
        ∃ t f, exec i s = .next t ∧ (getCore t l).c3 = (getCore s l).c3 ++ [f] ∧
          getPc t l .c3 = getPc s l .c3 + 24 ∧ (∀ a, readByte t a = readByte s a) ∧ (cx t l).acc = (cx s l).acc ∧
          (∀ e r, rreg t l e r = rreg s l e r) ∧ (∀ e k, rk t l e k = rk s l e k) ∧ (∀ m, m ≠ l → getCore t m = getCore s m) ∧
          f.op = op ∧ f.w = w ∧ f.word = s.current.word ∧ f.pc = getPc s l .c3 ∧ f.started = true ∧ f.start = now s ∧
          f.smiss = false ∧ f.keep = [] ∧
          (∀ q, getRing t l q = if q ∈ portsRead op w then headFreed (getRing s l q) else getRing s l q) ∧
          (portsRead op w = [] → f.slots = [] ∧ f.bof = false) ∧
          (∀ q, portsRead op w = [q] → let r := getRing s l q
            f.bof = r.isBoff r.head ∧ f.slots = if r.isBoff r.head then [] else [⟨slotBytes s l q r.head, false⟩]) ∧
          (op ≠ 4 → op ≠ 9 → f.out = none ∧ f.due = now s + ticksOf op w false 0) ∧
          (op = 4 → zOf s l w.cport ≠ 0 → ∃ bs, f.out = some bs ∧ f.due = now s + ticksOf op w false (bs.length * zOf s l w.cport) ∧
            ∀ o, Fmt.ofCode w.ofmt = some o → o ≠ .mxfp4 → o ≠ .mxfp8 →
              let m := w.mext.toNat + 1
              let n := w.next.toNat + 1
              bs.length = (m * n * (o.width / 8) + zOf s l w.cport - 1) / zOf s l w.cport ∧
              (∀ b ∈ bs, b.length = zOf s l w.cport) ∧
              ∀ i j, i < m → j < n →
                nthOf bs (o.width / 8) (if w.ta then j * m + i else i * n + j) =
                  (drainVal w o (accGet s l w.acct.toNat i j).v.toNat).1 % 2 ^ o.width) ∧
          (op = 9 → f.due = now s + 2 ∧
            f.out = some [(toLE 8 (statOf s l) ++ toLE 8 (now s) ++ List.replicate (zOf s l w.cport - 16) 0).map fun b => ⟨b, false⟩] ∧
            (w.imm.getLsbD 0 = true → if (cx s l).handlerMode then (cx t l).han.hmstat = 0
              else (cx t l).mstat = (cx s l).mstat &&& 0xFF00#64))

/-- MWAIT completes with what its barrier's home has answered: BSTAT holds the status of the phase, or STALE is set (R345). Where
no answer has come it asks, and does not pass. -/
def MatrixWaitWordPart : Prop :=
  ∀ (w : MWord) (s : State), wf (.mwait w) = true →
    let l := s.current.core
    let n := w.imm.toNat % 64
    MatGoes w 0xA false s → (getCore s l).c3 = [] → arrivalsOut s l = false →
    (∀ v, (getCore s l).c3Wait = .got v → ∃ t, exec (.mwait w) s = .next t ∧
      MatIssued w s (modX (modCore s l fun c => { c with c3Wait := .none }) l fun x =>
        { x with mstat := (x.mstat &&& 0xFFFFFFFF#64) ||| (if v.getLsbD 32 then 0x80#64 else (v &&& 0xFFFFFFFF#64) <<< 32) })
        t (getPc s l .c3 + 24) true) ∧
    ((getCore s l).c3Wait = .none → ∃ t, exec (.mwait w) s = .next t ∧ getPc t l .c3 = getPc s l .c3 ∧
      let m := tget 0 (cx s l).mbph n
      let home := (m.extractLsb' 32 8).toNat
      (m.getLsbD 40 = true → home < 192 → isVacant s home = false → home ≠ l → (getCore t l).c3Wait = .remote ∧
        t.barMsgs = s.barMsgs ++ [.request 4 l home n ((m.extractLsb' 0 32 - 1).zeroExtend 64) (runLid s l) false]))

/-- MATRIX_WORD_START: an MMA or another word that waits starts on its unit once R316 to R318 let it and its STAMP has come (R339);
an MMA takes the slots at HEAD of its ports and keeps them until its occupancy of the array ends, or, where a slot is a bind-off,
takes only those and sets BOF (R319, R331). -/
def MatrixWordStartPart : Prop :=
  ∀ (l : CoreNum) (i : Nat) (f : C3Flight) (s : State),
    let c := l.toNat
    let u := f.u.getD (now s)
    let qs := portsRead f.op f.w
    let bofs := qs.filter fun q => (getRing s c q).isBoff (getRing s c q).head
    let mx := f.op == 1 && f.fa == Fmt.mxfp4.code
    (getCore s c).c3[i]? = some f → f.started = false → f.slots = [] → f.keep = [] → f.bof = false →
    (f.op = 1 ∨ f.op = 0xB) → qs.Nodup → startHold s c f.op f.w ((getCore s c).c3.take i) = none → onTime s f.w u →
      ∃ t g, exec (.matrixWordStart l i) s = .next t ∧ EnginesKept s t c ∧ (∀ a, readByte t a = readByte s a) ∧
        (getCore t c).c3 = (getCore s c).c3.set i g ∧ (cx t c).acc = (cx s c).acc ∧
        g.started = true ∧ g.start = now s ∧ g.smiss = false ∧ g.due = now s + ticksOf f.op f.w mx 0 ∧
        g.bof = decide (bofs ≠ []) ∧
        g.slots = (if bofs = [] then qs.map fun q => ⟨slotBytes s c q (getRing s c q).head, false⟩ else []) ∧
        (f.op = 1 → (getCore t c).arrayFree = now s + (if mx then 16 else 32) * (f.w.kgrp.toNat + 1)) ∧
        ∀ q, getRing t c q = if q ∈ qs ∧ (bofs = [] ∨ q ∈ bofs) then
          { getRing s c q with cur := 0, head := ((getRing s c q).head + 1) % (getRing s c q).n
                               kept := (getRing s c q).head :: (getRing s c q).kept } else getRing s c q

/-- MATRIX_WORD_RETIREMENT: a word whose slots are all taken and written retires once it is due (R315, R319): its tile takes the
values its rule gives, and no other element changes; its status stands in MSTAT_C3 (R323), its token is pushed (R141), and where BEN
is 1 it arrives at its barrier once no earlier word has ring writes to come, at its own core in its turn (R261, R342). The order in which words
retire (log 34) and the status of a late pinned MBAR (log 91) are the model's choice. -/
def MatrixWordRetirementPart : Prop :=
  ∀ (l : CoreNum) (i : Nat) (f : C3Flight) (s : State),
    let c := l.toNat
    (getCore s c).c3[i]? = some f → f.started = true → f.due ≤ now s → (f.out = none ∨ f.out = some []) →
    (∀ d ds, f.slots = d :: ds → f.bof = true ∨ slotsOf f.op f.w d.bytes.length ≤ f.slots.length) →
    (f.slots = [] → portsRead f.op f.w = [] ∨ f.bof = true) → (f.w.ben = true → arrivalHeld s c f.w.bar.toNat = false ∧ ∀ g ∈ (getCore s c).c3.take i,
      if g.started = true then g.out = none ∨ g.out = some [] else portsWritten g.op g.w = []) →
      ∃ t ws, exec (.matrixWordRetirement l i) s = .next t ∧ EnginesKept s t c ∧
        (f.w.ben = false → (∀ a, readByte t a = readByte s a) ∧ (getCore t c).c3 = (getCore s c).c3.eraseIdx i) ∧
        (f.bof = false ∨ (f.slots ≠ [] ∧ f.op ≠ 1) → ∀ a b, a < f.w.mext.toNat + 1 → b < f.w.next.toNat + 1 →
          ∀ v p, leaves s c f a b = some (v, p) →
            (if f.op = 7 ∧ f.w.ta = true then accGet t c (tileTo f) b a else accGet t c (tileTo f) a b) = ⟨BitVec.ofNat 32 v, p⟩) ∧
        (∀ a b, a < 256 → b < 256 →
          (if f.op = 7 ∧ f.w.ta = true then f.w.mext.toNat < b ∨ f.w.next.toNat < a else f.w.mext.toNat < a ∨ f.w.next.toNat < b) →
            accGet t c (tileTo f) a b = accGet s c (tileTo f) a b) ∧
        (f.bof = true → f.slots = [] → f.op ≠ 2 → f.op ≠ 7 → (cx t c).acc = (cx s c).acc) ∧
        (∀ a b k, k < 16 → a < 256 → b < 256 → tilesWritten f.op f.w ≠ [k] → accGet t c k a b = accGet s c k a b) ∧
        (let add (x : BitVec 8) : BitVec 8 := x ||| ws.setWidth 8
         if f.handler then (cx t c).han.hmstat = add (cx s c).han.hmstat
         else (cx t c).mstat.setWidth 8 = add ((cx s c).mstat.setWidth 8)) ∧
        ws.getLsbD 6 = f.bof ∧ ws.getLsbD 5 = f.smiss ∧ ws.extractLsb' 16 16 = (if f.op = 0xC then f.w.imm else 0) ∧
        (∀ p q, p < 8 → q < 8 → tokens t c p q = if p = 5 ∧ q = f.w.tok.dst.toNat ∧ q ≠ 0 then
          ((tokens s c p q).1 + 1, (tokens s c p q).2 - 1) else tokens s c p q) ∧
        (f.w.ben = true → f.handler = false →
          let m := tget 0 (cx s c).mbph f.w.bar.toNat
          tget 0 (cx t c).mbph f.w.bar.toNat = m.extractLsb' 32 9 ++ (m.extractLsb' 0 32 + 1) ∧
          (m.getLsbD 40 = true → (m.extractLsb' 32 8).toNat ≠ c → t.barMsgs = s.barMsgs ++
            [.arrive c (runLid s c) (m.extractLsb' 32 8).toNat f.w.bar.toNat f.pc f.word (m.extractLsb' 0 32) ws (now s)]) ∧
          (m.getLsbD 40 = false → MemOk s → c < 192 → isVacant s c = false → (cx s c).baren = true → (cx s c).rgnend < 256 →
            let n := f.w.bar.toNat
            let p := m.extractLsb' 0 32
            barGet s c n 0 = p → barGet s c n 2 + 1 ≠ barGet s c n 1 →
              (∀ k, k < 8 → barGet t c n k = if k = 2 then barGet s c n 2 + 1
                else if k = 4 + p.toNat % 4 then barGet s c n k ||| ws else barGet s c n k) ∧
              ∀ a, (a < barAddr s c n ∨ barAddr s c n + 64 ≤ a) → readByte t a = readByte s a))

/-- FAULT_RECORD_WRITE writes an agent's oldest pending record to its die's queue while that holds fewer than 1,024 (R425); a record
of code 0x01 then waits for its answer (R426), and the kill follows any other. -/
def FaultRecordWritePart : Prop :=
  ∀ (a : Agent) (s : State) (pre post : List FaultRec) (r : FaultRec),
    s.fltPend = pre ++ r :: post → (∀ x ∈ pre, recIsOf x a = false) → recIsOf r a = true →
    (vget Die.reset s.dies (agentDie a)).fq.length < 1024 →
      ∃ t, exec (.faultRecordWrite a) s = .next t ∧ (∀ z, readByte t z = readByte s z) ∧
        t.fltPend = pre ++ post ∧ t.fltSeq = s.fltSeq + 1 ∧
        (vget Die.reset t.dies (agentDie a)).fq = (vget Die.reset s.dies (agentDie a)).fq ++ [{ r with seq := s.fltSeq }] ∧
        (r.fcode = 1 → (a = .admission → s.admitting ≠ none) → fltOf t a = .sent s.fltSeq ∧ t.killPend = s.killPend) ∧
        (r.fcode ≠ 1 → r.adm = true → t.killPend = s.killPend ∧
          t.admitting = s.admitting.map fun x => { x with flt := .clear, answer := some (BitVec.ofNat 8 r.fcode) }) ∧
        (r.fcode ≠ 1 → r.adm = false → t.killPend = (killAsked s r.lid (BitVec.ofNat 8 r.fcode)).killPend)

/-- RETRY and KILL_RESPONSE answer the agent that waits for a record's answer (R426): it is to walk again, or its task is killed, or
its admission rejected. An answer to no such record changes nothing: the model's choice (log 6). -/
def FaultAnswersPart : Prop :=
  ∀ (seq : Word) (cause : BitVec 8) (s : State) (r : FaultRec), TakenAs s seq.toNat r →
    (fltOf s (agentOf r) = .sent seq.toNat →
      (∃ t, exec (.retry seq) s = .next t ∧ fltOf t (agentOf r) = .again seq.toNat ∧ t.fltTaken = s.fltTaken ∧
        (∀ z, readByte t z = readByte s z) ∧ ∀ b, agentOf r ≠ b → fltOf t b = fltOf s b) ∧
      exec (.killResponse seq cause) s = .next (
        let u := unasked s seq.toNat
        if r.adm then { u with admitting := u.admitting.map fun x => { x with flt := .clear, answer := some 0x08 } }
        else killAsked u r.lid cause)) ∧
    (fltOf s (agentOf r) ≠ .sent seq.toNat → exec (.retry seq) s = .next s ∧ exec (.killResponse seq cause) s = .next s)

/-- PAGE_WALK (R418, R426): the agent that walks again goes on where the walk finds a translation, a stalled stream being OPEN again
with its fault counted (R103); where it finds a fault a new record is raised. -/
def PageWalksPart : Prop :=
  ∀ (a : Agent) (s : State) (seq : Nat) (r : FaultRec), fltOf s a = .again seq → TakenAs s seq r →
    let u := unasked s seq
    (∀ x, walk u (agentWalk u a) r.asid (r.va.toNat % 2 ^ 48) = .ok x → ∃ t, exec (.pageWalk a) s = .next t ∧ fltOf t a = .clear ∧
      t.fltPend = s.fltPend ∧ t.fltTaken = u.fltTaken ∧ (∀ z, readByte t z = readByte s z) ∧
      ∀ l n, a = .su l n →
        (let k := (getStream s l.toNat n.toNat).fltcnt
         (getStream t l.toNat n.toNat).fltcnt = if k = 255 then 255 else k + 1) ∧
        (getStream t l.toNat n.toNat).st =
          if (getStream s l.toNat n.toNat).st = .stalled then .opened else (getStream s l.toNat n.toNat).st) ∧
    (∀ f, walk u (agentWalk u a) r.asid (r.va.toNat % 2 ^ 48) = .error f → ∃ t, exec (.pageWalk a) s = .next t ∧ fltOf t a = .unsent ∧
      t.fltPend = s.fltPend ++ [{ r with fcode := f.code, lvl := f.lvl, pa := f.pa, tick := now s }] ∧
      ∀ z, readByte t z = readByte s z)

/-- RECORD_SELECTION (R392): a free core with candidates starts one of the greatest EP, and of those one of the least ENTRY; it
leaves the queue, and the core's registers are as R386 says. -/
def RecordSelectionPart : Prop :=
  ∀ (l : CoreNum) (s : State),
    let n := l.toNat
    coreFree s n = true → candidates s n ≠ [] →
      ∃ t q la, exec (.recordSelection l) s = .next t ∧ q ∈ candidates s n ∧ getLaunch s q.lid = some la ∧
        (∀ r ∈ candidates s n, epOf s r < epOf s q ∨ (epOf s r = epOf s q ∧ q.entry ≤ r.entry)) ∧
        Began s t n la q (epOf s q) ∧ (∀ r ∈ lookedAt (getCore t n), r.seq ≠ q.seq) ∧
        ∀ m, m ≠ n → getCore t m = getCore s m

/-- RECORD_EXAMINE (R389, R391): a record that enters the SRAM queue stays there where it is eligible; else it goes to the wait
table or the overflow ring, and where both are full it stays held and WOVF counts the overflow. -/
def RecordExaminationPart : Prop :=
  ∀ (l : CoreNum) (s : State) (q : QRec) (rest : List QRec),
    let n := l.toNat
    let c := getCore s n
    (∀ r ∈ c.sram, r.examined = true ∧ r.seq ≠ q.seq) → c.back = q :: rest → c.sram.length < 8 → q.examined = false →
    (eligible s n q = true → exec (.recordExamine l) s = .next
      (modCore s n fun c => { c with sram := c.sram ++ [{ q with examined := true, held := false }], back := rest })) ∧
    (eligible s n q = false → c.waits.length < 32 → exec (.recordExamine l) s = .next
      (modCore s n fun c => { c with back := rest, waits := c.waits ++ [{ q with examined := true, held := false }] })) ∧
    (eligible s n q = false → 32 ≤ c.waits.length → c.ovf.length < c.ovfSize → exec (.recordExamine l) s = .next
      (modCore s n fun c => { c with back := rest, ovf := c.ovf ++ [{ q with examined := true, held := false }] })) ∧
    (eligible s n q = false → 32 ≤ c.waits.length → c.ovfSize ≤ c.ovf.length → q.held = false →
      ∃ t, exec (.recordExamine l) s = .next t ∧ (getCore t n).back = rest ∧
        (getCore t n).sram = c.sram ++ [{ q with examined := true, held := true }] ∧
        (getCore t n).wovf = min (2 ^ 32 - 1) (c.wovf + 1))

/-- RECORD_RETIREMENT (R245): the record retires: its streams close and its tokens go. Then its join action is done, a step at a time. An EXIT
without a join object lowers LIVE; PARK parks the new image, and WAITF the record on its line, where there is room (R248, R249). An EXIT
with a join object releases its reference, and the last one reads the continuation, which sets out for its core or, where R385 rejects it,
kills the task (R246). A JOIN writes its image, and then releases its reference; the image of the last sets out (R247). That the record keeps
its core until these steps are done is the model's choice (log 28), and so is where a join object may lie (log 29). -/
def RecordRetirementPart : Prop :=
  ∀ (l : CoreNum) (s : State) (r : Running) (la : Launch),
    let n := l.toNat
    let u := if r.retired then s else closeRec s n
    (cx s n).run = some r → getLaunch s r.lid = some la → dying s r.lid = false → (getCore s n).apFlt = .clear →
    (r.retired = true ∨ mayRetire s n = true) →
    (r.retired = false → Shut u n ∧ ∀ z, readByte u z = readByte s z) ∧
    (∀ k, r.ended = some k → k = .exit → r.img.jaddr = 0 → ∃ t, exec (.recordRetirement l) s = .next t ∧ LeftCore u t n ∧
      counts t la.lid = some (lessOne (la.items, la.live, la.term)) ∧ ∀ z, readByte t z = readByte s z) ∧
    (∀ img, r.ended = some (.park img) → (getCore s n).waits.length < 32 →
      ∃ t q, exec (.recordRetirement l) s = .next t ∧ LeftCore u t n ∧ (getCore t n).waits = (getCore s n).waits ++ [q] ∧
        q.img = img ∧ q.lid = la.lid ∧ q.entry = now s ∧ q.watch = none ∧ counts t la.lid = counts s la.lid ∧
        ∀ z, readByte t z = readByte s z) ∧
    (∀ line w, r.ended = some (.waitf line w) → (getCore s n).waits.length < 32 →
      ∃ t q, exec (.recordRetirement l) s = .next t ∧ LeftCore u t n ∧ (getCore t n).waits = (getCore s n).waits ++ [q] ∧
        q.img = r.img ∧ q.lid = la.lid ∧ q.watch = some line ∧ q.woken = w ∧ q.awake = false ∧
        counts t la.lid = counts s la.lid ∧ ∀ z, readByte t z = readByte s z) ∧
    (∀ c v, r.ended = some .exit → r.img.jaddr ≠ 0 → joinAmo u n r.img.jaddr (-1) = .ok c v →
      ∃ t, exec (.recordRetirement l) s = .next t ∧ Released v t n la.lid c
        ((cx t n).run = (cx v n).run.map fun x => { x with ended := some .cont })) ∧
    (∀ p w x v, r.ended = some .cont → apSpot u n (r.img.jaddr + 0x40) 64 .read = .ok p w → joinPage p = true →
      spotNat w n (r.img.jaddr + 0x40) p = .ok x v →
        ∃ t, exec (.recordRetirement l) s = .next t ∧ LeftCore v t n ∧ (∀ z, readByte t z = readByte v z) ∧
          (imgOk la x = true → isVacant v (placeCore la (recOf x).wid) = false →
            (getCore t n).conts = (getCore v n).conts ++ [(recOf x, la.lid, placeCore la (recOf x).wid)]) ∧
          (imgOk la x = false → t.killPend = (killAsked v la.lid 0x1D).killPend)) ∧
    (∀ a img p w, r.ended = some (.join a img) → joinFault a = none → apSpot u n (a + 0x40) 64 .write = .ok (.parts p) w →
      joinPage (.parts p) = true → joinPages w n a = none → crosses w n p = false → ackRoom w n (awayParts n p) = true →
        exec (.recordRetirement l) s = .next (setEnd
          (writeAll w n .ap 0 (a.toNat / 2 ^ 60) 0xF p ((recBytes img).map fun b => ⟨b, false⟩)).1 n (.joined a img))) ∧
    (∀ a img c v, r.ended = some (.joined a img) → writesOut u n .ap 0 = false → joinAmo u n a (-1) = .ok c v →
      isVacant v (placeCore la img.wid) = false →
        ∃ t, exec (.recordRetirement l) s = .next t ∧ Released v t n la.lid c (LeftCore v t n ∧
          (getCore t n).conts = (getCore v n).conts ++ [(img, la.lid, placeCore la img.wid)]))

/-- CONTINUATION_PUSH and ROOT_RECORD_PUSH put a record at the tail of its core's queue while that has room, the latter unless its
launch's partition is held, and once the pushes of the tick that R389 puts before it have been made (R246, R381, R389, R448). That a root
record is pushed in a step of its own is the model's reading (log 25). -/
def RecordPushesPart : Prop :=
  (∀ (l : CoreNum) (s : State) (img : Rec) (lid : BitVec 16) (c : Nat) (rest : List (Rec × BitVec 16 × Nat)),
    let n := l.toNat
    (getCore s n).conts = (img, lid, c) :: rest → isVacant s c = false → Room s c →
      ∃ t, exec (.continuationPush l) s = .next t ∧ (getCore t n).conts = rest ∧ Queued s t c img lid ∧
        ∀ z, readByte t z = readByte s z) ∧
  ∀ (lid : BitVec 16) (s : State) (la : Launch) (k : Nat), getLaunch s lid = some la → la.st = .rooting k → dying s lid = false →
    partHeld s la.asid = false →
    (la.count ≤ k → exec (.rootRecordPush lid) s = .next (modLaunch s lid fun x => { x with st := .running })) ∧
    (k < la.count →
      let c := placeCore la (BitVec.ofNat 64 k)
      isVacant s c = false → Room s c → pushesDone s c = true →
        ∃ t, exec (.rootRecordPush lid) s = .next t ∧ Queued s t c { Rec.zero with wid := BitVec.ofNat 64 k } lid ∧
          (∃ lb, getLaunch t lid = some lb ∧ lb.st = if la.count ≤ k + 1 then .running else .rooting (k + 1)) ∧
          ∀ z, readByte t z = readByte s z)

/-- ADMISSION (R380, R381, R482, R483): the next launch entry is taken; one whose address or header breaks its rules is rejected with
code 2, and one whose tables read and pass is admitted: its roots count as live and its root pushes begin. How a table that is not
well formed is judged (log 49), and that roots still to be pushed count as live (log 25), are the model's choices. -/
def AdmissionPart : Prop :=
  ∀ (s : State), s.secHalt = false → s.admitting = none → s.host.lqHead ≠ s.host.lqTail →
    let o := 0x4000000 + 16 * (s.host.lqHead.toNat % 256)
    let hdr := winNat s o 8
    let tag : Word := BitVec.ofNat 64 (winNat s (o + 8) 8)
    let u := takeEntry s
    ∃ t, exec .admission s = .next t ∧ t.host.lqHead = s.host.lqHead + 1 ∧
      let code (k : Nat) : Prop := t.admitting = none ∧ ∃ e ∈ t.host.cq, e.1 = tag ∧ e.2.1.toNat / 2 ^ 16 % 2 ^ 8 = k
      let head := headerOf (headDwords s hdr)
      (s.host.ready = false → code 1) ∧
      (s.host.ready = true → (entryBad hdr = true ∨ headerBad head = true) → code 2) ∧
      (s.host.ready = true → entryBad hdr = false → headerBad head = false → (s.retBusy = false ∨ s.retAsid ≠ head.asid) →
        ∀ a, u.admitting = some a → a.tag = tag ∧ a.hdr = hdr ∧ ∀ tb v, readTabs u a.lid head = .ok tb v →
          (∀ r, judge v tag a.lid head tb = .error r → code r.code) ∧
          ∀ k, judge v tag a.lid head tb = .ok k → k.gang = none → 0 < k.count → (∀ x ∈ s.launches, x.st ≠ .gangWaiting) →
            t.admitting = none ∧ ∃ la, getLaunch t a.lid = some la ∧ la.st = .rooting 0 ∧ la.live = k.count ∧ la.tag = tag)

/-- GANG_ADMISSION (R404): once every core that the head gang claims is free, each is bound to it with its role's partition and has
its root record; the claims end and the gang runs. That LIVE holds its records at once (log 25), that role records are pushed without regard to
room (log 75), and that a claimed core which has become vacant kills the launch (log 93) are the model's readings. -/
def GangAdmissionPart : Prop :=
  ∀ (s : State) (la : Launch) (roles : List Role) (pipes : List Pipe),
    headGang s = some la → la.gang = some (roles, pipes) → dying s la.lid = false → partHeld s la.asid = false →
    (∀ c ∈ gangCores la, freeFor s la c = true) →
    ((∃ c ∈ gangCores la, isVacant s c = true) → exec .gangAdmission s = .next (killAsked s la.lid 0x04)) ∧
    ((∀ c ∈ gangCores la, isVacant s c = false) → (gangCores la).Nodup → (∀ k ∈ s.launches, k.st = .gangHead → k = la) →
    (∀ k ∈ s.launches, k.st ≠ .gangWaiting) → getLaunch s la.lid = some la →
      ∃ t, exec .gangAdmission s = .next t ∧
        (∃ lb, getLaunch t la.lid = some lb ∧ lb.st = .running ∧ lb.live = la.live + (gangCores la).length) ∧
        ∀ r ∈ roles, ∀ k, k < r.ncores →
          let c := la.place.getD (r.first + k) 0
          (getCore t c).bound = some la.lid ∧ (getCore t c).claim = false ∧ (cx t c).rgnend = r.rgnend ∧ (cx t c).baren = r.baren ∧
            (cx t c).residentLid = la.lid ∧
            ∃ q ∈ (getCore t c).sram ++ (getCore t c).back, q.lid = la.lid ∧ q.img.sel = BitVec.ofNat 8 r.sel ∧
              q.img.wid = BitVec.ofNat 64 (r.first + k) ∧ q.img.a1 = BitVec.ofNat 64 k)

/-- DETECTOR_COPY_UPDATE gives die 1's copy the oldest update once 6 ticks have passed, and ends the TAKEs of die 1 that wait as TERM becomes 1
there (R253, R410); WATCH_WAKE makes a parked record
whose line was written eligible (R249); REPLAN_EVENT is raised once for a launch (R411). -/
def DetectorWatchAndReplanPart : Prop :=
  (∀ (s : State) (u : DetUpd) (rest : List DetUpd), s.detUpd = u :: rest → u.tick + 6 ≤ now s →
    ∃ t, exec .detectorCopyUpdate s = .next t ∧ t.detUpd = rest ∧
      t.launches = (modLaunch s u.lid fun k => { k with items1 := u.items, live1 := u.live, term1 := u.term }).launches ∧
      ∀ c, getCore t c =
        if u.term = true ∧ (getCore s c).apWait = .take ∧ dieOf c = 1 ∧ (cx s c).run.map (·.lid) = some u.lid then
          { getCore s c with apWait := .termed } else getCore s c) ∧
  (∀ (l : CoreNum) (i : Nat) (s : State) (q : QRec),
    (getCore s l.toNat).waits[i]? = some q → q.woken = true →
      exec (.watchWake l i) s = .next (modCore s l.toNat fun c => { c with waits := c.waits.set i { q with awake := true } })) ∧
  ∀ (lid : BitVec 16) (s : State) (la : Launch) (g : Nat × Nat), getLaunch s lid = some la → la.skew ≠ 0 → la.replan = false →
    la.st ≠ .ended → liveGroups s la ≠ [] → la.finished = [g] → g.2 ≠ 0 → g.1 ∉ liveGroups s la → la.skew < now s - (g.2 - 1) →
      exec (.replanEvent lid) s = .next
        { modLaunch s lid (fun k => { k with replan := true }) with
          replans := s.replans ++ [(lid, g.2 - 1, (liveGroups s la).length)] }

/-- LAUNCH_END (R412): once a running launch has no record and no write left, its completion entry is reported, its lists, lease
and cores are released, and it has ended. TASK_KILL removes a launch from every core, where its words in flight land
(R433), and from what saved partitions have put by. How words of C3 in flight land (log 92), and that put-by partitions lose the launch too
(log 58), are the model's readings. -/
def LaunchEndAndKillPart : Prop :=
  (∀ (lid : BitVec 16) (s : State) (la : Launch), getLaunch s lid = some la → la.st = .running → dying s lid = false →
    noRecords s lid = true → writesDone s lid = true →
      ∃ t, exec (.launchEnd lid) s = .next t ∧
        (∃ lb, getLaunch t lid = some lb ∧ lb.st = .ended ∧ lb.lease = false) ∧
        (∃ e, e ∈ t.host.cq ∧ e.1 = la.tag ∧ e.2.1.toNat % 2 ^ 16 = lid.toNat ∧ e.2.1.toNat / 2 ^ 24 % 2 ^ 8 = la.killed.toNat ∧
          e.2.1.toNat / 2 ^ 32 % 2 = la.replan.toNat ∧ e.2.2.1 = BitVec.ofNat 64 (now s)) ∧
        (∀ d i, d < 2 → la.lbase ≤ i → i < la.lbase + la.lcnt → getList t d i = []) ∧
        (∀ c, (getCore t c).bound ≠ some lid ∧ (lid ≠ 0 → (cx t c).residentLid ≠ lid)) ∧ ∀ z, readByte t z = readByte s z) ∧
  ∀ (lid : BitVec 16) (cause : BitVec 8) (rest : List (BitVec 16 × BitVec 8)) (s : State) (la : Launch),
    s.killPend = (lid, cause) :: rest → getLaunch s lid = some la → la.st = .running → la.killed = 0 →
      (∀ c, SavedOwn lid (getCore s c)) → (∀ c ∈ putBy s, SavedOwn lid c) →
      ∃ t, exec .taskKill s = .next t ∧ (∀ c, Rid lid (getCore t c)) ∧ (∀ c ∈ putBy t, Rid lid c) ∧
        (∃ lb, getLaunch t lid = some lb ∧ lb.killed = cause ∧ lb.live = 0) ∧
        (∀ c r, (cx s c).run = some r → r.lid = lid → (getCore t c).vfl = [] ∧ (getCore t c).c3 = [] ∧ (getCore t c).apq = [] ∧
          ∀ n, n < 16 → (getStream t c n).st = .closed) ∧
        ∀ c r, (cx s c).run = some r → r.lid ≠ lid → (cx t c).run = some r ∧ (cx t c).apRegs = (cx s c).apRegs

/-- PREEMPTION_STOP asks a core whose resident launch a record outranks to stop, and a launch with PTRAP takes the pre-emption
trap (R396, R398); HANDLER_STOP_LIMIT stops a handler that has held a pre-emption for 2^20 ticks (R398).
That TWORD0 to TWORD2 of this trap are 0 is the model's choice (log 86). -/
def PreemptionStopsPart : Prop :=
  ∀ (l : CoreNum) (s : State),
    let n := l.toNat
    (preempts s n = true →
      let u := modCore s n fun c => { c with stop := .preempt (now s) }
      let pc := getPc s n .ap
      exec (.preemptionStop l) s = .next (match runLaunch s n with
        | some la => if la.ptrap = true ∧ (cx s n).handlerMode = false ∧ (getCore s n).trap = none then
            takeTrap u n { cause := 0x08, eng := .ap, code := 0, pc := pc, word := 0, epc := pc, tick := 0 } else u
        | none => u)) ∧
    ∀ since, (getCore s n).stop = .preempt since → (cx s n).handlerMode = true → since + 2 ^ 20 ≤ now s →
      (cx s n).han.entered + 2 ^ 20 ≤ now s →
        exec (.handlerStopLimit l) s = .next (modCore s n fun c => { c with stop := .forced })

/-- CONTEXT_SAVE puts the drained core's state and scratchpad into a shadow slot and frees the core (R396, R443); CONTEXT_RESTORE
gives a free core the state and scratchpad of the context saved most recently (R397); that it goes before a record of equal priority is the
model's choice (log 27). -/
def ContextSaveAndRestorePart : Prop :=
  ∀ (l : CoreNum) (s : State), MemOk s →
    let n := l.toNat
    (saveDue s n = true → Machine.drained s n = true → (getCore s n).vfl = [] → (getCore s n).c3 = [] →
      ∃ t v, exec (.contextSave l) s = .next t ∧ (getCore t n).saved = v :: (getCore s n).saved ∧ (getCore t n).stop = .none ∧
        (cx t n).run = none ∧ (cx t n).residentLid = 0 ∧ v.lid = (cx s n).residentLid ∧ v.wdog = (getCore s n).wdogCnt ∧
        v.ctx.apRegs = (cx s n).apRegs ∧ v.ctx.eRegs = (cx s n).eRegs ∧ v.ctx.v1 = (cx s n).v1 ∧ v.ctx.v2 = (cx s n).v2 ∧
        v.ctx.p1 = (cx s n).p1 ∧ v.ctx.p2 = (cx s n).p2 ∧ v.ctx.acc = (cx s n).acc ∧ v.ctx.tiles = (cx s n).tiles ∧
        v.ctx.run = (cx s n).run ∧ v.ctx.rings = (cx s n).rings ∧ (∀ e, (vget EngSt.reset v.ctx.engs (engIdx e)).pc = (getEng s n e).pc) ∧
        (∀ z, readByte t z = readByte s z) ∧
        ∀ a, a < 0x100000 → ((v.sp.find? fun c => c.1 == a).map (·.2)).getD 0 = readByte s (spBase n + a)) ∧
    (∀ v, savedTop s n = some v → coreFree s n = true → residentBusy s n = false →
      (∀ q ∈ starters s n, prioOf s q ≤ v.prio) → (v.sp.map Prod.fst).Nodup → (∀ c ∈ v.sp, c.1 < 0x100000) →
        ∃ t, exec (.contextRestore l) s = .next t ∧ cx t n = v.ctx ∧ (getCore t n).wdogCnt = v.wdog ∧
          (∀ a, a < 0x100000 → readByte t (spBase n + a) = ((v.sp.find? fun c => c.1 == a).map (·.2)).getD 0) ∧
          ∀ z, z < spBase n ∨ spBase (n + 1) ≤ z → readByte t z = readByte s z)

/-- The commands of the host port (R479): a row opens and closes, refresh and power commands have no effect here, latencies, drive
and termination take what is written, and the identification registers read as fixed. -/
def HostPortCommandsPart : Prop :=
  ∀ (ch : BitVec 2) (s : State),
    exec (.activate ch) s = .next (onHost s fun h => { h with openRow := tset h.openRow ch.toNat true }) ∧
    exec (.precharge ch) s = .next (onHost s fun h => { h with openRow := tset h.openRow ch.toNat false }) ∧
    exec (.refresh ch) s = .next s ∧ exec (.selfRefresh ch) s = .next s ∧
    exec (.powerDownEntry ch) s = .next s ∧ exec (.powerDownExit ch) s = .next s ∧
    exec (.trainingSequence ch) s = .next (onHost s fun h => { h with trained := tset h.trained ch.toNat true }) ∧
    (s.secHalt = false →
      exec (.modeRegisterRead ch .vendor) s = .next (onHost s fun h => { h with readData := [0xD5] }) ∧
      exec (.modeRegisterRead ch .revision) s = .next (onHost s fun h => { h with readData := [0x01] }) ∧
      (∀ r, ∃ v, exec (.modeRegisterRead ch r) s = .next (onHost s fun h => { h with readData := [v] })) ∧
      ∀ v, (∀ r n, (r, n) ∈ [(ModeReg.readLatency, 0), (.writeLatency, 1), (.drive, 2), (.termination, 3)] →
          exec (.modeRegisterWrite ch r v) s = .next (onHost s fun h => { h with modes := tset h.modes (8 * ch.toNat + n) v })) ∧
        ∀ r ∈ [ModeReg.vendor, .revision, .density], exec (.modeRegisterWrite ch r v) s = .next s)

/-- READ returns the bytes of the host buffer, and WRITE and WRITE_WITH_BYTE_MASK write the bytes their masks enable and no other
(R479, R480). That they are answered whatever row is open is the model's choice (log 60). -/
def HostBufferReadsAndWritesPart : Prop :=
  ∀ (off : BitVec 28) (s : State), s.secHalt = false → MemOk s →
    (∀ n, off.toNat + n ≤ 0x4000000 → exec (.read off n) s = .next (onHost s fun h =>
      { h with readData := (List.range n).map fun i => readByte s (bufBase + off.toNat + i) })) ∧
    (∀ bs : List Byte, off.toNat + bs.length ≤ 0x4000000 → ∃ t, exec (.write off bs) s = .next t ∧
      Wrote s t (bufBase + off.toNat) bs ∧ t.host = s.host) ∧
    ∀ ms : List (Option Byte), off.toNat + ms.length ≤ 0x4000000 → ∃ t, exec (.writeWithByteMask off ms) s = .next t ∧
      t.host = s.host ∧ ∀ z, readByte t z =
        if bufBase + off.toNat ≤ z ∧ z < bufBase + off.toNat + ms.length then
          (ms.getD (z - (bufBase + off.toNat)) none).getD (readByte s z) else readByte s z

/-- The count registers of the host (R481): a tail may run a ring's length ahead of its head, and a head moves forward as far as its
tail; any other value is ignored and sets QERR. LEN of BOOT starts a verification unless one runs or has passed (R500). -/
def HostCountWritesPart : Prop :=
  ∀ (v : BitVec 32) (s : State), s.secHalt = false →
    let h := s.host
    let put (ok : Prop) [Decidable ok] (f : HostPort) : State := { s with host := if ok then f else { h with qerr := true } }
    exec (.lqTailWrite v) s = .next (put ((v - h.lqHead).toNat ≤ 256) { h with lqTail := v }) ∧
    exec (.sqTailWrite v) s = .next (put ((v - h.sqHead).toNat ≤ 16) { h with sqTail := v }) ∧
    exec (.cqHeadWrite v) s = .next (put ((v - h.cqHead).toNat ≤ (h.cqTail - h.cqHead).toNat) { h with cqHead := v }) ∧
    exec (.srHeadWrite v) s = .next (put ((v - h.srHead).toNat ≤ (h.srTail - h.srHead).toNat) { h with srHead := v }) ∧
    exec (.bootLenWrite v) s = .next (if h.bootState = 1 ∨ h.bootState = 2 then s
      else { s with host := { h with bootLen := v, bootState := 1 } })

/-- COMPLETION_ENTRY_WRITE writes the oldest entry at CQ_TAIL while the ring holds fewer than 128 (R483); a response to a command
stands at SR_TAIL, and both counts advance (R485, R486). -/
def RingEntriesPart : Prop :=
  (∀ (s : State) (a b c d : Word) (rest : List (Word × Word × Word × Word)), risingFrom 0 s.host.win = true →
    let h := s.host
    h.cq = (a, b, c, d) :: rest → (h.cqTail - h.cqHead).toNat < 128 →
      ∃ t, exec .completionEntryWrite s = .next t ∧ t.host.cq = rest ∧ t.host.cqTail = h.cqTail + 1 ∧
        (let o := 0x4001000 + 32 * (h.cqTail.toNat % 128)
         winNat t o 8 = a.toNat ∧ winNat t (o + 8) 8 = b.toNat ∧ winNat t (o + 16) 8 = c.toNat ∧ winNat t (o + 24) 8 = d.toNat) ∧
        ∀ z, readByte t z = readByte s z) ∧
  ∀ (s : State) (r : Resp), r.v2 < 2 ^ 64 → r.v3 < 2 ^ 64 → r.status < 2 ^ 64 → risingFrom 0 s.host.win = true →
    let h := s.host
    let t := respondCmd s r
    let o := 0x4004000 + 32 * (h.srTail.toNat % 16)
    t.host.sqHead = h.sqHead + 1 ∧ t.host.srTail = h.srTail + 1 ∧ t.sqSeq = s.sqSeq + 1 ∧
      winNat t o 8 = s.sqSeq % 2 ^ 32 ∧ winNat t (o + 8) 8 = r.status ∧ winNat t (o + 16) 8 = r.v2 ∧ winNat t (o + 24) 8 = r.v3 ∧
      ∀ z, readByte t z = readByte s z

/-- The commands of firmware on launches, cores and registers (R485): KILL, MAPOUT, RESTART, ATTEST, IDKEY, DREAD, OVFSET and
TAGSET do what their rules say and answer 0 (R208, R395, R428, R433, R495, R496, R501). KILL answers once every departed access of
its launch has been performed (R433). How the head of a report is laid out (log 54), that IDKEY takes any address (log 55), the byte
order of a signature (log 11), and what a RESTART resets (log 57) are the model's choices. -/
def ServiceCommandsPart : Prop :=
  ∀ (s : State), MemOk s →
    let d1 := argOf s 1
    let d2 := argOf s 2
    let d3 := argOf s 3
    (Waits s 0x01 → d1 < 65536 →
      let lid := BitVec.ofNat 16 d1
      let answer (u : State) : State :=
        if writesDone u lid then respondCmd (onHost u fun h => { h with begun := false }) okResp else u
      (s.host.begun = false → ∀ la, LiveLaunch s lid la →
        exec .kill s = .next (answer (killLaunch (onHost s fun h => { h with begun := true }) lid 0x07))) ∧
      (s.host.begun = true → exec .kill s = .next (answer s))) ∧
    (Waits s 0x05 → d1 % 32 = 0 → d2 % 32 = 0 → 0 < d2 → d3 < 16 → lockable d1 d2 = true → ∃ u,
      exec .tagset s = .next (respondCmd u okResp) ∧ (∀ z, readByte u z = readByte s z) ∧
      ∀ g, tget 0 u.locks g = if d1 / 32 ≤ g ∧ g < d1 / 32 + d2 / 32 then BitVec.ofNat 4 d3 else tget 0 s.locks g) ∧
    (Waits s 0x07 → d1 < 192 → d2 ≤ 1 → d3 + 512 ≤ 0x4000000 → isVacant s d1 = false → ∃ u,
      exec .mapout s = .next (respondCmd u { status := 0, v2 := u.vacant.length, v3 := 0 }) ∧
      u.vacant = d1 :: s.vacant ∧ (d2 = 1 → d1 ∈ u.deadVaults)) ∧
    (Waits s 0x08 → d1 < 192 → (getCore s d1).halted = true → ∃ u, exec .restart s = .next (respondCmd u okResp) ∧
      (getCore u d1).halted = false ∧ (cx u d1).run = none ∧ (∀ a, a < 0x100000 → readByte u (spBase d1 + a) = 0) ∧
      ∀ e r, rreg u d1 e r = 0) ∧
    (Waits s 0x09 → d3 % 64 = 0 → d3 + 512 ≤ 0x4000000 → ∃ u, exec .attest s = .next (respondCmd u okResp) ∧
      let b := reportHead s d1 d2
      Wrote s u (bufBase + d3) (b ++ toLE 384 (Config.identitySign (BitVec.ofNat 256 (ofBE (sha256 b)))).toNat) ∧ b.length = 128) ∧
    (Waits s 0x0A → d3 + 384 ≤ 0x4000000 → ∃ u, exec .idkey s = .next (respondCmd u okResp) ∧
      Wrote s u (bufBase + d3) (toLE 384 Config.identityModulus.toNat)) ∧
    (Waits s 0x0B → d1 % 8 = 0 → d1 < 2 ^ 24 → exec .dread s = .next (respondCmd s { status := 0, v2 := diagReg s d1, v3 := 0 })) ∧
    (Waits s 0x0C → d1 < 192 → 0 < d3 → d3 ≤ 65535 → d2 % 64 = 0 → d2 + 64 * d3 ≤ 0x8000000000 → isVacant s d1 = false →
      (getCore s d1).ovf = [] → exec .ovfset s = .next (respondCmd
        (modCore s d1 fun c => { c with ovfSize := d3, ovfBase := d2, wovfSent := false }) okResp))

/-- The commands of firmware on episode contexts (R465, R485): BIND binds an unbound context to a launch, START makes it LIVE with
the state that its descriptor gives (once that can be read, R109; how invalid windows and reserved bits are judged is the model's choice, logs 12 and 51), STOP ends its episode with TERM 6, and EPREAD reports it. -/
def EpisodeCommandsPart : Prop :=
  ∀ (s : State),
    let n := argOf s 1
    let a := argOf s 2
    (Waits s 0x02 → n < 480 → a < 65536 → ∀ la, LiveLaunch s (BitVec.ofNat 16 a) la → (getCtx s n).st = .unbound →
      exec .bind s = .next (respondCmd (modCtx s n fun c => { c with st := .bound, lid := la.lid }) okResp)) ∧
    (Waits s 0x03 → n < 480 → descAddrOk a = true → refreshIn s a 256 = false → mayStart (getCtx s n) = true →
      let d (i : Nat) : Nat := readNat s (a + 8 * i) 8
      let all := (List.range 8).map fun i => windowOf (d (8 + 2 * i)) (d (9 + 2 * i)) (pickEid s 481 (Config.freeEid s.nonce))
      let ks := all.filter fun k => k.valid
      descBad d = false → (∀ k ∈ all, winBad ((d 3).testBit 0) k = false) →
      (∀ m ∈ s.ctxs, winClash s n m.1 ((d 3).testBit 0) ks = false) → ∃ u, exec .start s = .next (respondCmd u okResp) ∧
        (∀ z, readByte u z = readByte s z) ∧ (∀ m, m ≠ n → SameButTurn (getCtx s m) (getCtx u m)) ∧
        let c := getCtx u n
        c.st = .live ∧ c.pc = BitVec.ofNat 64 (d 0) ∧ c.f = Vector.replicate 32 0 ∧
        (∀ r, xr c r = if r = 10 then BitVec.ofNat 64 (d 1) else if r = 2 then BitVec.ofNat 64 (d 2) else 0) ∧
        c.checker = (d 3).testBit 0 ∧ c.follow = (d 3).testBit 1 ∧ c.g0 = BitVec.ofNat 16 (d 3 / 2 ^ 16) ∧
        c.actBox = [] ∧ c.cycle = 0 ∧ c.instret = 0 ∧ c.stepWd = (if d 4 = 0 then 2 ^ 24 else d 4) ∧ c.budgetMax = d 5 ∧
        c.lid = (getCtx s n).lid ∧ c.windows = ks) ∧
    (Waits s 0x04 → n < 480 → ((getCtx s n).st = .live ∨ (getCtx s n).st = .suspended) →
      exec .stop s = .next (respondCmd (endEpisode s n (lastStep (getCtx s n)) (getCtx s n).g0 6 0) okResp)) ∧
    (Waits s 0x06 → n < 480 →
      exec .epread s = .next (respondCmd s { status := 0, v2 := epstat (getCtx s n), v3 := epcnt (getCtx s n) }))

/-- Partitions (R448): CREATE takes cores and ASIDs, HALT asks its cores to stop, SAVE puts by its cores once they have stopped,
RESTORE resumes a HALTED one and loads a SAVED one, and DESTROY kills its launches and frees it. That the registers of a core read 0
once a SAVE has put it by is the model's choice (log 94), and so is what a SAVE puts by (logs 57 and 58). -/
def PartitionEventsPart : Prop :=
  ∀ (p : BitVec 3) (s : State), Runs s →
    let k := tget Partition.reset s.parts p.toNat
    (∀ (cores : List CoreNum) (asids : List (BitVec 12)), k.st = .free → (∀ l ∈ cores, l.toNat < 192) →
      coresTaken s p.toNat (cores.map (·.toNat)) = false →
        let made : Partition := { st := .running, cores := cores.map (·.toNat), asids := asids, save := [] }
        exec (.partitionCreate p cores asids) s = .next { s with parts := tset s.parts p.toNat made }) ∧
    (k.st = .running → ∃ t, exec (.partitionHalt p) s = .next t ∧ (tget Partition.reset t.parts p.toNat).st = .halted ∧
      (∀ l ∈ k.cores, ((getCore t l).stop = .halt ∨ (getCore t l).stop = .stopped) ∧ (cx t l).run = (cx s l).run ∧
        ∀ e r, rreg t l e r = rreg s l e r) ∧
      (∀ l, l ∉ k.cores → cx t l = cx s l ∧ (getCore t l).stop = (getCore s l).stop) ∧
      ((∀ l ∈ k.cores, (getCore s l).vfl = []) → ∀ z, readByte t z = readByte s z)) ∧
    (k.st = .halted → (∀ l ∈ k.cores, (getCore s l).stop = .stopped) → k.cores.Nodup → ∃ t, exec (.partitionSave p) s = .next t ∧
      (tget Partition.reset t.parts p.toNat).st = .saved ∧ (tget Partition.reset t.parts p.toNat).save.map Prod.fst = k.cores ∧
      (∀ v ∈ (tget Partition.reset t.parts p.toNat).save, v.2.1.x = cx s v.1) ∧
      ∀ l ∈ k.cores, (cx t l).run = none ∧ ∀ e r, rreg t l e r = 0) ∧
    ((∀ l ∈ k.cores, isVacant s l = false) →
      (k.st = .halted → ∃ t, exec (.partitionRestore p) s = .next t ∧ (tget Partition.reset t.parts p.toNat).st = .running ∧
        (∀ l ∈ k.cores, (getCore t l).stop = .none) ∧ ∀ z, readByte t z = readByte s z) ∧
      (k.st = .saved → coresTaken s p.toNat k.cores = false → (k.save.map Prod.fst).Nodup →
        ∃ t, exec (.partitionRestore p) s = .next t ∧ (tget Partition.reset t.parts p.toNat).st = .halted ∧
          ∀ v ∈ k.save, cx t v.1 = v.2.1.x ∧ (getCore t v.1).stop = .stopped)) ∧
    ((k.st = .halted ∨ k.st = .saved) → ∃ t, exec (.partitionDestroy p) s = .next t ∧
      tget Partition.reset t.parts p.toNat = Partition.reset ∧
      ∀ la ∈ s.launches, k.asids.contains la.asid = true → la.st ≠ .ended →
        ∃ lb, getLaunch t la.lid = some lb ∧ (lb.killed ≠ 0 ∨ lb.st = .ended))

/-- What instructions of service firmware do to the device (R110, R416, R425, R431, R437, R442, R446, R450, R503): each has its effect and
no other; a store to a weight store has none (R108). A service core that executes an ADDI or an ECALL of its code has its result or takes the exception as the RISC-V
specifications say, which is the model's reading of R450 (notes/assumptions/89.md). -/
def FirmwareActionsPart : Prop :=
  ∀ (s : State), Runs s →
    (∀ (d : Bool) (r : FaultRec) (rest : List FaultRec), (vget Die.reset s.dies d.toNat).fq = r :: rest →
      ∃ t, exec (.serviceCoreInstruction (.takeFault d)) s = .next t ∧ (vget Die.reset t.dies d.toNat).fq = rest ∧
        (vget Die.reset t.dies d.toNat).lastFault = r.image ∧ t.fltTaken = s.fltTaken ++ (if r.fcode = 1 then [r] else []) ∧ ∀ z, readByte t z = readByte s z) ∧
    (MemOk s → (∀ pa bs, (OffVaults pa bs.length →
          ∃ t, exec (.serviceCoreInstruction (.writeMem pa bs)) s = .next t ∧ Wrote s t pa bs) ∧
        (¬OffVaults pa bs.length → exec (.serviceCoreInstruction (.writeMem pa bs)) s = .next s)) ∧
      ∀ src dst n, refreshIn s src n = false → OffVaults dst n →
        ∃ t, exec (.serviceCoreInstruction (.copyMem src dst n)) s = .next t ∧
          Wrote s t dst ((List.range n).map fun i => readByte s (src + i))) ∧
    (∀ (l : CoreNum) ap c0, exec (.serviceCoreInstruction (.setTvec l ap c0)) s = .next (modX s l.toNat fun x =>
      { x with tvecAp := ap &&& ~~~63#64, tvecC0 := c0 &&& ~~~63#64 })) ∧
    (∀ (l : CoreNum) v, exec (.serviceCoreInstruction (.setWdog l v)) s = .next (modCore s l.toNat fun c => { c with wdogLimit := v })) ∧
    (∀ v, exec (.serviceCoreInstruction (.setRefBase v)) s = .next { s with refbase := v }) ∧
    (∀ v, exec (.serviceCoreInstruction (.setAsidBase v)) s = .next { s with asidBase := v.toNat }) ∧
    (∀ (l : CoreNum) n, n.toNat ≤ 42 →
      exec (.serviceCoreInstruction (.setShadow l n)) s = .next (modCore s l.toNat fun c => { c with shadowSlots := n.toNat })) ∧
    (∀ k, exec (.serviceCoreInstruction (.readHotList k)) s = .next s) ∧
    (∀ (k : BitVec 2) rd a, exec (.serviceCoreInstruction (.readDiag k rd a)) s = .next (modSvc s k.toNat fun h =>
      h.take (xw h.hart rd.toNat (BitVec.ofNat 64 (diagReg s a.toNat))))) ∧
    ∀ k : BitVec 2,
      (∀ rd rs1 imm, svcFetch s k.toNat = .ok (wAddi rd rs1 imm, 4) →
        exec (.serviceCoreInstruction (.hart k)) s = .next (modSvc s k.toNat fun h =>
          { h.take (xw h.hart rd.toNat (xr h.hart rs1.toNat + imm.signExtend 64)) with pc := h.pc + 4, instret := h.instret + 1 })) ∧
      (svcFetch s k.toNat = .ok (0x00000073#32, 4) →
        exec (.serviceCoreInstruction (.hart k)) s = .next (modSvc s k.toNat fun h =>
          { h with mepc := h.pc, mcause := 11, mtval := 0, pie := h.ie, ie := false, pc := h.mtvec }))

/-- Reset and boot (R23, R24, R27, R500): DEVICE_RESET leaves the reset state at tick 0, and the first tick is 1; an image that passes
is accepted, any other refused; and the vacancy map sets READY. That the service cores begin an accepted image at the first byte of
its body is the model's choice (log 89), and so is how an image's numbers lie in memory (log 11). -/
def ResetAndBootPart : Prop :=
  ∀ (s : State),
    (∃ t, exec .deviceReset s = .next t ∧ t.inReset = true ∧ t.tick = 0 ∧ t.cores = State.reset.cores ∧ t.launches = [] ∧
      t.host = State.reset.host ∧ t.frozen = false ∧ (∀ l a, l < 192 → a < 0x100000 → readByte t (spBase l + a) = 0) ∧
      t.dies = State.reset.dies ∧ t.ctxs = State.reset.ctxs ∧ t.parts = State.reset.parts) ∧
    (s.inReset = true → ∃ t, exec .resetRelease s = .next t ∧ t.inReset = false ∧ t.tick = 1 ∧ t.cores = s.cores ∧ t.mem = s.mem) ∧
    (s.host.bootState = 1 → s.secHalt = false → ∃ t, exec .imageVerification s = .next t ∧
      t.host.bootState = (if imageOk s s.host.bootLen.toNat then 2 else 3) ∧ t.mem = s.mem ∧ t.cores = s.cores ∧
      ∀ k, k < 4 → (getSvc t k).pc = if imageOk s s.host.bootLen.toNat then 0x20000000328 else (getSvc s k).pc) ∧
    (Runs s → s.host.ready = false → ∀ map : BitVec 192, ∃ t, exec (.vacancyMapWrite map) s = .next t ∧ t.host.ready = true ∧
      t.cores = s.cores ∧ t.mem = s.mem ∧ ∀ l, l < 192 → (isVacant t l = true ↔ map.getLsbD l = true))

/-- Scan-out and freezing (R493): the instructions of the test access port, the fast scan port's reads, and the freeze, after which
no move of the schedule but a device reset changes anything other than the two registers of scan-out. That BYPASS and EXTEST change the
port's instruction alone (log 74), when the freeze takes effect (log 65), and that a frozen package with an empty schedule stops (log 72), are
the model's choices. -/
def ScanAndFreezePart : Prop :=
  ∀ (s : State),
    exec .bypass s = .next { s with tap := .bypass } ∧ exec .extest s = .next { s with tap := .extest } ∧
    exec .idcode s = .next { s with tap := .idcode, scanData := Config.idcode.zeroExtend 64 } ∧
    (∃ v, exec .samplePreload s = .next { s with tap := .samplePreload, scanData := v }) ∧
    (∀ pa, scanMem pa = true → refreshIn s pa 8 = false → ∃ v, exec (.fastScanRead (.mem pa)) s = .next { s with scanData := v } ∧
      ∀ i, i < 8 → v.extractLsb' (8 * i) 8 = readByte s (pa + i)) ∧
    (∀ a, exec (.fastScanRead (.diag a)) s = .next { s with scanData := BitVec.ofNat 64 (diagReg s a.toNat) }) ∧
    (∀ l n, exec (.fastScanRead (.csr l n)) s = .next { s with scanData := csrRead s l.toNat n.toNat }) ∧
    (s.frozen = false → s.inReset = false →
      (∃ t, exec .freeze s = .next t ∧ t.frozen = true ∧ t.frzTick = s.tick) ∧
      (s.frzArm = true → s.frzTick = s.tick → ∃ t, exec .freezeAtTick s = .next t ∧ t.frozen = true ∧ t.frzTick = s.tick) ∧
      ((s.frzArm = false ∨ s.frzTick ≠ s.tick) → exec .freezeAtTick s = .next s)) ∧
    (s.frozen = true → exec .freeze s = .next s ∧ exec .freezeAtTick s = .next s ∧ (s.tape = [] → step s = .fault .frozen) ∧
      ∀ m rest, s.tape = m :: rest → m ≠ .event .deviceReset → ∃ k d,
        step s = .next { s with tape := rest, nonce := s.nonce + 1, tap := k, scanData := d })

/-- EPISODE_CORE_INSTRUCTION executes the resident context's next instruction (R451): ADDI, ADD, SUB and LUI write rd, and ECALL
suspends the context with cause 8, which CONTEXT_EXCEPTION does too (R452). The encodings and results of these instructions are those of the
RISC-V specifications, which is the model's reading of R451 (log 9), and so is that a fetch of 4 bytes is one access (log 45), and that
instructions act one after another (log 44). What tval holds is a free value (log 43). -/
def EpisodeCoreInstructionsPart : Prop :=
  ∀ (i : BitVec 6) (s : State),
    let n := residentCtx s i.toNat
    let c := getCtx s n
    (∀ rd rs1 imm, AtWord s n (wAddi rd rs1 imm) → ∃ t, exec (.episodeCoreInstruction i) s = .next t ∧
      Stepped s t n rd.toNat (xr c rs1.toNat + imm.signExtend 64)) ∧
    (∀ sub rd rs1 rs2, AtWord s n (wAdd sub rd rs1 rs2) → ∃ t, exec (.episodeCoreInstruction i) s = .next t ∧
      Stepped s t n rd.toNat (if sub then xr c rs1.toNat - xr c rs2.toNat else xr c rs1.toNat + xr c rs2.toNat)) ∧
    (∀ rd imm, AtWord s n (wLui rd imm) → ∃ t, exec (.episodeCoreInstruction i) s = .next t ∧
      Stepped s t n rd.toNat ((imm ++ 0#12).signExtend 64)) ∧
    (AtWord s n 0x00000073#32 → (∃ t, exec (.episodeCoreInstruction i) s = .next t ∧ Called s t n) ∧
      ∀ x : CtxNum, x.toNat = n → ∃ t, exec (.contextException x) s = .next t ∧ Called s t n)

/-- ACT_TAKE, OBS_BELL and REW_BELL complete a waiting mailbox access (R460, R461): the oldest delivered action becomes the current
one, or a message goes out, which lowers OUT for an observation and ends the episode where the doorbell says so. -/
def MailboxDoorbellsPart : Prop :=
  ∀ (x : CtxNum) (s : State),
    let n := x.toNat
    let c := getCtx s n
    c.st = .live → InTurn s n 1000 →
    (∀ rd len m rest, c.wait = .actTake rd len → c.actBox = m :: rest → m.delivered = true → rd < 32 →
      ∃ t, exec (.actTake x) s = .next t ∧ (getCtx t n).actBox = rest ∧ (getCtx t n).hasCur = true ∧ (getCtx t n).act = m.bytes ∧
        (getCtx t n).wait = .none ∧ (getCtx t n).pc = c.pc + BitVec.ofNat 64 len ∧ (getCtx t n).instret = c.instret + 1 ∧
        (∀ r, r < 32 → xr (getCtx t n) r =
          if r = rd ∧ rd ≠ 0 then BitVec.ofNat 64 (ofLE ((m.bytes.take 8).map (·.b))) else xr c r) ∧ t.mem = s.mem) ∧
    (∀ rew v len, c.wait = .bell rew v len → (if rew then c.rewBox else c.obsBox).length < 7 →
      ∃ t m, exec (if rew then .rewBell x else .obsBell x) s = .next t ∧ (getCtx t n).wait = .none ∧
        (getCtx t n).pc = c.pc + BitVec.ofNat 64 len ∧ t.mem = s.mem ∧
        (getCtx t n).obsBox = c.obsBox ++ (if rew then [] else [m]) ∧ (getCtx t n).rewBox = c.rewBox ++ (if rew then [m] else []) ∧
        (getCtx t n).out = (if rew then c.out else c.out - 1) ∧
        (if v.extractLsb' 48 8 = 0 then (getCtx t n).st = .live ∧ (getCtx t n).actBox = c.actBox
         else (getCtx t n).st = .ended ∧ (getCtx t n).actBox = [] ∧ (getCtx t n).term = 1) ∧
        (m.drop 8).map (·.b) = (List.range 248).map fun i => ((if rew then c.rewBuf else c.obsBuf)[i + 8]?).getD 0)

/-- The ends of an episode (R459, R463, R466): an action of the next STEP whose GEN lags too far ends it with TERM 4, the step timer
with 2, the budget with 3, and firmware a suspended context with 5; an action that is in order is delivered and raises OUT. How the order of R462 is kept within a tick is the model's choice (log 41). -/
def EpisodeEndsPart : Prop :=
  ∀ (x : CtxNum) (s : State),
    let n := x.toNat
    let c := getCtx s n
    let last : BitVec 32 := if c.delivered then c.lstep else 0
    (c.st = .live → InTurn s n 2000 →
      (c.out ≠ 0 → c.stepWd ≤ c.stepTimer → ∃ t, exec (.stepWatchdog x) s = .next t ∧ Ended s t n (endMsg s last c.g0 2 c.stepTimer) 2) ∧
      (c.budgetMax ≠ 0 → c.budgetMax ≤ c.budget →
        ∃ t, exec (.episodeBudget x) s = .next t ∧ Ended s t n (endMsg s last c.g0 3 c.budget) 3)) ∧
    (∀ m rest, c.st = .live → stepExpired c = false → budgetExpired c = false → c.actBox = m :: rest → m.delivered = false →
      let step := BitVec.ofNat 32 (ofLE ((m.bytes.take 8).map (·.b)))
      let gen := BitVec.ofNat 16 (ofLE ((m.bytes.take 8).map (·.b)) / 2 ^ 32)
      let lags : Prop := c.lag.toNat < (gen - c.g0).toNat
      ((c.checker = true ∨ (c.delivered = true ∧ step.toNat ≤ c.lstep.toNat)) → ∃ t, exec (.actionExamination x) s = .next t ∧
        (getCtx t n).actBox = rest ∧ (getCtx t n).drop = (if c.drop = 255 then 255 else c.drop + 1) ∧ (getCtx t n).st = .live) ∧
      (c.checker = false → (c.delivered = true → c.lstep.toNat < step.toNat) →
        (lags → c.follow = false → ∃ t, exec (.actionExamination x) s = .next t ∧ Ended s t n (endMsg s step gen 4 c.g0.toNat) 4) ∧
        ((¬lags ∨ c.follow = true) → ∃ t, exec (.actionExamination x) s = .next t ∧
          (getCtx t n).actBox = { m with delivered := true } :: rest ∧ (getCtx t n).out = c.out + 1 ∧ (getCtx t n).lstep = step ∧
          (getCtx t n).delivered = true ∧ (getCtx t n).stepTimer = 0 ∧
          (lags → (getCtx t n).g0 = gen) ∧ (¬lags → (getCtx t n).g0 = c.g0)))) ∧
    ∀ pc tval rest, c.st = .suspended → standing s (ctxDie n) = (n, c.excCode.toNat, pc, tval) :: rest →
      ∃ t, exec (.suspendedContextEnd x) s = .next t ∧ Ended s t n (endMsg s last c.g0 5 c.excCode.toNat) 5

/-- SCRUB zeroes the OWN windows of an ended context, those in its core's SRAM too, and clears SCRB (R457), and unbinds it where that was asked
(R465), once no weight store it writes is in a refresh window (R109);
CONTEXT_SWITCH gives an episode core to the next ready context in round-robin order, and so does the core's next instruction before
it is executed (R453). That an LR's reservation lasts while its own value returns is the model's choice (log 42). -/
def ScrubAndContextSwitchPart : Prop :=
  (∀ (x : CtxNum) (s : State), MemOk s →
    let n := x.toNat
    let c := getCtx s n
    c.st = .ended → c.scrb = true →
    (∀ k ∈ c.windows, k.valid = true → k.own = true → 0x200000 ≤ k.base → refreshIn s k.base k.limit = false) →
    ∃ t, exec (.scrub x) s = .next t ∧ (getCtx t n).scrb = false ∧
      (getCtx t n).st = (if c.unbind then .unbound else .ended) ∧
      (∀ k ∈ c.windows, k.valid = true → k.own = true → 0x200000 ≤ k.base →
        ∀ z, k.base ≤ z → z < k.base + k.limit → readByte t z = 0) ∧
      (∀ z, sramByte t (coreOfCtx n) z = if ∃ k ∈ c.windows, k.valid = true ∧ k.own = true ∧ k.base < 0x200000 ∧
        k.base ≤ z ∧ z < k.base + k.limit then 0 else sramByte s (coreOfCtx n) z) ∧
      ∀ z, (∀ k ∈ c.windows, k.valid = true → k.own = true → 0x200000 ≤ k.base → z < k.base ∨ k.base + k.limit ≤ z) →
        readByte t z = readByte s z) ∧
  ∀ (i : BitVec 6) (s : State) (h : Nat), i.toNat < 60 → nextReady s i.toNat = some h →
    let n := residentCtx s i.toNat
    (ctxReady (getCtx s n) = false ∨ 4096 ≤ (getEp s i.toNat).ran) → mayCredit s (8 * i.toNat + h) = true → ∃ t, exec (.contextSwitch i) s = .next t ∧
      residentCtx t i.toNat = 8 * i.toNat + h ∧ (getEp t i.toNat).ran = 0 ∧
      ((∀ a k, (getCtx s n).wait ≠ .memory a k true) → (getCtx t n).resv = none) ∧
      ctxReady (getCtx s (8 * i.toNat + h)) = true ∧ h ≠ (getEp s i.toNat).cur % 8 ∧
      exec (.episodeCoreInstruction i) s = exec (.episodeCoreInstruction i) t ∧
      ∀ m, (getCtx t m).x = (getCtx s m).x ∧ (getCtx t m).pc = (getCtx s m).pc

/-- FLIT_RECEIVE (R472 to R478): a flit with a bad CRC asks for a retransmission; a read of this device is answered with the bytes
its home holds, and a write performed where its mask allows and acknowledged; one whose key is not the lock of its home is answered with the
fault 0x11 and has no effect (R429); a flit for another device goes on by the route table.
A header that R473 does not define has no effect: the model's choice (log 47), and so is what a flit carries beside its data (log 48). -/
def FlitsReceivedPart : Prop :=
  ∀ (p : BitVec 4) (f : Flit) (s : State),
    let q := getPort s p.toNat
    let a := f.addr.toNat
    let bs := flitData s p.toNat f
    let u := acceptSent (noteRx s p.toNat f bs) f
    q.up = true → q.resend = false → flitHeld s f = false →
    (f.crcOk = false → exec (.flitReceive p f) s = .next (modPort s p.toNat fun q => { q with resend := true })) ∧
    (f.crcOk = true → flitSound f = false → exec (.flitReceive p f) s = .next s) ∧
    (f.crcOk = true → flitSound f = true → f.ddev.toNat = devNum s →
      (f.kind = 1 → linkMay a f.len.toNat false = true → HomeAllows s f f.len.toNat →
        (f.strict = true → ∀ i, i < f.len.toNat → readPsn s (a + i) = false) → exec (.flitReceive p f) s =
          .next (sendTo u { replyTo s f 2 f.fmt with marks := marksAt s a f.len.toNat } (readBytes s a f.len.toNat))) ∧
      (f.kind = 3 → bs ≠ [] → linkMay a bs.length true = true → HomeAllows s f bs.length → MemOk s →
        ∃ t v, exec (.flitReceive p f) s = .next t ∧ t = sendTo v (replyTo s f 4 0xF) [] ∧
          ∀ z, readByte t z = if a ≤ z ∧ z < a + bs.length ∧ f.mask.getLsbD (z - a) = true then bs.getD (z - a) 0 else readByte s z) ∧
      (∀ pg, f.kind = 1 → flitPage f = some pg → flitMay f f.len.toNat false = true → flitFault u f f.len.toNat = none →
        let r := readPage u pg.1 pg.2 f.len.toNat
        (f.strict = true → r.1.any (·.psn) = false) → exec (.flitReceive p f) s = .next
          (sendTo u { replyTo s f 2 f.fmt with acf := r.2, marks := BitVec.ofNat 224 (ofBits (r.1.map (·.psn))) } (r.1.map (·.b)))) ∧
      (∀ pg, f.kind = 3 → bs ≠ [] → flitPage f = some pg → flitMay f bs.length true = true → flitFault u f bs.length = none →
        f.strict = false →
          let w := writePage u pg.1 pg.2 ((bs.zipIdx).map fun b => ⟨b.1, f.marks.getLsbD b.2⟩)
          exec (.flitReceive p f) s = .next (sendTo w.1 { replyTo s f 4 0xF with acf := w.2.1, rmw := decide (w.2.2 ≠ 0) } [])) ∧
      (∀ n, f.kind = 5 → n = (if f.wide then 8 else 4) → a % n = 0 → linkMay a n true = true → HomeAllows s f n → f.strict = false → MemOk s →
        let old := readNat s a n
        ∃ t v, exec (.flitReceive p f) s = .next t ∧ t = sendTo v (replyTo s f 6 0xF) (toLE n old) ∧
          (∀ z, z < a ∨ a + n ≤ z → readByte t z = readByte s z) ∧
          readNat t a n = (if f.op = 15 then if old = f.cmp.toNat % 2 ^ (8 * n) then f.opnd.toNat % 2 ^ (8 * n) else old
            else amoNew f.op.toNat n old f.opnd.toNat % 2 ^ (8 * n))) ∧
      (f.kind = 1 ∨ f.kind = 3 → f.page = none → ∀ k n, n = (if f.kind = 1 then f.len.toNat else bs.length) → 0 < n →
        linkMay a n (f.kind = 3) = true → goneGran s none [(a, n)] = none → f.key = some k → lockOf s (a / 32 * 32) ≠ k.toNat →
          ∃ t v e, exec (.flitReceive p f) s = .next t ∧ t = sendTo v { replyTo s f (f.kind + 1) (if f.kind = 1 then f.fmt else 0xF) with fault := some e } [] ∧
            e.code = 0x11 ∧ v.mem = s.mem)) ∧
    (f.crcOk = true → flitSound f = true → f.ddev.toNat ≠ devNum s → exec (.flitReceive p f) s = .next (sendTo u f bs))

/-- The rest of a link's life (R472, R474, R477): a retransmission sends again what has not been accepted, training brings a port up
with its route table, and a removed port leaves every route, its lost accesses faulting with 0x14. How many of the flits that a
port keeps have been accepted is a free value (log 10), and so is which responses were on it (log 73). What training is given is firmware's choice
(log 6). -/
def LinkPortsPart : Prop :=
  ∀ (p : BitVec 4) (s : State),
    ((getPort s p.toNat).up = true → ∃ t, exec (.flitRetransmit p) s = .next t ∧ (getPort t p.toNat).resend = false ∧
      (getPort t p.toNat).up = true ∧
      (getPort t p.toNat).sent.length = (getPort s p.toNat).sent.length - Config.acceptedFlits s.nonce ∧ (∀ m, m ≠ p.toNat → getPort t m = getPort s m) ∧
      t.mem = s.mem ∧ t.cores = s.cores) ∧
    (∀ routes, ∃ t, exec (.portTraining p routes) s = .next t ∧ (getPort t p.toNat).up = true ∧ (getPort t p.toNat).sent = [] ∧
      (∀ d ps, (∃ x, routes = x ++ [(d, ps)]) → d < 512 → tget [] t.routes d = ps.take 4) ∧
      (∀ m, m ≠ p.toNat → getPort t m = getPort s m) ∧ t.mem = s.mem ∧ t.cores = s.cores) ∧
    let fs := ((getPort s p.toNat).sent.drop (Config.acceptedFlits s.nonce)).map Prod.fst
    let lost (x : Transit) : Prop := carriedBy (devNum s) fs x = true ∨
      (x.remote = true ∧ (getPort s p.toNat).up = true ∧ Config.responseLost s.nonce x.tag = true)
    ∃ t, exec (.portRemoval p) s = .next t ∧ (getPort t p.toNat).up = false ∧ t.mem = s.mem ∧
      (∀ d x, x ∈ tget [] t.routes d → x ≠ p) ∧ (∀ x ∈ t.transit, ¬lost x) ∧
      ∀ x ∈ s.transit, lost x →
        (x.eng ≠ .su → x.eng ≠ .ce → runLid s x.core = x.lid → (getCore t x.core).apFlt = .unsent) ∧
        ∃ r ∈ t.fltPend, r.fcode = 0x14 ∧ r.core = x.core ∧ r.agent = (if x.eng = .su ∨ x.eng = .ce then x.eng else .ap) ∧ r.lid = x.lid
end Sys2Proof.Claims

open Sys2Proof Sys2Proof.Machine Sys2Proof.Safety Sys2Proof.Claims

/-- Scalar arithmetic words write D by R170 to R173 and change nothing else that R169 does not name. -/
def Obligations.ScalarResultWords : Prop :=
  RegisterWordsWriteTheirResultPart ∧ ImmediateWordsWriteTheirResultPart ∧ BitFieldWordsPart

/-- LUI, ADDPC, TICK and CSRR write D, and the predicate words kD, and change nothing else. -/
def Obligations.ConstantAndPredicateWords : Prop :=
  ConstantTickAndCsrReadsPart ∧ PredicateWordsWriteTheirResultPart

/-- Branches go to PC + 4 × offset when their condition holds (R189, R190), ending the loop levels that R194 says, and else
fall through. -/
def Obligations.BranchWords : Prop :=
  ∀ (i : Instr) (k : Guard) (rs : List Reg) (off : Word) (c : State → Nat → Eng → Bool), branchOf i = some (k, rs, off, c) →
    ∀ s : State, Goes [.ap, .c0] k rs true false s →
      let l := s.current.core
      let e := s.current.eng
      ∃ t, exec i s = .next t ∧
        if c s l e then Left s s t (rreg s l e) (getPc s l e + 4 * off) else Acted s s t

/-- JAL and JALR link and jump; LOOP opens a level, skips its body or traps; LOOPC closes C0's loop and ROTCLR clears rotating
bases. -/
def Obligations.JumpAndLoopWords : Prop :=
  JumpWordsPart ∧ LoopWordPart ∧ LoopCloseAndRotationWordsPart

/-- BQPUSH, BRQ, TKSIG and TKWAIT act on the queue or FIFO they name, and an engine code without one is illegal. -/
def Obligations.QueueAndTokenWords : Prop :=
  BranchQueueWordsPart ∧ TokenWordsPart

/-- EASE and SYNCG ask for a mask and eases, and LOCKSTEP_RENDEZVOUS installs them and opens the region. -/
def Obligations.LockstepWords : Prop :=
  SyncWordsPart ∧ LockstepRendezvousPart

/-- Loads, stores and atomics on the own scratchpad: with nothing older under way the word reads and writes the n bytes at its
effective address, a misaligned one byte by byte, and gives D what R179 and R184 to R186 say; every other byte keeps its value. No
other request for its banks stands before it on this tick (R61, R62). That a misaligned access is cut into single bytes is the model's
choice (notes/assumptions/84.md), and so is how banks are counted (notes/assumptions/88.md). -/
def Obligations.ScratchpadAccessWords : Prop :=
  ∀ (i : Instr) (m : MemW), memOf i = some m → ∀ s : State, Safety.MemOk s → Goes [.ap] m.k m.regs true false s →
    let l := s.current.core
    let who := apWho l ((cx s l).nextWord + 1)
    Clear s l → Acked s l (m.kind s l) → ∀ (off : Nat) (ak : AKind), (m.ea s l).toNat = off → off + m.n ≤ 0x100000 →
    accKind (m.kind s l) = some ak → Alone s l who [(off, m.n)] →
    (mustAlign (m.kind s l) = true → off % m.n = 0) →
    ((cx s l).handlerMode = false → isStore (m.kind s l) = true → ¬InBarrier s l off m.n) →
    (m.kind s l ≠ .st → (∀ sc, m.kind s l ≠ .stl sc) → ∀ j, j < m.n → readPsn s (spBase l + off + j) = false) →
      let old := readNat s (spBase l + off) m.n
      let u := spDone (queued s l m) l who off m.n (off % m.n == 0) ak (puts (m.kind s l) m.n old (m.data s l))
      ∃ t, exec i s = .next t ∧
        After (emptied u l) t l .ap
          (match gives (m.kind s l) m.n old with
            | some v => withReg s l .ap m.dst v
            | none => rreg s l .ap) (rk s l .ap) (nextPc s l .ap) (nextLevels s l .ap) ∧
        ∀ a, readByte t a = match puts (m.kind s l) m.n old (m.data s l) with
          | some v => if spBase l + off ≤ a ∧ a < spBase l + off + m.n then leByte v (a - (spBase l + off)) else readByte s a
          | none => readByte s a

/-- The same words on a translated address whose checks pass and whose home is on the core's die (R177, R358): an aligned access
acts on the delivered view of its page (R181), and on an identity page the bytes it stores are those at the frame's place. A
misaligned one, which only loads and stores may be, is made part by part (R178): that its parts are single bytes on identity pages, and
one for each page on converting pages, is the model's choice (notes/assumptions/84.md). No other request for the scratchpad banks that it
reaches stands before it on this tick (R61, R62; notes/assumptions/88.md). -/
def Obligations.TranslatedAccessWords : Prop :=
  ∀ (i : Instr) (m : MemW), memOf i = some m → ∀ s : State, Safety.MemOk s → Goes [.ap] m.k m.regs true false s →
    let l := s.current.core
    let who := apWho l ((cx s l).nextWord + 1)
    Clear s l → Acked s l (m.kind s l) → ∀ (va key : Nat) (ak : AKind),
    classify (m.ea s l) = .virt va key → va + m.n ≤ 2 ^ 48 → accKind (m.kind s l) = some ak →
    let gave (n old : Nat) : Reg → Word := match gives (m.kind s l) n old with
      | some v => withReg s l .ap m.dst v
      | none => rreg s l .ap
    ((m.ea s l).toNat % m.n = 0 → ∀ (ps : List (Trans × Nat × Nat)) (tlb : List TlbEnt),
      checkVa (queued s l m) (some (dieOf l)) (getCore s l).walkCache (getCore s l).apTlb 64 (cx s l).asid (runLid s l) va m.n key ak = (.ok ps, tlb) →
      partsNear ps (dieOf l) = true → (∀ r ∈ spOf ps, Alone s r.1 who r.2) →
      let u := useParts (hotParts (touchReads (modCore (queued s l m) l fun c => { c with apTlb := tlb }) ak ps) ps) who ps
      NoPoison u ps (m.kind s l) →
        ∃ t, exec i s = .next t ∧
          After (emptied (worked u l ps (m.kind s l) m.n (m.data s l)) l) t l .ap (gave m.n (found u ps)) (rk s l .ap)
            (nextPc s l .ap) (nextLevels s l .ap) ∧
          (puts (m.kind s l) m.n (found u ps) (m.data s l) = none → ∀ a, readByte t a = readByte s a) ∧
          ∀ x v, ps = [(x, va, m.n)] → gaugeOf x.pte = .ident → puts (m.kind s l) m.n (found u ps) (m.data s l) = some v →
            let base := pteAddr x.pte + va % pageSize x.lvl
            ∀ a, readByte t a = if base ≤ a ∧ a < base + m.n then leByte v (a - base) else readByte s a) ∧
    ((m.ea s l).toNat % m.n ≠ 0 → mustAlign (m.kind s l) = false →
      ∀ t g, Made l va key m.n (m.kind s l) ak (m.data s l)
          ⟨(cx s l).nextWord + 1, m.kind s l, m.ea s l, m.n, m.data s l, m.dst, false, 0, 0, 0⟩ (queued s l m) 0 0 t g →
        ∃ t', exec i s = .next t' ∧
          After (emptied t l) t' l .ap (gave m.n g) (rk s l .ap) (nextPc s l .ap) (nextLevels s l .ap))

/-- A memory word retires once its access is in the queues it needs, with room in them (R183), and the access waits its turn. That
the order between the two queues is the schedule's, within R183 and R362, is the model's choice (log 15). -/
def Obligations.MemoryWordsEnterTheirQueues : Prop :=
  ∀ (i : Instr) (m : MemW), memOf i = some m → ∀ s : State, Goes [.ap] m.k m.regs true false s →
    let l := s.current.core
    (getCore s l).defer = true →
    ((getCore s l).apq.filter fun q => inLq q.kind).length < 16 → ((getCore s l).apq.filter fun q => inSq q.kind).length < 16 →
    ((cx s l).handlerMode = false → isStore (m.kind s l) = true → (m.ea s l).toNat < 0x100000 →
      ¬InBarrier s l (m.ea s l).toNat m.n) →
      ∃ t, exec i s = .next t ∧
        Acted s (modCore (numbered s l) l fun c => { c with
          apq := c.apq ++ [⟨(cx s l).nextWord + 1, m.kind s l, m.ea s l, m.n, m.data s l, m.dst, false, 0, 0, 0⟩] }) t

/-- Stores to the barrier region trap in user mode; FENCE and QALIGN with nothing older under way are over at once. -/
def Obligations.BarrierRegionAndFenceWords : Prop :=
  BarrierRegionStoresTrapPart ∧ FenceWordsPart

/-- ACCESS_PERFORM: the home on the other die performs an access of the AP once it can have arrived, where no earlier one of its
core to the same place is still on its way and the banks that it reaches serve it (R355, R359, R62). ACKNOWLEDGEMENT: its answer reaches
the core; a write, AMO or CAS is acknowledged, and with the last byte of its value a load, AMO or CAS writes its register (R359, R361).
When an access can have arrived, and that an ACKNOWLEDGEMENT takes the oldest answer on its way to the core, are the model's choices
(notes/assumptions/32.md and 69.md). -/
def Obligations.AccessEvents : Prop :=
  (∀ (n : Nat) (s : State) (x : Transit),
    let ps := transitParts x
    let who := apWho x.core x.tag
    let u := useParts (touchReads s ((accKind x.kind).getD .read) ps) who ps
    s.transit[n]? = some x → x.eng = .ap → x.id ≠ 0 → x.remote = false → x.performed = false → partsTurn s who ps = true →
    x.since + transitLeg x ≤ now s → transitBehind s n x = false →
    (∀ p ∈ ps, refreshPart s p.1 p.2.1 p.2.2 = false ∧ homeFault s none p.1 p.2.1 p.2.2 x.key = none) →
    NoPoison u ps x.kind → (readParts u ps).1.length = x.n →
      exec (.accessPerform n) s = .next { worked u x.core ps x.kind x.n x.data with
        transit := s.transit.set n { x with
          performed := true, since := now s, val := if owes x.kind then BitVec.ofNat 64 (found u ps) else 0 } }) ∧
  ∀ (l : CoreNum) (s : State) (n : Nat) (x : Transit),
    s.transit.findIdx? (fun t => t.core == l.toNat && t.performed && decide (t.since + transitLeg t ≤ now s)) = some n →
    s.transit[n]? = some x → accKind x.kind ≠ none →
      let u := modCore { s with transit := s.transit.eraseIdx n } l.toNat fun c =>
        { c with ackOut := if accKind x.kind = some .read then c.ackOut else c.ackOut - 1 }
      (owes x.kind = false → exec (.acknowledgement l) s = .next u) ∧
      (owes x.kind = true → x.eng = .ap → x.id ≠ 0 → ∀ q, (getCore s l.toNat).apq.find? (fun q => q.id == x.id) = some q →
        let got := q.got + x.val.toNat * 2 ^ (8 * x.off)
        (q.back + x.n < q.n → exec (.acknowledgement l) s = .next (modCore u l.toNat fun c => { c with
          apq := c.apq.map fun q => if q.id = x.id then { q with back := q.back + x.n, got := got } else q })) ∧
        ∀ v, q.n ≤ q.back + x.n → got < 2 ^ (8 * q.n) → gives q.kind q.n got = some v →
          exec (.acknowledgement l) s = .next
            (wreg (modCore u l.toNat fun c => { c with apq := c.apq.filter fun q => q.id ≠ x.id }) l.toNat .ap q.dst v))

/-- CSRW and CSRX write a CSR under its access types, trap where it may not be written, and leave every other CSR. -/
def Obligations.CsrWrites : Prop :=
  CsrWriteWordsPart ∧ CsrWritesAreSeparatePart ∧ CsrWritesReadBackPart

/-- Taking a trap: what is saved, where the core goes, which traps name their word, and TRAP. -/
def Obligations.Traps : Prop :=
  TakingATrapPart ∧ PreciseTrapsNameTheirWordPart ∧ TrapWordPart

/-- TRET returns to user mode, HALT stops the core, and privileged words trap in user mode. -/
def Obligations.ReturnHaltAndPrivilegedWords : Prop :=
  ReturnFromTrapPart ∧ HaltWordPart ∧ PrivilegedWordsTrapInUserModePart

/-- TLBINV, ASIDRET, SHOOTDOWN and ASID_RETIREMENT drop translations, and SPCFG installs a partition. -/
def Obligations.InvalidationAndPartitionWords : Prop :=
  InvalidationWordsPart ∧ PartitionWordPart

/-- TRAP_ENTRY, WATCHDOG, HPC_C3_WRITE and CLS_CLEAR do what R435, R441, R442 and R489 say. -/
def Obligations.TrapEntryAndHandlerEvents : Prop :=
  TrapEntryAndWatchdogPart ∧ HandlerFetchAndCounterClearPart

/-- Stream words act on their stream as R93 to R101 say, and in a wrong state are stream-state faults. -/
def Obligations.StreamWords : Prop :=
  StreamWordsActPart ∧ StreamCopyWordsActPart ∧ StreamStateFaultsPart

/-- Ring words act on HEAD, TAIL, the cursor and the full bits as R72 to R77 and R231 to R235 say. -/
def Obligations.RingWordsAndSlots : Prop :=
  RingWordsActPart ∧ RingSlotsPart

/-- COPY, WSLOAD and the scheduling words have their effect by R239, R240, R244 to R248 and R254; that the
record ends after its word has retired is the model's choice (log 28), as is where a join object may lie (log 29). -/
def Obligations.RecordAndCopyWords : Prop := AllAct recordOf ∧ AllFault recordOf

/-- COPYW waits for its transfer, and WAITF for its value, until they complete. -/
def Obligations.CopyAndWaitWords : Prop :=
  CopyAndWaitWordPart ∧ WaitForValueWordPart

/-- APPEND adds an item to a list with room and gives 0, 1 when it is full and 2 for the reserved item (R251); TAKE takes the
oldest item when its core is the first that waits, or all ones once the launch has terminated (R252, R253): a TAKE that waited then
gives all ones whatever is appended later. -/
def Obligations.ListWords : Prop :=
  ∀ (k : Guard) (d a b : Reg) (s : State) (la : Launch),
    let l := s.current.core
    let v := rreg s l .ap a
    let x := rreg s l .ap b
    let n := (v.toNat / 2 ^ 12, v.toNat % 2 ^ 12)
    (Goes [.ap] k [a, d, b] false false s → Names s l v la → Still s l →
      let r : Word := if x = BitVec.allOnes 64 then 2 else if 2 ^ la.lcap ≤ (items s v).length then 1 else 0
      let u := if r = 0 then detAdd (setList s n.1 n.2 (items s v ++ [x])) la.lid 1 0 else s
      ∃ t, exec (.append k d a b) s = .next t ∧
        After u t l .ap (withReg u l .ap d r) (rk u l .ap) (nextPc u l .ap) (nextLevels u l .ap)) ∧
    (Goes [.ap] k [a, d] false false s → Names s l v la →
      (∀ y ys, (getCore s l).apWait ≠ .termed → items s v = y :: ys → (waiting s v = [] ∨ (waiting s v).head? = some l) →
        ∃ t, exec (.take k d a) s = .next t ∧
          getPc t l .ap = nextPc s l .ap ∧ (∀ r, rreg t l .ap r = withReg s l .ap d y r) ∧
          items t v = ys ∧ waiting t v = (waiting s v).filter (· ≠ l) ∧ inTake t l = false ∧ (getCore t l).apWait = .none ∧
          (∀ z, readByte t z = readByte s z) ∧
          ∀ m : Nat × Nat, m ≠ n → getList t m.1 m.2 = getList s m.1 m.2) ∧
      ((getCore s l).apWait = .termed ∨
          (items s v = [] ∨ (waiting s v ≠ [] ∧ (waiting s v).head? ≠ some l)) ∧ (detSeen la (dieOf l)).2 = true →
        ∃ t, exec (.take k d a) s = .next t ∧
          getPc t l .ap = nextPc s l .ap ∧ (∀ r, rreg t l .ap r = withReg s l .ap d (BitVec.allOnes 64) r) ∧
          (∀ m : Nat × Nat, getList t m.1 m.2 = getList s m.1 m.2) ∧ ∀ z, readByte t z = readByte s z))

/-- Barrier words on an object of the own core: the home acts at once and D receives its answer (R257 to R260). A word that a
home elsewhere has answered writes the answer, or traps where the home refused (R256, R261). -/
def Obligations.BarrierWords : Prop :=
  ∀ (i : Instr) (fn : Nat) (k : Guard) (d a b : Reg), barOf i = some (fn, k, d, a, b) → ∀ s : State,
    Goes [.ap] k [d, a, b] true false s →
    let l := s.current.core
    let va := rreg s l .ap a
    let vb := rreg s l .ap b
    let wrote (u : State) (v : Word) (t : State) : Prop :=
      After u t l .ap (withReg u l .ap d v) (rk u l .ap) (nextPc u l .ap) (nextLevels u l .ap)
    (apFree s l → va.toNat < 64 → l < 192 → isVacant s l = false → Still s l → homeTurn s l va.toNat 1 = true →
      ∀ u v, barDoes s l fn va vb = some (u, v) → ∃ t, exec i s = .next t ∧ wrote u v t) ∧
    (∀ v, (getCore s l).apWait = .got v → ∃ t, exec i s = .next t ∧
      wrote (modCore s l fun c => { c with apWait := .none }) v t) ∧
    ((getCore s l).apWait = .refused true →
      exec i s = .next (barrierTrap (modCore s l fun c => { c with apWait := .none }))) ∧
    ((getCore s l).apWait = .refused false →
      exec i s = .next (streamTrap (modCore s l fun c => { c with apWait := .none })))

/-- What barrier operations do to an object, and the events that carry a request, a refusal and a repeated read. -/
def Obligations.BarrierObjectsAndEvents : Prop :=
  BarrierObjectsPart ∧ BarrierEventsPart

/-- MBPUT posts the object's 256 bytes in the action mailbox and gives 0, or 1 when it holds eight and 2 once the episode has
ended (R263); MBGET takes the oldest message of the observation or reward mailbox into the object and gives its header (R264);
MBPEEK gives the count, with 16 while the episode has not ended (R265). The order of the steps of one tick is the model's reading of
R462 (log 41). -/
def Obligations.MailboxWords : Prop :=
  ∀ (k : Guard) (d a b : Reg) (s : State) (x m : Nat),
    let l := s.current.core
    let v := rreg s l .ap b
    let wrote (u : State) (r : Word) (t : State) : Prop :=
      After u t l .ap (withReg u l .ap d r) (rk u l .ap) (nextPc u l .ap) (nextLevels u l .ap)
    Boxed s l (rreg s l .ap a) x m →
    (Goes [.ap] k [a, d, b] true false s → m = 0 → ObjAt s l v 256 → Still s l → mailTurn s l x →
      Alone s l (apWho l 0) [(v.toNat, 256)] →
      let u := mailTaken (testTimers s x) l x
      let c := getCtx u x
      let w := objSeen u l v 256
      let bs := readPBytes w (spBase l + v.toNat) 256
      ∃ t, exec (.mbput k d a b) s = .next t ∧
        if c.st = .ended then wrote u 2 t
        else if 8 ≤ actCount c then wrote u 1 t
        else ((∀ y ∈ bs, y.psn = false) → wrote (modCtx w x fun c =>
          { c with actBox := c.actBox ++ [{ bytes := bs, delivered := false }] }) 0 t)) ∧
    (Goes [.ap] k [a, d, b] true false s → (m = 1 ∨ m = 2) → ObjAt s l v 256 → Idle s l → mailTurn s l x →
      Alone s l (apWho l 0) [(v.toNat, 256)] →
      let u := testTimers s x
      let box := if m = 1 then (getCtx u x).obsBox else (getCtx u x).rewBox
      (∀ y ys, box = y :: ys → ∃ t, exec (.mbget k d a b) s = .next t ∧
        wrote (writePBytes (useBanks (modCtx (mailTaken u l x) x fun c =>
          if m = 1 then { c with obsBox := ys } else { c with rewBox := ys }) l (apWho l 0) [(v.toNat, 256)]) (spBase l + v.toNat) y)
          (BitVec.ofNat 64 (ofLE ((y.take 8).map (·.b)))) t) ∧
      (box = [] → (getCtx u x).st = .ended → ∃ t, exec (.mbget k d a b) s = .next t ∧ wrote u (BitVec.allOnes 64) t)) ∧
    (Goes [.ap] k [a, d] true false s →
      let c := getCtx s x
      let n := if m = 0 then actCount c else if m = 1 then c.obsBox.length else c.rewBox.length
      ∃ t, exec (.mbpeek k d a) s = .next t ∧ wrote s (BitVec.ofNat 64 (n + if c.st = .ended then 0 else 16)) t)

/-- STREAM_START, COPY_TRANSFER_START and COPY_TRANSFER_COMPLETE begin and end the work of an SU and a CE. -/
def Obligations.StreamAndCopyEvents : Prop :=
  StreamAndCopyStartPart ∧ CopyTransferCompletePart ∧ CopyTransferTokenPart

/-- STREAM_SLOT_COMMIT and BIND_OFF_COMMIT fill the slot at TAIL whole. -/
def Obligations.SlotCommitEvents : Prop :=
  StreamSlotCommitPart ∧ SlotElementsPart ∧ BindOffCommitPart

/-- STREAM_SLOT_DRAIN and REMOTE_SLOT_TRANSFER give up the slot at HEAD whole. -/
def Obligations.SlotDrainEvents : Prop :=
  StreamSlotDrainPart ∧ DrainElementsPart ∧ RemoteSlotTransferPart

/-- A vector word that computes elements issues a repeat whose write holds exactly the elements that its rule gives, under the
guard, with their flags and poison (R268 to R284, R289 to R296, R305). How transcendental results are rounded (log 7) and the clamp of an
inactive position of a scan (log 36) are the model's choice. -/
def Obligations.VectorElementWords : Prop :=
  ∀ (i : Instr) (v : VecW), vecOf i = some v → wf i = true → ∀ s : State, Repeats v.w v.sh [] 0 s →
    let n := vphysOf s s.current.core (s.current.eng == .c2) v.w.d (getEng s s.current.core s.current.eng).rep
    let x := inputs s v.w v.sh
    ∃ t d f, exec i s = .next t ∧ Issued v.w v.sh [] s t [.vreg n d (BitVec.allOnes 256)] f false ∧
      ElemsOf v.wd x.d d (v.out x) ∧ FlagsOf v.wd f (v.out x)

/-- Reductions issue their one element, and comparison and predicate words their bits. -/
def Obligations.VectorReductionAndPredicateWords : Prop :=
  VectorReductionsPart ∧ ExtremeValuesPart ∧ VectorPredicateWordsPart

/-- VMXQ writes the codes and the scale of each block it makes, and nothing else of D (R293). VPART writes the indices of the
active elements grouped by value, ties in element order, to D, and the groups' sizes and starts to B (R295); that
poisoned keys set PSN, and poison no index, is the model's choice (log 36). -/
def Obligations.BlockAndPartitionWords : Prop :=
  ∀ (w : VWord) (s : State),
    let c2 := s.current.eng == .c2
    let r := (getEng s s.current.core s.current.eng).rep
    let n := vphysOf s s.current.core c2 w.d r
    (wf (.vmxq w) = true → Repeats w (shA false) [] 0 s →
      let x := inputs s w (shA false)
      let mx8 := w.mod.getLsbD 0
      let bb := if mx8 then 32 else 16
      let k := w.ty.lanes / 32
      let psn (j : Nat) : Bool := (List.range 32).any fun n => psnA w x (32 * j + n)
      ∃ t d m f, exec (.vmxq w) s = .next t ∧ Issued w (shA false) [] s t [.vreg n d m] f false ∧
        (∀ j, j < k → let q := mxOf w x j
          let b := w.part * k + j
          (d.bits.extractLsb' (8 * (bb * b)) (8 * bb)).toNat = packElems (if mx8 then 8 else 4) q.2.1 ∧
          (d.bits.extractLsb' (8 * (mxBlocks mx8 * bb + b)) 8).toNat = q.1 ∧
          d.psn.getLsbD (mxBlocks mx8 * bb + b) = psn j ∧ ∀ i, i < bb → d.psn.getLsbD (bb * b + i) = psn j) ∧
        (∀ i, i < 256 → (m.getLsbD i = true ↔ ∃ j, j < k ∧
          let b := w.part * k + j
          (bb * b ≤ i ∧ i < bb * b + bb) ∨ i = mxBlocks mx8 * bb + b)) ∧
        ∀ b, b < 5 → (f.getLsbD b = true ↔ ∃ j, j < k ∧ ((mxOf w x j).2.2.getLsbD b = true ∨ (b = 4 ∧ psn j = true)))) ∧
    (wf (.vpart w) = true → Repeats w (shA false) [] 0 s →
      (r = 0 → ∀ j, j ≤ w.rep.toNat → vphysOf s s.current.core c2 w.b j ≠ vphysOf s s.current.core c2 w.d j) →
      let x := inputs s w (shA false)
      let m := w.mod.toNat % 16 + 1
      let ks := (List.range w.ty.lanes).filter (activeAt w x)
      let of (c : Nat) : List Nat := ks.filter fun k => el w.ty.width x.a k = c
      let psn := ks.any (psnA w x)
      ∃ t d v, exec (.vpart w) s = .next t ∧
        Issued w (shA false) [] s t
          [.vreg n d (BitVec.allOnes 256), .vreg (vphysOf s s.current.core c2 w.b r) v (BitVec.allOnes 256)]
          (if psn then fPSN else 0) false ∧
        (∀ k, k < w.ty.lanes → el w.ty.width d k = (((List.range m).flatMap of)[k]?).getD 0 % 2 ^ w.ty.width) ∧
        ∀ k, k < 64 → el 32 v k =
          if k < m then (of k).length else if 16 ≤ k ∧ k < 16 + m then ((List.range (k - 16)).map fun c => (of c).length).sum else 0)

/-- VGATH and VSCAT read and write scratchpad elements at each active lane's offset. -/
def Obligations.VectorGatherAndScatter : Prop :=
  VectorGatherPart ∧ VectorScatterPart

/-- Pushes claim the unit or slot at TAIL, and a landing repeat performs its writes. -/
def Obligations.VectorPushesAndLanding : Prop :=
  VectorPushesPart ∧ VectorResultLandingPart

/-- TWROW writes active elements of A to a row of a tile register, TCLR zeros to all of it, and TRCOL reads a column into part
PART of D (R308). -/
def Obligations.TileWords : Prop :=
  ∀ (w : VWord) (s : State),
    let l := s.current.core
    let e := s.current.eng
    let r := (getEng s l e).rep
    let cell (i j : Nat) : Nat := w.mod.toNat % 4 * 4096 + i * 64 + j
    let shW : VShape := ⟨false, false, false, false, false, true, false⟩
    let shC : VShape := ⟨false, false, false, false, false, false, false⟩
    let shR : VShape := ⟨true, false, false, false, true, false, false⟩
    (wf (.twrow w) = true → Repeats w shW [] 0 s → tileWriteWait s l e r = [] →
      let x := inputs s w shW
      ∃ t cs f, exec (.twrow w) s = .next t ∧ Issued w shW [] s t [.cells cs] f false ∧
        ∀ c v, (c, v) ∈ cs ↔ ∃ j, j < 64 ∧ c = cell (w.imm.toNat % 64 + r) j ∧
          let k := w.part * 64 + j
          (activeAt w x k = true ∧ v = ⟨BitVec.ofNat 32 (el w.ty.width x.a k), psnA w x k⟩) ∨
          (activeAt w x k = false ∧ w.zm = true ∧ v = ⟨0, false⟩)) ∧
    (wf (.tclr w) = true → Repeats w shC [] 0 s → tileWriteWait s l e r = [] →
      ∃ t cs, exec (.tclr w) s = .next t ∧ Issued w shC [] s t [.cells cs] 0 false ∧
        ∀ c v, (c, v) ∈ cs ↔ ∃ k, k < 4096 ∧ c = cell 0 k ∧ v = ⟨0, false⟩) ∧
    (wf (.trcol w) = true → Repeats w shR [] 0 s → tileReadWait s l e r = [] →
      let x := inputs s w shR
      let out (k : Nat) : Option El :=
        if w.part * 64 ≤ k ∧ k < w.part * 64 + 64 then
          let c := tget Elem.zero (cx s l).tiles (cell (k - w.part * 64) (w.imm.toNat % 64 + r))
          under w w.ty.width x.g k ⟨c.v.toNat % 2 ^ w.ty.width, 0, c.psn⟩
        else none
      ∃ t d f, exec (.trcol w) s = .next t ∧
        Issued w shR [] s t [.vreg (vphysOf s l (e == .c2) w.d r) d (BitVec.allOnes 256)] f false ∧
        ElemsOf w.ty.width x.d d out ∧ FlagsOf w.ty.width f out)

/-- VJMP branches always, while its loop goes on, or when BOF is 1, which it clears (R311); VBRQ pops the AP's branch-outcome
queue (R312); VBRP tests a predicate, may push its outcome to the AP, and may fall through (R313). -/
def Obligations.VectorBranches : Prop :=
  ∀ (w : VWord) (s : State),
    let l := s.current.core
    let e := s.current.eng
    (Branches w false s →
      (wf (.vjmp w) = true → ∃ t, exec (.vjmp w) s = .next t ∧
        Branched w s (if w.mod.toNat = 2 then clearBof s l e else s) t
          (if w.mod.toNat = 0 then true else if w.mod.toNat = 1 then w.lb && goesOn (getEng s l e) else (vstat s l e).getLsbD 5)) ∧
      (wf (.vbrq w) = true → ∀ b n p, tget [] (cx s l).boq (8 + engCode e) = (b, n) :: p → n < now s →
        ∃ t, exec (.vbrq w) s = .next t ∧ Branched w s (withBoq s l 1 (engCode e) p) t b)) ∧
      (Branches w (decide (8 ≤ opAt w.a 0)) s → wf (.vbrp w) = true →
        let q := tget [] (cx s l).boq (8 * engCode e + 1)
        let o := outcome w (rp s l (e == .c2) (pphysOf s l (e == .c2) w.a 0))
        let push := w.mod.getLsbD 2
        (push = true → q.length < 16) →
          ∃ t, exec (.vbrp w) s = .next t ∧
            Branched w s (if push then withBoq s l (engCode e) 1 (q ++ [(o, now s)]) else s) t (o && !w.mod.getLsbD 3))

/-- MCFG, MJMP, MBRQ, MMA and MTOK issue as their rules say. -/
def Obligations.MatrixConfigAndBufferWords : Prop :=
  MatrixConfigAndBranchesPart ∧ MatrixBufferWordsPart

/-- A word of the accumulator unit starts on its issue tick, and MWAIT completes with its home's answer. -/
def Obligations.MatrixStartAndWaitWords : Prop :=
  MatrixStartWordsPart ∧ MatrixWaitWordPart

/-- MATRIX_WORD_START takes the operands, and MATRIX_WORD_RETIREMENT writes the tile that the rule gives and no other element.
-/
def Obligations.MatrixWordEvents : Prop :=
  MatrixWordStartPart ∧ MatrixWordRetirementPart

/-- A fault is recorded, then answered, and the agent goes on where the walk finds a translation. -/
def Obligations.FaultRecordsAndAnswers : Prop :=
  FaultRecordWritePart ∧ FaultAnswersPart ∧ PageWalksPart

/-- REFRESH_WINDOW_START and REFRESH_WINDOW_END complete in every state. The window of bank group (k mod 16) lasts from tick
REFBASE + 4,096 k for 384 ticks (R109): START begins the window that the tick lies in, and END ends one that does not reach the
tick. HOT_LIST_WRITE completes in every state: at the end of an interval a stack's candidates are its hot list, by count
descending and then by address, and the sketch and the candidates start anew; within an interval nothing changes (R431). -/
def Obligations.RefreshWindowsAndHotLists : Prop :=
  (∀ (s : State) (k i : Nat), now s = s.refbase.toNat + 4096 * k + i → i < 4096 →
    exec .refreshWindowStart s = .next (if i < 384 then { s with refresh := some (k % 16) } else s) ∧
    exec .refreshWindowEnd s = .next
      (if (i < 384 ∧ s.refresh = some (k % 16)) ∨ (384 ≤ i ∧ s.refresh = none) then s else { s with refresh := none })) ∧
  (∀ s : State, now s < s.refbase.toNat →
    exec .refreshWindowStart s = .next s ∧ exec .refreshWindowEnd s = .next { s with refresh := none }) ∧
  ∀ (k : BitVec 3) (s : State),
    let x := tget Stack.reset s.hbm k.toNat
    (x.done < now s / 2 ^ 20 → ∃ hot,
      exec (.hotListWrite k) s =
        .next { s with hbm := tset s.hbm k.toNat { x with sketch := [], cand := [], hot := hot, done := now s / 2 ^ 20 } } ∧
      hot.Perm x.cand ∧ hot.Pairwise fun a b => b.2 < a.2 ∨ (a.2 = b.2 ∧ a.1 ≤ b.1)) ∧
    (now s / 2 ^ 20 ≤ x.done → exec (.hotListWrite k) s = .next s)

/-- A free core selects the record of greatest EP, and an examined record goes where R389 and R391 say. -/
def Obligations.RecordSelectionAndExamination : Prop :=
  RecordSelectionPart ∧ RecordExaminationPart

/-- An ended record leaves its core as EXIT, PARK or WAITF says, and pushes put a record at a queue's tail. -/
def Obligations.RecordRetirementAndPushes : Prop :=
  RecordRetirementPart ∧ RecordPushesPart

/-- ADMISSION rejects a launch with the code that R380 gives or admits it, and GANG_ADMISSION binds the gang's cores. -/
def Obligations.Admission : Prop :=
  AdmissionPart ∧ GangAdmissionPart

/-- The detector, the end of a launch and its kill do what R410 to R412 and R433 say. -/
def Obligations.DetectorLaunchEndAndKill : Prop :=
  DetectorWatchAndReplanPart ∧ LaunchEndAndKillPart

/-- Pre-emption stops a core, and CONTEXT_SAVE and CONTEXT_RESTORE put by and give back its state. -/
def Obligations.PreemptionAndContexts : Prop :=
  PreemptionStopsPart ∧ ContextSaveAndRestorePart

/-- The host port's commands, and reads and writes of the host buffer. -/
def Obligations.HostPortEvents : Prop :=
  HostPortCommandsPart ∧ HostBufferReadsAndWritesPart

/-- The host's count registers and the entries of the completion and response rings. -/
def Obligations.HostRings : Prop :=
  HostCountWritesPart ∧ RingEntriesPart

/-- The commands of the service queue have their effect and answer 0. -/
def Obligations.ServiceAndEpisodeCommands : Prop :=
  ServiceCommandsPart ∧ EpisodeCommandsPart

/-- Partition commands and service firmware's instructions have the effect their rules give. -/
def Obligations.PartitionAndFirmwareEvents : Prop :=
  PartitionEventsPart ∧ FirmwareActionsPart

/-- Reset, boot, scan-out and the freeze, after which no move but a device reset changes anything else. -/
def Obligations.ResetBootAndScan : Prop :=
  ResetAndBootPart ∧ ScanAndFreezePart

/-- Sensors, tag history, power and traces (R490, R492, R494, R499, R502, R503): what a trip, a clear, DUTY, gating, power-up, a
sample and a register write leave. What a gated core loses (log 57), how gating goes on (log 64), when DUTY counts (log 8), and that a request whose
precondition does not hold has no effect (log 6) are the model's choices. -/
def Obligations.PowerSensorsAndRegisters : Prop :=
  ∀ (s : State),
    (∀ n : BitVec 2, ∃ t, exec (.sensorTrip n) s = .next t ∧ t.secAlarm.getLsbD n.toNat = true ∧
      (s.secAct.toNat / 4 ^ n.toNat % 4 = 2 → t.keysZero = true ∧ t.secHalt = true ∧ t.host.ready = false) ∧
      (s.secAct.toNat / 4 ^ n.toNat % 4 ≠ 2 → t.secHalt = s.secHalt ∧ t.host = s.host)) ∧
    (Runs s →
      (∀ d : Bool, ∃ t, exec (.taghistClear d) s = .next t ∧ (vget Die.reset t.dies d.toNat).taghist = TagHist.reset ∧
        vget Die.reset t.dies (1 - d.toNat) = vget Die.reset s.dies (1 - d.toNat)) ∧
      (∀ d w, exec (.dutySet d w) s = .next (if s.pwrCap = 0 ∨ d = 0 ∨ 64 < d.toNat then { s with pwrWatts := w }
        else { s with pwrDuty := d, pwrWatts := w })) ∧
      (∀ b : BitVec 5, b.toNat < 24 → (getBlock s b.toNat).gated = false → (∀ l ∈ blockCores b.toNat, coreIdle s l = true) →
        ((getBlock s b.toNat).buf = [] → ∃ t, exec (.blockGating b) s = .next t ∧ (getBlock t b.toNat).gated = true ∧
          ∀ l ∈ blockCores b.toNat, (cx t l).run = none ∧ ∀ e r, rreg t l e r = 0) ∧
        ((getBlock s b.toNat).buf ≠ [] → (getBlock s b.toNat).gating = none →
          exec (.blockGating b) s = .next (modBlock s b.toNat fun k => { k with gating := some (now s) }))) ∧
      ∀ b : BitVec 5, b.toNat < 24 → (getBlock s b.toNat).gated = true → ∃ t, exec (.blockPowerUp b) s = .next t ∧
        (getBlock t b.toNat).gated = false ∧ t.mem = s.mem) ∧
    (∀ (b : BitVec 5) k, (getBlock s b.toNat).gating = some k → k + 22000 ≤ now s → (∀ l ∈ blockCores b.toNat, coreIdle s l = true) →
      ∃ t, exec (.gatingTimeout b) s = .next t ∧ (getBlock t b.toNat).gated = true ∧ (getBlock t b.toNat).gating = none) ∧
    (sampleDue s = true → (∀ c ∈ s.cores, classesStand s c.1 = true) →
      ∃ t, exec .traceSample s = .next t ∧ t.sampled = now s ∧ t.cores = s.cores ∧ t.mem = s.mem) ∧
    (Runs s → ∀ v : Word,
      exec (.registerWrite (.diag 0x18) v) s = .next { s with frzTick := v } ∧
      exec (.registerWrite (.diag 0x10) v) s = .next { s with frzArm := v.getLsbD 0 } ∧
      exec (.registerWrite (.diag 0x08) v) s = .next { s with pwrCap := v.extractLsb' 0 12 } ∧
      exec (.registerWrite (.diag 0x20) v) s = .next { s with kindEn := v.extractLsb' 0 16, sampLog := v.extractLsb' 16 5 } ∧
      exec (.registerWrite (.diag 0x30) v) s = .next { s with trcSize := v.extractLsb' 0 32 } ∧
      exec (.registerWrite (.host 0x40) v) s =
        .next (if v.getLsbD 1 then onHost s fun h => { h with qerr := false } else s))

/-- An episode core executes its context's instruction, and mailbox accesses complete. -/
def Obligations.EpisodeCoreWords : Prop :=
  EpisodeCoreInstructionsPart ∧ MailboxDoorbellsPart

/-- The ends of an episode, the scrub of its windows and the switch of contexts. -/
def Obligations.EpisodeEndsAndScrub : Prop :=
  EpisodeEndsPart ∧ ScrubAndContextSwitchPart

/-- Flits received, sent again, forwarded and answered, and the training and removal of ports. -/
def Obligations.LinkEvents : Prop :=
  FlitsReceivedPart ∧ LinkPortsPart

/-- Words written out from the tables of R124, R129, R133, R138, R139 and R140 decode to the instructions they stand for, and the
all-zero word to none. -/
def Obligations.DecodeWords : Prop :=
  decode .ap (toLE 4 0x02421403) = some (.add 3 4 4 5) ∧
  decode .ap (toLE 4 0x20628090) = some (.ld 0 6 5 4 2) ∧
  decode .ap (toLE 4 0x58210000) = some (.bqpush 0 2 2) ∧
  decode .ap (toLE 4 0x54040018) = some (.loop 0 8 3) ∧
  decode .ap (toLE 4 0x7000002D) = some (.srewind 5 0) ∧
  decode .ap (toLE 4 0x72093000) = some (.rcfg 0 9 6) ∧
  decode .ap (toLE 4 0x91BA3C08) = some (.mbget 0 27 20 15) ∧
  decode .ap (toLE 4 0xA050E100) = some (.csrr 0 5 0x0E1) ∧
  decode .c0 (toLE 4 0) = none ∧
  decode .c1 (toLE 12 0x0897C014420C700000000000) =
    some (.vfmul ⟨false, false, 5, 15, .reg 0 1, .port 4, .bc 3, .bf16, 0, false, ⟨0, 0, 0, 0⟩, 0, 0⟩) ∧
  decode .c3 (toLE 24 0x004000000006380004001000003FFFC00000000000000000) =
    some (.mma ⟨false, false, false, 0, 6, 7, 0, 0, 1, false, false, 0, 0, false, ⟨1, 0, 0, 0⟩, 0, 0, false, 0, 0xFF, 0xFF, 0⟩)

/-- Decoding and encoding agree on every well-formed word of all three widths, and what the decoder accepts is well formed and is
the word of its instruction: no reserved field is dropped (R7, R121, R124, R133, R139). -/
def Obligations.DecodeOfEncode : Prop :=
  (∀ (i : Instr) (e : Eng) (bs : List Byte), wf i = true → encode i = some bs → e.wordBytes = bs.length → decode e bs = some i) ∧
  ∀ (i : Instr) (e : Eng) (bs : List Byte), bs.length = e.wordBytes → decode e bs = some i → wf i = true ∧ encode i = some bs

/-- One step of an engine: the word at its program counter is read through its page (R120, R419), decoded and executed; a word that
decodes to nothing, or a counter outside the code, traps; that handler code is bounded by its words' alignment alone is the model's reading
(log 16). A word that another device holds is asked for, and the engine waits
(R478). An event that may happen is executed. -/
def Obligations.StepRunsTheDecodedWord : Prop :=
  (∀ (s : State) (c : CoreNum) (e : Eng) (rest : List Move), s.tape = .issue c e :: rest →
    let l := c.toNat
    let s0 : State := { s with tape := rest, nonce := s.nonce + 1 }
    let u := beginTry s0 l e
    (canTry s0 l e = false → step s = .next s0) ∧
    (canTry s0 l e = true →
      (∀ w t, fetch u l e = .word w t →
        (∀ i, decodeFetched e w = some i → step s = exec i (withWord t w)) ∧
        (decodeFetched e w = none → step s = .next (illegal (withWord t w)))) ∧
      (fetch u l e = .outside → step s = .next (illegal u)) ∧
      ((getEng u l e).cur = none → pcLegal u l e (getPc u l e) = true → (getCore u l).apFlt = .clear →
        ∀ va key ps tlb, classify (getPc u l e) = .virt va key →
          checkVa u none (getCore u l).walkCache (getCore u l).apTlb 64 (cx u l).asid (runLid u l) va e.wordBytes key .fetch = (.ok ps, tlb) →
          let w := modCore u l fun c => { c with apTlb := tlb }
          let v := touchParts w ps
          let bs := (readParts v ps).1
          ((∀ p ∈ ps, homeOf (dieOf l) p ≠ .remote) → bs.any (·.psn) = false → ∀ i, decode e (bs.map (·.b)) = some i →
            step s = exec i (withWord (hotParts v ps) (BitVec.ofNat 192 (ofLE (bs.map (·.b)))))) ∧
          ((∃ p ∈ ps, homeOf (dieOf l) p = .remote) → ∀ x, readAway w l .c0 0 key 0xF ps = (x, none) → step s = .next (fetchPending x))))) ∧
  ∀ (s : State) (i : Instr) (rest : List Move), s.tape = .event i :: rest →
    let s0 : State := { s with tape := rest, nonce := s.nonce + 1 }
    step s = if eventOk s0 i then exec i s0 else .next s0

/-- Every instruction and every event answers a next state in every state, and so does every step but that of a frozen package
whose schedule is empty: that one is a fault of the model's choice (log 72), since no event takes effect after a freeze (R493). -/
def Obligations.EveryInstructionAnswers : Prop :=
  (∀ (i : Instr) (s : State), ∃ t, exec i s = .next t) ∧
  (∀ s : State, (s.frozen = false ∨ s.tape ≠ []) → ∃ t, step s = .next t) ∧
  ∀ s : State, s.frozen = true → s.tape = [] → step s = .fault .frozen

/-- After a device reset the machine holds what R23 and R27 give: tick 0, cores idle with registers of 0, scratchpads and host buffer
of zero, no launch, no vacant core, every context UNBOUND; and memory is in its canonical form. -/
def Obligations.ResetFacts : Prop :=
  (∀ l, CoreAtReset State.reset l) ∧ now State.reset = 0 ∧ State.reset.inReset = true ∧ State.reset.launches = [] ∧
  State.reset.vacant = [] ∧ State.reset.parts = [] ∧ MemOk State.reset ∧ State.reset.host.ready = false ∧
  (∀ n, (getCtx State.reset n).st = .unbound) ∧ (∀ a, isSp a = true → readByte State.reset a = 0) ∧
  ∀ a, 0x20000000000 ≤ a → a < 0x20004000000 → readByte State.reset a = 0

/-- g0 of the AP reads 0, k0 reads 1 and p0 all ones in every state; a write to g0 or k0 is discarded, and any other scalar register
holds what is written to it (R23, R169). -/
def Obligations.ConstantRegisters : Prop :=
  (∀ s l, ConstantReads s l) ∧
  (∀ s l v, wreg s l .ap 0 v = s) ∧ (∀ s l e v, wk s l e 0 v = s) ∧
  (∀ s l (r : Reg) v, r ≠ 0 → rreg (wreg s l .ap r v) l .ap r = v) ∧
  (∀ s l (r : Reg) v, r.toNat < 16 → rreg (wreg s l .c0 r v) l .c0 r = v) ∧
  (∀ s l e k v, (e = .ap ∨ e = .c0) → 0 < k → k < 8 → rk (wk s l e k v) l e k = v) ∧
  ∀ s l (r q : Reg) v, q ≠ r → rreg (wreg s l .ap r v) l .ap q = rreg s l .ap q

/-- Every step keeps memory in its canonical form: addresses strictly rising and nothing listed that an unlisted address reads. -/
def Obligations.StepsKeepMemory : Prop :=
  (∀ (i : Instr) (s t : State), MemOk s → exec i s = .next t → MemOk t) ∧
  ∀ s t : State, MemOk s → step s = .next t → MemOk t
end

