-- ==== Sys2Proof/Laws/Tables.lean ====
section
/-! SUPPORT. Tables and register files: reading after writing. -/

namespace Sys2Proof.Machine

@[simp] theorem tget_nil {α : Type} (d : α) (i : Nat) : tget d [] i = d := rfl

@[simp] theorem tget_tset_same {α : Type} (d : α) (t : Tab α) (i : Nat) (x : α) : tget d (tset t i x) i = x := by
  induction t with
  | nil => simp [tset, tget]
  | cons p t ih =>
    obtain ⟨k, v⟩ := p
    simp only [tset]
    split
    · simp_all [tget]
    · split <;> simp_all [tget]

@[simp] theorem tget_tset_ne {α : Type} (d : α) (t : Tab α) {i j : Nat} (h : i ≠ j) (x : α) :
    tget d (tset t i x) j = tget d t j := by
  induction t with
  | nil => simp [tset, tget, h]
  | cons p t ih =>
    obtain ⟨k, v⟩ := p
    simp only [tset]
    split
    · simp_all [tget]
    · split
      · simp [tget, h]
      · simp only [tget, ih]

theorem tget_tset {α : Type} (d : α) (t : Tab α) (i j : Nat) (x : α) :
    tget d (tset t i x) j = if i = j then x else tget d t j := by
  by_cases h : i = j
  · subst h; simp
  · simp [h]

@[simp] theorem tset_tset {α : Type} (t : Tab α) (i : Nat) (x y : α) : tset (tset t i x) i y = tset t i y := by
  induction t with
  | nil => simp [tset]
  | cons p t ih =>
    obtain ⟨k, v⟩ := p
    by_cases hk : k = i
    · simp [tset, hk]
    · by_cases hi : i < k
      · simp [tset, hk, hi]
      · simp [tset, hk, hi, ih]

@[simp] theorem vget_vset_same {α : Type} {n : Nat} (d : α) (v : Vector α n) {i : Nat} (h : i < n) (x : α) :
    vget d (vset v i x) i = x := by
  simp [vget, vset, h]

@[simp] theorem vget_vset_ne {α : Type} {n : Nat} (d : α) (v : Vector α n) {i j : Nat} (h : i ≠ j) (x : α) :
    vget d (vset v i x) j = vget d v j := by
  simp [vget, vset, h]

theorem vget_vset {α : Type} {n : Nat} (d : α) (v : Vector α n) (i j : Nat) (x : α) :
    vget d (vset v i x) j = if i = j ∧ i < n then x else vget d v j := by
  by_cases h : i = j
  · subst h
    by_cases hn : i < n
    · simp [hn]
    · simp [vget, vset, hn]
  · simp [h]

@[simp] theorem vset_vset {α : Type} {n : Nat} (v : Vector α n) (i : Nat) (x y : α) : vset (vset v i x) i y = vset v i y := by
  ext k hk
  simp only [vset, Vector.getElem_setIfInBounds]
  split <;> rfl

end Sys2Proof.Machine
end

