-- ==== Sys2Proof/Laws/State.lean ====
section
/-! SUPPORT. Reading a state after an update of one core: what each update leaves, field by field. -/

namespace Sys2Proof.Machine

@[simp] theorem modCore_granPsn (s : State) (l : Nat) (f : Core → Core) : (modCore s l f).granPsn = s.granPsn := rfl
@[simp] theorem modCore_bytePsn (s : State) (l : Nat) (f : Core → Core) : (modCore s l f).bytePsn = s.bytePsn := rfl
@[simp] theorem modCore_eccBad (s : State) (l : Nat) (f : Core → Core) : (modCore s l f).eccBad = s.eccBad := rfl
@[simp] theorem modCore_eccSoft (s : State) (l : Nat) (f : Core → Core) : (modCore s l f).eccSoft = s.eccSoft := rfl
@[simp] theorem modCore_locks (s : State) (l : Nat) (f : Core → Core) : (modCore s l f).locks = s.locks := rfl
@[simp] theorem modCore_vacant (s : State) (l : Nat) (f : Core → Core) : (modCore s l f).vacant = s.vacant := rfl
@[simp] theorem modCore_deadVaults (s : State) (l : Nat) (f : Core → Core) : (modCore s l f).deadVaults = s.deadVaults := rfl
@[simp] theorem modCore_tick (s : State) (l : Nat) (f : Core → Core) : (modCore s l f).tick = s.tick := rfl
@[simp] theorem modCore_inReset (s : State) (l : Nat) (f : Core → Core) : (modCore s l f).inReset = s.inReset := rfl
@[simp] theorem modCore_dies (s : State) (l : Nat) (f : Core → Core) : (modCore s l f).dies = s.dies := rfl
@[simp] theorem modCore_blocks (s : State) (l : Nat) (f : Core → Core) : (modCore s l f).blocks = s.blocks := rfl
@[simp] theorem modCore_hbm (s : State) (l : Nat) (f : Core → Core) : (modCore s l f).hbm = s.hbm := rfl
@[simp] theorem modCore_transit (s : State) (l : Nat) (f : Core → Core) : (modCore s l f).transit = s.transit := rfl
@[simp] theorem modCore_barMsgs (s : State) (l : Nat) (f : Core → Core) : (modCore s l f).barMsgs = s.barMsgs := rfl
@[simp] theorem modCore_launches (s : State) (l : Nat) (f : Core → Core) : (modCore s l f).launches = s.launches := rfl
@[simp] theorem modCore_detUpd (s : State) (l : Nat) (f : Core → Core) : (modCore s l f).detUpd = s.detUpd := rfl
@[simp] theorem modCore_nextLid (s : State) (l : Nat) (f : Core → Core) : (modCore s l f).nextLid = s.nextLid := rfl
@[simp] theorem modCore_nextOrder (s : State) (l : Nat) (f : Core → Core) : (modCore s l f).nextOrder = s.nextOrder := rfl
@[simp] theorem modCore_admitting (s : State) (l : Nat) (f : Core → Core) : (modCore s l f).admitting = s.admitting := rfl
@[simp] theorem modCore_killPend (s : State) (l : Nat) (f : Core → Core) : (modCore s l f).killPend = s.killPend := rfl
@[simp] theorem modCore_fltPend (s : State) (l : Nat) (f : Core → Core) : (modCore s l f).fltPend = s.fltPend := rfl
@[simp] theorem modCore_fltTaken (s : State) (l : Nat) (f : Core → Core) : (modCore s l f).fltTaken = s.fltTaken := rfl
@[simp] theorem modCore_fltSeq (s : State) (l : Nat) (f : Core → Core) : (modCore s l f).fltSeq = s.fltSeq := rfl
@[simp] theorem modCore_asidBase (s : State) (l : Nat) (f : Core → Core) : (modCore s l f).asidBase = s.asidBase := rfl
@[simp] theorem modCore_retAsid (s : State) (l : Nat) (f : Core → Core) : (modCore s l f).retAsid = s.retAsid := rfl
@[simp] theorem modCore_retBusy (s : State) (l : Nat) (f : Core → Core) : (modCore s l f).retBusy = s.retBusy := rfl
@[simp] theorem modCore_refbase (s : State) (l : Nat) (f : Core → Core) : (modCore s l f).refbase = s.refbase := rfl
@[simp] theorem modCore_refresh (s : State) (l : Nat) (f : Core → Core) : (modCore s l f).refresh = s.refresh := rfl
@[simp] theorem modCore_devId (s : State) (l : Nat) (f : Core → Core) : (modCore s l f).devId = s.devId := rfl
@[simp] theorem modCore_parts (s : State) (l : Nat) (f : Core → Core) : (modCore s l f).parts = s.parts := rfl
@[simp] theorem modCore_ctxs (s : State) (l : Nat) (f : Core → Core) : (modCore s l f).ctxs = s.ctxs := rfl
@[simp] theorem modCore_eps (s : State) (l : Nat) (f : Core → Core) : (modCore s l f).eps = s.eps := rfl
@[simp] theorem modCore_svc (s : State) (l : Nat) (f : Core → Core) : (modCore s l f).svc = s.svc := rfl
@[simp] theorem modCore_routes (s : State) (l : Nat) (f : Core → Core) : (modCore s l f).routes = s.routes := rfl
@[simp] theorem modCore_ports (s : State) (l : Nat) (f : Core → Core) : (modCore s l f).ports = s.ports := rfl
@[simp] theorem modCore_host (s : State) (l : Nat) (f : Core → Core) : (modCore s l f).host = s.host := rfl
@[simp] theorem modCore_sqSeq (s : State) (l : Nat) (f : Core → Core) : (modCore s l f).sqSeq = s.sqSeq := rfl
@[simp] theorem modCore_bodyHash (s : State) (l : Nat) (f : Core → Core) : (modCore s l f).bodyHash = s.bodyHash := rfl
@[simp] theorem modCore_keysZero (s : State) (l : Nat) (f : Core → Core) : (modCore s l f).keysZero = s.keysZero := rfl
@[simp] theorem modCore_secHalt (s : State) (l : Nat) (f : Core → Core) : (modCore s l f).secHalt = s.secHalt := rfl
@[simp] theorem modCore_secAct (s : State) (l : Nat) (f : Core → Core) : (modCore s l f).secAct = s.secAct := rfl
@[simp] theorem modCore_secLock (s : State) (l : Nat) (f : Core → Core) : (modCore s l f).secLock = s.secLock := rfl
@[simp] theorem modCore_secAlarm (s : State) (l : Nat) (f : Core → Core) : (modCore s l f).secAlarm = s.secAlarm := rfl
@[simp] theorem modCore_secTold (s : State) (l : Nat) (f : Core → Core) : (modCore s l f).secTold = s.secTold := rfl
@[simp] theorem modCore_replans (s : State) (l : Nat) (f : Core → Core) : (modCore s l f).replans = s.replans := rfl
@[simp] theorem modCore_pwrCap (s : State) (l : Nat) (f : Core → Core) : (modCore s l f).pwrCap = s.pwrCap := rfl
@[simp] theorem modCore_pwrDuty (s : State) (l : Nat) (f : Core → Core) : (modCore s l f).pwrDuty = s.pwrDuty := rfl
@[simp] theorem modCore_pwrWatts (s : State) (l : Nat) (f : Core → Core) : (modCore s l f).pwrWatts = s.pwrWatts := rfl
@[simp] theorem modCore_frzArm (s : State) (l : Nat) (f : Core → Core) : (modCore s l f).frzArm = s.frzArm := rfl
@[simp] theorem modCore_frzTick (s : State) (l : Nat) (f : Core → Core) : (modCore s l f).frzTick = s.frzTick := rfl
@[simp] theorem modCore_frozen (s : State) (l : Nat) (f : Core → Core) : (modCore s l f).frozen = s.frozen := rfl
@[simp] theorem modCore_tap (s : State) (l : Nat) (f : Core → Core) : (modCore s l f).tap = s.tap := rfl
@[simp] theorem modCore_scanData (s : State) (l : Nat) (f : Core → Core) : (modCore s l f).scanData = s.scanData := rfl
@[simp] theorem modCore_kindEn (s : State) (l : Nat) (f : Core → Core) : (modCore s l f).kindEn = s.kindEn := rfl
@[simp] theorem modCore_sampLog (s : State) (l : Nat) (f : Core → Core) : (modCore s l f).sampLog = s.sampLog := rfl
@[simp] theorem modCore_trcBase (s : State) (l : Nat) (f : Core → Core) : (modCore s l f).trcBase = s.trcBase := rfl
@[simp] theorem modCore_trcSize (s : State) (l : Nat) (f : Core → Core) : (modCore s l f).trcSize = s.trcSize := rfl
@[simp] theorem modCore_nonce (s : State) (l : Nat) (f : Core → Core) : (modCore s l f).nonce = s.nonce := rfl
@[simp] theorem modCore_current (s : State) (l : Nat) (f : Core → Core) : (modCore s l f).current = s.current := rfl
@[simp] theorem modCore_tape (s : State) (l : Nat) (f : Core → Core) : (modCore s l f).tape = s.tape := rfl
@[simp] theorem modCore_turn (s : State) (l : Nat) (f : Core → Core) : (modCore s l f).turn = s.turn := rfl
@[simp] theorem modCore_sampled (s : State) (l : Nat) (f : Core → Core) : (modCore s l f).sampled = s.sampled := rfl
@[simp] theorem modX_tick (s : State) (l : Nat) (f : Ctxt → Ctxt) : (modX s l f).tick = s.tick := rfl
@[simp] theorem modX_current (s : State) (l : Nat) (f : Ctxt → Ctxt) : (modX s l f).current = s.current := rfl
@[simp] theorem modX_nonce (s : State) (l : Nat) (f : Ctxt → Ctxt) : (modX s l f).nonce = s.nonce := rfl
@[simp] theorem modX_vacant (s : State) (l : Nat) (f : Ctxt → Ctxt) : (modX s l f).vacant = s.vacant := rfl
@[simp] theorem modX_launches (s : State) (l : Nat) (f : Ctxt → Ctxt) : (modX s l f).launches = s.launches := rfl
@[simp] theorem modX_host (s : State) (l : Nat) (f : Ctxt → Ctxt) : (modX s l f).host = s.host := rfl
@[simp] theorem modX_pwrDuty (s : State) (l : Nat) (f : Ctxt → Ctxt) : (modX s l f).pwrDuty = s.pwrDuty := rfl
@[simp] theorem modX_transit (s : State) (l : Nat) (f : Ctxt → Ctxt) : (modX s l f).transit = s.transit := rfl
@[simp] theorem modX_dies (s : State) (l : Nat) (f : Ctxt → Ctxt) : (modX s l f).dies = s.dies := rfl
@[simp] theorem modX_granPsn (s : State) (l : Nat) (f : Ctxt → Ctxt) : (modX s l f).granPsn = s.granPsn := rfl
@[simp] theorem modX_bytePsn (s : State) (l : Nat) (f : Ctxt → Ctxt) : (modX s l f).bytePsn = s.bytePsn := rfl
@[simp] theorem modEng_tick (s : State) (l : Nat) (e : Eng) (f : EngSt → EngSt) : (modEng s l e f).tick = s.tick := rfl
@[simp] theorem modEng_current (s : State) (l : Nat) (e : Eng) (f : EngSt → EngSt) : (modEng s l e f).current = s.current := rfl
@[simp] theorem modEng_nonce (s : State) (l : Nat) (e : Eng) (f : EngSt → EngSt) : (modEng s l e f).nonce = s.nonce := rfl
@[simp] theorem modEng_vacant (s : State) (l : Nat) (e : Eng) (f : EngSt → EngSt) : (modEng s l e f).vacant = s.vacant := rfl
@[simp] theorem modEng_launches (s : State) (l : Nat) (e : Eng) (f : EngSt → EngSt) : (modEng s l e f).launches = s.launches := rfl
@[simp] theorem modEng_host (s : State) (l : Nat) (e : Eng) (f : EngSt → EngSt) : (modEng s l e f).host = s.host := rfl
@[simp] theorem modEng_pwrDuty (s : State) (l : Nat) (e : Eng) (f : EngSt → EngSt) : (modEng s l e f).pwrDuty = s.pwrDuty := rfl
@[simp] theorem modEng_transit (s : State) (l : Nat) (e : Eng) (f : EngSt → EngSt) : (modEng s l e f).transit = s.transit := rfl
@[simp] theorem modEng_dies (s : State) (l : Nat) (e : Eng) (f : EngSt → EngSt) : (modEng s l e f).dies = s.dies := rfl
@[simp] theorem modEng_granPsn (s : State) (l : Nat) (e : Eng) (f : EngSt → EngSt) : (modEng s l e f).granPsn = s.granPsn := rfl
@[simp] theorem modEng_bytePsn (s : State) (l : Nat) (e : Eng) (f : EngSt → EngSt) : (modEng s l e f).bytePsn = s.bytePsn := rfl
@[simp] theorem note_tick (s : State) (l : Nat) (e : Eng) (c : HeadClass) (fs : List Nat) : (note s l e c fs).tick = s.tick := rfl
@[simp] theorem note_current (s : State) (l : Nat) (e : Eng) (c : HeadClass) (fs : List Nat) : (note s l e c fs).current = s.current := rfl
@[simp] theorem note_nonce (s : State) (l : Nat) (e : Eng) (c : HeadClass) (fs : List Nat) : (note s l e c fs).nonce = s.nonce := rfl
@[simp] theorem note_vacant (s : State) (l : Nat) (e : Eng) (c : HeadClass) (fs : List Nat) : (note s l e c fs).vacant = s.vacant := rfl
@[simp] theorem note_launches (s : State) (l : Nat) (e : Eng) (c : HeadClass) (fs : List Nat) : (note s l e c fs).launches = s.launches := rfl
@[simp] theorem note_host (s : State) (l : Nat) (e : Eng) (c : HeadClass) (fs : List Nat) : (note s l e c fs).host = s.host := rfl
@[simp] theorem note_pwrDuty (s : State) (l : Nat) (e : Eng) (c : HeadClass) (fs : List Nat) : (note s l e c fs).pwrDuty = s.pwrDuty := rfl
@[simp] theorem note_transit (s : State) (l : Nat) (e : Eng) (c : HeadClass) (fs : List Nat) : (note s l e c fs).transit = s.transit := rfl
@[simp] theorem note_dies (s : State) (l : Nat) (e : Eng) (c : HeadClass) (fs : List Nat) : (note s l e c fs).dies = s.dies := rfl
@[simp] theorem note_granPsn (s : State) (l : Nat) (e : Eng) (c : HeadClass) (fs : List Nat) : (note s l e c fs).granPsn = s.granPsn := rfl
@[simp] theorem note_bytePsn (s : State) (l : Nat) (e : Eng) (c : HeadClass) (fs : List Nat) : (note s l e c fs).bytePsn = s.bytePsn := rfl
@[simp] theorem modRing_tick (s : State) (l q : Nat) (f : Ring → Ring) : (modRing s l q f).tick = s.tick := rfl
@[simp] theorem modRing_current (s : State) (l q : Nat) (f : Ring → Ring) : (modRing s l q f).current = s.current := rfl
@[simp] theorem modRing_nonce (s : State) (l q : Nat) (f : Ring → Ring) : (modRing s l q f).nonce = s.nonce := rfl
@[simp] theorem modRing_vacant (s : State) (l q : Nat) (f : Ring → Ring) : (modRing s l q f).vacant = s.vacant := rfl
@[simp] theorem modRing_launches (s : State) (l q : Nat) (f : Ring → Ring) : (modRing s l q f).launches = s.launches := rfl
@[simp] theorem modRing_host (s : State) (l q : Nat) (f : Ring → Ring) : (modRing s l q f).host = s.host := rfl
@[simp] theorem modRing_pwrDuty (s : State) (l q : Nat) (f : Ring → Ring) : (modRing s l q f).pwrDuty = s.pwrDuty := rfl
@[simp] theorem modRing_transit (s : State) (l q : Nat) (f : Ring → Ring) : (modRing s l q f).transit = s.transit := rfl
@[simp] theorem modRing_dies (s : State) (l q : Nat) (f : Ring → Ring) : (modRing s l q f).dies = s.dies := rfl
@[simp] theorem modRing_granPsn (s : State) (l q : Nat) (f : Ring → Ring) : (modRing s l q f).granPsn = s.granPsn := rfl
@[simp] theorem modRing_bytePsn (s : State) (l q : Nat) (f : Ring → Ring) : (modRing s l q f).bytePsn = s.bytePsn := rfl
@[simp] theorem modStream_tick (s : State) (l n : Nat) (f : Stream → Stream) : (modStream s l n f).tick = s.tick := rfl
@[simp] theorem modStream_current (s : State) (l n : Nat) (f : Stream → Stream) : (modStream s l n f).current = s.current := rfl
@[simp] theorem modStream_nonce (s : State) (l n : Nat) (f : Stream → Stream) : (modStream s l n f).nonce = s.nonce := rfl
@[simp] theorem modStream_vacant (s : State) (l n : Nat) (f : Stream → Stream) : (modStream s l n f).vacant = s.vacant := rfl
@[simp] theorem modStream_launches (s : State) (l n : Nat) (f : Stream → Stream) : (modStream s l n f).launches = s.launches := rfl
@[simp] theorem modStream_host (s : State) (l n : Nat) (f : Stream → Stream) : (modStream s l n f).host = s.host := rfl
@[simp] theorem modStream_pwrDuty (s : State) (l n : Nat) (f : Stream → Stream) : (modStream s l n f).pwrDuty = s.pwrDuty := rfl
@[simp] theorem modStream_transit (s : State) (l n : Nat) (f : Stream → Stream) : (modStream s l n f).transit = s.transit := rfl
@[simp] theorem modStream_dies (s : State) (l n : Nat) (f : Stream → Stream) : (modStream s l n f).dies = s.dies := rfl
@[simp] theorem modStream_granPsn (s : State) (l n : Nat) (f : Stream → Stream) : (modStream s l n f).granPsn = s.granPsn := rfl
@[simp] theorem modStream_bytePsn (s : State) (l n : Nat) (f : Stream → Stream) : (modStream s l n f).bytePsn = s.bytePsn := rfl

/-! ### Cores -/

@[simp] theorem getCore_modCore (s : State) (l : Nat) (f : Core → Core) : getCore (modCore s l f) l = f (getCore s l) := by
  simp [getCore, modCore]

@[simp] theorem getCore_modCore_ne (s : State) {l m : Nat} (h : l ≠ m) (f : Core → Core) :
    getCore (modCore s l f) m = getCore s m := by
  simp [getCore, modCore, h]

@[simp] theorem modCore_modCore (s : State) (l : Nat) (f g : Core → Core) :
    modCore (modCore s l f) l g = modCore s l (g ∘ f) := by
  simp [getCore, modCore]

@[simp] theorem cx_modCore (s : State) (l : Nat) (f : Core → Core) : cx (modCore s l f) l = (f (getCore s l)).x := by
  simp [cx]

@[simp] theorem cx_modX (s : State) (l : Nat) (f : Ctxt → Ctxt) : cx (modX s l f) l = f (cx s l) := by
  simp [cx, modX]

@[simp] theorem getCore_modX (s : State) (l : Nat) (f : Ctxt → Ctxt) :
    getCore (modX s l f) l = { getCore s l with x := f (cx s l) } := by
  simp [modX, cx]

@[simp] theorem cx_modX_ne (s : State) {l m : Nat} (h : l ≠ m) (f : Ctxt → Ctxt) : cx (modX s l f) m = cx s m := by
  simp [cx, modX, h]

@[simp] theorem cx_note (s : State) (l m : Nat) (e : Eng) (c : HeadClass) (fs : List Nat) : cx (note s l e c fs) m = cx s m := by
  by_cases h : l = m
  · subst h; simp [cx, note]
  · simp [cx, note, h]

@[simp] theorem getEng_note (s : State) (l m : Nat) (e k : Eng) (c : HeadClass) (fs : List Nat) :
    getEng (note s l e c fs) m k = getEng s m k := by
  simp [getEng]

theorem engIdx_lt {e : Eng} (h : e ≠ .su) (h' : e ≠ .ce) : engIdx e < 5 := by
  cases e <;> simp_all [engIdx]

theorem engIdx_inj {a b : Eng} (h : engIdx a = engIdx b) : a = b := by
  cases a <;> cases b <;> simp_all [engIdx]

@[simp] theorem getEng_modEng (s : State) (l : Nat) {e : Eng} (h : e ≠ .su) (h' : e ≠ .ce) (f : EngSt → EngSt) :
    getEng (modEng s l e f) l e = f (getEng s l e) := by
  simp [getEng, modEng, engIdx_lt h h']

@[simp] theorem getEng_modEng_ne (s : State) (l : Nat) {e k : Eng} (h : e ≠ k) (f : EngSt → EngSt) :
    getEng (modEng s l e f) l k = getEng s l k := by
  have : engIdx e ≠ engIdx k := fun hk => h (engIdx_inj hk)
  simp [getEng, modEng, this]

end Sys2Proof.Machine
end

