-- ==== Sys2Proof/Laws/Words.lean ====
section
/-! SUPPORT. What a scalar word can come to, and what retiring one does. -/

namespace Sys2Proof.Machine

/-- The state in which a word of C0 that a region lets go takes effect. -/
def regionEntry (s : State) (l : Nat) (e : Eng) : State :=
  if e = .c0 ∧ c0InRegion s l = true then grantAll (rejoined s l e) l e else rejoined s l e

/-- Everything that a scalar word can come to: a trap, a wait, or its effect, or with its guard 0 the next word. -/
theorem scalarWord_cases (engs : List Eng) (k : Guard) (regs : List Reg) (hOk xw : Bool)
    (ready : State → Nat → Eng → Option (List Nat)) (body : State → Nat → Eng → State) (s : State) :
    let l := s.current.core
    let e := s.current.eng
    let o := scalarWord engs k regs hOk xw ready body s
    o = .next (illegal s) ∨ o = .next (waitOn s l e [210]) ∨ o = .next (waitOn s l e [208]) ∨ (∃ fs, o = .next (holdFor s l e fs)) ∨
      o = .next (holdReady s l e) ∨ o = .next (body (regionEntry s l e) l e) ∨ o = .next (retire (regionEntry s l e) l e) := by
  simp only [scalarWord, regionEntry]
  split
  · exact .inl rfl
  · split
    · exact .inr (.inl rfl)
    · split
      · exact .inr (.inr (.inl rfl))
      · split
        · exact .inr (.inr (.inr (.inl ⟨_, rfl⟩)))
        · by_cases hr : (s.current.eng == .c0 && c0InRegion s s.current.core) = true
          · have hr' : s.current.eng = .c0 ∧ c0InRegion s s.current.core = true := by simpa using hr
            simp only [hr, if_true, if_pos hr']
            split
            · exact .inr (.inr (.inr (.inl ⟨_, rfl⟩)))
            · split
              · exact .inr (.inr (.inr (.inr (.inl rfl))))
              · split
                · exact .inr (.inr (.inr (.inr (.inr (.inl rfl)))))
                · exact .inr (.inr (.inr (.inr (.inr (.inr rfl)))))
          · have hr' : ¬(s.current.eng = .c0 ∧ c0InRegion s s.current.core = true) := by simpa using hr
            simp only [Bool.not_eq_true] at hr
            simp only [hr, if_neg hr', Bool.false_eq_true, if_false]
            split
            · exact .inr (.inr (.inr (.inr (.inr (.inl rfl)))))
            · exact .inr (.inr (.inr (.inr (.inr (.inr rfl)))))

/-- A scalar word whose conditions hold has its effect. -/
theorem scalarWord_go {engs : List Eng} {k : Guard} {regs : List Reg} {hOk xw : Bool}
    {ready : State → Nat → Eng → Option (List Nat)} (body : State → Nat → Eng → State) {s : State}
    (he : s.current.eng ∈ engs) (hf : s.current.eng = .c0 → ∀ r ∈ regs, r.toNat < 16)
    (hm : (cx s s.current.core).handlerMode = true → hOk = true) (hj : mustMeet s s.current.core s.current.eng = false)
    (hr : ∀ r ∈ regs, regPending s s.current.core s.current.eng r = false)
    (hk : rk s s.current.core s.current.eng k.toNat = true) (hw : ready s s.current.core s.current.eng = none)
    (ht : s.current.eng = .c0 → c0InRegion s s.current.core = true →
      (xw = true → allReached s s.current.core (getEng s s.current.core .c0).pos = true) ∧
        mayIssueS s s.current.core .c0 = true) :
    scalarWord engs k regs hOk xw ready body s =
      .next (body (regionEntry s s.current.core s.current.eng) s.current.core s.current.eng) := by
  simp only [scalarWord, regionEntry]
  have h1 : (!engs.contains s.current.eng || (s.current.eng == .c0 && regs.any fun r => r.msb) ||
      ((cx s s.current.core).handlerMode && !hOk)) = false := by
    simp only [Bool.or_eq_false_iff, Bool.not_eq_false', Bool.and_eq_false_iff]
    refine ⟨⟨by simpa using he, ?_⟩, ?_⟩
    · by_cases h : s.current.eng = .c0
      · right
        simp only [List.any_eq_false]
        intro r hr'
        have := hf h r hr'
        simp only [BitVec.msb_eq_decide, decide_eq_true_eq]
        omega
      · left; simp [h]
    · cases h : (cx s s.current.core).handlerMode
      · left; rfl
      · right; simpa using hm h
  have h2 : regs.any (regPending s s.current.core s.current.eng) = false := by
    simpa [List.any_eq_false] using hr
  rw [if_neg (by simp only [h1]; decide), if_neg (by simp only [hj]; decide), if_neg (by simp only [h2]; decide)]
  simp only [hk, if_true, hw]
  by_cases h : s.current.eng = .c0 ∧ c0InRegion s s.current.core = true
  · obtain ⟨ha, hb⟩ := ht h.1 h.2
    rw [if_pos h]
    simp only [h.1, h.2, beq_self_eq_true, Bool.and_self, if_true, hb, Bool.true_and, Bool.not_true]
    cases xw
    · simp
    · simp [ha rfl]
  · rw [if_neg h]
    have : (s.current.eng == .c0 && c0InRegion s s.current.core) = false := by
      simpa using h
    simp [this]

end Sys2Proof.Machine
end

