-- ==== Sys2Proof/Laws/After.lean ====
section
/-! SUPPORT. The frame of a scalar word: what retiring and branching change, said once for every word. -/

namespace Sys2Proof.Safety

open Sys2Proof.Machine

/-- Whether a state differs from another in one core alone. -/
theorem modCore_congr {s : State} {l : Nat} {f g : Core → Core} (h : f (getCore s l) = g (getCore s l)) :
    modCore s l f = modCore s l g := by
  simp only [modCore, h]

theorem bare_set {s : State} {l : Nat} {f : Core → Core} (h : stripped (f (getCore s l)) = stripped (getCore s l)) :
    bare l (modCore s l f) = bare l s := by
  simp only [bare, modCore_modCore]
  exact modCore_congr h

theorem map_vset {α β : Type} {n : Nat} (g : α → β) (v : Vector α n) (i : Nat) (x : α) :
    (vset v i x).map g = vset (v.map g) i (g x) := by
  ext k hk
  simp [vset, Vector.getElem_setIfInBounds]

theorem vset_self {α : Type} {n : Nat} (d : α) (v : Vector α n) (i : Nat) : vset v i (vget d v i) = v := by
  ext k hk
  simp only [vset, vget, Vector.getElem_setIfInBounds]
  split
  · subst i; simp [hk]
  · rfl

theorem vget_map {α β : Type} {n : Nat} (g : α → β) (d : α) (v : Vector α n) (i : Nat) :
    vget (g d) (v.map g) i = g (vget d v i) := by
  simp only [vget, Vector.getElem?_map]
  cases v[i]? <;> rfl

/-- Changing an engine in what `stripped` forgets changes no stripped engine. -/
theorem calm_vset (v : Vector EngSt 5) (i : Nat) (x : EngSt) (h : calm x = calm (vget EngSt.reset v i)) :
    (vset v i x).map calm = v.map calm := by
  rw [map_vset, h, ← vget_map calm EngSt.reset]
  exact vset_self _ _ _

/-- A core after a scalar word, seen from the core before it. -/
structure Turned (c d : Core) (e : Eng) (pc : Word) (lv : Vector (Word × BitVec 32 × BitVec 11 × Bool) 2) : Prop where
  strip : stripped d = stripped c
  files : d.x.apRegs = c.x.apRegs ∧ d.x.eRegs = c.x.eRegs ∧ d.x.kap = c.x.kap ∧ d.x.kc0 = c.x.kc0
  own : (vget EngSt.reset d.x.engs (engIdx e)).pc = pc
  pcs : ∀ i, i ≠ engIdx e → (vget EngSt.reset d.x.engs i).pc = (vget EngSt.reset c.x.engs i).pc
  levels : d.x.loops = lv
  modes : d.x.handlerMode = c.x.handlerMode ∧ d.x.han = c.x.han

theorem engIdx_ne {m e : Eng} (he : e = .ap ∨ e = .c0) (h : m ≠ e) : engIdx m ≠ engIdx e := by
  rcases he with rfl | rfl <;> cases m <;> simp_all [engIdx]

/-- A core turned is the frame of a scalar word. -/
theorem after_of {u : State} {l : Nat} {e : Eng} {f : Core → Core} {pc : Word}
    {lv : Vector (Word × BitVec 32 × BitVec 11 × Bool) 2} (he : e = .ap ∨ e = .c0)
    (h : Turned (getCore u l) (f (getCore u l)) e pc lv) : After u (modCore u l f) l e (rreg u l e) (rk u l e) pc lv := by
  obtain ⟨hs, ⟨h1, h2, h3, h4⟩, ho, hp, hl, hm, hh⟩ := h
  have hr : ∀ m r, rreg (modCore u l f) l m r = rreg u l m r := by
    intro m r; cases m <;> simp [rreg, cx, h1, h2]
  have hk : ∀ m k, rk (modCore u l f) l m k = rk u l m k := by
    intro m k; cases m <;> simp [rk, cx, h3, h4]
  refine ⟨hr e, hk e, fun m _ _ => ⟨hr m, hk m⟩, ?_, ?_, by simpa [cx] using hl, fun _ => rfl, bare_set hs⟩
  · rcases he with rfl | rfl <;> simpa [getPc, getEng, cx] using ho
  · intro m hne
    have hne' := hp _ (engIdx_ne he hne)
    simp only [getPc, cx, getCore_modCore, hm, hh, getEng]
    split
    · rfl
    · exact hne'

/-- The loop levels are all that a loop end changes. -/
theorem loopEnd_eq (x : Ctxt) (a : Word) (n : Nat) : (loopEnd x a n).1 = { x with loops := (loopEnd x a n).1.loops } := by
  induction n generalizing x with
  | zero => rfl
  | succ n ih =>
    simp only [loopEnd]
    split
    · split
      · rfl
      · rw [ih]
    · split
      · rfl
      · exact ih x

/-- The loop levels are all that a branch changes. -/
theorem loopLeave_eq (x : Ctxt) (a : Word) (n : Nat) : loopLeave x a n = { x with loops := (loopLeave x a n).loops } := by
  induction n generalizing x with
  | zero => rfl
  | succ n ih =>
    simp only [loopLeave]
    split
    · split
      · rfl
      · rw [ih]
    · exact ih x

/-- Setting the program counter of an engine that fetches, with its place and marks. -/
theorem turned_engs {c : Core} {e : Eng} {t : EngSt} {hd : List (Eng × HeadClass × List Nat)} {r : Option Running}
    {lv : Vector (Word × BitVec 32 × BitVec 11 × Bool) 2} (he : e = .ap ∨ e = .c0)
    (h : calm t = calm (vget EngSt.reset c.x.engs (engIdx e)))
    (hr : (r.map fun (q : Running) => { q with epIssued := true }) = c.x.run.map fun q => { q with epIssued := true }) :
    Turned c { c with heads := hd, x := { c.x with loops := lv, engs := vset c.x.engs (engIdx e) t, run := r } } e t.pc lv := by
  refine ⟨?_, ⟨rfl, rfl, rfl, rfl⟩, ?_, ?_, rfl, rfl, rfl⟩
  · simp only [stripped, calm_vset _ _ _ h, hr]
  · rcases he with rfl | rfl <;> simp [engIdx]
  · intro i hi
    simp [vget_vset_ne _ _ (Ne.symm hi)]

/-- Words of the AP retire and branch by one change of their core. -/
theorem retire_ap (u : State) (l : Nat) : retire u l .ap = modCore u l fun c =>
    { c with heads := (.ap, .issue, []) :: c.heads.filter fun h => h.1 != .ap
             x := { c.x with loops := nextLevels u l .ap
                             engs := vset c.x.engs (engIdx .ap) { vget EngSt.reset c.x.engs (engIdx .ap) with pc := nextPc u l .ap }
                             run := c.x.run } } := by
  by_cases hm : (cx u l).handlerMode = true
  · simp only [retire, c0Advance, note, setPc, modEng, modX, nextPc, nextLevels, hm, getPc]
    simp [cx, modCore_modCore, getEng, wordLen, Eng.wordBytes] at *
    simp [hm]
    apply modCore_congr
    rfl
  · have hl := loopEnd_eq (cx u l) (getEng u l .ap).pc 2
    simp only [Bool.not_eq_true] at hm
    simp only [retire, c0Advance, note, setPc, modEng, modX, nextPc, nextLevels, hm, getPc]
    simp [cx, modCore_modCore, getEng] at *
    simp [hm]
    apply modCore_congr
    generalize loopEnd (getCore u l).x (vget EngSt.reset (getCore u l).x.engs (engIdx .ap)).pc 2 = r at *
    obtain ⟨a, b⟩ := r
    simp only at hl ⊢
    generalize a.loops = lv at *
    subst hl
    rfl

theorem takeBranch_ap (u : State) (l : Nat) (t : Word) : takeBranch u l .ap t = modCore u l fun c =>
    { c with heads := (.ap, .issue, []) :: c.heads.filter fun h => h.1 != .ap
             x := { c.x with loops := branchLevels u l .ap t
                             engs := vset c.x.engs (engIdx .ap) { vget EngSt.reset c.x.engs (engIdx .ap) with pc := t }
                             run := c.x.run } } := by
  by_cases hm : (cx u l).handlerMode = true
  · simp only [takeBranch, c0Advance, note, setPc, modEng, modX, branchLevels, hm]
    simp [cx, modCore_modCore] at *
    simp [hm]
    apply modCore_congr
    rfl
  · have hl := loopLeave_eq (cx u l) t 2
    simp only [Bool.not_eq_true] at hm
    simp only [takeBranch, c0Advance, note, setPc, modEng, modX, branchLevels, hm]
    simp [cx, modCore_modCore] at *
    simp [hm]
    apply modCore_congr
    simp only [Function.comp]
    generalize loopLeave (getCore u l).x t 2 = a at *
    generalize a.loops = lv at *
    subst hl
    rfl

/-- The engine C0 after one of its words: its place in a region advances, but not in the handler (`go` false). -/
def stepped (t : EngSt) (go : Bool) (pc : Word) : EngSt :=
  { t with pc := pc, pos := if t.inRegion && go then t.pos + 1 else t.pos, granted := false, ready := false }

theorem takeBranch_c0 (u : State) (l : Nat) (t : Word) : takeBranch u l .c0 t = modCore u l fun c =>
    { c with heads := (.c0, .issue, []) :: c.heads.filter fun h => h.1 != .c0
             x := { c.x with loops := c.x.loops
                             engs := vset c.x.engs (engIdx .c0) (stepped (vget EngSt.reset c.x.engs (engIdx .c0)) (!c.x.handlerMode) t)
                             run := c.x.run.map fun r => { r with epIssued := true } } } := by
  simp only [takeBranch, c0Advance, note, setPc, modEng, modX, markEp]
  simp [cx, modCore_modCore]
  apply modCore_congr
  simp [stepped, engIdx, Function.comp]
  congr

theorem retire_c0 (u : State) (l : Nat) : retire u l .c0 = takeBranch u l .c0 (getPc u l .c0 + 4) := by
  simp [retire, takeBranch, getPc, wordLen, Eng.wordBytes]

/-- A branch taken: the frame, the program counter at the target and the levels that R194 leaves. -/
theorem takeBranch_after (u : State) (l : Nat) {e : Eng} (he : e = .ap ∨ e = .c0) (a : Word) :
    After u (takeBranch u l e a) l e (rreg u l e) (rk u l e) a (branchLevels u l e a) := by
  rcases he with rfl | rfl
  · rw [takeBranch_ap]
    exact after_of (.inl rfl) (turned_engs (.inl rfl) rfl rfl)
  · rw [takeBranch_c0]
    refine after_of (.inr rfl) (turned_engs (t := stepped _ _ a) (.inr rfl) rfl ?_)
    cases (getCore u l).x.run <;> rfl

/-- A word retired: the frame, and the next word or what the loop ends of R193 name. -/
theorem retire_after (u : State) (l : Nat) {e : Eng} (he : e = .ap ∨ e = .c0) :
    After u (retire u l e) l e (rreg u l e) (rk u l e) (nextPc u l e) (nextLevels u l e) := by
  rcases he with rfl | rfl
  · rw [retire_ap]
    exact after_of (.inl rfl) (turned_engs (.inl rfl) rfl rfl)
  · have h := takeBranch_after u l (.inr rfl : Eng.c0 = .ap ∨ Eng.c0 = .c0) (getPc u l .c0 + 4)
    simpa [retire_c0, nextPc, nextLevels, branchLevels] using h

/-! ### A region letting a word go -/

/-- An engine without the marks of R154. -/
def quiet (t : EngSt) : EngSt := { t with ready := false, granted := false, rejoin := false }

/-- Two states that differ in the marks of one core's engines alone. -/
def Near (l : Nat) (s t : State) : Prop :=
  t = s ∨ ∃ v : Vector EngSt 5, t = modX s l (fun x => { x with engs := v }) ∧ v.map quiet = (cx s l).engs.map quiet

theorem Near.modEng {s t : State} {l : Nat} (h : Near l s t) (e : Eng) (f : EngSt → EngSt) (hf : ∀ x, quiet (f x) = quiet x) :
    Near l s (modEng t l e f) := by
  have key : ∀ v : Vector EngSt 5, (vset v (engIdx e) (f (vget EngSt.reset v (engIdx e)))).map quiet = v.map quiet := by
    intro v
    rw [map_vset, hf, ← vget_map quiet EngSt.reset]
    exact vset_self _ _ _
  rcases h with rfl | ⟨v, rfl, hv⟩
  · exact .inr ⟨vset (cx t l).engs (engIdx e) (f (vget EngSt.reset (cx t l).engs (engIdx e))), by
      simp only [Machine.modEng, modX]; exact modCore_congr rfl, key _⟩
  · refine .inr ⟨vset v (engIdx e) (f (vget EngSt.reset v (engIdx e))), ?_, (key v).trans hv⟩
    simp only [Machine.modEng, modX, modCore_modCore]
    rfl

theorem rejoined_near (s : State) (l : Nat) (e : Eng) : Near l s (rejoined s l e) := by
  unfold rejoined
  split
  · exact Near.modEng (.inl rfl) _ _ fun _ => rfl
  · exact .inl rfl

/-- The state in which a word of C0 takes effect differs from the one before in marks alone. -/
theorem regionEntry_near (s : State) (l : Nat) (e : Eng) : Near l s (regionEntry s l e) := by
  unfold regionEntry
  have h0 := rejoined_near s l e
  split
  · unfold grantAll
    dsimp only
    split
    · exact h0
    · have : ∀ (ms : List Eng) (p : Nat) (t : State), Near l s t → Near l s (ms.foldl (fun s m =>
          if (getEng s l m).pos == p && (getEng s l m).ready then
            Machine.modEng s l m fun t => { t with granted := true, ready := false } else s) t) := by
        intro ms p
        induction ms with
        | nil => exact fun t h => h
        | cons m ms ih =>
          intro t h
          refine ih _ ?_
          show Near l s (if _ then _ else _)
          split
          · exact h.modEng _ _ fun _ => rfl
          · exact h
      exact this _ _ _ h0
  · exact h0

theorem quiet_vget {v w : Vector EngSt 5} (h : v.map quiet = w.map quiet) (i : Nat) :
    quiet (vget EngSt.reset v i) = quiet (vget EngSt.reset w i) := by
  rw [← vget_map quiet EngSt.reset, ← vget_map quiet EngSt.reset, h]

theorem calm_quiet (v : Vector EngSt 5) : v.map calm = (v.map quiet).map calm := by
  simp only [Vector.map_map]; rfl

@[simp] theorem Near.rreg {s t : State} {l : Nat} (h : Near l s t) (e : Eng) (r : Reg) : Machine.rreg t l e r = Machine.rreg s l e r := by
  rcases h with rfl | ⟨v, rfl, hv⟩
  · rfl
  · cases e <;> simp [Machine.rreg]

@[simp] theorem Near.rk {s t : State} {l : Nat} (h : Near l s t) (e : Eng) (k : Nat) : Machine.rk t l e k = Machine.rk s l e k := by
  rcases h with rfl | ⟨v, rfl, hv⟩
  · rfl
  · cases e <;> simp [Machine.rk]

@[simp] theorem Near.getPc {s t : State} {l : Nat} (h : Near l s t) (e : Eng) : Machine.getPc t l e = Machine.getPc s l e := by
  rcases h with rfl | ⟨v, rfl, hv⟩
  · rfl
  · have := congrArg EngSt.pc (quiet_vget hv (engIdx e))
    simp only [Machine.getPc, getEng, cx_modX]
    split
    · rfl
    · simpa [quiet] using this

@[simp] theorem Near.bare {s t : State} {l : Nat} (h : Near l s t) : Safety.bare l t = Safety.bare l s := by
  rcases h with rfl | ⟨v, rfl, hv⟩
  · rfl
  · apply bare_set
    have : v.map calm = (getCore s l).x.engs.map calm := by
      rw [calm_quiet, hv, ← calm_quiet]; rfl
    simp only [stripped, this]

@[simp] theorem Near.readByte {s t : State} {l : Nat} (h : Near l s t) (a : Nat) : Machine.readByte t a = Machine.readByte s a := by
  rcases h with rfl | ⟨v, rfl, hv⟩ <;> rfl

/-- The frame seen from a state that differs from the one a word acts on in what the frame names. -/
theorem After.of {u u' t : State} {l : Nat} {e : Eng} {regs : Reg → Word} {preds : Nat → Bool} {pc : Word}
    {lv : Vector (Word × BitVec 32 × BitVec 11 × Bool) 2} (h : After u' t l e regs preds pc lv)
    (hb : Safety.bare l u' = Safety.bare l u) (hy : ∀ a, Machine.readByte u' a = Machine.readByte u a)
    (hp : ∀ m, Machine.getPc u' l m = Machine.getPc u l m)
    (ho : ∀ m, (m = .ap ∨ m = .c0) → m ≠ e → (∀ r, Machine.rreg u' l m r = Machine.rreg u l m r) ∧ ∀ k, Machine.rk u' l m k = Machine.rk u l m k) :
    After u t l e regs preds pc lv :=
  ⟨h.reg, h.pred, fun m hm hne => ⟨fun r => ((h.other m hm hne).1 r).trans ((ho m hm hne).1 r),
      fun k => ((h.other m hm hne).2 k).trans ((ho m hm hne).2 k)⟩,
    h.next, fun m hne => (h.pcs m hne).trans (hp m), h.levels, fun a => (h.bytes a).trans (hy a), h.rest.trans hb⟩

/-! ### Words that write one register or one predicate -/

/-- A loop end reads the loop levels alone. -/
theorem loopEnd_loops (a : Word) (n : Nat) (x y : Ctxt) (h : x.loops = y.loops) :
    (loopEnd x a n).2 = (loopEnd y a n).2 ∧ (loopEnd x a n).1.loops = (loopEnd y a n).1.loops := by
  induction n generalizing x y with
  | zero => exact ⟨rfl, h⟩
  | succ n ih =>
    have hx : getLoop x n = getLoop y n := by simp only [getLoop, h]
    obtain ⟨st, cnt, len, v, hy⟩ : ∃ st cnt len v, getLoop y n = (st, cnt, len, v) := ⟨_, _, _, _, rfl⟩
    simp only [loopEnd, hx, hy, h]
    cases v
    · simpa only [Bool.false_and, Bool.false_eq_true, if_false] using ih _ _ h
    · simp only [Bool.true_and, if_true]
      split
      · split
        · exact ⟨rfl, rfl⟩
        · exact ih _ _ rfl
      · exact ⟨rfl, h⟩

/-- A branch reads the loop levels alone. -/
theorem loopLeave_loops (a : Word) (n : Nat) (x y : Ctxt) (h : x.loops = y.loops) :
    (loopLeave x a n).loops = (loopLeave y a n).loops := by
  induction n generalizing x y with
  | zero => exact h
  | succ n ih =>
    have hx : getLoop x n = getLoop y n := by simp only [getLoop, h]
    obtain ⟨st, cnt, len, v, hy⟩ : ∃ st cnt len v, getLoop y n = (st, cnt, len, v) := ⟨_, _, _, _, rfl⟩
    simp only [loopLeave, hx, hy, h]
    cases v
    · simpa only [Bool.false_eq_true, if_false] using ih _ _ h
    · simp only [if_true]
      split
      · exact h
      · exact ih _ _ rfl

theorem Near.x {s t : State} {l : Nat} (h : Near l s t) :
    (cx t l).loops = (cx s l).loops ∧ (cx t l).handlerMode = (cx s l).handlerMode := by
  rcases h with rfl | ⟨v, rfl, hv⟩ <;> simp

theorem Near.nextPc {s t : State} {l : Nat} (h : Near l s t) (e : Eng) : Safety.nextPc t l e = Safety.nextPc s l e := by
  simp only [Safety.nextPc, h.getPc, h.x.2, (loopEnd_loops _ 2 _ _ h.x.1).1]

theorem Near.nextLevels {s t : State} {l : Nat} (h : Near l s t) (e : Eng) :
    Safety.nextLevels t l e = Safety.nextLevels s l e := by
  simp only [Safety.nextLevels, h.getPc, h.x.2, h.x.1, (loopEnd_loops _ 2 _ _ h.x.1).2]

theorem Near.branchLevels {s t : State} {l : Nat} (h : Near l s t) (e : Eng) (a : Word) :
    Safety.branchLevels t l e a = Safety.branchLevels s l e a := by
  simp only [Safety.branchLevels, h.x.2, h.x.1, loopLeave_loops _ 2 _ _ h.x.1]

theorem bare_wreg (s : State) (l : Nat) (e : Eng) (d : Reg) (v : Word) : Safety.bare l (wreg s l e d v) = Safety.bare l s := by
  cases e <;> simp only [wreg]
  · split
    · rfl
    · exact bare_set rfl
  all_goals exact bare_set rfl

theorem bare_wk (s : State) (l : Nat) (e : Eng) (k : Nat) (v : Bool) : Safety.bare l (wk s l e k v) = Safety.bare l s := by
  simp only [wk]
  split
  · rfl
  · cases e <;> exact bare_set rfl

theorem rreg_wreg (s : State) (l : Nat) {e : Eng} (he : e = .ap ∨ e = .c0) {d : Reg} (hd : e = .c0 → d.toNat < 16)
    (v : Word) (r : Reg) : rreg (wreg s l e d v) l e r = withReg s l e d v r := by
  rcases he with rfl | rfl
  · simp only [withReg, wreg]
    by_cases h0 : d = 0
    · simp [h0]
    · have : d.toNat < 32 := d.isLt
      simp only [rreg, h0, if_false, cx_modX, vget_vset]
      by_cases hr : r = d
      · subst hr; simp [this]; intro h; exact absurd h h0
      · have : ¬(d.toNat = r.toNat ∧ d.toNat < 32) := fun h => hr (BitVec.eq_of_toNat_eq h.1.symm)
        simp [hr, this]
  · simp only [withReg, wreg, rreg, cx_modX, vget_vset]
    by_cases hr : r = d
    · subst hr; simp [hd rfl]
    · have : ¬(d.toNat = r.toNat ∧ d.toNat < 16) := fun h => hr (BitVec.eq_of_toNat_eq h.1.symm)
      simp [hr, this]

theorem rk_wk (s : State) (l : Nat) {e : Eng} (he : e = .ap ∨ e = .c0) {d : Reg} (hd : d.toNat < 8)
    (v : Bool) (k : Nat) : rk (wk s l e d.toNat v) l e k = withPred s l e d v k := by
  have h0 : d.toNat = 0 ↔ d = 0 := ⟨fun h => BitVec.eq_of_toNat_eq h, fun h => by simp [h]⟩
  by_cases hz : d = 0
  · simp [wk, withPred, hz]
  · have hz' : d.toNat ≠ 0 := fun h => hz (h0.1 h)
    by_cases hk : k = 0
    · have hn : ¬(0 = d.toNat) := fun h => hz' h.symm
      simp [rk, withPred, hk, hn]
    · rcases he with rfl | rfl <;>
      · simp only [wk, rk, withPred, hz', hk, if_false, cx_modX, vget_vset, hd, and_true, hz, not_false_eq_true, ne_eq]
        by_cases h : k = d.toNat
        · simp [h]
        · have hn : ¬(d.toNat = k) := fun e => h e.symm
          simp [h, hn]

/-- Writing a register leaves all that a retiring word reads. -/
theorem wreg_keeps (s : State) (l : Nat) (e : Eng) (d : Reg) (v : Word) :
    (∀ m, getPc (wreg s l e d v) l m = getPc s l m) ∧ (∀ a, readByte (wreg s l e d v) a = readByte s a) ∧
      (∀ m k, rk (wreg s l e d v) l m k = rk s l m k) ∧ (cx (wreg s l e d v) l).loops = (cx s l).loops ∧
      (cx (wreg s l e d v) l).handlerMode = (cx s l).handlerMode := by
  by_cases h : e = .ap ∧ d = 0
  · simp [wreg, h.1, h.2]
  · have : wreg s l e d v = modX s l fun x => { x with
        apRegs := if e = .ap then vset x.apRegs d.toNat v else x.apRegs
        eRegs := if e = .ap then x.eRegs else vset x.eRegs d.toNat v } := by
      cases e <;> simp_all [wreg]
    rw [this]
    refine ⟨fun m => ?_, fun a => rfl, fun m k => ?_, by simp, by simp⟩
    · simp [getPc, getEng]
    · cases m <;> simp [rk]

theorem rreg_wreg_ne (s : State) (l : Nat) {e m : Eng} (he : e = .ap ∨ e = .c0) (hm : m = .ap ∨ m = .c0) (h : m ≠ e)
    (d : Reg) (v : Word) (r : Reg) : rreg (wreg s l e d v) l m r = rreg s l m r := by
  rcases he with rfl | rfl <;> rcases hm with rfl | rfl
  · exact absurd rfl h
  · simp only [wreg]
    split
    · rfl
    · simp [rreg]
  · simp [wreg, rreg]
  · exact absurd rfl h

/-- A register written and the word retired: the frame of a word that writes a register and nothing else. -/
theorem retire_wreg_after {s u : State} {l : Nat} {e : Eng} (h : Near l s u) {d : Reg} (v : Word) (he : e = .ap ∨ e = .c0)
    (hd : e = .c0 → d.toNat < 16) :
    After s (retire (wreg u l e d v) l e) l e (withReg s l e d v) (rk s l e) (nextPc s l e) (nextLevels s l e) := by
  have r := retire_after (wreg u l e d v) l he
  obtain ⟨k1, k2, k3, k4, k5⟩ := wreg_keeps u l e d v
  have e1 : nextPc (wreg u l e d v) l e = nextPc s l e := by
    rw [← h.nextPc]; simp only [nextPc, k1, k5, (loopEnd_loops _ 2 _ _ k4).1]
  have e2 : nextLevels (wreg u l e d v) l e = nextLevels s l e := by
    rw [← h.nextLevels]; simp only [nextLevels, k1, k4, k5, (loopEnd_loops _ 2 _ _ k4).2]
  have e3 : rreg (wreg u l e d v) l e = withReg s l e d v := by
    funext r; rw [rreg_wreg _ _ he hd]; simp only [withReg, h.rreg]
  have e4 : rk (wreg u l e d v) l e = rk s l e := by
    funext k; rw [k3, h.rk]
  rw [e1, e2, e3, e4] at r
  refine r.of (by rw [bare_wreg, h.bare]) (fun a => by rw [k2, h.readByte]) (fun m => by rw [k1, h.getPc]) fun m hm hne => ?_
  exact ⟨fun r => by rw [rreg_wreg_ne _ _ he hm hne, h.rreg], fun k => by rw [k3, h.rk]⟩

/-- What a word that writes one register comes to when its conditions hold. -/
theorem regWord_after {k : Guard} {d : Reg} {regs : List Reg} {f : State → Nat → Eng → Word} {s : State}
    (g : Goes [.ap, .c0] k (d :: regs) true true s)
    (hf : ∀ u, Near s.current.core s u → f u s.current.core s.current.eng = f s s.current.core s.current.eng) :
    ∃ t, regWord k d regs f s = .next t ∧ WroteReg s t d (f s s.current.core s.current.eng) := by
  refine ⟨_, scalarWord_go _ g.engine g.file g.mode g.met g.ready g.guard rfl g.turn, ?_⟩
  have hn := regionEntry_near s s.current.core s.current.eng
  rw [hf _ hn]
  exact retire_wreg_after hn _ (by simpa using g.engine) fun h => g.file h d (by simp)

end Sys2Proof.Safety
end

