-- ==== Sys2Proof/Laws/Memory.lean ====
section
/-! SUPPORT. Memory: its canonical form is kept by every memory operation, and a byte reads as it was last written. -/

namespace Sys2Proof.Machine

/-! ### The canonical form -/

theorem risingFrom_mono {lo lo' : Nat} {m : List Host.Cell} (h : lo' ≤ lo) (hm : risingFrom lo m = true) :
    risingFrom lo' m = true := by
  cases m with
  | nil => rfl
  | cons c t =>
    simp only [risingFrom, Bool.and_eq_true, decide_eq_true_eq] at *
    exact ⟨by omega, hm.2⟩

theorem risingFrom_cellSet {lo a : Nat} {m : List Host.Cell} (b : Byte) (ha : lo ≤ a) (hm : risingFrom lo m = true) :
    risingFrom lo (cellSet m a b) = true := by
  induction m generalizing lo with
  | nil => simp [cellSet, risingFrom, ha]
  | cons c t ih =>
    obtain ⟨k, v⟩ := c
    simp only [risingFrom, Bool.and_eq_true, decide_eq_true_eq] at hm
    simp only [cellSet]
    split
    · simp_all [risingFrom]
    · split
      · simp only [risingFrom, Bool.and_eq_true, decide_eq_true_eq]
        exact ⟨ha, by omega, hm.2⟩
      · simp only [risingFrom, Bool.and_eq_true, decide_eq_true_eq]
        exact ⟨hm.1, ih (by omega) hm.2⟩

theorem risingFrom_cellDel {lo : Nat} {m : List Host.Cell} (a : Nat) (hm : risingFrom lo m = true) :
    risingFrom lo (cellDel m a) = true := by
  induction m generalizing lo with
  | nil => rfl
  | cons c t ih =>
    obtain ⟨k, v⟩ := c
    simp only [risingFrom, Bool.and_eq_true, decide_eq_true_eq] at hm
    simp only [cellDel]
    split
    · exact risingFrom_mono (by omega) hm.2
    · simp only [risingFrom, Bool.and_eq_true, decide_eq_true_eq]
      exact ⟨hm.1, ih hm.2⟩

theorem risingFrom_filter {lo : Nat} {m : List Host.Cell} (p : Host.Cell → Bool) (hm : risingFrom lo m = true) :
    risingFrom lo (m.filter p) = true := by
  induction m generalizing lo with
  | nil => rfl
  | cons c t ih =>
    obtain ⟨k, v⟩ := c
    simp only [risingFrom, Bool.and_eq_true, decide_eq_true_eq] at hm
    simp only [List.filter]
    split
    · simp only [risingFrom, Bool.and_eq_true, decide_eq_true_eq]
      exact ⟨hm.1, ih hm.2⟩
    · exact risingFrom_mono (by omega) (ih hm.2)

theorem mem_cellSet {c : Host.Cell} {m : List Host.Cell} {a : Nat} {b : Byte} (h : c ∈ cellSet m a b) :
    c = (a, b) ∨ c ∈ m := by
  induction m with
  | nil => simpa [cellSet] using h
  | cons p t ih =>
    obtain ⟨k, v⟩ := p
    simp only [cellSet] at h
    split at h
    · rename_i hk
      simp only [List.mem_cons] at h ⊢
      rcases h with h | h
      · left; rw [h, hk]
      · exact .inr (.inr h)
    · split at h
      · simpa using h
      · simp only [List.mem_cons] at h ⊢
        rcases h with h | h
        · exact .inr (.inl h)
        · rcases ih h with h | h
          · exact .inl h
          · exact .inr (.inr h)

theorem mem_cellDel {c : Host.Cell} {m : List Host.Cell} {a : Nat} (h : c ∈ cellDel m a) : c ∈ m := by
  induction m with
  | nil => exact h
  | cons p t ih =>
    obtain ⟨k, v⟩ := p
    simp only [cellDel] at h
    split at h
    · exact List.mem_cons_of_mem _ h
    · simp only [List.mem_cons] at h ⊢
      exact h.imp id ih

/-- Writing one byte keeps the canonical form. -/
theorem memPut_wf {m : List Host.Cell} (a : Nat) (b : Byte) (h : Memory.wf m = true) : Memory.wf (memPut m a b) = true := by
  simp only [Memory.wf, Bool.and_eq_true, List.all_eq_true] at h ⊢
  unfold memPut
  split
  · exact ⟨risingFrom_cellDel a h.1, fun c hc => h.2 c (mem_cellDel hc)⟩
  · rename_i hd
    refine ⟨risingFrom_cellSet b (Nat.zero_le _) h.1, fun c hc => ?_⟩
    rcases mem_cellSet hc with rfl | hc
    · simpa using hd
    · exact h.2 c hc

/-- Dropping cells keeps the canonical form. -/
theorem filter_wf {m : List Host.Cell} (p : Host.Cell → Bool) (h : Memory.wf m = true) : Memory.wf (m.filter p) = true := by
  simp only [Memory.wf, Bool.and_eq_true, List.all_eq_true] at h ⊢
  exact ⟨risingFrom_filter p h.1, fun c hc => h.2 c (List.mem_filter.1 hc).1⟩

theorem reset_wf : Memory.wf State.reset.mem = true := rfl

/-! ### Reading after writing -/

theorem cellGet_cellSet (m : List Host.Cell) (a a' : Nat) (b : Byte) :
    cellGet (cellSet m a b) a' = if a = a' then some b else cellGet m a' := by
  induction m with
  | nil => simp [cellSet, cellGet]
  | cons p t ih =>
    obtain ⟨k, v⟩ := p
    simp only [cellSet]
    split
    · subst_vars; simp [cellGet]; split <;> simp_all
    · split
      · simp [cellGet]
      · simp only [cellGet, ih]
        split
        · split <;> simp_all
        · rfl

theorem cellGet_rising {lo a : Nat} {m : List Host.Cell} (h : risingFrom lo m = true) (ha : a < lo) : cellGet m a = none := by
  induction m generalizing lo with
  | nil => rfl
  | cons p t ih =>
    obtain ⟨k, v⟩ := p
    simp only [risingFrom, Bool.and_eq_true, decide_eq_true_eq] at h
    have : k ≠ a := by omega
    simp only [cellGet, this, if_false]
    exact ih h.2 (by omega)

theorem cellGet_cellDel {lo : Nat} {m : List Host.Cell} (h : risingFrom lo m = true) (a a' : Nat) :
    cellGet (cellDel m a) a' = if a = a' then none else cellGet m a' := by
  induction m generalizing lo with
  | nil => simp [cellDel, cellGet]
  | cons p t ih =>
    obtain ⟨k, v⟩ := p
    simp only [risingFrom, Bool.and_eq_true, decide_eq_true_eq] at h
    simp only [cellDel]
    split
    · rename_i hk
      subst hk
      by_cases ha : k = a'
      · subst ha; simpa using cellGet_rising h.2 (Nat.lt_succ_self _)
      · simp [cellGet, ha]
    · simp only [cellGet, ih h.2]
      split
      · split <;> simp_all
      · rfl

/-- A byte of memory reads as it was last written, and every other byte reads as before. -/
theorem readByte_putByte {s : State} (h : Memory.wf s.mem = true) (a a' : Nat) (b : Byte) :
    readByte (putByte s a b) a' = if a = a' then b else readByte s a' := by
  simp only [Memory.wf, Bool.and_eq_true] at h
  simp only [readByte, putByte, memPut]
  by_cases hd : memDefault a = some b
  · simp only [hd, if_true, cellGet_cellDel h.1]
    by_cases ha : a = a'
    · subst ha; simp [hd]
    · simp [ha]
  · simp only [hd, if_false, cellGet_cellSet]
    by_cases ha : a = a'
    · simp [ha]
    · simp [ha]

theorem putBytes_nonce (s : State) (a : Nat) (bs : List Byte) : (putBytes s a bs).nonce = s.nonce := by
  induction bs generalizing s a with
  | nil => rfl
  | cons b bs ih => simp only [putBytes, ih]; rfl

@[simp] theorem putBytes_wf {s : State} (a : Nat) (bs : List Byte) (h : Memory.wf s.mem = true) :
    Memory.wf (putBytes s a bs).mem = true := by
  induction bs generalizing s a with
  | nil => exact h
  | cons b bs ih => exact ih _ (memPut_wf a b h)

/-- A byte outside the bytes written reads as before. -/
theorem readByte_putBytes_out {s : State} (h : Memory.wf s.mem = true) {a a' : Nat} {bs : List Byte}
    (ha : a' < a ∨ a + bs.length ≤ a') : readByte (putBytes s a bs) a' = readByte s a' := by
  induction bs generalizing s a with
  | nil => rfl
  | cons b bs ih =>
    simp only [putBytes, List.length_cons] at *
    rw [ih (memPut_wf a b h) (by omega), readByte_putByte h, if_neg (by omega)]

/-- A byte within the bytes written reads as it was written. -/
theorem readByte_putBytes_in {s : State} (h : Memory.wf s.mem = true) (a : Nat) (bs : List Byte) (i : Nat)
    (hi : i < bs.length) : readByte (putBytes s a bs) (a + i) = bs[i] := by
  induction bs generalizing s a i with
  | nil => simp at hi
  | cons b bs ih =>
    simp only [putBytes]
    cases i with
    | zero =>
      rw [readByte_putBytes_out (memPut_wf a b h) (by omega), readByte_putByte h]
      simp
    | succ i =>
      have := ih (s := putByte s a b) (memPut_wf a b h) (a + 1) i (by simpa using hi)
      simpa [Nat.add_assoc, Nat.add_comm 1 i] using this

/-! ### The whole write -/

@[simp] theorem foldl_mem {α : Type} (f : State → α → State) (hf : ∀ s a, (f s a).mem = s.mem) (xs : List α) (s : State) :
    (xs.foldl f s).mem = s.mem := by
  induction xs generalizing s with
  | nil => rfl
  | cons x xs ih => rw [List.foldl_cons, ih, hf]

@[simp] theorem foldl_wf {α : Type} (f : State → α → State) (hf : ∀ s a, Memory.wf s.mem = true → Memory.wf (f s a).mem = true)
    (xs : List α) {s : State} (h : Memory.wf s.mem = true) : Memory.wf (xs.foldl f s).mem = true := by
  induction xs generalizing s with
  | nil => exact h
  | cons x xs ih => exact ih (hf _ _ h)

@[simp] theorem iter_mem (f : State → State) (hf : ∀ s, (f s).mem = s.mem) (n : Nat) (s : State) : (iter f n s).mem = s.mem := by
  induction n generalizing s with
  | zero => rfl
  | succ n ih => rw [iter, ih, hf]

@[simp] theorem iter_wf (f : State → State) (hf : ∀ s, Memory.wf s.mem = true → Memory.wf (f s).mem = true) (n : Nat) {s : State}
    (h : Memory.wf s.mem = true) : Memory.wf (iter f n s).mem = true := by
  induction n generalizing s with
  | zero => exact h
  | succ n ih => exact ih (hf _ h)

@[simp] theorem forUp_mem (n : Nat) (s : State) (f : Nat → State → State) (hf : ∀ i s, (f i s).mem = s.mem) :
    (forUp n s f).mem = s.mem := foldl_mem _ (fun s i => hf i s) _ _

@[simp] theorem forUp_wf (n : Nat) {s : State} (f : Nat → State → State)
    (hf : ∀ i s, Memory.wf s.mem = true → Memory.wf (f i s).mem = true) (h : Memory.wf s.mem = true) :
    Memory.wf (forUp n s f).mem = true := foldl_wf _ (fun s i => hf i s) _ h

@[simp] theorem markBytes_mem (s : State) (a : Nat) (bs : List PByte) : (markBytes s a bs).mem = s.mem := by
  unfold markBytes
  split
  · exact foldl_mem (fun (s : State) (p : PByte × Nat) => { s with bytePsn := markSet s.bytePsn p.2 p.1.psn })
      (fun _ _ => rfl) _ _
  · refine foldl_mem _ (fun s k => ?_) _ _
    dsimp only
    split
    · rfl
    · split <;> rfl

@[simp] theorem wakeRange_mem (s : State) (a n : Nat) : (wakeRange s a n).mem = s.mem := by
  unfold wakeRange; split <;> rfl

@[simp] theorem breakResv_mem (s : State) (a n : Nat) : (breakResv s a n).mem = s.mem := by
  unfold breakResv allSvc
  dsimp only
  (repeat' split) <;> rfl

/-- The memory after a write is the old one with its bytes put in. -/
theorem writePBytes_mem (s : State) (a : Nat) (bs : List PByte) :
    (writePBytes s a bs).mem = (putBytes s a (bs.map (·.b))).mem := by
  unfold writePBytes
  split
  · rename_i h
    have : bs = [] := by simpa using h
    subst this
    rfl
  · rw [breakResv_mem, wakeRange_mem, markBytes_mem]

@[simp] theorem writePBytes_wf {s : State} (a : Nat) (bs : List PByte) (h : Memory.wf s.mem = true) :
    Memory.wf (writePBytes s a bs).mem = true := by
  rw [writePBytes_mem]; exact putBytes_wf _ _ h

@[simp] theorem writeBytes_wf {s : State} (a : Nat) (bs : List Byte) (h : Memory.wf s.mem = true) :
    Memory.wf (writeBytes s a bs).mem = true := writePBytes_wf _ _ h

@[simp] theorem writeNat_wf {s : State} (a n x : Nat) (h : Memory.wf s.mem = true) :
    Memory.wf (writeNat s a n x).mem = true := writeBytes_wf _ _ h

@[simp] theorem clearSp_wf {s : State} (l : Nat) (h : Memory.wf s.mem = true) : Memory.wf (clearSp s l).mem = true :=
  filter_wf _ h

end Sys2Proof.Machine
end

