-- ==== Sys2Proof/Laws/KeepOps.lean ====
section
/-! SUPPORT. The memory keeps its canonical form: the machine operations, translation, links, flags and operand forms. -/

namespace Sys2Proof.Machine

/-! ### Machine/Ops.lean -/

/-- An answer whose state, if it has one, has its memory in canonical form. -/
def OutWf : Host.Outcome State Fault Refusal → Prop
  | .next t => Memory.wf t.mem = true
  | .fault _ => True
  | .refused _ => True

@[simp] theorem outWf_next (t : State) : OutWf (.next t) ↔ Memory.wf t.mem = true := Iff.rfl
@[simp] theorem outWf_fault (r : Fault) : OutWf (.fault r) := trivial
@[simp] theorem outWf_refused (r : Refusal) : OutWf (.refused r) := trivial

@[simp] theorem ite_mem {c : Prop} [Decidable c] (a b : State) : (if c then a else b).mem = if c then a.mem else b.mem := by
  split <;> rfl

@[simp] theorem wf_ite {c : Prop} [Decidable c] (a b : List Host.Cell) :
    Memory.wf (if c then a else b) = if c then Memory.wf a else Memory.wf b := by
  split <;> rfl

theorem foldl_inv {α β : Type} (P : β → Prop) (f : β → α → β) (hf : ∀ b a, P b → P (f b a)) (xs : List α) (b : β) (h : P b) :
    P (xs.foldl f b) := by
  induction xs generalizing b with
  | nil => exact h
  | cons x xs ih => rw [List.foldl_cons]; exact ih _ (hf _ _ h)

theorem forUp_inv {β : Type} (P : β → Prop) (n : Nat) (b : β) (f : Nat → β → β) (hf : ∀ i b, P b → P (f i b)) (h : P b) :
    P (forUp n b f) := foldl_inv P _ (fun b i => hf i b) _ _ h

theorem iter_inv {β : Type} (P : β → Prop) (f : β → β) (hf : ∀ b, P b → P (f b)) (n : Nat) (b : β) (h : P b) :
    P (iter f n b) := by
  induction n generalizing b with
  | zero => exact h
  | succ n ih => exact ih _ (hf _ h)

@[simp] theorem modCore_mem (s : State) (a1 : Nat) (a2 : Core → Core) : ((modCore s a1 a2)).mem = s.mem := by
  rfl

@[simp] theorem modX_mem (s : State) (a1 : Nat) (a2 : Ctxt → Ctxt) : ((modX s a1 a2)).mem = s.mem := by
  rfl

@[simp] theorem modEng_mem (s : State) (a1 : Nat) (a2 : Eng) (a3 : EngSt → EngSt) : ((modEng s a1 a2 a3)).mem = s.mem := by
  rfl

@[simp] theorem modLaunch_mem (s : State) (a1 : BitVec 16) (a2 : Launch → Launch) : ((modLaunch s a1 a2)).mem = s.mem := by
  rfl

@[simp] theorem putByte_wf (s : State) (a1 : Nat) (a2 : Byte) (h : Memory.wf s.mem = true) :
    Memory.wf (putByte s a1 a2).mem = true := memPut_wf a1 a2 h

@[simp] theorem allCores_mem (s : State) (f : Core → Core) : ((allCores s f)).mem = s.mem := by
  rfl

@[simp] theorem useBanks_mem (s : State) (l : Nat) (who : Nat)
    (rs : List (Nat × Nat))  : ((useBanks s l who rs)).mem = s.mem := by
  unfold useBanks
  simp 

@[simp] theorem bankHold_mem (s : State) (l : Nat) (who : Nat)
    (rs : List (Nat × Nat))  : ((bankHold s l who rs)).mem = s.mem := by
  rfl

@[simp] theorem bankWait_mem (s : State) (l : Nat) (e : Eng) (who : Nat)
    (rs : List (Nat × Nat))  : ((bankWait s l e who rs)).mem = s.mem := by
  rfl

@[simp] theorem useSlot_mem (s : State) (a1 : Nat) (a2 : Nat) (a3 : Nat) : ((useSlot s a1 a2 a3)).mem = s.mem := by
  rfl

@[simp] theorem spTouch_mem (s : State) (a1 : Nat) (a2 : Nat) (a3 : Nat) : ((spTouch s a1 a2 a3)).mem = s.mem := by
  unfold spTouch
  simp

@[simp] theorem note_mem (s : State) (a1 : Nat) (a2 : Eng) (a3 : HeadClass) (a4 : List Nat)
    : ((note s a1 a2 a3 a4)).mem = s.mem := by
  rfl

@[simp] theorem waitOn_mem (s : State) (a1 : Nat) (a2 : Eng) (a3 : List Nat) : ((waitOn s a1 a2 a3)).mem = s.mem := by
  rfl

@[simp] theorem wreg_mem (s : State) (a1 : Nat) (a2 : Eng) (a3 : Reg) (a4 : Word) : ((wreg s a1 a2 a3 a4)).mem = s.mem := by
  unfold wreg
  (repeat' split) <;> rfl

@[simp] theorem wk_mem (s : State) (a1 : Nat) (a2 : Eng) (a3 : Nat) (a4 : Bool) : ((wk s a1 a2 a3 a4)).mem = s.mem := by
  unfold wk
  (repeat' split) <;> rfl

@[simp] theorem tokAdd_mem (s : State) (a1 : Nat) (a2 : Nat) (a3 : Nat) (a4 : Int) : ((tokAdd s a1 a2 a3 a4)).mem = s.mem := by
  rfl

@[simp] theorem tokReserve_mem (s : State) (a1 : Nat) (a2 : Nat) (a3 : Nat) (a4 : Int)
    : ((tokReserve s a1 a2 a3 a4)).mem = s.mem := by
  rfl

@[simp] theorem tokPushRes_mem (s : State) (a1 : Nat) (a2 : Nat) (a3 : Nat) : ((tokPushRes s a1 a2 a3)).mem = s.mem := by
  rfl

@[simp] theorem boqSet_mem (s : State) (a1 : Nat) (a2 : Nat) (a3 : Nat) (a4 : List (Bool × Nat))
    : ((boqSet s a1 a2 a3 a4)).mem = s.mem := by
  rfl

@[simp] theorem boqPop_mem (s : State) (a1 : Nat) (a2 : Nat) (a3 : Nat) : ((boqPop s a1 a2 a3)).mem = s.mem := by
  rfl

@[simp] theorem boqPush_mem (s : State) (a1 : Nat) (a2 : Nat) (a3 : Nat) (a4 : Bool) : ((boqPush s a1 a2 a3 a4)).mem = s.mem := by
  rfl

@[simp] theorem modBlock_mem (s : State) (a1 : Nat) (a2 : Block → Block) : ((modBlock s a1 a2)).mem = s.mem := by
  rfl

@[simp] theorem traceAdd_mem (s : State) (a1 : TraceRec) : ((traceAdd s a1)).mem = s.mem := by
  rfl

@[simp] theorem trace_mem (s : State) (a1 : Nat) (a2 : Nat) (a3 : Nat) (a4 : Word) (a5 : Word)
    : ((trace s a1 a2 a3 a4 a5)).mem = s.mem := by
  unfold trace
  simp

@[simp] theorem killTask_mem (s : State) (a1 : BitVec 16) (a2 : Nat) : ((killTask s a1 a2)).mem = s.mem := by
  unfold killTask
  simp

@[simp] theorem raiseFault_mem (s : State) (a1 : FaultRec) : ((raiseFault s a1)).mem = s.mem := by
  rfl

@[simp] theorem serve_mem (s : State) (a1 : Nat) (a2 : Eng) (a3 : List Nat) : ((serve s a1 a2 a3)).mem = s.mem := by
  unfold serve
  simp

@[simp] theorem modRing_mem (s : State) (a1 : Nat) (a2 : Nat) (a3 : Ring → Ring) : ((modRing s a1 a2 a3)).mem = s.mem := by
  rfl

@[simp] theorem commitSlot_wf (s : State) (a1 : Nat) (a2 : Nat) (a3 : List PByte) (h : Memory.wf s.mem = true)
    : Memory.wf ((commitSlot s a1 a2 a3)).mem = true := by
  unfold commitSlot
  simp [h]

@[simp] theorem commitBoff_wf (s : State) (a1 : Nat) (a2 : Nat) (a3 : Word) (h : Memory.wf s.mem = true)
    : Memory.wf ((commitBoff s a1 a2 a3)).mem = true := by
  unfold commitBoff
  simp [h]

@[simp] theorem modStream_mem (s : State) (a1 : Nat) (a2 : Nat) (a3 : Stream → Stream)
    : ((modStream s a1 a2 a3)).mem = s.mem := by
  rfl

@[simp] theorem wv_mem (s : State) (a1 : Nat) (a2 : Bool) (a3 : Nat) (a4 : VReg) (a5 : BitVec 256)
    : ((wv s a1 a2 a3 a4 a5)).mem = s.mem := by
  rfl

@[simp] theorem wp_mem (s : State) (a1 : Nat) (a2 : Bool) (a3 : Nat) (a4 : BitVec 256) (a5 : BitVec 256)
    : ((wp s a1 a2 a3 a4 a5)).mem = s.mem := by
  unfold wp
  simp

@[simp] theorem vstatOr_mem (s : State) (a1 : Nat) (a2 : Bool) (a3 : BitVec 7) : ((vstatOr s a1 a2 a3)).mem = s.mem := by
  rfl

@[simp] theorem landUnit_wf (s : State) (a1 : Nat) (a2 : Nat) (a3 : Nat) (a4 : Nat) (a5 : Nat) (a6 : VReg)
    (h : Memory.wf s.mem = true) : Memory.wf ((landUnit s a1 a2 a3 a4 a5 a6)).mem = true := by
  unfold landUnit
  simp [h]

@[simp] theorem landBoff_wf (s : State) (l : Nat) (q : Nat) (slot : Nat) (gen : Nat) (off : Nat) (n : Nat)
    (count : Word)  (h : Memory.wf s.mem = true) : Memory.wf ((landBoff s l q slot gen off n count)).mem = true := by
  unfold landBoff
  simp [h]

@[simp] theorem markGran_wf (s : State) (a1 : Nat) (h : Memory.wf s.mem = true) : Memory.wf ((markGran s a1)).mem = true := by
  unfold markGran
  simp [h]

theorem scat_bytes_wf (l : Nat) (bs : List (Nat × PByte)) (s : State) (h : Memory.wf s.mem = true) :
    Memory.wf (bs.foldl (fun s b => writePBytes s (spBase l + b.1) [b.2]) s).mem = true := by
  induction bs generalizing s with
  | nil => exact h
  | cons b bs ih => rw [List.foldl_cons]; exact ih _ (writePBytes_wf _ _ h)

theorem scat_marks_wf (l : Nat) (bs : List (Nat × PByte)) (s : State) (h : Memory.wf s.mem = true) :
    Memory.wf (bs.foldl (fun s b => if b.2.psn then markGran s (spBase l + b.1 / 64 * 64) else s) s).mem = true := by
  induction bs generalizing s with
  | nil => exact h
  | cons b bs ih =>
    rw [List.foldl_cons]
    apply ih
    split
    · exact markGran_wf _ _ h
    · exact h

@[simp] theorem landWrite_wf (s : State) (l : Nat) (c2 : Bool) (w : VWrite) (h : Memory.wf s.mem = true) :
    Memory.wf (landWrite s l c2 w).mem = true := by
  unfold landWrite
  split
  · simpa using h
  · simpa using h
  · exact h
  · exact landUnit_wf _ _ _ _ _ _ _ h
  · exact landBoff_wf _ _ _ _ _ _ _ _ h
  · exact scat_marks_wf _ _ _ (scat_bytes_wf _ _ _ h)

@[simp] theorem noteC2_mem (s : State) (a1 : Nat) (a2 : List VWrite) : ((noteC2 s a1 a2)).mem = s.mem := by
  unfold noteC2
  simp

@[simp] theorem landOne_wf (s : State) (a1 : Nat) (a2 : Nat) (h : Memory.wf s.mem = true)
    : Memory.wf ((landOne s a1 a2)).mem = true := by
  unfold landOne
  split <;> simp (contextual := true) [h]

@[simp] theorem landShared_wf (s : State) (a1 : Nat) (a2 : Bool) (a3 : Nat) (h : Memory.wf s.mem = true)
    : Memory.wf ((landShared s a1 a2 a3)).mem = true := by
  unfold landShared
  refine iter_inv (fun t : State => Memory.wf t.mem = true) _ (fun t ht => ?_) _ _ h
  split <;> simp [ht]

@[simp] theorem landFlight_wf (s : State) (a1 : Nat) (a2 : Nat) (h : Memory.wf s.mem = true)
    : Memory.wf ((landFlight s a1 a2)).mem = true := by
  unfold landFlight
  (repeat' split) <;> simp [h]

@[simp] theorem landAll_wf (s : State) (a1 : Nat) (h : Memory.wf s.mem = true) : Memory.wf ((landAll s a1)).mem = true := by
  unfold landAll
  simp (contextual := true) [h]

@[simp] theorem setPc_mem (s : State) (a1 : Nat) (a2 : Eng) (a3 : Word) : ((setPc s a1 a2 a3)).mem = s.mem := by
  unfold setPc
  split <;> rfl

@[simp] theorem grantAll_mem (s : State) (a1 : Nat) (a2 : Eng) : ((grantAll s a1 a2)).mem = s.mem := by
  unfold grantAll
  simp

@[simp] theorem installSync_mem (s : State) (a1 : Nat) : ((installSync s a1)).mem = s.mem := by
  rfl

@[simp] theorem c0Leaves_mem (s : State) (a1 : Nat) : ((c0Leaves s a1)).mem = s.mem := by
  unfold c0Leaves
  simp

@[simp] theorem leaveRegion_mem (s : State) (a1 : Nat) (a2 : Eng) : ((leaveRegion s a1 a2)).mem = s.mem := by
  unfold leaveRegion
  simp

@[simp] theorem loopClose_mem (s : State) (a1 : Nat) (a2 : Eng) : ((loopClose s a1 a2).1).mem = s.mem := by
  unfold loopClose
  split <;> simp

@[simp] theorem markEp_mem (s : State) (a1 : Nat) : ((markEp s a1)).mem = s.mem := by
  rfl

@[simp] theorem noteSu_mem (s : State) (l : Nat) (j : Nat) (c : HeadClass)
    (flags : List Nat)  : ((noteSu s l j c flags)).mem = s.mem := by
  unfold noteSu
  simp 

@[simp] theorem c0Advance_mem (s : State) (a1 : Nat) (a2 : Eng) : ((c0Advance s a1 a2)).mem = s.mem := by
  unfold c0Advance
  simp

@[simp] theorem retire_mem (s : State) (a1 : Nat) (a2 : Eng) : ((retire s a1 a2)).mem = s.mem := by
  unfold retire
  simp

@[simp] theorem takeBranch_mem (s : State) (a1 : Nat) (a2 : Eng) (a3 : Word) : ((takeBranch s a1 a2 a3)).mem = s.mem := by
  unfold takeBranch
  simp

@[simp] theorem toMeet_mem (s : State) (l : Nat)  : ((toMeet s l)).mem = s.mem := by
  rfl

@[simp] theorem withdrawPinned_mem (s : State) (a1 : Nat) : ((withdrawPinned s a1)).mem = s.mem := by
  unfold withdrawPinned
  dsimp only
  (repeat' split) <;> rfl

@[simp] theorem dropWaiter_mem (s : State) (a1 : Nat) : ((dropWaiter s a1)).mem = s.mem := by
  rfl

@[simp] theorem enterTrap_wf (s : State) (l : Nat) (t : Trap)  (h : Memory.wf s.mem = true)
    : Memory.wf ((enterTrap s l t)).mem = true := by
  unfold enterTrap
  simp [h]

@[simp] theorem takeTrap_wf (s : State) (a1 : Nat) (a2 : Trap) (h : Memory.wf s.mem = true)
    : Memory.wf ((takeTrap s a1 a2)).mem = true := by
  unfold takeTrap
  (repeat' split) <;> simp [h]

@[simp] theorem wordTrap_wf (s : State) (a1 : Nat) (h : Memory.wf s.mem = true) : Memory.wf ((wordTrap s a1)).mem = true := by
  unfold wordTrap
  simp [h]

@[simp] theorem illegal_wf (s : State) (h : Memory.wf s.mem = true) : Memory.wf ((illegal s)).mem = true := by
  unfold illegal
  simp [h]

@[simp] theorem privTrap_wf (s : State) (h : Memory.wf s.mem = true) : Memory.wf ((privTrap s)).mem = true := by
  unfold privTrap
  simp [h]

@[simp] theorem streamTrap_wf (s : State) (h : Memory.wf s.mem = true) : Memory.wf ((streamTrap s)).mem = true := by
  unfold streamTrap
  simp [h]

@[simp] theorem barrierTrap_wf (s : State) (h : Memory.wf s.mem = true) : Memory.wf ((barrierTrap s)).mem = true := by
  unfold barrierTrap
  simp [h]

@[simp] theorem endHandler_mem (s : State) (l : Nat)  : ((endHandler s l)).mem = s.mem := by
  rfl

@[simp] theorem leaveHandler_mem (s : State) (a1 : Nat) : ((leaveHandler s a1)).mem = s.mem := by
  rfl

/-! ### Machine/Translate.lean -/

@[simp] theorem writePage_wf (s : State) (x : Trans) (va : Nat) (bs : List PByte)  (h : Memory.wf s.mem = true)
    : Memory.wf ((writePage s x va bs).1).mem = true := by
  unfold writePage
  dsimp only
  (repeat' split) <;> simp [h]

@[simp] theorem useParts_mem (s : State) (who : Nat) (ps : List (Trans × Nat × Nat))  : ((useParts s who ps)).mem = s.mem := by
  unfold useParts
  simp 

@[simp] theorem holdParts_mem (s : State) (who : Nat)
    (ps : List (Trans × Nat × Nat))  : ((holdParts s who ps)).mem = s.mem := by
  unfold holdParts
  simp 

@[simp] theorem writeParts_wf (s : State) (ps : List (Trans × Nat × Nat)) (bs : List PByte) (h : Memory.wf s.mem = true) :
    Memory.wf (writeParts s ps bs).1.mem = true := by
  unfold writeParts
  exact foldl_inv (fun a : (State × Acf × Nat) × List PByte => Memory.wf a.1.1.mem = true) _
    (fun a p ha => writePage_wf _ _ _ _ ha) _ _ h

@[simp] theorem hotTouch_mem (s : State) (a1 : Nat) : ((hotTouch s a1)).mem = s.mem := by
  unfold hotTouch
  split <;> rfl

@[simp] theorem touchParts_mem (s : State) (a1 : List (Trans × Nat × Nat)) : ((touchParts s a1)).mem = s.mem := by
  unfold touchParts
  split
  · rfl
  · refine foldl_mem _ (fun s p => foldl_mem _ (fun s r => ?_) _ _) _ _
    split <;> simp

@[simp] theorem hotSettle_mem (s : State) : ((hotSettle s)).mem = s.mem := by
  unfold hotSettle
  split <;> rfl

@[simp] theorem hotParts_wf (s : State) (a1 : List (Trans × Nat × Nat)) (h : Memory.wf s.mem = true)
    : Memory.wf ((hotParts s a1)).mem = true := by
  unfold hotParts
  simp (contextual := true) (maxDischargeDepth := 40) [h]

@[simp] theorem tagCapture_mem (s : State) (a1 : FInfo) : ((tagCapture s a1)).mem = s.mem := by
  unfold tagCapture
  (repeat' split) <;> rfl

@[simp] theorem agentFault_mem (s : State) (a1 : FInfo) (a2 : Nat) (a3 : Eng) (a4 : Nat) (a5 : AKind) (a6 : BitVec 12)
    (a7 : BitVec 16) (a8 : Word) : ((agentFault s a1 a2 a3 a4 a5 a6 a7 a8)).mem = s.mem := by
  unfold agentFault
  simp

/-! ### Machine/LinkOps.lean -/

@[simp] theorem modPort_mem (s : State) (a1 : Nat) (a2 : LinkPort → LinkPort) : ((modPort s a1 a2)).mem = s.mem := by
  rfl

@[simp] theorem noteRx_mem (s : State) (a1 : Nat) (a2 : Flit) (a3 : List Byte) : ((noteRx s a1 a2 a3)).mem = s.mem := by
  unfold noteRx
  split <;> rfl

@[simp] theorem sendFlit_mem (s : State) (a1 : Nat) (a2 : Flit) (a3 : List Byte) : ((sendFlit s a1 a2 a3)).mem = s.mem := by
  unfold sendFlit
  (repeat' split) <;> rfl

@[simp] theorem sendTo_mem (s : State) (a1 : Flit) (a2 : List Byte) : ((sendTo s a1 a2)).mem = s.mem := by
  unfold sendTo
  split <;> simp

@[simp] theorem sendRequest_mem (s : State) (t : Transit) : (sendRequest s t).mem = s.mem := by
  unfold sendRequest
  refine foldl_mem _ (fun s p => ?_) _ _
  dsimp only
  split
  · split <;> simp
  · rfl

/-! ### Machine/Flags.lean -/

@[simp] theorem convOr_mem (s : State) (a1 : Nat) (a2 : Acf) : ((convOr s a1 a2)).mem = s.mem := by
  unfold convOr
  simp

@[simp] theorem rmwAdd_mem (s : State) (a1 : Nat) (a2 : Nat) : ((rmwAdd s a1 a2)).mem = s.mem := by
  unfold rmwAdd
  simp

@[simp] theorem streamOr_mem (s : State) (a1 : Nat) (a2 : Nat) (a3 : Acf) : ((streamOr s a1 a2 a3)).mem = s.mem := by
  unfold streamOr
  simp

@[simp] theorem wsOr_mem (s : State) (a1 : Nat) (a2 : Bool) (a3 : BitVec 8) : ((wsOr s a1 a2 a3)).mem = s.mem := by
  rfl

/-! ### Machine/Operands.lean -/

@[simp] theorem holdReady_mem (s : State) (a1 : Nat) (a2 : Eng) : ((holdReady s a1 a2)).mem = s.mem := by
  unfold holdReady
  simp

@[simp] theorem holdFor_mem (s : State) (a1 : Nat) (a2 : Eng) (a3 : List Nat) : ((holdFor s a1 a2 a3)).mem = s.mem := by
  rfl

@[simp] theorem rejoined_mem (s : State) (l : Nat) (e : Eng)  : ((rejoined s l e)).mem = s.mem := by
  unfold rejoined
  simp 

@[simp] theorem scalarWord_wf (a0 : List Eng) (a1 : Guard) (a2 : List Reg) (a3 : Bool) (a4 : Bool) (a5 : State → Nat → Eng →
    Option (List Nat)) (a6 : State → Nat → Eng → State) (s : State) (hf0 : ∀ y0 y1 y2, Memory.wf y0.mem = true →
    Memory.wf ((a6 y0 y1 y2)).mem = true) (h : Memory.wf s.mem = true) : OutWf (scalarWord a0 a1 a2 a3 a4 a5 a6 s) := by
  unfold scalarWord
  dsimp only
  (repeat' split) <;> simp [h, hf0]

@[simp] theorem regWord_wf (a0 : Guard) (a1 : Reg) (a2 : List Reg) (a3 : State → Nat → Eng → Word) (s : State)
    (h : Memory.wf s.mem = true) : OutWf (regWord a0 a1 a2 a3 s) := by
  unfold regWord
  simp [h]

@[simp] theorem alu_wf (a0 : Guard) (a1 : Reg) (a2 : Reg) (a3 : Reg) (a4 : Word → Word → Word) (s : State)
    (h : Memory.wf s.mem = true) : OutWf (alu a0 a1 a2 a3 a4 s) := by
  unfold alu
  simp [h]

@[simp] theorem aluUn_wf (a0 : Guard) (a1 : Reg) (a2 : Reg) (a3 : Word → Word) (s : State) (h : Memory.wf s.mem = true)
    : OutWf (aluUn a0 a1 a2 a3 s) := by
  unfold aluUn
  simp [h]

@[simp] theorem predWord_wf (a0 : Guard) (a1 : Reg) (a2 : List Reg) (a3 : State → Nat → Eng → Bool) (s : State)
    (h : Memory.wf s.mem = true) : OutWf (predWord a0 a1 a2 a3 s) := by
  unfold predWord
  simp [h]

@[simp] theorem apWord_wf (a0 : Guard) (a1 : List Reg) (a2 : Bool) (a3 : State → Nat → State) (s : State)
    (hf0 : ∀ y0 y1, Memory.wf y0.mem = true → Memory.wf ((a3 y0 y1)).mem = true) (h : Memory.wf s.mem = true)
    : OutWf (apWord a0 a1 a2 a3 s) := by
  unfold apWord
  simp (contextual := true) [h, hf0]

end Sys2Proof.Machine
end

