-- ==== Sys2Proof/Laws/KeepScalar.lean ====
section
/-! SUPPORT. The memory keeps its canonical form: the words of the scalar engines and the data port. -/

namespace Sys2Proof.Machine

/-! ### Machine/Alu.lean -/

@[simp] theorem execAdd_wf (a0 : Guard) (a1 : Reg) (a2 : Reg) (a3 : Reg) (s : State) (h : Memory.wf s.mem = true)
    : OutWf (execAdd a0 a1 a2 a3 s) := by
  unfold execAdd
  simp [h]

@[simp] theorem execSub_wf (a0 : Guard) (a1 : Reg) (a2 : Reg) (a3 : Reg) (s : State) (h : Memory.wf s.mem = true)
    : OutWf (execSub a0 a1 a2 a3 s) := by
  unfold execSub
  simp [h]

@[simp] theorem execAnd_wf (a0 : Guard) (a1 : Reg) (a2 : Reg) (a3 : Reg) (s : State) (h : Memory.wf s.mem = true)
    : OutWf (execAnd a0 a1 a2 a3 s) := by
  unfold execAnd
  simp [h]

@[simp] theorem execOr_wf (a0 : Guard) (a1 : Reg) (a2 : Reg) (a3 : Reg) (s : State) (h : Memory.wf s.mem = true)
    : OutWf (execOr a0 a1 a2 a3 s) := by
  unfold execOr
  simp [h]

@[simp] theorem execXor_wf (a0 : Guard) (a1 : Reg) (a2 : Reg) (a3 : Reg) (s : State) (h : Memory.wf s.mem = true)
    : OutWf (execXor a0 a1 a2 a3 s) := by
  unfold execXor
  simp [h]

@[simp] theorem execAndn_wf (a0 : Guard) (a1 : Reg) (a2 : Reg) (a3 : Reg) (s : State) (h : Memory.wf s.mem = true)
    : OutWf (execAndn a0 a1 a2 a3 s) := by
  unfold execAndn
  simp [h]

@[simp] theorem execShl_wf (a0 : Guard) (a1 : Reg) (a2 : Reg) (a3 : Reg) (s : State) (h : Memory.wf s.mem = true)
    : OutWf (execShl a0 a1 a2 a3 s) := by
  unfold execShl
  simp [h]

@[simp] theorem execShr_wf (a0 : Guard) (a1 : Reg) (a2 : Reg) (a3 : Reg) (s : State) (h : Memory.wf s.mem = true)
    : OutWf (execShr a0 a1 a2 a3 s) := by
  unfold execShr
  simp [h]

@[simp] theorem execSra_wf (a0 : Guard) (a1 : Reg) (a2 : Reg) (a3 : Reg) (s : State) (h : Memory.wf s.mem = true)
    : OutWf (execSra a0 a1 a2 a3 s) := by
  unfold execSra
  simp [h]

@[simp] theorem execMin_wf (a0 : Guard) (a1 : Reg) (a2 : Reg) (a3 : Reg) (s : State) (h : Memory.wf s.mem = true)
    : OutWf (execMin a0 a1 a2 a3 s) := by
  unfold execMin
  simp [h]

@[simp] theorem execMax_wf (a0 : Guard) (a1 : Reg) (a2 : Reg) (a3 : Reg) (s : State) (h : Memory.wf s.mem = true)
    : OutWf (execMax a0 a1 a2 a3 s) := by
  unfold execMax
  simp [h]

@[simp] theorem execMinu_wf (a0 : Guard) (a1 : Reg) (a2 : Reg) (a3 : Reg) (s : State) (h : Memory.wf s.mem = true)
    : OutWf (execMinu a0 a1 a2 a3 s) := by
  unfold execMinu
  simp [h]

@[simp] theorem execMaxu_wf (a0 : Guard) (a1 : Reg) (a2 : Reg) (a3 : Reg) (s : State) (h : Memory.wf s.mem = true)
    : OutWf (execMaxu a0 a1 a2 a3 s) := by
  unfold execMaxu
  simp [h]

@[simp] theorem execSlt_wf (a0 : Guard) (a1 : Reg) (a2 : Reg) (a3 : Reg) (s : State) (h : Memory.wf s.mem = true)
    : OutWf (execSlt a0 a1 a2 a3 s) := by
  unfold execSlt
  simp [h]

@[simp] theorem execSltu_wf (a0 : Guard) (a1 : Reg) (a2 : Reg) (a3 : Reg) (s : State) (h : Memory.wf s.mem = true)
    : OutWf (execSltu a0 a1 a2 a3 s) := by
  unfold execSltu
  simp [h]

@[simp] theorem execSeq_wf (a0 : Guard) (a1 : Reg) (a2 : Reg) (a3 : Reg) (s : State) (h : Memory.wf s.mem = true)
    : OutWf (execSeq a0 a1 a2 a3 s) := by
  unfold execSeq
  simp [h]

@[simp] theorem execMul_wf (a0 : Guard) (a1 : Reg) (a2 : Reg) (a3 : Reg) (s : State) (h : Memory.wf s.mem = true)
    : OutWf (execMul a0 a1 a2 a3 s) := by
  unfold execMul
  simp [h]

@[simp] theorem execMulh_wf (a0 : Guard) (a1 : Reg) (a2 : Reg) (a3 : Reg) (s : State) (h : Memory.wf s.mem = true)
    : OutWf (execMulh a0 a1 a2 a3 s) := by
  unfold execMulh
  simp [h]

@[simp] theorem execMulhu_wf (a0 : Guard) (a1 : Reg) (a2 : Reg) (a3 : Reg) (s : State) (h : Memory.wf s.mem = true)
    : OutWf (execMulhu a0 a1 a2 a3 s) := by
  unfold execMulhu
  simp [h]

@[simp] theorem execDiv_wf (a0 : Guard) (a1 : Reg) (a2 : Reg) (a3 : Reg) (s : State) (h : Memory.wf s.mem = true)
    : OutWf (execDiv a0 a1 a2 a3 s) := by
  unfold execDiv
  simp [h]

@[simp] theorem execDivu_wf (a0 : Guard) (a1 : Reg) (a2 : Reg) (a3 : Reg) (s : State) (h : Memory.wf s.mem = true)
    : OutWf (execDivu a0 a1 a2 a3 s) := by
  unfold execDivu
  simp [h]

@[simp] theorem execRem_wf (a0 : Guard) (a1 : Reg) (a2 : Reg) (a3 : Reg) (s : State) (h : Memory.wf s.mem = true)
    : OutWf (execRem a0 a1 a2 a3 s) := by
  unfold execRem
  simp [h]

@[simp] theorem execRemu_wf (a0 : Guard) (a1 : Reg) (a2 : Reg) (a3 : Reg) (s : State) (h : Memory.wf s.mem = true)
    : OutWf (execRemu a0 a1 a2 a3 s) := by
  unfold execRemu
  simp [h]

@[simp] theorem execClz_wf (a0 : Guard) (a1 : Reg) (a2 : Reg) (s : State) (h : Memory.wf s.mem = true)
    : OutWf (execClz a0 a1 a2 s) := by
  unfold execClz
  simp [h]

@[simp] theorem execCtz_wf (a0 : Guard) (a1 : Reg) (a2 : Reg) (s : State) (h : Memory.wf s.mem = true)
    : OutWf (execCtz a0 a1 a2 s) := by
  unfold execCtz
  simp [h]

@[simp] theorem execPopc_wf (a0 : Guard) (a1 : Reg) (a2 : Reg) (s : State) (h : Memory.wf s.mem = true)
    : OutWf (execPopc a0 a1 a2 s) := by
  unfold execPopc
  simp [h]

@[simp] theorem execBext_wf (a0 : Guard) (a1 : Reg) (a2 : Reg) (a3 : Reg) (s : State) (h : Memory.wf s.mem = true)
    : OutWf (execBext a0 a1 a2 a3 s) := by
  unfold execBext
  simp [h]

@[simp] theorem execBins_wf (a0 : Guard) (a1 : Reg) (a2 : Reg) (a3 : Reg) (s : State) (h : Memory.wf s.mem = true)
    : OutWf (execBins a0 a1 a2 a3 s) := by
  unfold execBins
  simp [h]

@[simp] theorem kcmp_wf (a0 : Guard) (a1 : Reg) (a2 : Reg) (a3 : Reg) (a4 : Word → Word → Bool) (s : State)
    (h : Memory.wf s.mem = true) : OutWf (kcmp a0 a1 a2 a3 a4 s) := by
  unfold kcmp
  simp [h]

@[simp] theorem execKcmpEq_wf (a0 : Guard) (a1 : Reg) (a2 : Reg) (a3 : Reg) (s : State) (h : Memory.wf s.mem = true)
    : OutWf (execKcmpEq a0 a1 a2 a3 s) := by
  unfold execKcmpEq
  simp [h]

@[simp] theorem execKcmpNe_wf (a0 : Guard) (a1 : Reg) (a2 : Reg) (a3 : Reg) (s : State) (h : Memory.wf s.mem = true)
    : OutWf (execKcmpNe a0 a1 a2 a3 s) := by
  unfold execKcmpNe
  simp [h]

@[simp] theorem execKcmpLt_wf (a0 : Guard) (a1 : Reg) (a2 : Reg) (a3 : Reg) (s : State) (h : Memory.wf s.mem = true)
    : OutWf (execKcmpLt a0 a1 a2 a3 s) := by
  unfold execKcmpLt
  simp [h]

@[simp] theorem execKcmpGe_wf (a0 : Guard) (a1 : Reg) (a2 : Reg) (a3 : Reg) (s : State) (h : Memory.wf s.mem = true)
    : OutWf (execKcmpGe a0 a1 a2 a3 s) := by
  unfold execKcmpGe
  simp [h]

@[simp] theorem execKcmpLtu_wf (a0 : Guard) (a1 : Reg) (a2 : Reg) (a3 : Reg) (s : State) (h : Memory.wf s.mem = true)
    : OutWf (execKcmpLtu a0 a1 a2 a3 s) := by
  unfold execKcmpLtu
  simp [h]

@[simp] theorem execKcmpGeu_wf (a0 : Guard) (a1 : Reg) (a2 : Reg) (a3 : Reg) (s : State) (h : Memory.wf s.mem = true)
    : OutWf (execKcmpGeu a0 a1 a2 a3 s) := by
  unfold execKcmpGeu
  simp [h]

@[simp] theorem execKand_wf (a0 : Guard) (a1 : Reg) (a2 : Reg) (a3 : Reg) (s : State) (h : Memory.wf s.mem = true)
    : OutWf (execKand a0 a1 a2 a3 s) := by
  unfold execKand
  simp [h]

@[simp] theorem execKor_wf (a0 : Guard) (a1 : Reg) (a2 : Reg) (a3 : Reg) (s : State) (h : Memory.wf s.mem = true)
    : OutWf (execKor a0 a1 a2 a3 s) := by
  unfold execKor
  simp [h]

@[simp] theorem execKnot_wf (a0 : Guard) (a1 : Reg) (a2 : Reg) (s : State) (h : Memory.wf s.mem = true)
    : OutWf (execKnot a0 a1 a2 s) := by
  unfold execKnot
  simp [h]

@[simp] theorem execAddi_wf (a0 : Guard) (a1 : Reg) (a2 : Reg) (a3 : BitVec 12) (s : State) (h : Memory.wf s.mem = true)
    : OutWf (execAddi a0 a1 a2 a3 s) := by
  unfold execAddi
  simp [h]

@[simp] theorem execAndi_wf (a0 : Guard) (a1 : Reg) (a2 : Reg) (a3 : BitVec 12) (s : State) (h : Memory.wf s.mem = true)
    : OutWf (execAndi a0 a1 a2 a3 s) := by
  unfold execAndi
  simp [h]

@[simp] theorem execOri_wf (a0 : Guard) (a1 : Reg) (a2 : Reg) (a3 : BitVec 12) (s : State) (h : Memory.wf s.mem = true)
    : OutWf (execOri a0 a1 a2 a3 s) := by
  unfold execOri
  simp [h]

@[simp] theorem execXori_wf (a0 : Guard) (a1 : Reg) (a2 : Reg) (a3 : BitVec 12) (s : State) (h : Memory.wf s.mem = true)
    : OutWf (execXori a0 a1 a2 a3 s) := by
  unfold execXori
  simp [h]

@[simp] theorem execShli_wf (a0 : Guard) (a1 : Reg) (a2 : Reg) (a3 : BitVec 6) (s : State) (h : Memory.wf s.mem = true)
    : OutWf (execShli a0 a1 a2 a3 s) := by
  unfold execShli
  simp [h]

@[simp] theorem execShri_wf (a0 : Guard) (a1 : Reg) (a2 : Reg) (a3 : BitVec 6) (s : State) (h : Memory.wf s.mem = true)
    : OutWf (execShri a0 a1 a2 a3 s) := by
  unfold execShri
  simp [h]

@[simp] theorem execSrai_wf (a0 : Guard) (a1 : Reg) (a2 : Reg) (a3 : BitVec 6) (s : State) (h : Memory.wf s.mem = true)
    : OutWf (execSrai a0 a1 a2 a3 s) := by
  unfold execSrai
  simp [h]

@[simp] theorem execSlti_wf (a0 : Guard) (a1 : Reg) (a2 : Reg) (a3 : BitVec 12) (s : State) (h : Memory.wf s.mem = true)
    : OutWf (execSlti a0 a1 a2 a3 s) := by
  unfold execSlti
  simp [h]

@[simp] theorem execLui_wf (a0 : Guard) (a1 : Reg) (a2 : BitVec 17) (s : State) (h : Memory.wf s.mem = true)
    : OutWf (execLui a0 a1 a2 s) := by
  unfold execLui
  simp [h]

@[simp] theorem execAddpc_wf (a0 : Guard) (a1 : Reg) (a2 : BitVec 17) (s : State) (h : Memory.wf s.mem = true)
    : OutWf (execAddpc a0 a1 a2 s) := by
  unfold execAddpc
  simp [h]

/-! ### Machine/Control.lean -/

@[simp] theorem branchWord_wf (a0 : Guard) (a1 : List Reg) (a2 : Word) (a3 : State → Nat → Eng → Bool) (s : State)
    (h : Memory.wf s.mem = true) : OutWf (branchWord a0 a1 a2 a3 s) := by
  unfold branchWord
  simp [h]

@[simp] theorem execB_wf (a0 : Guard) (a1 : BitVec 22) (s : State) (h : Memory.wf s.mem = true) : OutWf (execB a0 a1 s) := by
  unfold execB
  simp [h]

@[simp] theorem execBk_wf (a0 : Guard) (a1 : BitVec 22) (s : State) (h : Memory.wf s.mem = true) : OutWf (execBk a0 a1 s) := by
  unfold execBk
  simp [h]

@[simp] theorem bcc_wf (a0 : Guard) (a1 : Reg) (a2 : Reg) (a3 : BitVec 12) (a4 : Word → Word → Bool) (s : State)
    (h : Memory.wf s.mem = true) : OutWf (bcc a0 a1 a2 a3 a4 s) := by
  unfold bcc
  simp [h]

@[simp] theorem execBccEq_wf (a0 : Guard) (a1 : Reg) (a2 : Reg) (a3 : BitVec 12) (s : State) (h : Memory.wf s.mem = true)
    : OutWf (execBccEq a0 a1 a2 a3 s) := by
  unfold execBccEq
  simp [h]

@[simp] theorem execBccNe_wf (a0 : Guard) (a1 : Reg) (a2 : Reg) (a3 : BitVec 12) (s : State) (h : Memory.wf s.mem = true)
    : OutWf (execBccNe a0 a1 a2 a3 s) := by
  unfold execBccNe
  simp [h]

@[simp] theorem execBccLt_wf (a0 : Guard) (a1 : Reg) (a2 : Reg) (a3 : BitVec 12) (s : State) (h : Memory.wf s.mem = true)
    : OutWf (execBccLt a0 a1 a2 a3 s) := by
  unfold execBccLt
  simp [h]

@[simp] theorem execBccGe_wf (a0 : Guard) (a1 : Reg) (a2 : Reg) (a3 : BitVec 12) (s : State) (h : Memory.wf s.mem = true)
    : OutWf (execBccGe a0 a1 a2 a3 s) := by
  unfold execBccGe
  simp [h]

@[simp] theorem execBccLtu_wf (a0 : Guard) (a1 : Reg) (a2 : Reg) (a3 : BitVec 12) (s : State) (h : Memory.wf s.mem = true)
    : OutWf (execBccLtu a0 a1 a2 a3 s) := by
  unfold execBccLtu
  simp [h]

@[simp] theorem execBccGeu_wf (a0 : Guard) (a1 : Reg) (a2 : Reg) (a3 : BitVec 12) (s : State) (h : Memory.wf s.mem = true)
    : OutWf (execBccGeu a0 a1 a2 a3 s) := by
  unfold execBccGeu
  simp [h]

@[simp] theorem jumpWord_wf (a0 : Guard) (a1 : Reg) (a2 : List Reg) (a3 : State → Nat → Eng → Word) (s : State)
    (h : Memory.wf s.mem = true) : OutWf (jumpWord a0 a1 a2 a3 s) := by
  unfold jumpWord
  simp [h]

@[simp] theorem execJal_wf (a0 : Guard) (a1 : Reg) (a2 : BitVec 17) (s : State) (h : Memory.wf s.mem = true)
    : OutWf (execJal a0 a1 a2 s) := by
  unfold execJal
  simp [h]

@[simp] theorem execJalr_wf (a0 : Guard) (a1 : Reg) (a2 : Reg) (a3 : BitVec 12) (s : State) (h : Memory.wf s.mem = true)
    : OutWf (execJalr a0 a1 a2 a3 s) := by
  unfold execJalr
  simp [h]

@[simp] theorem execLoop_wf (a0 : Guard) (a1 : Reg) (a2 : BitVec 12) (s : State) (h : Memory.wf s.mem = true)
    : OutWf (execLoop a0 a1 a2 s) := by
  unfold execLoop
  split <;> simp [h]

@[simp] theorem execBrq_wf (a0 : Guard) (a1 : Reg) (a2 : BitVec 12) (s : State) (h : Memory.wf s.mem = true)
    : OutWf (execBrq a0 a1 a2 s) := by
  unfold execBrq
  split <;> simp [h]

@[simp] theorem execBqpush_wf (a0 : Guard) (a1 : Reg) (a2 : Reg) (s : State) (h : Memory.wf s.mem = true)
    : OutWf (execBqpush a0 a1 a2 s) := by
  unfold execBqpush
  split <;> simp [h]

@[simp] theorem freshId_mem (s : State) (a1 : Nat) : ((freshId s a1).1).mem = s.mem := by
  rfl

@[simp] theorem execTksig_wf (a0 : Guard) (a1 : Reg) (s : State) (h : Memory.wf s.mem = true) : OutWf (execTksig a0 a1 s) := by
  unfold execTksig
  split <;> simp [h]

@[simp] theorem execTkwait_wf (a0 : Guard) (a1 : Reg) (s : State) (h : Memory.wf s.mem = true) : OutWf (execTkwait a0 a1 s) := by
  unfold execTkwait
  split <;> simp [h]

@[simp] theorem c0Word_wf (a0 : Guard) (a1 : Bool) (a2 : State → Nat → State) (s : State)
    (hf0 : ∀ y0 y1, Memory.wf y0.mem = true → Memory.wf ((a2 y0 y1)).mem = true) (h : Memory.wf s.mem = true)
    : OutWf (c0Word a0 a1 a2 s) := by
  unfold c0Word
  simp (contextual := true) [h, hf0]

@[simp] theorem execLoopc_wf (a0 : Guard) (a1 : BitVec 22) (s : State) (h : Memory.wf s.mem = true)
    : OutWf (execLoopc a0 a1 s) := by
  unfold execLoopc
  simp [h]

@[simp] theorem execRotclr_wf (a0 : Guard) (a1 : BitVec 2) (s : State) (h : Memory.wf s.mem = true)
    : OutWf (execRotclr a0 a1 s) := by
  unfold execRotclr
  (repeat' split) <;> simp [h]

@[simp] theorem askSync_mem (s : State) (a1 : Nat) (a2 : Option (BitVec 4)) (a3 : List Nat) (a4 : BitVec 8)
    : ((askSync s a1 a2 a3 a4)).mem = s.mem := by
  unfold askSync
  simp

@[simp] theorem execSyncg_wf (a0 : Guard) (a1 : BitVec 4) (a2 : BitVec 8) (s : State) (h : Memory.wf s.mem = true)
    : OutWf (execSyncg a0 a1 a2 s) := by
  unfold execSyncg
  (repeat' split) <;> simp [h]

@[simp] theorem execEase_wf (a0 : Guard) (a1 : Reg) (a2 : BitVec 8) (s : State) (h : Memory.wf s.mem = true)
    : OutWf (execEase a0 a1 a2 s) := by
  unfold execEase
  simp [h]

@[simp] theorem execLockstepRendezvous_wf (l : CoreNum) (s : State) (h : Memory.wf s.mem = true) :
    OutWf (execLockstepRendezvous l s) := by
  have hm : ∀ (ms : List Eng) (f : EngSt → EngSt) (s : State),
      (ms.foldl (fun s e => modEng s l.toNat e f) s).mem = s.mem := fun ms f s => foldl_mem _ (fun s e => modEng_mem s _ e f) _ _
  unfold execLockstepRendezvous
  dsimp only
  rw [outWf_next]
  split
  · exact h
  · split <;> simp [h, hm]

/-! ### Machine/Access.lean -/

/-- A port whose writes keep the canonical form. -/
def PortWf (p : Port') : Prop := ∀ s bs, Memory.wf s.mem = true → Memory.wf (p.wr s bs).1.mem = true

theorem spPort_wf (l off n : Nat) : PortWf (spPort l off n) := fun _ _ h => writePBytes_wf _ _ h
theorem partPort_wf (ps : List (Trans × Nat × Nat)) : PortWf (partPort ps) := fun _ _ h => writeParts_wf _ _ _ h

theorem perform_wf {s : State} {l : Nat} {p : Port'} {k : QKind} {n : Nat} {d : Word} (hp : PortWf p)
    (h : Memory.wf s.mem = true) {t : State × Nat} (ht : perform s l p k n d = some t) : Memory.wf t.1.mem = true := by
  have put (x : List PByte) : Memory.wf (rmwAdd (convOr (p.wr s x).1 l (p.wr s x).2.1) l (p.wr s x).2.2).mem = true := by
    have := hp s x h
    simp [this]
  revert ht
  unfold perform
  dsimp only
  split <;> (repeat' split) <;> intro ht <;> first
    | contradiction
    | (cases ht; first | exact h | exact put _ | (simp [h]; done))

@[simp] theorem dropEnt_mem (s : State) (a1 : Nat) (a2 : Nat) : ((dropEnt s a1 a2)).mem = s.mem := by
  rfl

@[simp] theorem apFault_mem (s : State) (a1 : Nat) (a2 : FInfo) (a3 : AKind) (a4 : Word)
    : ((apFault s a1 a2 a3 a4)).mem = s.mem := by
  unfold apFault
  simp

@[simp] theorem valueIn_mem (s : State) (a1 a2 a3 a4 a5 : Nat) : ((valueIn s a1 a2 a3 a4 a5)).mem = s.mem := by
  unfold valueIn
  split
  · rfl
  · dsimp only
    split <;> simp

@[simp] theorem sentEnt_mem (s : State) (a1 a2 : Nat) (a3 : QEnt) (a4 : Nat) : ((sentEnt s a1 a2 a3 a4)).mem = s.mem := by
  unfold sentEnt
  split <;> simp

theorem performEnt_wf {s : State} {l i : Nat} {e : QEnt} {p : Port'} {n g : Nat} (hp : PortWf p)
    (h : Memory.wf s.mem = true) : Memory.wf (performEnt s l i e p n g).mem = true := by
  unfold performEnt
  split
  · simp [h]
  · rename_i r hr
    have := perform_wf hp h hr
    dsimp only
    split <;> simp [this]

@[simp] theorem sendAway_mem (s : State) (a1 : Transit) : ((sendAway s a1)).mem = s.mem := by
  unfold sendAway
  dsimp only
  (repeat' split) <;> simp

@[simp] theorem awayEnt_mem (s : State) (a1 a2 : Nat) (a3 : QEnt) (a4 : List (Trans × Nat × Nat)) (a5 a6 : Nat) :
    ((awayEnt s a1 a2 a3 a4 a5 a6)).mem = s.mem := by
  unfold awayEnt
  split
  · rfl
  · simp

@[simp] theorem readTouch_mem (s : State) (l : Nat) (k : AKind) (off n : Nat) : (readTouch s l k off n).mem = s.mem := by
  unfold readTouch
  split <;> simp

@[simp] theorem touchReads_mem (s : State) (k : AKind) (ps : List (Trans × Nat × Nat)) : (touchReads s k ps).mem = s.mem := by
  unfold touchReads
  split <;> simp

@[simp] theorem departEnt_wf (s : State) (l i : Nat) (h : Memory.wf s.mem = true) : Memory.wf (departEnt s l i).mem = true := by
  unfold departEnt
  split
  · exact h
  · split
    · split <;> simp [h]
    · split
      · simp [h]
      · dsimp only
        split
        · exact h
        · repeat' split
          all_goals first
            | exact performEnt_wf (spPort_wf _ _ _) (by simp [h])
            | (simp [h]; done)
        · split
          · simp [h]
          · simp [h]
          · repeat' split
            all_goals first
              | exact performEnt_wf (partPort_wf _) (by simp [h])
              | (simp [h]; done)

@[simp] theorem drainAp_wf (s : State) (l : Nat) (h : Memory.wf s.mem = true) : Memory.wf (drainAp s l).mem = true := by
  unfold drainAp
  refine iter_wf _ (fun s hs => ?_) _ h
  split <;> simp [hs]

@[simp] theorem enqueue_wf (s : State) (a1 : Nat) (a2 : QKind) (a3 : Word) (a4 : Nat) (a5 : Word) (a6 : Reg)
    (h : Memory.wf s.mem = true) : Memory.wf ((enqueue s a1 a2 a3 a4 a5 a6)).mem = true := by
  unfold enqueue
  simp [h]

@[simp] theorem memWord_wf (g : Guard) (regs : List Reg) (op : State → Nat → QKind × Word × Nat × Word × Reg) (s : State)
    (h : Memory.wf s.mem = true) : OutWf (memWord g regs op s) := by
  unfold memWord
  refine apWord_wf _ _ _ _ _ (fun s l hs => ?_) h
  dsimp only
  repeat' split
  all_goals simp [hs]

@[simp] theorem execLd_wf (a0 : Guard) (a1 : Reg) (a2 : Reg) (a3 : BitVec 10) (a4 : BitVec 2) (s : State)
    (h : Memory.wf s.mem = true) : OutWf (execLd a0 a1 a2 a3 a4 s) := by
  unfold execLd
  simp [h]

@[simp] theorem execLdu_wf (a0 : Guard) (a1 : Reg) (a2 : Reg) (a3 : BitVec 10) (a4 : BitVec 2) (s : State)
    (h : Memory.wf s.mem = true) : OutWf (execLdu a0 a1 a2 a3 a4 s) := by
  unfold execLdu
  simp [h]

@[simp] theorem execSt_wf (a0 : Guard) (a1 : Reg) (a2 : Reg) (a3 : BitVec 10) (a4 : BitVec 2) (s : State)
    (h : Memory.wf s.mem = true) : OutWf (execSt a0 a1 a2 a3 a4 s) := by
  unfold execSt
  simp [h]

@[simp] theorem execLdx_wf (a0 : Guard) (a1 : Reg) (a2 : Reg) (a3 : Reg) (a4 : Bool) (a5 : BitVec 2) (s : State)
    (h : Memory.wf s.mem = true) : OutWf (execLdx a0 a1 a2 a3 a4 a5 s) := by
  unfold execLdx
  simp [h]

@[simp] theorem execStx_wf (a0 : Guard) (a1 : Reg) (a2 : Reg) (a3 : Reg) (a4 : BitVec 2) (s : State)
    (h : Memory.wf s.mem = true) : OutWf (execStx a0 a1 a2 a3 a4 s) := by
  unfold execStx
  simp [h]

@[simp] theorem execLda_wf (a0 : Guard) (a1 : Reg) (a2 : Reg) (a3 : BitVec 3) (a4 : Bool) (a5 : BitVec 2) (s : State)
    (h : Memory.wf s.mem = true) : OutWf (execLda a0 a1 a2 a3 a4 a5 s) := by
  unfold execLda
  simp [h]

@[simp] theorem execStl_wf (a0 : Guard) (a1 : Reg) (a2 : Reg) (a3 : BitVec 3) (a4 : BitVec 2) (s : State)
    (h : Memory.wf s.mem = true) : OutWf (execStl a0 a1 a2 a3 a4 s) := by
  unfold execStl
  simp [h]

@[simp] theorem execAmoW_wf (a0 : Guard) (a1 : Reg) (a2 : Reg) (a3 : Reg) (a4 : BitVec 3) (a5 : BitVec 4) (s : State)
    (h : Memory.wf s.mem = true) : OutWf (execAmoW a0 a1 a2 a3 a4 a5 s) := by
  unfold execAmoW
  simp [h]

@[simp] theorem execAmoD_wf (a0 : Guard) (a1 : Reg) (a2 : Reg) (a3 : Reg) (a4 : BitVec 3) (a5 : BitVec 4) (s : State)
    (h : Memory.wf s.mem = true) : OutWf (execAmoD a0 a1 a2 a3 a4 a5 s) := by
  unfold execAmoD
  simp [h]

@[simp] theorem execCas_wf (a0 : Guard) (a1 : Reg) (a2 : Reg) (a3 : Reg) (a4 : BitVec 3) (a5 : Bool) (s : State)
    (h : Memory.wf s.mem = true) : OutWf (execCas a0 a1 a2 a3 a4 a5 s) := by
  unfold execCas
  simp [h]

@[simp] theorem execFence_wf (a0 : Guard) (a1 : BitVec 3) (s : State) (h : Memory.wf s.mem = true)
    : OutWf (execFence a0 a1 s) := by
  unfold execFence
  simp [h]

@[simp] theorem execQalign_wf (a0 : Guard) (s : State) (h : Memory.wf s.mem = true) : OutWf (execQalign a0 s) := by
  unfold execQalign
  simp [h]

@[simp] theorem transitFault_mem (s : State) (a1 : Transit) (a2 : FInfo) : ((transitFault s a1 a2)).mem = s.mem := by
  unfold transitFault
  dsimp only
  split <;> simp

@[simp] theorem acknowledged_mem (s : State) (a1 : Transit) : ((acknowledged s a1)).mem = s.mem := by
  rfl

@[simp] theorem goneTransit_mem (s : State) (a1 : Nat) (a2 : Transit) : ((goneTransit s a1 a2)).mem = s.mem := by
  rfl

theorem performAway_wf {s : State} {t : Transit} (h : Memory.wf s.mem = true) {r : State × Transit}
    (hr : performAway s t = some r) : Memory.wf r.1.mem = true := by
  have away {k : QKind} {n : Nat} {d : Word} {g : State × Nat → Transit}
      (hr : (perform s t.core (partPort (transitParts t)) k n d).map (fun r => (r.1, g r)) = some r) :
      Memory.wf r.1.mem = true := by
    obtain ⟨q, hq, rfl⟩ := Option.map_eq_some_iff.mp hr
    exact perform_wf (partPort_wf _) h hq
  revert hr
  unfold performAway
  dsimp only
  (repeat' split) <;> intro hr <;> first
    | exact away hr
    | (cases hr; first | exact h | exact writeParts_wf _ _ _ h)

@[simp] theorem execAccessPerform_wf (i : Nat) (s : State) (h : Memory.wf s.mem = true) : OutWf (execAccessPerform i s) := by
  unfold execAccessPerform
  rw [outWf_next]
  split
  · exact h
  · dsimp only
    split
    · exact h
    · split
      · simp [h]
      · split
        · exact h
        · exact h
        · split
          · split <;> simp [h]
          · simp [h]
        · split
          · simp [h]
          · rename_i r hr
            exact performAway_wf (by simp [h]) hr

@[simp] theorem modFar_mem (s : State) (a1 : Nat) (a2 : Eng) (a3 : Nat) (a4 : List FarRead → List FarRead) :
    ((modFar s a1 a2 a3 a4)).mem = s.mem := by
  unfold modFar
  split <;> rfl

@[simp] theorem askFar_mem (s : State) (a1 : Nat) (a2 : Eng) (a3 : Nat) (a4 : QKind) (a5 : Word) (a6 : Nat) (a7 : BitVec 4)
    (a8 : Trans × Nat × Nat) : ((askFar s a1 a2 a3 a4 a5 a6 a7 a8).1).mem = s.mem := by
  unfold askFar
  dsimp only
  (repeat' split) <;> simp

@[simp] theorem readAway_mem (s : State) (a1 : Nat) (a2 : Eng) (a3 a4 : Nat) (a5 : BitVec 4) (a6 : List (Trans × Nat × Nat)) :
    ((readAway s a1 a2 a3 a4 a5 a6).1).mem = s.mem := by
  unfold readAway
  split
  · rfl
  · refine foldl_inv (fun a : State × Option (List PByte × Acf) => a.1.mem = s.mem) _ (fun a p ha => ?_) _ _ rfl
    dsimp only
    (repeat' split) <;> simp [ha]

@[simp] theorem returned_mem (s : State) (a1 : Transit) : ((returned s a1)).mem = s.mem := by
  unfold returned
  (repeat' split) <;> simp

@[simp] theorem execAcknowledgement_wf (a0 : CoreNum) (s : State) (h : Memory.wf s.mem = true)
    : OutWf (execAcknowledgement a0 s) := by
  unfold execAcknowledgement
  (repeat' split) <;> simp [h]

@[simp] theorem writeOut_wf (s : State) (a1 : Nat) (a2 : Eng) (a3 k : Nat) (a4 : BitVec 4) (a5 : Trans × Nat × Nat)
    (a6 : List PByte) (h : Memory.wf s.mem = true) : Memory.wf ((writeOut s a1 a2 a3 k a4 a5 a6).1).mem = true := by
  unfold writeOut
  dsimp only
  split <;> simp [h]

@[simp] theorem writeAll_wf (s : State) (a1 : Nat) (a2 : Eng) (a3 k : Nat) (a4 : BitVec 4) (ps : List (Trans × Nat × Nat))
    (bs : List PByte) (h : Memory.wf s.mem = true) : Memory.wf ((writeAll s a1 a2 a3 k a4 ps bs).1).mem = true := by
  unfold writeAll
  exact foldl_inv (fun a : (State × Acf × Nat) × List PByte => Memory.wf a.1.1.mem = true) _
    (fun a p ha => writeOut_wf _ _ _ _ _ _ _ _ ha) _ _ h

/-! ### Machine/System.lean -/

@[simp] theorem csrWrite_mem (s : State) (a1 : Nat) (a2 : Nat) (a3 : Word) : ((csrWrite s a1 a2 a3)).mem = s.mem := by
  unfold csrWrite
  (repeat' split) <;> rfl

@[simp] theorem stopHandlerC3_mem (s : State) (a1 : Nat) : ((stopHandlerC3 s a1)).mem = s.mem := by
  rfl

@[simp] theorem csrWord_wf (a0 : Guard) (a1 : Reg) (a2 : BitVec 12) (a3 : Bool) (s : State) (h : Memory.wf s.mem = true)
    : OutWf (csrWord a0 a1 a2 a3 s) := by
  unfold csrWord
  split <;> simp (contextual := true) [h]

@[simp] theorem execCsrr_wf (a0 : Guard) (a1 : Reg) (a2 : BitVec 12) (s : State) (h : Memory.wf s.mem = true)
    : OutWf (execCsrr a0 a1 a2 s) := by
  unfold execCsrr
  simp [h]

@[simp] theorem execCsrw_wf (a0 : Guard) (a1 : Reg) (a2 : BitVec 12) (s : State) (h : Memory.wf s.mem = true)
    : OutWf (execCsrw a0 a1 a2 s) := by
  unfold execCsrw
  simp [h]

@[simp] theorem execCsrx_wf (a0 : Guard) (a1 : Reg) (a2 : BitVec 12) (s : State) (h : Memory.wf s.mem = true)
    : OutWf (execCsrx a0 a1 a2 s) := by
  unfold execCsrx
  simp [h]

@[simp] theorem privWord_wf (a0 : List Eng) (a1 : Guard) (a2 : List Reg) (a3 : State → Nat → Eng → State) (s : State)
    (hf0 : ∀ y0 y1 y2, Memory.wf y0.mem = true → Memory.wf ((a3 y0 y1 y2)).mem = true) (h : Memory.wf s.mem = true)
    : OutWf (privWord a0 a1 a2 a3 s) := by
  unfold privWord
  simp (contextual := true) [h, hf0]

@[simp] theorem execTrap_wf (a0 : Guard) (a1 : BitVec 12) (s : State) (h : Memory.wf s.mem = true)
    : OutWf (execTrap a0 a1 s) := by
  unfold execTrap
  simp (contextual := true) [h]

@[simp] theorem execTret_wf (a0 : Guard) (s : State) (h : Memory.wf s.mem = true) : OutWf (execTret a0 s) := by
  unfold execTret
  simp [h]

@[simp] theorem execHalt_wf (a0 : Guard) (s : State) (h : Memory.wf s.mem = true) : OutWf (execHalt a0 s) := by
  unfold execHalt
  simp [h]

@[simp] theorem execTick_wf (a0 : Guard) (a1 : Reg) (s : State) (h : Memory.wf s.mem = true) : OutWf (execTick a0 a1 s) := by
  unfold execTick
  simp [h]

@[simp] theorem execTlbinv_wf (a0 : Guard) (a1 : Reg) (a2 : BitVec 12) (s : State) (h : Memory.wf s.mem = true)
    : OutWf (execTlbinv a0 a1 a2 s) := by
  unfold execTlbinv
  simp [h]

@[simp] theorem execAsidret_wf (a0 : Guard) (a1 : Reg) (s : State) (h : Memory.wf s.mem = true)
    : OutWf (execAsidret a0 a1 s) := by
  unfold execAsidret
  simp [h]

@[simp] theorem execSpcfg_wf (a0 : Guard) (a1 : Reg) (s : State) (h : Memory.wf s.mem = true) : OutWf (execSpcfg a0 a1 s) := by
  unfold execSpcfg
  simp (contextual := true) [h]

@[simp] theorem execHpcC3Write_wf (a0 : CoreNum) (s : State) (h : Memory.wf s.mem = true) : OutWf (execHpcC3Write a0 s) := by
  unfold execHpcC3Write
  simp [h]

@[simp] theorem clearCls_mem (s : State) (a1 : Nat) : ((clearCls s a1)).mem = s.mem := by
  rfl

@[simp] theorem execClsClear_wf (a0 : CoreNum) (s : State) (h : Memory.wf s.mem = true) : OutWf (execClsClear a0 s) := by
  unfold execClsClear
  simp [h]

@[simp] theorem execAsidRetirement_wf (s : State) (h : Memory.wf s.mem = true) : OutWf (execAsidRetirement s) := by
  unfold execAsidRetirement
  simp [h]

@[simp] theorem execShootdown_wf (a0 : Option (BitVec 12)) (a1 : Option (BitVec 48)) (s : State) (h : Memory.wf s.mem = true)
    : OutWf (execShootdown a0 a1 s) := by
  unfold execShootdown
  simp [h]

/-! ### Machine/Fetch.lean -/

@[simp] theorem beginTry_mem (s : State) (a1 : Nat) (a2 : Eng) : ((beginTry s a1 a2)).mem = s.mem := by
  rfl

@[simp] theorem withWord_mem (s : State) (a1 : BitVec 192) : ((withWord s a1)).mem = s.mem := by
  rfl

@[simp] theorem fetchPending_mem (s : State) : ((fetchPending s)).mem = s.mem := by
  rfl

@[simp] theorem placeWord_wf (s : State) (a1 : Nat) (a2 : Nat) (h : Memory.wf s.mem = true)
    : Memory.wf ((placeWord s a1 a2)).mem = true := by
  unfold placeWord
  simp [h]

/-- The state that a fetch leaves has its memory in canonical form. -/
def FetchedWf : Fetched → Prop
  | .word _ t => Memory.wf t.mem = true
  | .wait t => Memory.wf t.mem = true
  | .outside => True

/-- What a read of another device leaves has the memory it began with. -/
theorem readAway_keeps {s t : State} {l : Nat} {e : Eng} {j k : Nat} {f : BitVec 4} {ps : List (Trans × Nat × Nat)}
    {r : Option (List PByte × Acf)} (h : readAway s l e j k f ps = (t, r)) : t.mem = s.mem := by
  have := readAway_mem s l e j k f ps
  rwa [h] at this

theorem fetch_wf (s : State) (l : Nat) (e : Eng) (h : Memory.wf s.mem = true) : FetchedWf (fetch s l e) := by
  unfold fetch
  dsimp only
  (repeat' split) <;> first
    | trivial
    | ((try unfold FetchedWf) <;> simp [h]; done)
    | (have hq := readAway_keeps (by assumption); unfold FetchedWf; simp_all)

end Sys2Proof.Machine
end

