-- ==== Sys2Proof/Laws/KeepStreams.lean ====
section
/-! SUPPORT. The memory keeps its canonical form: the stream unit, rings and the copy engine. -/

namespace Sys2Proof.Machine

/-! ### Machine/Su.lean -/

@[simp] theorem touchLines_mem (s : State) (xs : List Nat) : (touchLines s xs).mem = s.mem := by
  fun_induction touchLines s xs <;> simp_all

/-- A step of the SU's work whose state has its memory in canonical form. -/
def GenWf {α : Type} : Gen α → Prop
  | .ok _ s | .wait s | .hold s | .bad _ _ s => Memory.wf s.mem = true

@[simp] theorem genWf_ok {α : Type} (a : α) (s : State) : GenWf (.ok a s) ↔ Memory.wf s.mem = true := Iff.rfl
@[simp] theorem genWf_wait {α : Type} (s : State) : GenWf (.wait s : Gen α) ↔ Memory.wf s.mem = true := Iff.rfl
@[simp] theorem genWf_hold {α : Type} (s : State) : GenWf (.hold s : Gen α) ↔ Memory.wf s.mem = true := Iff.rfl
@[simp] theorem genWf_bad {α : Type} (f : FInfo) (va : Word) (s : State) : GenWf (.bad f va s : Gen α) ↔ Memory.wf s.mem = true :=
  Iff.rfl

theorem genWf_eq {α : Type} {g g' : Gen α} (he : g = g') (hg : GenWf g) : GenWf g' := he ▸ hg

theorem genWf_ite {α : Type} {c : Prop} [Decidable c] {a b : Gen α} (ha : GenWf a) (hb : GenWf b) : GenWf (if c then a else b) := by
  split <;> assumption

theorem bind_wf {α β : Type} {x : Gen α} {f : α → State → Gen β} (hx : GenWf x)
    (hf : ∀ a s, Memory.wf s.mem = true → GenWf (f a s)) : GenWf (x.bind f) := by
  cases x with
  | ok a s => exact hf a s hx
  | wait s => exact hx
  | hold s => exact hx
  | bad e va s => exact hx

theorem all_wf {α β : Type} {f : α → State → Gen β} (hf : ∀ a s, Memory.wf s.mem = true → GenWf (f a s)) (xs : List α)
    {s : State} (h : Memory.wf s.mem = true) : GenWf (Gen.all f xs s) := by
  induction xs generalizing s with
  | nil => exact h
  | cons x xs ih => exact bind_wf (hf x s h) fun b s hs => bind_wf (ih hs) fun bs s hs => hs

theorem spotOf_wf (s : State) (tlb : List TlbEnt) (cap l n : Nat) (k : AKind) (key va : Nat) (h : Memory.wf s.mem = true) :
    GenWf (spotOf s tlb cap l n k key va).1 := by
  unfold spotOf; split <;> exact h

theorem suSpot_wf (l j : Nat) (ea : Word) (n : Nat) (k : AKind) (dev : Option Nat) (s : State) (h : Memory.wf s.mem = true) :
    GenWf (suSpot l j ea n k dev s) := by
  unfold suSpot
  split
  · exact h
  · split <;> exact h
  · rename_i va key hc
    split
    · exact h
    · dsimp only
      have hr := spotOf_wf s (getStream s l j).tlb 2 l n k key va h
      split <;> rename_i he <;> rw [he] at hr
      · refine genWf_ite ?_ ?_ <;> simpa using hr
      · simpa using hr
      · simpa using hr
      · simpa using hr
      · simpa using hr

@[simp] theorem suHold_mem (s : State) (l j : Nat) (p : Spot) : (suHold s l j p).mem = s.mem := by
  cases p <;> simp [suHold]

@[simp] theorem suUse_mem (s : State) (l j : Nat) (p : Spot) : (suUse s l j p).mem = s.mem := by
  cases p <;> simp [suUse]

theorem suRead_wf (l j : Nat) (ea : Word) (n : Nat) (dev : Option Nat) (fmt : BitVec 4) (s : State) (h : Memory.wf s.mem = true) :
    GenWf (suRead l j ea n dev fmt s) :=
  bind_wf (suSpot_wf _ _ _ _ _ _ _ h) fun p s hs => by
    refine genWf_ite (by simpa using hs) ?_
    split
    · simpa using hs
    · split <;> have hr := readAway_keeps (by assumption) <;> simpa [hr] using hs

theorem shEntry_wf (l j : Nat) (d : BitVec 512) (pos : Nat) (s : State) (h : Memory.wf s.mem = true) :
    GenWf (shEntry l j d pos s) :=
  bind_wf (suRead_wf _ _ _ _ _ _ _ h) fun g s hs => by
    dsimp only
    split <;> exact hs

theorem placesOf_wf (l j : Nat) (cs : List Int) (w : Bool) (s : State) (h : Memory.wf s.mem = true) :
    GenWf (placesOf l j cs w s) := by
  unfold placesOf
  dsimp only
  split
  · exact h
  · exact bind_wf (all_wf (fun a s hs => shEntry_wf _ _ _ _ _ hs) _ h) fun _ s hs => hs

theorem suBits_wf (l j : Nat) (p : Place) (bit : Int) (n : Nat) (s : State) (h : Memory.wf s.mem = true) :
    GenWf (suBits l j p bit n s) := by
  unfold suBits
  dsimp only
  split
  · exact h
  · exact bind_wf (suRead_wf _ _ _ _ _ _ _ h) fun _ s hs => hs

theorem readPiece_wf (l j : Nat) (cs : List Int) (s : State) (h : Memory.wf s.mem = true) : GenWf (readPiece l j cs s) := by
  unfold readPiece
  refine bind_wf (placesOf_wf _ _ _ _ _ h) fun ps s hs => ?_
  split
  · exact hs
  · refine bind_wf (suBits_wf _ _ _ _ _ _ hs) fun g s hs => ?_
    split
    · split
      · exact hs
      · exact bind_wf (suRead_wf _ _ _ _ _ _ _ hs) fun _ s hs => hs
    · exact hs

theorem pieceAt_wf (l j : Nat) (p : Nat × List Index) (s : State) (h : Memory.wf s.mem = true) : GenWf (pieceAt l j p s) := by
  unfold pieceAt
  dsimp only
  split
  · refine bind_wf (all_wf (fun x s hs => ?_) _ h) fun _ s hs => hs
    split
    · exact hs
    · refine bind_wf (placesOf_wf _ _ _ _ _ hs) fun ps s hs => ?_
      split
      · exact hs
      · exact bind_wf (suBits_wf _ _ _ _ _ _ hs) fun _ s hs => hs
  · split
    · exact h
    · exact bind_wf (readPiece_wf _ _ _ _ h) fun _ _ hs => hs

theorem genSlot_wf (l j z lin : Nat) (s : State) (h : Memory.wf s.mem = true) : GenWf (genSlot l j z lin s) := by
  unfold genSlot
  dsimp only
  refine genWf_ite ?_ ?_
  · refine genWf_ite ?_ ?_
    · exact h
    · exact bind_wf (all_wf (fun x s hs => pieceAt_wf _ _ _ _ hs) _ h) fun _ s hs => by simpa using hs
  · exact bind_wf (all_wf (fun x s hs => pieceAt_wf _ _ _ _ hs) _ h) fun _ s hs => by simpa using hs

theorem readyRun_wf (l j : Nat) (r : Run) (s : State) (h : Memory.wf s.mem = true) : GenWf (readyRun l j r s) := by
  unfold readyRun
  refine bind_wf (suSpot_wf _ _ _ _ _ _ _ h) fun p s hs => genWf_ite (by simpa using hs) ?_
  split
  · exact hs
  · refine genWf_ite hs (genWf_ite hs ?_)
    split <;> have hr := readAway_keeps (by assumption) <;> simpa [hr] using hs

theorem writeRun_wf (l j : Nat) (r : Run) (s : State) (h : Memory.wf s.mem = true) : GenWf (writeRun l j r s) := by
  unfold writeRun
  refine bind_wf (suSpot_wf _ _ _ _ _ _ _ h) fun p s hs => ?_
  dsimp only
  split
  · exact writePBytes_wf _ _ (by split <;> simpa using hs)
  · rw [genWf_ok, rmwAdd_mem, streamOr_mem]
    exact writeAll_wf _ _ _ _ _ _ _ _ (by split <;> simpa using hs)

theorem writeRuns_wf (l j : Nat) (rs : List Run) (psn : Bool) (ls : List Nat) (s : State) (h : Memory.wf s.mem = true) :
    GenWf (writeRuns l j rs psn ls s) := by
  induction rs generalizing psn ls s with
  | nil => simpa [writeRuns] using h
  | cons r rs ih =>
    have hr := readyRun_wf l j r s h
    unfold writeRuns
    split <;> rename_i he <;> rw [he] at hr
    · simpa [GenWf] using hr
    · simpa [GenWf] using hr
    · simpa [GenWf] using hr
    · refine genWf_ite (by simpa [GenWf] using hr) ?_
      have hw := writeRun_wf l j r _ hr
      split <;> rename_i hx <;> rw [hx] at hw
      · exact ih _ _ _ (by simpa [GenWf] using hw)
      all_goals simpa [GenWf] using hw

theorem pieceRuns_wf (l j m : Nat) (pc : Piece) (cs : List Int) (s : State) (h : Memory.wf s.mem = true) :
    GenWf (pieceRuns l j m pc cs s) := by
  unfold pieceRuns
  refine bind_wf (placesOf_wf _ _ _ _ _ h) fun ps s hs => ?_
  refine bind_wf (all_wf (fun p s hs => ?_) _ hs) fun _ s hs => hs
  dsimp only
  split
  · exact hs
  · split
    · split <;> exact hs
    · exact hs

theorem drainSlot_wf (l j : Nat) (bs : List PByte) (n lin : Nat) (xs : List Index) (s : State) (h : Memory.wf s.mem = true) :
    GenWf (drainSlot l j bs n lin xs s) := by
  unfold drainSlot
  refine bind_wf (all_wf (fun i s hs => ?_) _ h) fun rs s hs => ?_
  · dsimp only
    split
    · exact hs
    · exact genWf_ite hs (pieceRuns_wf _ _ _ _ _ _ hs)
  · refine bind_wf (writeRuns_wf _ _ _ _ _ _ hs) fun ws s hs => ?_
    simpa using hs

/-! ### Machine/Streams.lean -/

@[simp] theorem speak_mem (s : State) (a1 : Nat) (a2 : Nat) : ((speak s a1 a2)).mem = s.mem := by
  rfl

@[simp] theorem objBanks_wf (g : State → Nat → Nat → State) (n : Nat) (s : State) (l off : Nat)
    (hg : ∀ s l off, Memory.wf s.mem = true → Memory.wf (g s l off).mem = true) (h : Memory.wf s.mem = true) :
    Memory.wf (objBanks g n s l off).mem = true := by
  unfold objBanks
  split
  · exact hg _ _ _ (by simpa using h)
  · simpa using h

@[simp] theorem streamTrapAt_wf (s : State) (l : Nat) (n : Nat)  (h : Memory.wf s.mem = true)
    : Memory.wf ((streamTrapAt s l n)).mem = true := by
  unfold streamTrapAt
  simp [h]

@[simp] theorem objWordIn_wf (a0 : Bool) (a1 : Guard) (a2 : List Reg) (a3 : Reg) (a4 : Nat) (a5 : Bool) (a6 : State → Nat →
    Nat → State) (s : State) (hf0 : ∀ y0 y1 y2, Memory.wf y0.mem = true → Memory.wf ((a6 y0 y1 y2)).mem = true)
    (h : Memory.wf s.mem = true) : OutWf (objWordIn a0 a1 a2 a3 a4 a5 a6 s) := by
  unfold objWordIn
  refine scalarWord_wf _ _ _ _ _ _ _ _ (fun s l _ hs => ?_) h
  dsimp only
  split
  · simp [hs]
  · split
    · exact hf0 _ _ _ hs
    · refine objBanks_wf _ _ _ _ _ (fun s l off hs => ?_) hs
      split
      · simpa using hs
      · exact hf0 _ _ _ (by simpa using hs)

@[simp] theorem objWord_wf (a0 : Guard) (a1 : Reg) (a2 : Nat) (a3 : Bool) (a4 : State → Nat → Nat → State) (s : State)
    (hf0 : ∀ y0 y1 y2, Memory.wf y0.mem = true → Memory.wf ((a4 y0 y1 y2)).mem = true) (h : Memory.wf s.mem = true)
    : OutWf (objWord a0 a1 a2 a3 a4 s) := by
  unfold objWord
  simp (contextual := true) [h, hf0]

@[simp] theorem withdrawFault_mem (s : State) (a1 : Nat) (a2 : Nat) : ((withdrawFault s a1 a2)).mem = s.mem := by
  rfl

@[simp] theorem closeStream_mem (s : State) (a1 : Nat) (a2 : Nat) : ((closeStream s a1 a2)).mem = s.mem := by
  rfl

@[simp] theorem startClose_mem (s : State) (l : Nat) (n : Nat)  : ((startClose s l n)).mem = s.mem := by
  rfl

@[simp] theorem setMpfmt_mem (s : State) (a1 : Nat) (a2 : Nat) (a3 : Nat) : ((setMpfmt s a1 a2 a3)).mem = s.mem := by
  rfl

@[simp] theorem openFmts_mem (s : State) (a1 : Nat) (a2 : BitVec 1024) : ((openFmts s a1 a2)).mem = s.mem := by
  unfold openFmts
  simp

@[simp] theorem streamWord_wf (a0 : Guard) (a1 : List Reg) (a2 : State → Nat → State) (s : State)
    (hf0 : ∀ y0 y1, Memory.wf y0.mem = true → Memory.wf ((a2 y0 y1)).mem = true) (h : Memory.wf s.mem = true)
    : OutWf (streamWord a0 a1 a2 s) := by
  unfold streamWord
  simp (contextual := true) [h, hf0]

@[simp] theorem execScfg_wf (a0 : Guard) (a1 : BitVec 4) (a2 : Reg) (s : State) (h : Memory.wf s.mem = true)
    : OutWf (execScfg a0 a1 a2 s) := by
  unfold execScfg
  simp (contextual := true) [h]

@[simp] theorem execSopen_wf (a0 : Guard) (a1 : BitVec 4) (s : State) (h : Memory.wf s.mem = true)
    : OutWf (execSopen a0 a1 s) := by
  unfold execSopen
  (try dsimp only)
  (repeat' split) <;> first | (simp [h]; done) | (apply scalarWord_wf <;> (first | exact h | (intros; (try dsimp only); (repeat' split) <;> (first | assumption | (simp [*]; done) | (simp [*]; done) | (simp_all (maxDischargeDepth := 40); done)))))

@[simp] theorem execSclose_wf (a0 : Guard) (a1 : BitVec 4) (s : State) (h : Memory.wf s.mem = true)
    : OutWf (execSclose a0 a1 s) := by
  unfold execSclose
  simp [h]

@[simp] theorem execSeos_wf (a0 : Guard) (a1 : BitVec 4) (s : State) (h : Memory.wf s.mem = true) : OutWf (execSeos a0 a1 s) := by
  unfold execSeos
  simp (contextual := true) [h]

@[simp] theorem execSmark_wf (a0 : Guard) (a1 : BitVec 4) (a2 : Reg) (s : State) (h : Memory.wf s.mem = true)
    : OutWf (execSmark a0 a1 a2 s) := by
  unfold execSmark
  simp (contextual := true) [h]

@[simp] theorem execSrewind_wf (a0 : Guard) (a1 : BitVec 4) (s : State) (h : Memory.wf s.mem = true)
    : OutWf (execSrewind a0 a1 s) := by
  unfold execSrewind
  simp (contextual := true) [h]

@[simp] theorem execSforkG_wf (a0 : Guard) (a1 : BitVec 4) (a2 : Port) (a3 : Reg) (s : State) (h : Memory.wf s.mem = true)
    : OutWf (execSforkG a0 a1 a2 a3 s) := by
  unfold execSforkG
  simp (contextual := true) [h]

@[simp] theorem execSforkT_wf (a0 : Guard) (a1 : BitVec 4) (a2 : Port) (s : State) (h : Memory.wf s.mem = true)
    : OutWf (execSforkT a0 a1 a2 s) := by
  unfold execSforkT
  simp (contextual := true) [h]

@[simp] theorem execSstat_wf (a0 : Guard) (a1 : BitVec 4) (a2 : Reg) (s : State) (h : Memory.wf s.mem = true)
    : OutWf (execSstat a0 a1 a2 s) := by
  unfold execSstat
  simp [h]

@[simp] theorem execSsave_wf (a0 : Guard) (a1 : BitVec 4) (a2 : Reg) (s : State) (h : Memory.wf s.mem = true)
    : OutWf (execSsave a0 a1 a2 s) := by
  unfold execSsave
  simp (contextual := true) [h]

@[simp] theorem execSrest_wf (a0 : Guard) (a1 : BitVec 4) (a2 : Reg) (s : State) (h : Memory.wf s.mem = true)
    : OutWf (execSrest a0 a1 a2 s) := by
  unfold execSrest
  (try dsimp only)
  (repeat' split) <;> first | (simp [h]; done) | (apply objWord_wf <;> (first | exact h | (intros; (try dsimp only); (repeat' split) <;> (first | assumption | (simp [*]; done) | (simp [*]; done) | (simp_all (maxDischargeDepth := 40); done)))))

@[simp] theorem execSwait_wf (a0 : Guard) (a1 : BitVec 4) (a2 : BitVec 2) (s : State) (h : Memory.wf s.mem = true)
    : OutWf (execSwait a0 a1 a2 s) := by
  unfold execSwait
  simp (contextual := true) [h]

@[simp] theorem execSbase_wf (a0 : Guard) (a1 : BitVec 4) (a2 : Reg) (s : State) (h : Memory.wf s.mem = true)
    : OutWf (execSbase a0 a1 a2 s) := by
  unfold execSbase
  (try dsimp only)
  (repeat' split) <;> first | (simp [h]; done) | (apply streamWord_wf <;> (first | exact h | (intros; (try dsimp only); (repeat' split) <;> (first | assumption | (simp [*]; done) | (simp [*]; done) | (simp_all (maxDischargeDepth := 40); done)))))

@[simp] theorem execRcfg_wf (a0 : Guard) (a1 : Port) (a2 : Reg) (s : State) (h : Memory.wf s.mem = true)
    : OutWf (execRcfg a0 a1 a2 s) := by
  unfold execRcfg
  (try dsimp only)
  (repeat' split) <;> first | (simp [h]; done) | (apply apWord_wf <;> (first | exact h | (intros; (try dsimp only); (repeat' split) <;> (first | assumption | (simp [*]; done) | (simp [*]; done) | (simp_all (maxDischargeDepth := 40); done)))))

@[simp] theorem execRhead_wf (a0 : Guard) (a1 : Port) (a2 : Reg) (s : State) (h : Memory.wf s.mem = true)
    : OutWf (execRhead a0 a1 a2 s) := by
  unfold execRhead
  simp [h]

@[simp] theorem execRtail_wf (a0 : Guard) (a1 : Port) (a2 : Reg) (s : State) (h : Memory.wf s.mem = true)
    : OutWf (execRtail a0 a1 a2 s) := by
  unfold execRtail
  simp [h]

@[simp] theorem execRpop_wf (a0 : Guard) (a1 : Port) (a2 : Reg) (s : State) (h : Memory.wf s.mem = true)
    : OutWf (execRpop a0 a1 a2 s) := by
  unfold execRpop
  simp (contextual := true) [h]

@[simp] theorem execRpush_wf (k : Guard) (q : Port) (a : Reg) (s : State) (h : Memory.wf s.mem = true) :
    OutWf (execRpush k q a s) := by
  unfold execRpush
  refine apWord_wf _ _ _ _ _ (fun s l hs => ?_) h
  dsimp only
  (repeat' split) <;> simp [hs]

@[simp] theorem execRwait_wf (a0 : Guard) (a1 : Port) (a2 : BitVec 2) (s : State) (h : Memory.wf s.mem = true)
    : OutWf (execRwait a0 a1 a2 s) := by
  unfold execRwait
  simp (contextual := true) [h]

/-! ### Machine/StreamEvents.lean -/

theorem nextSlot_wf (l n : Nat) (s : State) (h : Memory.wf s.mem = true) : GenWf (nextSlot s l n) := by
  unfold nextSlot
  dsimp only
  split
  · exact h
  · exact genSlot_wf _ _ _ _ _ h

@[simp] theorem pushOwed_mem (s : State) (a1 : Nat) (a2 : Nat) : ((pushOwed s a1 a2)).mem = s.mem := by
  unfold pushOwed
  simp

@[simp] theorem oweToken_mem (s : State) (a1 : Nat) (a2 : Nat) : ((oweToken s a1 a2)).mem = s.mem := by
  unfold oweToken
  simp

@[simp] theorem enterDone_mem (s : State) (a1 : Nat) (a2 : Nat) : ((enterDone s a1 a2)).mem = s.mem := by
  unfold enterDone
  simp

@[simp] theorem slotDone_mem (s : State) (a1 : Nat) (a2 : Nat) (a3 : Nat) (a4 : Bool) (a5 : Acf) (a6 : Vector (BitVec 32) 5)
    : ((slotDone s a1 a2 a3 a4 a5 a6)).mem = s.mem := by
  unfold slotDone
  simp

@[simp] theorem streamFault_mem (s : State) (a1 : Nat) (a2 : Nat) (a3 : FInfo) (a4 : Word) (a5 : AKind)
    : ((streamFault s a1 a2 a3 a4 a5)).mem = s.mem := by
  unfold streamFault
  simp

@[simp] theorem execStreamStart_wf (a0 : CoreNum) (a1 : BitVec 4) (s : State) (h : Memory.wf s.mem = true)
    : OutWf (execStreamStart a0 a1 s) := by
  unfold execStreamStart
  simp [h]

@[simp] theorem freeIdxSlot_mem (s : State) (a1 : Nat) (a2 : Nat) : ((freeIdxSlot s a1 a2)).mem = s.mem := by
  unfold freeIdxSlot
  simp

@[simp] theorem suWait_mem (s : State) (l j : Nat) (rs : List (Nat × Nat)) : (suWait s l j rs).mem = s.mem := by
  simp [suWait]

@[simp] theorem freeIdx_mem (s : State) (a1 : Nat) (a2 : Nat) (a3 : BitVec 1024) (a4 : Nat) (a5 : Nat)
    : ((freeIdx s a1 a2 a3 a4 a5)).mem = s.mem := by
  unfold freeIdx
  simp

@[simp] theorem execStreamSlotCommit_wf (l : CoreNum) (n : BitVec 4) (s : State) (h : Memory.wf s.mem = true) :
    OutWf (execStreamSlotCommit l n s) := by
  have hc : ∀ (xs : List Nat) (bs : List PByte) (s : State), Memory.wf s.mem = true →
      Memory.wf (xs.foldl (fun s q => commitSlot s l.toNat q bs) s).mem = true :=
    fun xs bs s hs => foldl_wf _ (fun s q hs => commitSlot_wf _ _ _ _ hs) _ hs
  unfold execStreamSlotCommit
  simp only [outWf_next]
  have h1 : Memory.wf (if suRuns s l.toNat then pushOwed s l.toNat n.toNat else s).mem = true := by split <;> simp [h]
  generalize (if suRuns s l.toNat then pushOwed s l.toNat n.toNat else s) = s1 at h1
  split
  · exact h1
  · split
    · simp [h1]
    · split
      · simp [h1]
      · have hn := nextSlot_wf l.toNat n.toNat s1 h1
        split <;> rename_i he <;> rw [he] at hn
        · simpa using hn
        · simpa using hn
        · simpa using hn
        · simpa using hn
        · split
          · simpa using hn
          · repeat' split
            all_goals simp [hc _ _ _ (show Memory.wf (useBanks _ _ _ _).mem = true by simpa using hn)]

@[simp] theorem putBoff_wf (s : State) (a1 : Nat) (a2 : Nat) (h : Memory.wf s.mem = true)
    : Memory.wf ((putBoff s a1 a2)).mem = true := by
  unfold putBoff
  exact foldl_wf _ (fun s q hs => commitBoff_wf _ _ _ _ hs) _ (by simpa using h)

@[simp] theorem execBindOffCommit_wf (a0 : CoreNum) (a1 : BitVec 4) (s : State) (h : Memory.wf s.mem = true)
    : OutWf (execBindOffCommit a0 a1 s) := by
  unfold execBindOffCommit
  simp only [outWf_next]
  have h1 : Memory.wf (if suRuns s a0.toNat then pushOwed s a0.toNat a1.toNat else s).mem = true := by split <;> simp [h]
  generalize (if suRuns s a0.toNat then pushOwed s a0.toNat a1.toNat else s) = s1 at h1
  repeat' split
  all_goals simp [h1]

@[simp] theorem freeBoff_mem (s : State) (a1 : Nat) (a2 : Nat) : ((freeBoff s a1 a2)).mem = s.mem := by
  unfold freeBoff
  simp

@[simp] theorem drainDone_mem (s : State) (c j : Nat) (p : Nat × List Index × Bool) (oob : Bool) :
    (drainDone s c j p oob).mem = s.mem := by
  unfold drainDone
  dsimp only
  (repeat' split) <;> simp

@[simp] theorem execStreamSlotDrain_wf (l : CoreNum) (n : BitVec 4) (s : State) (h : Memory.wf s.mem = true) :
    OutWf (execStreamSlotDrain l n s) := by
  unfold execStreamSlotDrain
  simp only [outWf_next]
  have h1 : Memory.wf (if suRuns s l.toNat then pushOwed s l.toNat n.toNat else s).mem = true := by split <;> simp [h]
  generalize (if suRuns s l.toNat then pushOwed s l.toNat n.toNat else s) = s1 at h1
  split
  · exact h1
  · split
    · split <;> simp [h1]
    · split
      · exact h1
      · split
        · split <;> simp [h1]
        · split
          · exact h1
          · rename_i p _
            split
            · split <;> simp [h1]
            · split
              · simpa using h1
              · split <;> rename_i he <;> have h3 := genWf_eq he (drainSlot_wf _ _ _ _ _ _ _ (by split <;> simpa using h1)) <;>
                  simp only [genWf_ok, genWf_wait, genWf_hold, genWf_bad] at h3
                · simpa using h3
                · simpa using h3
                · simpa using h3
                · repeat' split
                  all_goals simp [h3]

@[simp] theorem execRemoteSlotTransfer_wf (l : CoreNum) (n : BitVec 4) (s : State) (h : Memory.wf s.mem = true) :
    OutWf (execRemoteSlotTransfer l n s) := by
  unfold execRemoteSlotTransfer
  simp only [outWf_next]
  have h1 : Memory.wf (if suRuns s l.toNat then pushOwed s l.toNat n.toNat else s).mem = true := by split <;> simp [h]
  generalize (if suRuns s l.toNat then pushOwed s l.toNat n.toNat else s) = s1 at h1
  repeat' split
  all_goals simp [h1]

@[simp] theorem prefetch_wf (s : State) (l n : Nat) (h : Memory.wf s.mem = true) : Memory.wf (prefetch s l n).mem = true := by
  unfold prefetch
  dsimp only
  (repeat' split) <;> first
    | exact h
    | (rename_i he; have h3 := genWf_eq he (genSlot_wf _ _ _ _ _ h); exact h3)
    | (rename_i he _; have h3 := genWf_eq he (genSlot_wf _ _ _ _ _ h); exact h3)

@[simp] theorem streamNextPage_mem (s : State) (a1 : Nat) (a2 : Nat) : ((streamNextPage s a1 a2)).mem = s.mem := by
  unfold streamNextPage
  dsimp only
  (repeat' split) <;> rfl

/-! ### Machine/Copy.lean -/

/-- Where a step of the CE is not refused, its state has its memory in canonical form. -/
def OptGenWf {α : Type} : Option (Gen α) → Prop
  | some g => GenWf g
  | none => True

theorem optGenWf_eq {α : Type} {o o' : Option (Gen α)} (he : o = o') (h : OptGenWf o) : OptGenWf o' := he ▸ h

theorem ceSpot_wf (l : Nat) (ea : Word) (n : Nat) (k : AKind) (s : State) (h : Memory.wf s.mem = true) :
    OptGenWf (ceSpot l ea n k s) := by
  unfold ceSpot
  split
  · exact h
  · repeat' split
    all_goals first | exact h | trivial
  · rename_i va key hc
    split
    · exact h
    · have hr := spotOf_wf s (getCore s l).ceTlb 2 l n k key va h
      dsimp only [OptGenWf]
      split <;> rename_i he <;> rw [he] at hr <;> exact hr

theorem optGen_map_wf {α β : Type} {o : Option (Gen α)} (h : OptGenWf o) (f : α → State → Gen β)
    (hf : ∀ a s, Memory.wf s.mem = true → GenWf (f a s)) : OptGenWf (o.map fun g => g.bind f) := by
  cases o with
  | none => trivial
  | some g => exact bind_wf h hf

@[simp] theorem copyWord_wf (a0 : Guard) (a1 : List Reg) (a2 : Reg) (a3 : Bool) (a4 : Option Reg) (a5 : State → Nat → State)
    (s : State) (hf0 : ∀ y0 y1, Memory.wf y0.mem = true → Memory.wf ((a5 y0 y1)).mem = true) (h : Memory.wf s.mem = true)
    : OutWf (copyWord a0 a1 a2 a3 a4 a5 s) := by
  unfold copyWord
  (try dsimp only)
  (repeat' split) <;> first | (simp [h]; done) | (apply objWordIn_wf <;> (first | exact h | (intros; (try dsimp only); (repeat' split) <;> (first | assumption | (simp [*]; done) | (simp [*]; done) | (simp_all (maxDischargeDepth := 40); done)))))

@[simp] theorem execCopy_wf (a0 : Guard) (a1 : Reg) (s : State) (h : Memory.wf s.mem = true) : OutWf (execCopy a0 a1 s) := by
  unfold execCopy
  simp [h]

@[simp] theorem execWsload_wf (a0 : Guard) (a1 : Reg) (s : State) (h : Memory.wf s.mem = true) : OutWf (execWsload a0 a1 s) := by
  unfold execWsload
  simp [h]

@[simp] theorem execCopyw_wf (a0 : Guard) (a1 : Reg) (a2 : Reg) (s : State) (h : Memory.wf s.mem = true)
    : OutWf (execCopyw a0 a1 a2 s) := by
  unfold execCopyw
  split <;> simp [h]

@[simp] theorem modXfer_mem (s : State) (a1 : Nat) (a2 : Xfer → Xfer) : ((modXfer s a1 a2)).mem = s.mem := by
  rfl

@[simp] theorem execCopyTransferStart_wf (a0 : CoreNum) (s : State) (h : Memory.wf s.mem = true)
    : OutWf (execCopyTransferStart a0 s) := by
  unfold execCopyTransferStart
  dsimp only
  (repeat' split) <;> exact h

@[simp] theorem ceFault_mem (s : State) (a1 : Nat) (a2 : FInfo) (a3 : Word) (a4 : AKind)
    : ((ceFault s a1 a2 a3 a4)).mem = s.mem := by
  unfold ceFault
  simp

theorem ceGo_wf (s : State) (l : Nat) (k : AKind) (g : Option (Gen Spot)) (go : Spot → State → State) (h : Memory.wf s.mem = true)
    (hg : OptGenWf g) (hgo : ∀ p s, Memory.wf s.mem = true → Memory.wf (go p s).mem = true) : Memory.wf (ceGo s l k g go).mem = true := by
  unfold ceGo
  split
  · simpa using h
  · exact hg
  · exact hg
  · simpa using (show Memory.wf _ = true from hg)
  · exact hgo _ _ hg

@[simp] theorem ceHold_mem (s : State) (l : Nat) (p : Spot) : (ceHold s l p).mem = s.mem := by
  cases p <;> simp [ceHold]

@[simp] theorem ceUse_mem (s : State) (l : Nat) (p : Spot) : (ceUse s l p).mem = s.mem := by
  cases p <;> simp [ceUse]

@[simp] theorem ceGroup_wf (s : State) (l : Nat) (x : Xfer) (h : Memory.wf s.mem = true) : Memory.wf (ceGroup s l x).mem = true := by
  unfold ceGroup
  refine ceGo_wf _ _ _ _ _ h (ceSpot_wf _ _ _ _ _ h) fun p s hs => ?_
  dsimp only
  split
  · simp [hs]
  · split
    · simp [hs]
    · split
      · simp [hs]
      · split
        · exact hs
        · split <;> simp [writeAll_wf, hs]

@[simp] theorem ceRead_wf (s : State) (l : Nat) (x : Xfer) (h : Memory.wf s.mem = true) : Memory.wf (ceRead s l x).mem = true := by
  unfold ceRead
  refine ceGo_wf _ _ _ _ _ h (ceSpot_wf _ _ _ _ _ h) fun p s hs => ?_
  dsimp only
  split
  · simp [hs]
  · split
    · split <;> simp [hs]
    · split <;> have hr := readAway_keeps (by assumption)
      · simp [hr, hs]
      · split <;> simp [hr, hs]

@[simp] theorem ceUnit_wf (s : State) (l : Nat) (h : Memory.wf s.mem = true) : Memory.wf (ceUnit s l).mem = true := by
  unfold ceUnit
  (repeat' split) <;> simp [h]

@[simp] theorem ceLeave_mem (s : State) (a1 : Nat) : ((ceLeave s a1)).mem = s.mem := by
  unfold ceLeave
  (repeat' split) <;> simp

@[simp] theorem execCopyTransferComplete_wf (l : CoreNum) (s : State) (h : Memory.wf s.mem = true) :
    OutWf (execCopyTransferComplete l s) := by
  unfold execCopyTransferComplete
  simp only [outWf_next]
  split
  · exact h
  · split
    · exact h
    · split
      · simp [h]
      · rename_i x xs _ _ _
        have h1 : Memory.wf (iter (fun s => ceUnit s l.toNat) ((x.len - x.pos + 63) / 64 + (x.len - x.wpos) / 8 + 2) s).mem = true :=
          iter_wf _ (fun s hs => ceUnit_wf _ _ hs) _ h
        split
        · exact h1
        · split
          · split <;> simp [h1]
          · exact h1

end Sys2Proof.Machine
end

