-- ==== Sys2Proof/Laws/KeepRecords.lean ====
section
/-! SUPPORT. The memory keeps its canonical form: task records, episodes and barriers. -/

namespace Sys2Proof.Machine

/-! ### Machine/Records.lean -/

theorem apSpot_wf (s : State) (l : Nat) (ea : Word) (n : Nat) (k : AKind) (h : Memory.wf s.mem = true) :
    GenWf (apSpot s l ea n k) := by
  unfold apSpot
  split
  · exact h
  · split <;> exact h
  · rename_i va key hc
    split
    · exact h
    · have hr := spotOf_wf s (getCore s l).apTlb 64 l n k key va h
      dsimp only
      split <;> rename_i he <;> rw [he] at hr <;> exact hr

theorem spotNat_wf (s : State) (l : Nat) (ea : Word) (p : Spot) (h : Memory.wf s.mem = true) : GenWf (spotNat s l ea p) := by
  unfold spotNat
  dsimp only
  split
  · exact genWf_ite (genWf_ite (by simp [h]) (by simp [h])) (by simp [h])
  · rename_i ps
    have hr := readAway_mem s l .ap 0 (ea.toNat / 2 ^ 60) 0xF ps
    split <;> rename_i he <;> rw [he] at hr <;> dsimp only at hr
    · simp [hr, h]
    · exact genWf_ite (by simp [hr, h]) (by simp [hr, h])

theorem joinAmo_wf (s : State) (l : Nat) (ja : Word) (d : Int) (h : Memory.wf s.mem = true) : GenWf (joinAmo s l ja d) := by
  unfold joinAmo
  split
  · exact h
  · split
    · exact h
    · refine bind_wf (apSpot_wf _ _ _ _ _ h) fun p s hs => ?_
      split
      · exact hs
      · rename_i q _
        dsimp only
        refine genWf_ite hs (genWf_ite ?_ (bind_wf (spotNat_wf _ _ _ _ hs) fun x s hs => by simp [hs]))
        have hr := askFar_mem s l .ap 0 (.amo 3 0) (BitVec.ofInt 64 d) (ja.toNat / 2 ^ 60) 0xF q
        split <;> rename_i he <;> rw [he] at hr <;> dsimp only at hr <;> simp [hr, hs]

@[simp] theorem termTakes_mem (s : State) (a1 : BitVec 16) (a2 : Nat) : ((termTakes s a1 a2)).mem = s.mem := by
  rfl

@[simp] theorem detAdd_mem (s : State) (a1 : BitVec 16) (a2 : Int) (a3 : Int) : ((detAdd s a1 a2 a3)).mem = s.mem := by
  unfold detAdd
  dsimp only
  (repeat' split) <;> rfl

@[simp] theorem groupBegins_mem (s : State) (a1 : BitVec 16) (a2 : Word) : ((groupBegins s a1 a2)).mem = s.mem := by
  rfl

@[simp] theorem groupEnds_mem (s : State) (a1 : BitVec 16) (a2 : Word) : ((groupEnds s a1 a2)).mem = s.mem := by
  unfold groupEnds
  (repeat' split) <;> rfl

@[simp] theorem orderTaken_mem (s : State) : ((orderTaken s)).mem = s.mem := by
  rfl

@[simp] theorem pushRec_mem (s : State) (a1 : Nat) (a2 : Rec) (a3 : BitVec 16) (a4 : Nat)
    : ((pushRec s a1 a2 a3 a4)).mem = s.mem := by
  rfl

@[simp] theorem cqPut_mem (s : State) (a1 : Word) (a2 : Nat) (a3 : Nat) (a4 : Nat) : ((cqPut s a1 a2 a3 a4)).mem = s.mem := by
  rfl

@[simp] theorem waitOverflow_mem (s : State) (a1 : Nat) (a2 : BitVec 16) : ((waitOverflow s a1 a2)).mem = s.mem := by
  unfold waitOverflow
  simp

@[simp] theorem parkRec_mem (s : State) (a1 : Nat) (a2 : QRec) : ((parkRec s a1 a2)).mem = s.mem := by
  rfl

@[simp] theorem refillWaits_mem (s : State) (a1 : Nat) : ((refillWaits s a1)).mem = s.mem := by
  rfl

@[simp] theorem placeParked_mem (s : State) (a1 : Nat) (a2 : QRec) : ((placeParked s a1 a2)).mem = s.mem := by
  unfold placeParked
  simp

@[simp] theorem execRecordExamine_wf (a0 : CoreNum) (s : State) (h : Memory.wf s.mem = true)
    : OutWf (execRecordExamine a0 s) := by
  unfold execRecordExamine
  dsimp only
  (repeat' split) <;> simp [h]

@[simp] theorem afterDevice_mem (a0 : State → Nat → Nat → State) (s : State) (a2 : Nat) (a3 : Nat)
    (hf0 : ∀ y0 y1 y2, ((a0 y0 y1 y2)).mem = y0.mem) : ((afterDevice a0 s a2 a3)).mem = s.mem := by
  unfold afterDevice
  simp [hf0]

theorem afterDevice_wf {body : State → Nat → Nat → State}
    (hb : ∀ s l off, Memory.wf s.mem = true → Memory.wf (body s l off).mem = true) (s : State) (l off : Nat)
    (h : Memory.wf s.mem = true) : Memory.wf (afterDevice body s l off).mem = true := by
  unfold afterDevice
  split
  · exact hb _ _ _ h
  · simp [h]

@[simp] theorem freePlace_mem (s : State) (a1 : Nat) (a2 : Nat) : ((freePlace s a1 a2)).mem = s.mem := by
  rfl

@[simp] theorem holdPlace_mem (s : State) (a1 : Nat) (a2 : Nat) : ((holdPlace s a1 a2)).mem = s.mem := by
  rfl

@[simp] theorem execSpawn_wf (k : Guard) (d a : Reg) (s : State) (h : Memory.wf s.mem = true) : OutWf (execSpawn k d a s) := by
  unfold execSpawn
  refine objWordIn_wf _ _ _ _ _ _ _ _ (afterDevice_wf fun s l off hs => ?_) h
  dsimp only
  repeat' split
  all_goals first
    | (simp [hs]; done)
    | (rename_i he; have h1 := genWf_eq he (joinAmo_wf _ _ _ _ (by simpa using hs)); simp only [genWf_ok, genWf_wait, genWf_hold, genWf_bad] at h1; simp [h1])

@[simp] theorem setEnd_mem (s : State) (a1 : Nat) (a2 : EndKind) : ((setEnd s a1 a2)).mem = s.mem := by
  rfl

@[simp] theorem endRecord_mem (s : State) (a1 : Nat) (a2 : EndKind) : ((endRecord s a1 a2)).mem = s.mem := by
  unfold endRecord
  simp

@[simp] theorem execExit_wf (a0 : Guard) (s : State) (h : Memory.wf s.mem = true) : OutWf (execExit a0 s) := by
  unfold execExit
  simp [h]

@[simp] theorem execJoin_wf (k : Guard) (a b : Reg) (s : State) (h : Memory.wf s.mem = true) : OutWf (execJoin k a b s) := by
  unfold execJoin
  refine objWordIn_wf _ _ _ _ _ _ _ _ (afterDevice_wf fun s l off hs => ?_) h
  dsimp only
  repeat' split
  all_goals simp [hs]

@[simp] theorem execPark_wf (k : Guard) (a : Reg) (s : State) (h : Memory.wf s.mem = true) : OutWf (execPark k a s) := by
  unfold execPark
  refine objWordIn_wf _ _ _ _ _ _ _ _ (afterDevice_wf fun s l off hs => ?_) h
  dsimp only
  repeat' split
  all_goals simp [hs]

@[simp] theorem pollFailed_mem (s : State) (a1 a2 a3 : Nat) : ((pollFailed s a1 a2 a3)).mem = s.mem := by
  unfold pollFailed
  dsimp only
  (repeat' split) <;> simp

@[simp] theorem execWaitf_wf (k : Guard) (d a b : Reg) (s : State) (h : Memory.wf s.mem = true)
    : OutWf (execWaitf k d a b s) := by
  unfold execWaitf
  refine apWord_wf _ _ _ _ _ (fun s l hs => ?_) h
  generalize (match (getCore s l).apWait with | .polling n => n | _ => 0) = n
  dsimp only
  split
  · simp [hs]
  · split
    · simp [hs]
    · have hp : GenWf ((apSpot s l (rreg s l .ap a) 8 .read).bind fun p t =>
          (spotNat t l (rreg s l .ap a) p).bind fun x t => (.ok (p, x) t : Gen (Spot × Nat))) :=
        bind_wf (apSpot_wf _ _ _ _ _ hs) fun p s hs => bind_wf (spotNat_wf _ _ _ _ hs) fun x s hs => hs
      split <;> rename_i he <;> rw [he] at hp <;> simp only [genWf_ok, genWf_wait, genWf_hold, genWf_bad] at hp
      · simp [hp]
      · simp [hp]
      · simp [hp]
      · split <;> simp [hp]

@[simp] theorem modDie_mem (s : State) (a1 : Nat) (a2 : Die → Die) : ((modDie s a1 a2)).mem = s.mem := by
  rfl

@[simp] theorem setList_mem (s : State) (a1 : Nat) (a2 : Nat) (a3 : List Word) : ((setList s a1 a2 a3)).mem = s.mem := by
  rfl

@[simp] theorem listWord_wf (a0 : Guard) (a1 : List Reg) (a2 : Reg) (a3 : State → Nat → Launch → Nat × Nat → State)
    (s : State) (hf0 : ∀ y0 y1 y2 y3, Memory.wf y0.mem = true → Memory.wf ((a3 y0 y1 y2 y3)).mem = true)
    (h : Memory.wf s.mem = true) : OutWf (listWord a0 a1 a2 a3 s) := by
  unfold listWord
  (try dsimp only)
  (repeat' split) <;> first | (apply apWord_wf <;> (first | exact h | (intros; (try dsimp only); (repeat' split) <;> (first | assumption | (simp [*]; done) | (simp [*]; done) | (simp_all (maxDischargeDepth := 40); done)))))

@[simp] theorem execAppend_wf (a0 : Guard) (a1 : Reg) (a2 : Reg) (a3 : Reg) (s : State) (h : Memory.wf s.mem = true)
    : OutWf (execAppend a0 a1 a2 a3 s) := by
  unfold execAppend
  simp [h]

@[simp] theorem setTakers_mem (s : State) (a1 : Nat) (a2 : Nat) (a3 : List Nat) : ((setTakers s a1 a2 a3)).mem = s.mem := by
  rfl

@[simp] theorem setInTake_mem (s : State) (a1 : Nat) (a2 : Bool) : ((setInTake s a1 a2)).mem = s.mem := by
  rfl

@[simp] theorem execTake_wf (a0 : Guard) (a1 : Reg) (a2 : Reg) (s : State) (h : Memory.wf s.mem = true)
    : OutWf (execTake a0 a1 a2 s) := by
  unfold execTake
  (try dsimp only)
  (repeat' split) <;> first | (apply listWord_wf <;> (first | exact h | (intros; (try dsimp only); (repeat' split) <;> (first | assumption | (simp [*]; done) | (simp [*]; done) | (simp_all (maxDischargeDepth := 40); done)))))

@[simp] theorem execQuiet_wf (a0 : Guard) (a1 : Reg) (s : State) (h : Memory.wf s.mem = true) : OutWf (execQuiet a0 a1 s) := by
  unfold execQuiet
  simp [h]

/-! ### Machine/Episode.lean -/

@[simp] theorem modCtx_mem (s : State) (a1 : Nat) (a2 : Ctx → Ctx) : ((modCtx s a1 a2)).mem = s.mem := by
  rfl

@[simp] theorem modEp_mem (s : State) (a1 : Nat) (a2 : EpCore → EpCore) : ((modEp s a1 a2)).mem = s.mem := by
  rfl

@[simp] theorem dropReports_mem (s : State) (a1 : Nat) : ((dropReports s a1)).mem = s.mem := by
  rfl

@[simp] theorem endEpisode_mem (s : State) (a1 : Nat) (a2 : BitVec 32) (a3 : BitVec 16) (a4 : Nat) (a5 : Nat)
    : ((endEpisode s a1 a2 a3 a4 a5)).mem = s.mem := by
  rfl

@[simp] theorem unbindCtx_mem (s : State) (a1 : Nat) : ((unbindCtx s a1)).mem = s.mem := by
  rfl

@[simp] theorem ctxLaunchEnds_mem (s : State) (a1 : Nat) : ((ctxLaunchEnds s a1)).mem = s.mem := by
  unfold ctxLaunchEnds
  dsimp only
  (repeat' split) <;> rfl

@[simp] theorem episodesEnd_mem (s : State) (a1 : BitVec 16) : ((episodesEnd s a1)).mem = s.mem := by
  unfold episodesEnd
  simp

@[simp] theorem takePhase_mem (s : State) (a1 : Nat) (a2 : Nat) : ((takePhase s a1 a2)).mem = s.mem := by
  rfl

@[simp] theorem testStep_mem (s : State) (a1 : Nat) : ((testStep s a1)).mem = s.mem := by
  unfold testStep
  simp

@[simp] theorem testBudget_mem (s : State) (a1 : Nat) : ((testBudget s a1)).mem = s.mem := by
  unfold testBudget
  simp

@[simp] theorem testTimers_mem (s : State) (a1 : Nat) : ((testTimers s a1)).mem = s.mem := by
  unfold testTimers
  simp

@[simp] theorem examineOne_mem (s : State) (a1 : Nat) (a2 : Nat) : ((examineOne s a1 a2)).mem = s.mem := by
  unfold examineOne
  dsimp only
  (repeat' split) <;> rfl

@[simp] theorem examineNext_mem (s : State) (a1 : Nat) : ((examineNext s a1)).mem = s.mem := by
  unfold examineNext
  dsimp only
  (repeat' split) <;> simp

/-! ### Machine/Barriers.lean -/

@[simp] theorem barSet_wf (s : State) (a1 : Nat) (a2 : Nat) (a3 : Nat) (a4 : BitVec 32) (h : Memory.wf s.mem = true)
    : Memory.wf ((barSet s a1 a2 a3 a4)).mem = true := by
  unfold barSet
  simp [h]

@[simp] theorem tellWaiter_mem (s : State) (a1 : Waiter) (a2 : ApWait) : ((tellWaiter s a1 a2)).mem = s.mem := by
  rfl

@[simp] theorem lookWaiter_mem (s : State) (a1 : Nat) (a2 : Waiter) : ((lookWaiter s a1 a2)).mem = s.mem := by
  unfold lookWaiter
  split <;> rfl

@[simp] theorem notifyBar_mem (s : State) (a1 : Nat) (a2 : Nat) : ((notifyBar s a1 a2)).mem = s.mem := by
  unfold notifyBar
  simp

@[simp] theorem flips_wf (home n f : Nat) (s : State) (h : Memory.wf s.mem = true)
    : Memory.wf (flips home n f s).1.mem = true := by
  induction f generalizing s with
  | zero => exact h
  | succ f ih =>
    unfold flips
    dsimp only
    split
    · exact h
    · simp only [notifyBar_mem]
      exact ih _ (by simp (maxDischargeDepth := 10) only [trace_mem, barSet_wf, h])

theorem arrive_wf {s : State} {home n : Nat} {p st : BitVec 32} (h : Memory.wf s.mem = true) {t : State × Bool}
    (ht : arrive s home n p st = some t) : Memory.wf t.1.mem = true := by
  revert ht
  unfold arrive
  dsimp only
  repeat' split
  all_goals intro ht
  · rw [← Option.some.inj ht]; exact flips_wf _ _ _ _ (barSet_wf _ _ _ _ _ (barSet_wf _ _ _ _ _ h))
  · rw [← Option.some.inj ht]; exact flips_wf _ _ _ _ (barSet_wf _ _ _ _ _ (barSet_wf _ _ _ _ _ h))
  · contradiction

@[simp] theorem register_mem (s : State) (a1 : Nat) (a2 : Nat) (a3 : Bool) (a4 : Nat) (a5 : BitVec 32)
    : ((register s a1 a2 a3 a4 a5)).mem = s.mem := by
  rfl

@[simp] theorem barTouch_mem (s : State) (a1 : Nat) (a2 : Nat) : ((barTouch s a1 a2)).mem = s.mem := by
  unfold barTouch
  simp

@[simp] theorem homeHold_mem (s : State) (a1 : Nat) (a2 : Nat) (a3 : Nat) : ((homeHold s a1 a2 a3)).mem = s.mem := by
  unfold homeHold
  split <;> simp

@[simp] theorem msgHold_mem (s : State) (a1 : BarMsg) : ((msgHold s a1)).mem = s.mem := by
  unfold msgHold
  (repeat' split) <;> simp

@[simp] theorem barAct_wf (s : State) (home n core fn : Nat) (b : Word) (h : Memory.wf s.mem = true) :
    Memory.wf (barAct s home n core fn b).1.mem = true := by
  unfold barAct
  dsimp only
  have h1 : Memory.wf (if fn = 0 then s else barTouch s home n).mem = true := by split <;> simp [h]
  split
  · exact h
  · revert h1
    generalize (if fn = 0 then s else barTouch s home n) = t
    intro h
    split
    · split
      · exact h
      · exact barSet_wf _ _ _ _ _ (writeBytes_wf _ _ h)
    · split
      · rename_i he; exact arrive_wf h he
      · exact h
    · exact h
    · split
      · exact h
      · split <;> simp [h]

@[simp] theorem takeTurn_mem (s : State) (a1 a2 a3 : Nat) : ((takeTurn s a1 a2 a3)).mem = s.mem := by
  rfl

@[simp] theorem barWord_wf (fn : Nat) (k : Guard) (d a b : Reg) (s : State) (h : Memory.wf s.mem = true) :
    OutWf (barWord fn k d a b s) := by
  unfold barWord
  refine apWord_wf _ _ _ _ _ (fun s l hs => ?_) h
  dsimp only
  generalize (getCore s l).apWait = m
  cases m <;> dsimp only
  case got v ps => split <;> simp [hs]
  case refused c ps => split <;> simp [hs]
  case barrier => simp [hs]
  case remote => simp [hs]
  all_goals
    split
    · simp [hs]
    · rename_i home n _
      split
      · simp [hs]
      · split
        · simp [hs]
        · split
          · simp [hs]
          · split
            · simp [hs]
            · split
              · simp [hs]
              · have h1 := barAct_wf (takeTurn s l n 1) home n l fn (rreg s l .ap b) (by simpa using hs)
                split <;> rename_i he <;> rw [he] at h1 <;> dsimp only at h1
                · split <;> simp [h1]
                · split <;> simp [h1]
                · simp [h1]

@[simp] theorem execBarinit_wf (a0 : Guard) (a1 : Reg) (a2 : Reg) (s : State) (h : Memory.wf s.mem = true)
    : OutWf (execBarinit a0 a1 a2 s) := by
  unfold execBarinit
  simp [h]

@[simp] theorem execBararr_wf (a0 : Guard) (a1 : Reg) (a2 : Reg) (a3 : Reg) (s : State) (h : Memory.wf s.mem = true)
    : OutWf (execBararr a0 a1 a2 a3 s) := by
  unfold execBararr
  simp [h]

@[simp] theorem execBarwait_wf (a0 : Guard) (a1 : Reg) (a2 : Reg) (a3 : Reg) (s : State) (h : Memory.wf s.mem = true)
    : OutWf (execBarwait a0 a1 a2 a3 s) := by
  unfold execBarwait
  simp [h]

@[simp] theorem execBarstat_wf (a0 : Guard) (a1 : Reg) (a2 : Reg) (s : State) (h : Memory.wf s.mem = true)
    : OutWf (execBarstat a0 a1 a2 s) := by
  unfold execBarstat
  simp [h]

@[simp] theorem c3Fault_mem (s : State) (a1 : Nat) (a2 : BitVec 16) (a3 a4 : Nat) : ((c3Fault s a1 a2 a3 a4)).mem = s.mem := by
  unfold c3Fault
  simp

@[simp] theorem arriveC3_wf (s : State) (core : Nat) (lid : BitVec 16) (home n : Nat) (pc : Word) (word : BitVec 192)
    (p st : BitVec 32) (h : Memory.wf s.mem = true) : Memory.wf (arriveC3 s core lid home n pc word p st).mem = true := by
  unfold arriveC3
  split
  · simp [h]
  · split
    · simp [h]
    · split
      · simp [h]
      · split
        · rename_i he; exact arrive_wf (by simpa using h) he
        · exact h

@[simp] theorem c3Arrive_wf (s : State) (a1 : Nat) (a2 : Nat) (a3 : Word) (a4 : BitVec 192) (a5 : BitVec 32)
    (h : Memory.wf s.mem = true) : Memory.wf ((c3Arrive s a1 a2 a3 a4 a5)).mem = true := by
  unfold c3Arrive
  dsimp only
  split <;> simp [h]

@[simp] theorem execBarrierRequestAtHome_wf (a0 : Nat) (s : State) (h : Memory.wf s.mem = true)
    : OutWf (execBarrierRequestAtHome a0 s) := by
  unfold execBarrierRequestAtHome
  (repeat' split) <;> simp [h]

@[simp] theorem execBarrierPhaseReply_wf (a0 : Nat) (s : State) (h : Memory.wf s.mem = true)
    : OutWf (execBarrierPhaseReply a0 s) := by
  unfold execBarrierPhaseReply
  split <;> simp [h]

@[simp] theorem execBarwaitRepoll_wf (a0 : CoreNum) (a1 : Bool) (s : State) (h : Memory.wf s.mem = true)
    : OutWf (execBarwaitRepoll a0 a1 s) := by
  unfold execBarwaitRepoll
  dsimp only
  split <;> simp [h]

end Sys2Proof.Machine
end

