-- ==== Sys2Proof/Laws/KeepVector.lean ====
section
/-! SUPPORT. The memory keeps its canonical form: the words of C1 and C2. -/

namespace Sys2Proof.Machine

/-! ### Machine/Vector.lean -/

@[simp] theorem takeToks_mem (s : State) (a1 : Nat) (a2 : Eng) (a3 : Tok) : ((takeToks s a1 a2 a3)).mem = s.mem := by
  unfold takeToks
  simp

@[simp] theorem holdWide_mem (s : State) (a1 : Nat) (a2 : Eng) (a3 : Hold) : ((holdWide s a1 a2 a3)).mem = s.mem := by
  unfold holdWide
  split <;> rfl

@[simp] theorem holdDelayed_mem (s : State) (a1 : Nat) (a2 : Eng) : ((holdDelayed s a1 a2)).mem = s.mem := by
  rfl

@[simp] theorem apart_mem (s : State) (a1 : Nat) (a2 : Eng) : ((apart s a1 a2)).mem = s.mem := by
  unfold apart
  split <;> simp

theorem wideGate_wf (s : State) (a1 : Nat) (a2 : Eng) (a3 : Bool) (a4 : Nat) (a5 a6 : Option Hold) (go : State → State)
    (hf0 : ∀ y0, Memory.wf y0.mem = true → Memory.wf (go y0).mem = true) (h : Memory.wf s.mem = true) :
    Memory.wf (wideGate s a1 a2 a3 a4 a5 a6 go).mem = true := by
  unfold wideGate
  dsimp only
  (repeat' split) <;> first | exact hf0 _ (by simpa using h) | (simp [h]; done)

@[simp] theorem closeLoop_mem (s : State) (a1 : Nat) (a2 : Eng) : ((closeLoop s a1 a2).1).mem = s.mem := by
  unfold closeLoop
  split <;> simp

@[simp] theorem takeUnit_mem (s : State) (a1 : Nat) (a2 : Bool) (a3 : Nat) : ((takeUnit s a1 a2 a3).1).mem = s.mem := by
  unfold takeUnit
  simp

@[simp] theorem readSrc_mem (s : State) (a1 : Nat) (a2 : Bool) (a3 : VWord) (a4 : Bool) (a5 : VOp) (a6 : Nat)
    : ((readSrc s a1 a2 a3 a4 a5 a6).1).mem = s.mem := by
  unfold readSrc
  (repeat' split) <;> simp

theorem issueRepeat_wf (s : State) (a1 : Nat) (a2 : Eng) (a3 : VWord) (a4 : VShape) (a5 : State → Nat → Nat → VIn → State × VRes)
    (hf0 : ∀ y0 y1 y2 y3, Memory.wf y0.mem = true → Memory.wf (a5 y0 y1 y2 y3).1.mem = true) (h : Memory.wf s.mem = true) :
    Memory.wf (issueRepeat s a1 a2 a3 a4 a5).mem = true := by
  unfold issueRepeat
  simp [h, hf0]

@[simp] theorem reach_mem (s : State) (a1 : Nat) (a2 : Eng) (a3 : List Nat) (a4 : List (Nat × Nat))
    : ((reach s a1 a2 a3 a4)).mem = s.mem := by
  unfold reach
  simp

theorem vecWordAt_wf (asks : State → Nat → Bool → Nat → List (Nat × Nat)) (w : VWord) (sh : VShape) (a2 : List Nat)
    (a3 : State → Nat → Bool → Bool) (a4 : State → Nat → Eng → Nat → List Nat)
    (a5 : State → Nat → Bool → Nat → Nat × (Nat → List Nat)) (body : State → Nat → Nat → VIn → State × VRes) (s : State)
    (hb : ∀ y0 y1 y2 y3, Memory.wf y0.mem = true → Memory.wf (body y0 y1 y2 y3).1.mem = true)
    (h : Memory.wf s.mem = true) : OutWf (vecWordAt asks w sh a2 a3 a4 a5 body s) := by
  unfold vecWordAt
  extract_lets l e c2
  rw [outWf_next]
  split
  · simp [h]
  · split
    · refine wideGate_wf _ _ _ _ _ _ _ _ (fun t ht => ?_) h
      exact issueRepeat_wf _ _ _ _ _ _ hb (by simpa using ht)
    · split
      · simp [h]
      · exact issueRepeat_wf _ _ _ _ _ _ hb (by simpa using h)

@[simp] theorem vecWord_wf (w : VWord) (sh : VShape) (a2 : List Nat) (a3 : State → Nat → Bool → Bool)
    (a4 : State → Nat → Eng → Nat → List Nat) (a5 : State → Nat → Bool → Nat → Nat × (Nat → List Nat))
    (body : State → Nat → Nat → VIn → State × VRes) (s : State)
    (hb : ∀ y0 y1 y2 y3, Memory.wf y0.mem = true → Memory.wf (body y0 y1 y2 y3).1.mem = true)
    (h : Memory.wf s.mem = true) : OutWf (vecWord w sh a2 a3 a4 a5 body s) := vecWordAt_wf _ _ _ _ _ _ _ _ _ hb h

@[simp] theorem vecPure_wf (a0 : VWord) (a1 : VShape) (a2 : VIn → VRes) (s : State) (h : Memory.wf s.mem = true)
    : OutWf (vecPure a0 a1 a2 s) := by
  unfold vecPure
  simp [h]

@[simp] theorem vecBranch_wf (w : VWord) (rot : Bool) (a1 : State → Nat → Eng → List Nat) (body : State → Nat → Eng → Bool → State × Bool)
    (s : State) (hb : ∀ y0 y1 y2 y3, Memory.wf y0.mem = true → Memory.wf (body y0 y1 y2 y3).1.mem = true)
    (h : Memory.wf s.mem = true) : OutWf (vecBranch w rot a1 body s) := by
  unfold vecBranch
  dsimp only
  rw [outWf_next]
  split
  · simp [h]
  · refine wideGate_wf _ _ _ _ _ _ _ _ (fun t ht => ?_) h
    simp only [modEng_mem, note_mem]
    have h1 : Memory.wf (markEp (takeToks t s.current.core s.current.eng w.tok) s.current.core).mem = true := by simpa using ht
    have h2 := hb _ s.current.core s.current.eng (w.lb && (closeLoop (markEp (takeToks t s.current.core s.current.eng w.tok) s.current.core) s.current.core s.current.eng).2) h1
    (repeat' split) <;> simp [h2]

@[simp] theorem clearBof_mem (s : State) (a1 : Nat) (a2 : Eng) : ((clearBof s a1 a2)).mem = s.mem := by
  rfl

@[simp] theorem execVjmp_wf (a0 : VWord) (s : State) (h : Memory.wf s.mem = true) : OutWf (execVjmp a0 s) := by
  unfold execVjmp
  split <;> simp [h]

@[simp] theorem execVbrq_wf (a0 : VWord) (s : State) (h : Memory.wf s.mem = true) : OutWf (execVbrq a0 s) := by
  unfold execVbrq
  simp [h]

@[simp] theorem execVbrp_wf (w : VWord) (s : State) (h : Memory.wf s.mem = true) : OutWf (execVbrp w s) := by
  unfold execVbrp
  refine vecBranch_wf _ _ _ _ _ (fun s l e _ hs => ?_) h
  dsimp only
  split <;> simp [hs]

/-! ### Machine/VectorOps.lean -/

@[simp] theorem intBin_wf (a0 : VWord) (a1 : Bool) (a2 : Bool) (a3 : Int → Int → Int → Int) (s : State)
    (h : Memory.wf s.mem = true) : OutWf (intBin a0 a1 a2 a3 s) := by
  unfold intBin
  simp [h]

@[simp] theorem patBin_wf (a0 : VWord) (a1 : Nat → Nat → Nat) (s : State) (h : Memory.wf s.mem = true)
    : OutWf (patBin a0 a1 s) := by
  unfold patBin
  simp [h]

@[simp] theorem intUn_wf (a0 : VWord) (a1 : Int → Int) (s : State) (h : Memory.wf s.mem = true) : OutWf (intUn a0 a1 s) := by
  unfold intUn
  simp [h]

@[simp] theorem execVadd_wf (a0 : VWord) (s : State) (h : Memory.wf s.mem = true) : OutWf (execVadd a0 s) := by
  unfold execVadd
  simp [h]

@[simp] theorem execVsub_wf (a0 : VWord) (s : State) (h : Memory.wf s.mem = true) : OutWf (execVsub a0 s) := by
  unfold execVsub
  simp [h]

@[simp] theorem execVmul_wf (a0 : VWord) (s : State) (h : Memory.wf s.mem = true) : OutWf (execVmul a0 s) := by
  unfold execVmul
  simp [h]

@[simp] theorem execVmulh_wf (a0 : VWord) (s : State) (h : Memory.wf s.mem = true) : OutWf (execVmulh a0 s) := by
  unfold execVmulh
  simp [h]

@[simp] theorem execVmac_wf (a0 : VWord) (s : State) (h : Memory.wf s.mem = true) : OutWf (execVmac a0 s) := by
  unfold execVmac
  simp [h]

@[simp] theorem execVmin_wf (a0 : VWord) (s : State) (h : Memory.wf s.mem = true) : OutWf (execVmin a0 s) := by
  unfold execVmin
  simp [h]

@[simp] theorem execVmax_wf (a0 : VWord) (s : State) (h : Memory.wf s.mem = true) : OutWf (execVmax a0 s) := by
  unfold execVmax
  simp [h]

@[simp] theorem execVabs_wf (a0 : VWord) (s : State) (h : Memory.wf s.mem = true) : OutWf (execVabs a0 s) := by
  unfold execVabs
  simp [h]

@[simp] theorem execVneg_wf (a0 : VWord) (s : State) (h : Memory.wf s.mem = true) : OutWf (execVneg a0 s) := by
  unfold execVneg
  simp [h]

@[simp] theorem execVand_wf (a0 : VWord) (s : State) (h : Memory.wf s.mem = true) : OutWf (execVand a0 s) := by
  unfold execVand
  simp [h]

@[simp] theorem execVor_wf (a0 : VWord) (s : State) (h : Memory.wf s.mem = true) : OutWf (execVor a0 s) := by
  unfold execVor
  simp [h]

@[simp] theorem execVxor_wf (a0 : VWord) (s : State) (h : Memory.wf s.mem = true) : OutWf (execVxor a0 s) := by
  unfold execVxor
  simp [h]

@[simp] theorem execVshl_wf (a0 : VWord) (s : State) (h : Memory.wf s.mem = true) : OutWf (execVshl a0 s) := by
  unfold execVshl
  simp [h]

@[simp] theorem execVshr_wf (a0 : VWord) (s : State) (h : Memory.wf s.mem = true) : OutWf (execVshr a0 s) := by
  unfold execVshr
  simp [h]

@[simp] theorem execVsra_wf (a0 : VWord) (s : State) (h : Memory.wf s.mem = true) : OutWf (execVsra a0 s) := by
  unfold execVsra
  simp [h]

@[simp] theorem execVqshr_wf (a0 : VWord) (s : State) (h : Memory.wf s.mem = true) : OutWf (execVqshr a0 s) := by
  unfold execVqshr
  simp [h]

@[simp] theorem execVqmul_wf (a0 : VWord) (s : State) (h : Memory.wf s.mem = true) : OutWf (execVqmul a0 s) := by
  unfold execVqmul
  simp [h]

@[simp] theorem execVsat_wf (a0 : VWord) (s : State) (h : Memory.wf s.mem = true) : OutWf (execVsat a0 s) := by
  unfold execVsat
  simp [h]

@[simp] theorem fltBin_wf (a0 : VWord) (a1 : Bool) (a2 : FNum → FNum → FNum → FNum × Acf) (s : State)
    (h : Memory.wf s.mem = true) : OutWf (fltBin a0 a1 a2 s) := by
  unfold fltBin
  simp [h]

@[simp] theorem fltUn_wf (a0 : VWord) (a1 : FNum → FNum × Acf) (s : State) (h : Memory.wf s.mem = true)
    : OutWf (fltUn a0 a1 s) := by
  unfold fltUn
  simp [h]

@[simp] theorem execVfadd_wf (a0 : VWord) (s : State) (h : Memory.wf s.mem = true) : OutWf (execVfadd a0 s) := by
  unfold execVfadd
  simp [h]

@[simp] theorem execVfsub_wf (a0 : VWord) (s : State) (h : Memory.wf s.mem = true) : OutWf (execVfsub a0 s) := by
  unfold execVfsub
  simp [h]

@[simp] theorem execVfmul_wf (a0 : VWord) (s : State) (h : Memory.wf s.mem = true) : OutWf (execVfmul a0 s) := by
  unfold execVfmul
  simp [h]

@[simp] theorem execVfma_wf (a0 : VWord) (s : State) (h : Memory.wf s.mem = true) : OutWf (execVfma a0 s) := by
  unfold execVfma
  simp [h]

@[simp] theorem execVfms_wf (a0 : VWord) (s : State) (h : Memory.wf s.mem = true) : OutWf (execVfms a0 s) := by
  unfold execVfms
  simp [h]

@[simp] theorem fltMinMax_wf (a0 : VWord) (a1 : Bool) (s : State) (h : Memory.wf s.mem = true) : OutWf (fltMinMax a0 a1 s) := by
  unfold fltMinMax
  simp [h]

@[simp] theorem execVfmin_wf (a0 : VWord) (s : State) (h : Memory.wf s.mem = true) : OutWf (execVfmin a0 s) := by
  unfold execVfmin
  simp [h]

@[simp] theorem execVfmax_wf (a0 : VWord) (s : State) (h : Memory.wf s.mem = true) : OutWf (execVfmax a0 s) := by
  unfold execVfmax
  simp [h]

@[simp] theorem execVfrcp_wf (a0 : VWord) (s : State) (h : Memory.wf s.mem = true) : OutWf (execVfrcp a0 s) := by
  unfold execVfrcp
  simp [h]

@[simp] theorem execVfrsq_wf (a0 : VWord) (s : State) (h : Memory.wf s.mem = true) : OutWf (execVfrsq a0 s) := by
  unfold execVfrsq
  simp [h]

@[simp] theorem execVfexp2_wf (a0 : VWord) (s : State) (h : Memory.wf s.mem = true) : OutWf (execVfexp2 a0 s) := by
  unfold execVfexp2
  simp [h]

@[simp] theorem execVflog2_wf (a0 : VWord) (s : State) (h : Memory.wf s.mem = true) : OutWf (execVflog2 a0 s) := by
  unfold execVflog2
  simp [h]

@[simp] theorem fltSign_wf (a0 : VWord) (a1 : FFmt → Nat → Nat) (s : State) (h : Memory.wf s.mem = true)
    : OutWf (fltSign a0 a1 s) := by
  unfold fltSign
  simp [h]

@[simp] theorem execVfabs_wf (a0 : VWord) (s : State) (h : Memory.wf s.mem = true) : OutWf (execVfabs a0 s) := by
  unfold execVfabs
  simp [h]

@[simp] theorem execVfneg_wf (a0 : VWord) (s : State) (h : Memory.wf s.mem = true) : OutWf (execVfneg a0 s) := by
  unfold execVfneg
  simp [h]

@[simp] theorem cmpWord_wf (a0 : VWord) (a1 : Nat → Nat → Option Int) (s : State) (h : Memory.wf s.mem = true)
    : OutWf (cmpWord a0 a1 s) := by
  unfold cmpWord
  simp [h]

@[simp] theorem execVcmp_wf (a0 : VWord) (s : State) (h : Memory.wf s.mem = true) : OutWf (execVcmp a0 s) := by
  unfold execVcmp
  simp [h]

@[simp] theorem execVfcmp_wf (a0 : VWord) (s : State) (h : Memory.wf s.mem = true) : OutWf (execVfcmp a0 s) := by
  unfold execVfcmp
  simp [h]

@[simp] theorem predLogic_wf (a0 : VWord) (a1 : Bool) (a2 : BitVec 256 → BitVec 256 → BitVec 256) (s : State)
    (h : Memory.wf s.mem = true) : OutWf (predLogic a0 a1 a2 s) := by
  unfold predLogic
  simp [h]

@[simp] theorem execPand_wf (a0 : VWord) (s : State) (h : Memory.wf s.mem = true) : OutWf (execPand a0 s) := by
  unfold execPand
  simp [h]

@[simp] theorem execPor_wf (a0 : VWord) (s : State) (h : Memory.wf s.mem = true) : OutWf (execPor a0 s) := by
  unfold execPor
  simp [h]

@[simp] theorem execPxor_wf (a0 : VWord) (s : State) (h : Memory.wf s.mem = true) : OutWf (execPxor a0 s) := by
  unfold execPxor
  simp [h]

@[simp] theorem execPnot_wf (a0 : VWord) (s : State) (h : Memory.wf s.mem = true) : OutWf (execPnot a0 s) := by
  unfold execPnot
  simp [h]

@[simp] theorem execPcnt_wf (a0 : VWord) (s : State) (h : Memory.wf s.mem = true) : OutWf (execPcnt a0 s) := by
  unfold execPcnt
  simp [h]

@[simp] theorem execPfirst_wf (a0 : VWord) (s : State) (h : Memory.wf s.mem = true) : OutWf (execPfirst a0 s) := by
  unfold execPfirst
  simp [h]

@[simp] theorem execVsel_wf (a0 : VWord) (s : State) (h : Memory.wf s.mem = true) : OutWf (execVsel a0 s) := by
  unfold execVsel
  simp [h]

@[simp] theorem execVmov_wf (a0 : VWord) (s : State) (h : Memory.wf s.mem = true) : OutWf (execVmov a0 s) := by
  unfold execVmov
  simp [h]

@[simp] theorem execVbcast_wf (a0 : VWord) (s : State) (h : Memory.wf s.mem = true) : OutWf (execVbcast a0 s) := by
  unfold execVbcast
  simp [h]

@[simp] theorem execVperm_wf (a0 : VWord) (s : State) (h : Memory.wf s.mem = true) : OutWf (execVperm a0 s) := by
  unfold execVperm
  simp [h]

@[simp] theorem execVslide_wf (a0 : VWord) (s : State) (h : Memory.wf s.mem = true) : OutWf (execVslide a0 s) := by
  unfold execVslide
  simp [h]

@[simp] theorem execVshuf_wf (a0 : VWord) (s : State) (h : Memory.wf s.mem = true) : OutWf (execVshuf a0 s) := by
  unfold execVshuf
  simp [h]

@[simp] theorem execVpack_wf (a0 : VWord) (s : State) (h : Memory.wf s.mem = true) : OutWf (execVpack a0 s) := by
  unfold execVpack
  split <;> simp [h]

@[simp] theorem execVunpk_wf (a0 : VWord) (s : State) (h : Memory.wf s.mem = true) : OutWf (execVunpk a0 s) := by
  unfold execVunpk
  split <;> simp [h]

@[simp] theorem redWord_wf (a0 : VWord) (a1 : Fmt) (a2 : List Nat → Option Nat → Nat × Acf) (s : State)
    (h : Memory.wf s.mem = true) : OutWf (redWord a0 a1 a2 s) := by
  unfold redWord
  dsimp only
  split <;> simp [h]

@[simp] theorem execVredadd_wf (a0 : VWord) (s : State) (h : Memory.wf s.mem = true) : OutWf (execVredadd a0 s) := by
  unfold execVredadd
  (repeat' split) <;> simp [h]

@[simp] theorem execVredmax_wf (a0 : VWord) (s : State) (h : Memory.wf s.mem = true) : OutWf (execVredmax a0 s) := by
  unfold execVredmax
  simp [h]

@[simp] theorem execVredmin_wf (a0 : VWord) (s : State) (h : Memory.wf s.mem = true) : OutWf (execVredmin a0 s) := by
  unfold execVredmin
  simp [h]

@[simp] theorem execVfredadd_wf (a0 : VWord) (s : State) (h : Memory.wf s.mem = true) : OutWf (execVfredadd a0 s) := by
  unfold execVfredadd
  dsimp only
  split <;> simp [h]

@[simp] theorem execVscan_wf (a0 : VWord) (s : State) (h : Memory.wf s.mem = true) : OutWf (execVscan a0 s) := by
  unfold execVscan
  split <;> simp [h]

@[simp] theorem execVcvt_wf (a0 : VWord) (s : State) (h : Memory.wf s.mem = true) : OutWf (execVcvt a0 s) := by
  unfold execVcvt
  dsimp only
  (repeat' split) <;> simp [h]

@[simp] theorem execVxpand_wf (w : VWord) (s : State) (h : Memory.wf s.mem = true) : OutWf (execVxpand w s) := by
  unfold execVxpand
  exact vecPure_wf _ _ _ _ h

@[simp] theorem execVmxq_wf (a0 : VWord) (s : State) (h : Memory.wf s.mem = true) : OutWf (execVmxq a0 s) := by
  unfold execVmxq
  simp [h]

@[simp] theorem execVmxd_wf (a0 : VWord) (s : State) (h : Memory.wf s.mem = true) : OutWf (execVmxd a0 s) := by
  unfold execVmxd
  simp [h]

@[simp] theorem execVpart_wf (a0 : VWord) (s : State) (h : Memory.wf s.mem = true) : OutWf (execVpart a0 s) := by
  unfold execVpart
  simp [h]

@[simp] theorem compWord_wf (a0 : VWord) (a1 : List Nat → Nat → Option Nat) (s : State) (h : Memory.wf s.mem = true)
    : OutWf (compWord a0 a1 s) := by
  unfold compWord
  simp [h]

@[simp] theorem execVcomp_wf (a0 : VWord) (s : State) (h : Memory.wf s.mem = true) : OutWf (execVcomp a0 s) := by
  unfold execVcomp
  simp [h]

@[simp] theorem execVexpd_wf (a0 : VWord) (s : State) (h : Memory.wf s.mem = true) : OutWf (execVexpd a0 s) := by
  unfold execVexpd
  simp [h]

/-! ### Machine/VectorMem.lean -/

@[simp] theorem execVgath_wf (w : VWord) (s : State) (h : Memory.wf s.mem = true) : OutWf (execVgath w s) := by
  unfold execVgath
  refine vecWordAt_wf _ _ _ _ _ _ _ _ _ (fun s l _ i hs => ?_) h
  dsimp only
  rw [foldl_mem]
  · exact hs
  · intro t p
    split <;> simp

@[simp] theorem execVscat_wf (a0 : VWord) (s : State) (h : Memory.wf s.mem = true) : OutWf (execVscat a0 s) := by
  unfold execVscat
  simp [h]

@[simp] theorem execVpush_wf (a0 : VWord) (s : State) (h : Memory.wf s.mem = true) : OutWf (execVpush a0 s) := by
  unfold execVpush
  simp [h]

@[simp] theorem execVpushBoff_wf (a0 : VWord) (s : State) (h : Memory.wf s.mem = true) : OutWf (execVpushBoff a0 s) := by
  unfold execVpushBoff
  simp [h]

@[simp] theorem execTwrow_wf (a0 : VWord) (s : State) (h : Memory.wf s.mem = true) : OutWf (execTwrow a0 s) := by
  unfold execTwrow
  simp [h]

@[simp] theorem execTrcol_wf (a0 : VWord) (s : State) (h : Memory.wf s.mem = true) : OutWf (execTrcol a0 s) := by
  unfold execTrcol
  simp [h]

@[simp] theorem execTclr_wf (a0 : VWord) (s : State) (h : Memory.wf s.mem = true) : OutWf (execTclr a0 s) := by
  unfold execTclr
  simp [h]

@[simp] theorem execVectorResultLanding_wf (a0 : CoreNum) (a1 : Bool) (a2 : Nat) (s : State) (h : Memory.wf s.mem = true)
    : OutWf (execVectorResultLanding a0 a1 a2 s) := by
  unfold execVectorResultLanding
  dsimp only
  (repeat' split) <;> simp [h]

end Sys2Proof.Machine
end

