-- ==== Sys2Proof/Laws/KeepMatrix.lean ====
section
/-! SUPPORT. The memory keeps its canonical form: the words of C3, faults and mailboxes. -/

namespace Sys2Proof.Machine

/-! ### Machine/Matrix.lean -/

@[simp] theorem takeHead_mem (s : State) (a1 : Nat) (a2 : Nat) (a3 : Bool) : ((takeHead s a1 a2 a3).1).mem = s.mem := by
  unfold takeHead
  simp

theorem foldl_mem1 {α β : Type} (f : State × β → α → State × β) (hf : ∀ a x, (f a x).1.mem = a.1.mem) (xs : List α)
    (a : State × β) : (xs.foldl f a).1.mem = a.1.mem :=
  foldl_inv (fun b : State × β => b.1.mem = a.1.mem) f (fun b x hb => (hf b x).trans hb) xs a rfl

theorem iter_mem1 {β : Type} (f : State × β → State × β) (hf : ∀ a, (f a).1.mem = a.1.mem) (n : Nat) (a : State × β) :
    (iter f n a).1.mem = a.1.mem :=
  iter_inv (fun b : State × β => b.1.mem = a.1.mem) f (fun b hb => (hf b).trans hb) n a rfl

@[simp] theorem takeFirst_mem (s : State) (l : Nat) (f : C3Flight) : (takeFirst s l f).1.mem = s.mem := by
  unfold takeFirst
  dsimp only
  split
  · dsimp only
    refine foldl_mem1 _ (fun a p => ?_) _ _
    split
    · exact iter_mem1 _ (fun a => by simp) _ _
    · rfl
  · exact foldl_mem1 _ (fun a p => by simp) _ _

@[simp] theorem accPut_mem (s : State) (a1 : Nat) (a2 : List (Nat × Elem)) : ((accPut s a1 a2)).mem = s.mem := by
  rfl

@[simp] theorem clearMstat_mem (s : State) (a1 : Nat) : ((clearMstat s a1)).mem = s.mem := by
  rfl

@[simp] theorem startWord_wf (s : State) (a1 : Nat) (a2 : C3Flight) (a3 : Nat) (h : Memory.wf s.mem = true)
    : Memory.wf ((startWord s a1 a2 a3).1).mem = true := by
  unfold startWord
  (repeat' split) <;> simp [h]

@[simp] theorem missTrap_wf (s : State) (a1 : Nat) (a2 : C3Flight) (a3 : Nat) (h : Memory.wf s.mem = true)
    : Memory.wf ((missTrap s a1 a2 a3)).mem = true := by
  unfold missTrap
  simp [h]

@[simp] theorem tryStart_wf (s : State) (a1 : Nat) (a2 : Nat) (h : Memory.wf s.mem = true)
    : Memory.wf ((tryStart s a1 a2)).mem = true := by
  unfold tryStart
  dsimp only
  (repeat' split) <;> simp [h]

@[simp] theorem execMatrixWordStart_wf (a0 : CoreNum) (a1 : Nat) (s : State) (h : Memory.wf s.mem = true)
    : OutWf (execMatrixWordStart a0 a1 s) := by
  unfold execMatrixWordStart
  simp [h]

@[simp] theorem takeMore_mem (l n : Nat) (a : State × C3Flight) : (takeMore l n a).1.mem = a.1.mem := by
  induction n generalizing a with
  | zero => rfl
  | succ n ih =>
    obtain ⟨s, f⟩ := a
    unfold takeMore
    split
    · split
      · rfl
      · split
        · rfl
        · split
          · rfl
          · split
            · dsimp only; rw [ih]; simp
            · simp
    · rfl

@[simp] theorem writeMore_wf (l n : Nat) (a : State × C3Flight) (h : Memory.wf a.1.mem = true) :
    Memory.wf (writeMore l n a).1.mem = true := by
  induction n generalizing a with
  | zero => exact h
  | succ n ih =>
    obtain ⟨s, f⟩ := a
    unfold writeMore
    split
    · dsimp only
      (repeat' split) <;> first | exact ih _ (by simp at h; simp [h]) | exact h | (simp at h; simp [h])
    · exact h

@[simp] theorem retireWord_wf (s : State) (a1 : Nat) (a2 : C3Flight) (h : Memory.wf s.mem = true)
    : Memory.wf ((retireWord s a1 a2)).mem = true := by
  unfold retireWord
  simp [h]

@[simp] theorem tryRetire_wf (s : State) (l i : Nat) (h : Memory.wf s.mem = true) : Memory.wf (tryRetire s l i).mem = true := by
  unfold tryRetire
  split
  · exact h
  · rename_i f _
    split
    · exact h
    · have h1 : Memory.wf (takeMore l 65536 (s, f)).1.mem = true := by rw [takeMore_mem]; exact h
      dsimp only
      have h2 := writeMore_wf l ((f.out.getD []).length) _ h1
      split <;> simp [h2]

@[simp] theorem landWord_wf (s : State) (l : Nat) (f : C3Flight) (h : Memory.wf s.mem = true) :
    Memory.wf (landWord s l f).mem = true := by
  unfold landWord
  split
  · exact h
  · have h1 : Memory.wf (takeMore l 65536 (s, { f with due := 0 })).1.mem = true := by rw [takeMore_mem]; exact h
    dsimp only
    have h2 := writeMore_wf l ((f.out.getD []).length) _ h1
    split <;> simp [h2]

@[simp] theorem landC3_wf (s : State) (l : Nat) (h : Memory.wf s.mem = true) : Memory.wf (landC3 s l).mem = true := by
  unfold landC3
  exact foldl_wf _ (fun s f hs => landWord_wf s l f hs) _ (by simpa using h)

@[simp] theorem execMatrixWordRetirement_wf (a0 : CoreNum) (a1 : Nat) (s : State) (h : Memory.wf s.mem = true)
    : OutWf (execMatrixWordRetirement a0 a1 s) := by
  unfold execMatrixWordRetirement
  simp [h]

@[simp] theorem freeKept_mem (s : State) (a1 : Nat) : ((freeKept s a1)).mem = s.mem := by
  unfold freeKept
  simp

@[simp] theorem advanceC3_mem (s : State) (a1 : Nat) (a2 : MWord) (a3 : Word) : ((advanceC3 s a1 a2 a3)).mem = s.mem := by
  unfold advanceC3
  simp

@[simp] theorem matWord_wf (w : MWord) (op : Nat) (hOk : Bool) (legal : State → Nat → Bool) (hold : State → Nat → Option Hold)
    (go : State → Nat → State) (s : State) (hg : ∀ t l, Memory.wf t.mem = true → Memory.wf (go t l).mem = true)
    (h : Memory.wf s.mem = true) : OutWf (matWord w op hOk legal hold go s) := by
  unfold matWord
  dsimp only
  rw [outWf_next]
  split
  · simp [h]
  · refine wideGate_wf _ _ _ _ _ _ _ _ (fun t ht => ?_) h
    exact hg _ _ (by simpa using ht)

@[simp] theorem issueStart_wf (a0 : Nat) (a1 : MWord) (s : State) (a3 : Nat) (h : Memory.wf s.mem = true)
    : Memory.wf ((issueStart a0 a1 s a3)).mem = true := by
  unfold issueStart
  (repeat' split) <;> simp [h]

@[simp] theorem issueLater_mem (a0 : Nat) (a1 : MWord) (s : State) (a3 : Nat) : ((issueLater a0 a1 s a3)).mem = s.mem := by
  unfold issueLater
  simp

@[simp] theorem issueDone_mem (a0 : MWord) (s : State) (a2 : Nat) (a3 : Word) : ((issueDone a0 s a2 a3)).mem = s.mem := by
  unfold issueDone
  simp

/-! ### Machine/MatrixOps.lean -/

@[simp] theorem execMma_wf (a0 : MWord) (s : State) (h : Memory.wf s.mem = true) : OutWf (execMma a0 s) := by
  unfold execMma
  simp [h]

@[simp] theorem accWord_wf (a0 : Nat) (a1 : MWord) (a2 : State → Nat → Bool) (s : State) (h : Memory.wf s.mem = true)
    : OutWf (accWord a0 a1 a2 s) := by
  unfold accWord
  simp (contextual := true) [h]

@[simp] theorem execMzero_wf (a0 : MWord) (s : State) (h : Memory.wf s.mem = true) : OutWf (execMzero a0 s) := by
  unfold execMzero
  simp [h]

@[simp] theorem execMfill_wf (a0 : MWord) (s : State) (h : Memory.wf s.mem = true) : OutWf (execMfill a0 s) := by
  unfold execMfill
  simp [h]

@[simp] theorem execMdrain_wf (a0 : MWord) (s : State) (h : Memory.wf s.mem = true) : OutWf (execMdrain a0 s) := by
  unfold execMdrain
  simp [h]

@[simp] theorem execMadd_wf (a0 : MWord) (s : State) (h : Memory.wf s.mem = true) : OutWf (execMadd a0 s) := by
  unfold execMadd
  simp [h]

@[simp] theorem execMscale_wf (a0 : MWord) (s : State) (h : Memory.wf s.mem = true) : OutWf (execMscale a0 s) := by
  unfold execMscale
  simp [h]

@[simp] theorem execMcopy_wf (a0 : MWord) (s : State) (h : Memory.wf s.mem = true) : OutWf (execMcopy a0 s) := by
  unfold execMcopy
  simp [h]

@[simp] theorem execMcfg_wf (a0 : MWord) (s : State) (h : Memory.wf s.mem = true) : OutWf (execMcfg a0 s) := by
  unfold execMcfg
  simp [h]

@[simp] theorem execMstat_wf (a0 : MWord) (s : State) (h : Memory.wf s.mem = true) : OutWf (execMstat a0 s) := by
  unfold execMstat
  simp [h]

@[simp] theorem execMtok_wf (a0 : MWord) (s : State) (h : Memory.wf s.mem = true) : OutWf (execMtok a0 s) := by
  unfold execMtok
  simp [h]

@[simp] theorem execMbar_wf (a0 : MWord) (s : State) (h : Memory.wf s.mem = true) : OutWf (execMbar a0 s) := by
  unfold execMbar
  simp [h]

@[simp] theorem setC3Wait_mem (s : State) (a1 : Nat) (a2 : ApWait) : ((setC3Wait s a1 a2)).mem = s.mem := by
  rfl

@[simp] theorem mwaitStat_mem (s : State) (a1 : Nat) (a2 : Word) : ((mwaitStat s a1 a2)).mem = s.mem := by
  rfl

@[simp] theorem mwaitFault_mem (s : State) (a1 : Nat) (a2 : Nat) (a3 : Nat) : ((mwaitFault s a1 a2 a3)).mem = s.mem := by
  unfold mwaitFault
  simp

@[simp] theorem mwaitAsk_wf (s : State) (a1 : Nat) (a2 : Nat) (h : Memory.wf s.mem = true)
    : Memory.wf ((mwaitAsk s a1 a2)).mem = true := by
  unfold mwaitAsk
  simp [h]

@[simp] theorem mwaitEnd_wf (a0 : MWord) (a1 : Nat) (a2 : Word) (s : State) (h : Memory.wf s.mem = true)
    : OutWf (mwaitEnd a0 a1 a2 s) := by
  unfold mwaitEnd
  simp [h]

@[simp] theorem mwaitBegin_wf (a0 : MWord) (a1 : Nat) (s : State) (h : Memory.wf s.mem = true)
    : Memory.wf ((mwaitBegin a0 a1 s)).mem = true := by
  unfold mwaitBegin
  dsimp only
  (repeat' split) <;> simp [h]

@[simp] theorem execMwait_wf (a0 : MWord) (s : State) (h : Memory.wf s.mem = true) : OutWf (execMwait a0 s) := by
  unfold execMwait
  dsimp only
  split <;> simp [h]

@[simp] theorem execMjmp_wf (a0 : MWord) (s : State) (h : Memory.wf s.mem = true) : OutWf (execMjmp a0 s) := by
  unfold execMjmp
  simp [h]

@[simp] theorem execMbrq_wf (a0 : MWord) (s : State) (h : Memory.wf s.mem = true) : OutWf (execMbrq a0 s) := by
  unfold execMbrq
  simp [h]

/-! ### Machine/Faults.lean -/

@[simp] theorem setFlt_mem (s : State) (a1 : Agent) (a2 : AgentFault) : ((setFlt s a1 a2)).mem = s.mem := by
  unfold setFlt
  split <;> rfl

@[simp] theorem writeRecord_mem (s : State) (a1 : Nat) (a2 : FaultRec) : ((writeRecord s a1 a2)).mem = s.mem := by
  unfold writeRecord
  simp

@[simp] theorem execFaultRecordWrite_wf (a0 : Agent) (s : State) (h : Memory.wf s.mem = true)
    : OutWf (execFaultRecordWrite a0 s) := by
  unfold execFaultRecordWrite
  split <;> simp [h]

@[simp] theorem execRetry_wf (a0 : Word) (s : State) (h : Memory.wf s.mem = true) : OutWf (execRetry a0 s) := by
  unfold execRetry
  split <;> simp [h]

@[simp] theorem execKillResponse_wf (a0 : Word) (a1 : BitVec 8) (s : State) (h : Memory.wf s.mem = true)
    : OutWf (execKillResponse a0 a1 s) := by
  unfold execKillResponse
  split <;> simp [h]

@[simp] theorem streamResumes_mem (s : State) (a1 : Nat) (a2 : Nat) : ((streamResumes s a1 a2)).mem = s.mem := by
  rfl

@[simp] theorem fillTlb_mem (s : State) (a1 : Agent) (a2 : BitVec 12) (a3 : Nat) (a4 : Trans)
    : ((fillTlb s a1 a2 a3 a4)).mem = s.mem := by
  unfold fillTlb
  split <;> rfl

@[simp] theorem walkDone_mem (s : State) (a1 : Agent) (a2 : BitVec 12) (a3 : Nat) (a4 : Trans)
    : ((walkDone s a1 a2 a3 a4)).mem = s.mem := by
  unfold walkDone
  split <;> simp

@[simp] theorem execPageWalk_wf (a0 : Agent) (s : State) (h : Memory.wf s.mem = true) : OutWf (execPageWalk a0 s) := by
  unfold execPageWalk
  dsimp only
  (repeat' split) <;> simp [h]

@[simp] theorem execRefreshWindowStart_wf (s : State) (h : Memory.wf s.mem = true) : OutWf (execRefreshWindowStart s) := by
  unfold execRefreshWindowStart
  split <;> exact h

@[simp] theorem execRefreshWindowEnd_wf (s : State) (h : Memory.wf s.mem = true) : OutWf (execRefreshWindowEnd s) := by
  unfold execRefreshWindowEnd
  simp [h]

@[simp] theorem hotClose_mem (s : State) (a1 : Nat) : ((hotClose s a1)).mem = s.mem := by
  unfold hotClose
  simp

@[simp] theorem execHotListWrite_wf (a0 : BitVec 3) (s : State) (h : Memory.wf s.mem = true) : OutWf (execHotListWrite a0 s) := by
  unfold execHotListWrite
  simp [h]

/-! ### Machine/Mailbox.lean -/

@[simp] theorem mbWord_wf (a0 : Guard) (a1 : List Reg) (a2 : Reg) (a3 : Nat → Bool) (a4 : State → Nat → Nat → Nat → State)
    (s : State) (hf0 : ∀ y0 y1 y2 y3, Memory.wf y0.mem = true → Memory.wf ((a4 y0 y1 y2 y3)).mem = true)
    (h : Memory.wf s.mem = true) : OutWf (mbWord a0 a1 a2 a3 a4 s) := by
  unfold mbWord
  (try dsimp only)
  (repeat' split) <;> first | (apply apWord_wf <;> (first | exact h | (intros; (try dsimp only); (repeat' split) <;> (first | assumption | (simp [*]; done) | (simp [*]; done) | (simp_all (maxDischargeDepth := 40); done)))))

@[simp] theorem execMbput_wf (a0 : Guard) (a1 : Reg) (a2 : Reg) (a3 : Reg) (s : State) (h : Memory.wf s.mem = true)
    : OutWf (execMbput a0 a1 a2 a3 s) := by
  unfold execMbput
  refine mbWord_wf _ _ _ _ _ _ (fun s l x _ hs => ?_) h
  dsimp only
  (repeat' split) <;> (simp (maxDischargeDepth := 10) only [retire_mem, wreg_mem, streamTrap_wf, waitOn_mem, bankWait_mem, killTask_mem,
    modCtx_mem, spTouch_mem, useBanks_mem, takePhase_mem, testTimers_mem, hs])

@[simp] theorem execMbget_wf (a0 : Guard) (a1 : Reg) (a2 : Reg) (a3 : Reg) (s : State) (h : Memory.wf s.mem = true)
    : OutWf (execMbget a0 a1 a2 a3 s) := by
  unfold execMbget
  (try dsimp only)
  (repeat' split) <;> first | (apply mbWord_wf <;> (first | exact h | (intros; (try dsimp only); (repeat' split) <;> (first | assumption | (simp [*]; done) | (simp [*]; done) | (simp_all (maxDischargeDepth := 40); done)))))

@[simp] theorem execMbpeek_wf (a0 : Guard) (a1 : Reg) (a2 : Reg) (s : State) (h : Memory.wf s.mem = true)
    : OutWf (execMbpeek a0 a1 a2 s) := by
  unfold execMbpeek
  simp [h]

end Sys2Proof.Machine
end

