-- ==== Sys2Proof/Laws/KeepSchedule.lean ====
section
/-! SUPPORT. The memory keeps its canonical form: launches, records, gangs, kills and the context-save engine. -/

namespace Sys2Proof.Machine

/-! ### Machine/Schedule.lean -/

@[simp] theorem launchEntry_wf (s : State) (a1 : Nat) (a2 : Launch) (h : Memory.wf s.mem = true)
    : Memory.wf ((launchEntry s a1 a2)).mem = true := by
  unfold launchEntry
  simp [h]

@[simp] theorem startRec_wf (s : State) (a1 : Nat) (a2 : Launch) (a3 : QRec) (a4 : Nat) (h : Memory.wf s.mem = true)
    : Memory.wf ((startRec s a1 a2 a3 a4)).mem = true := by
  unfold startRec
  simp [h]

@[simp] theorem popRec_mem (s : State) (a1 : Nat) (a2 : QRec) : ((popRec s a1 a2)).mem = s.mem := by
  rfl

@[simp] theorem execRecordSelection_wf (a0 : CoreNum) (s : State) (h : Memory.wf s.mem = true)
    : OutWf (execRecordSelection a0 s) := by
  unfold execRecordSelection
  dsimp only
  (repeat' split) <;> simp [h]

@[simp] theorem closeRec_mem (s : State) (a1 : Nat) : ((closeRec s a1)).mem = s.mem := by
  unfold closeRec
  simp

@[simp] theorem leaveCore_mem (s : State) (a1 : Nat) : ((leaveCore s a1)).mem = s.mem := by
  unfold leaveCore
  simp

@[simp] theorem recGone_mem (s : State) (a1 : Nat) (a2 : Launch) (a3 : Word) : ((recGone s a1 a2 a3)).mem = s.mem := by
  unfold recGone
  simp

@[simp] theorem pushCont_mem (s : State) (a1 : Nat) (a2 : Launch) (a3 : Word) (a4 : Rec) : ((pushCont s a1 a2 a3 a4)).mem = s.mem := by
  unfold pushCont
  split <;> simp

/-- A step whose result is itself a state in canonical form. -/
def GenStateWf : Gen State → Prop
  | .ok t _ => Memory.wf t.mem = true
  | .wait s | .hold s | .bad _ _ s => Memory.wf s.mem = true

theorem bind_state_wf {α : Type} {x : Gen α} {f : α → State → Gen State} (hx : GenWf x)
    (hf : ∀ a s, Memory.wf s.mem = true → GenStateWf (f a s)) : GenStateWf (x.bind f) := by
  cases x with
  | ok a s => exact hf a s hx
  | wait s => exact hx
  | hold s => exact hx
  | bad e va s => exact hx

theorem joinStep_wf {g : Gen State} (l : Nat) (h : GenStateWf g) : Memory.wf (joinStep l g).mem = true := by
  cases g with
  | ok t s => exact h
  | wait s => exact h
  | hold s => exact h
  | bad f va s => simpa [GenStateWf, joinStep] using h

theorem contRead_wf (s : State) (l : Nat) (la : Launch) (run : Running) (h : Memory.wf s.mem = true) :
    GenStateWf (contRead s l la run) := by
  unfold contRead
  refine bind_state_wf (apSpot_wf _ _ _ _ _ h) fun p s hs => ?_
  split
  · exact hs
  · refine bind_state_wf (spotNat_wf _ _ _ _ hs) fun x s hs => ?_
    unfold GenStateWf
    dsimp only
    split <;> simp [hs]

theorem releaseRef_wf (s : State) (l : Nat) (la : Launch) (wid ja : Word) (last : State → Gen State)
    (hl : ∀ s, Memory.wf s.mem = true → GenStateWf (last s)) (h : Memory.wf s.mem = true) :
    GenStateWf (releaseRef s l la wid ja last) := by
  unfold releaseRef
  refine bind_state_wf (joinAmo_wf _ _ _ _ h) fun c s hs => ?_
  split
  · simp [GenStateWf, hs]
  · split
    · simp [GenStateWf, hs]
    · exact hl _ hs

theorem joinWrite_wf (s : State) (l : Nat) (a : Word) (img : Rec) (h : Memory.wf s.mem = true) :
    GenStateWf (joinWrite s l a img) := by
  unfold joinWrite
  split
  · exact h
  · refine bind_state_wf (apSpot_wf _ _ _ _ _ h) fun p s hs => ?_
    split
    · exact hs
    · (repeat' split) <;> first | exact hs | simp [GenStateWf, hs]

@[simp] theorem retireRec_wf (s : State) (l : Nat) (la : Launch) (run : Running) (k : EndKind) (h : Memory.wf s.mem = true) :
    Memory.wf (retireRec s l la run k).mem = true := by
  unfold retireRec
  dsimp only
  split
  · split
    · simp [h]
    · exact joinStep_wf _ (releaseRef_wf _ _ _ _ _ _ (fun s hs => by simp [GenStateWf, hs]) h)
  · exact joinStep_wf _ (contRead_wf _ _ _ _ h)
  · exact joinStep_wf _ (joinWrite_wf _ _ _ _ h)
  · split
    · exact h
    · exact joinStep_wf _ (releaseRef_wf _ _ _ _ _ _ (fun s hs => by simp [GenStateWf, hs]) h)
  · simp [h]
  · simp [h]

@[simp] theorem execRecordRetirement_wf (a0 : CoreNum) (s : State) (h : Memory.wf s.mem = true)
    : OutWf (execRecordRetirement a0 s) := by
  unfold execRecordRetirement
  dsimp only
  (repeat' split) <;> simp [h]

@[simp] theorem execContinuationPush_wf (a0 : CoreNum) (s : State) (h : Memory.wf s.mem = true)
    : OutWf (execContinuationPush a0 s) := by
  unfold execContinuationPush
  dsimp only
  split <;> simp [h]

@[simp] theorem execWatchWake_wf (a0 : CoreNum) (a1 : Nat) (s : State) (h : Memory.wf s.mem = true)
    : OutWf (execWatchWake a0 a1 s) := by
  unfold execWatchWake
  simp [h]

@[simp] theorem execRootRecordPush_wf (a0 : BitVec 16) (s : State) (h : Memory.wf s.mem = true)
    : OutWf (execRootRecordPush a0 s) := by
  unfold execRootRecordPush
  (repeat' split) <;> simp [h]

@[simp] theorem promoteGang_mem (s : State) : ((promoteGang s)).mem = s.mem := by
  unfold promoteGang
  (repeat' split) <;> simp

@[simp] theorem pipeRing_mem (s : State) (a1 : Nat) (a2 : Nat) (a3 : Nat) (a4 : Nat) (a5 : Nat)
    : ((pipeRing s a1 a2 a3 a4 a5)).mem = s.mem := by
  rfl

@[simp] theorem gangCore_wf (s : State) (a1 : Launch) (a2 : Role) (a3 : Nat) (h : Memory.wf s.mem = true)
    : Memory.wf ((gangCore s a1 a2 a3)).mem = true := by
  unfold gangCore
  simp [h]

@[simp] theorem gangPipe_mem (s : State) (a1 : Pipe) (a2 : Nat) (a3 : Nat) : ((gangPipe s a1 a2 a3)).mem = s.mem := by
  rfl

@[simp] theorem execGangAdmission_wf (s : State) (h : Memory.wf s.mem = true) : OutWf (execGangAdmission s) := by
  unfold execGangAdmission
  rw [outWf_next]
  split
  · exact h
  · split
    · exact h
    · dsimp only
      split
      · exact h
      split
      · simp [h]
      · simp only [promoteGang_mem, modLaunch_mem]
        refine foldl_wf _ (fun s r hs => foldl_wf _ (fun s k hs => by simp [hs]) _ hs) _ ?_
        simp only [detAdd_mem]
        refine foldl_wf _ (fun s p hs => ?_) _ (foldl_wf _ (fun s r hs => foldl_wf _ (fun s k hs => by simp [hs]) _ hs) _ h)
        split
        · exact foldl_wf _ (fun s k hs => by simp [hs]) _ hs
        · exact hs

@[simp] theorem execDetectorCopyUpdate_wf (s : State) (h : Memory.wf s.mem = true) : OutWf (execDetectorCopyUpdate s) := by
  unfold execDetectorCopyUpdate
  dsimp only
  (repeat' split) <;> first | exact h | simp [h]

@[simp] theorem execReplanEvent_wf (a0 : BitVec 16) (s : State) (h : Memory.wf s.mem = true) : OutWf (execReplanEvent a0 s) := by
  unfold execReplanEvent
  dsimp only
  (repeat' split) <;> exact h

@[simp] theorem dropLists_mem (s : State) (a1 : Launch) : ((dropLists s a1)).mem = s.mem := by
  unfold dropLists
  simp

@[simp] theorem execLaunchEnd_wf (a0 : BitVec 16) (s : State) (h : Memory.wf s.mem = true) : OutWf (execLaunchEnd a0 s) := by
  unfold execLaunchEnd
  split <;> simp [h]

@[simp] theorem killRunning_wf (s : State) (a1 : Nat) (h : Memory.wf s.mem = true)
    : Memory.wf ((killRunning s a1)).mem = true := by
  unfold killRunning
  simp [h]

@[simp] theorem killPutBy_mem (s : State) (a1 : BitVec 16) : ((killPutBy s a1)).mem = s.mem := by
  rfl

@[simp] theorem killOnCore_wf (s : State) (a1 : BitVec 16) (a2 : Nat) (h : Memory.wf s.mem = true)
    : Memory.wf ((killOnCore s a1 a2)).mem = true := by
  unfold killOnCore
  simp [h]

@[simp] theorem killMsgs_mem (s : State) (a1 : BitVec 16) : ((killMsgs s a1)).mem = s.mem := by
  rfl

@[simp] theorem dropClaims_mem (s : State) (a1 : Launch) : ((dropClaims s a1)).mem = s.mem := by
  unfold dropClaims
  simp

@[simp] theorem killLaunch_wf (s : State) (a1 : BitVec 16) (a2 : BitVec 8) (h : Memory.wf s.mem = true)
    : Memory.wf ((killLaunch s a1 a2)).mem = true := by
  unfold killLaunch
  dsimp only
  (repeat' split) <;> simp (contextual := true) [h]

@[simp] theorem execTaskKill_wf (s : State) (h : Memory.wf s.mem = true) : OutWf (execTaskKill s) := by
  unfold execTaskKill
  split <;> simp [h]

@[simp] theorem execPreemptionStop_wf (a0 : CoreNum) (s : State) (h : Memory.wf s.mem = true)
    : OutWf (execPreemptionStop a0 s) := by
  unfold execPreemptionStop
  dsimp only
  (repeat' split) <;> simp [h]

@[simp] theorem execHandlerStopLimit_wf (a0 : CoreNum) (s : State) (h : Memory.wf s.mem = true)
    : OutWf (execHandlerStopLimit a0 s) := by
  unfold execHandlerStopLimit
  dsimp only
  (repeat' split) <;> exact h

@[simp] theorem settle_wf (s : State) (a1 : Nat) (h : Memory.wf s.mem = true) : Memory.wf ((settle s a1)).mem = true := by
  unfold settle
  simp [h]

@[simp] theorem haltDone_wf (s : State) (a1 : Nat) (h : Memory.wf s.mem = true) : Memory.wf ((haltDone s a1)).mem = true := by
  unfold haltDone
  split <;> simp [h]

@[simp] theorem loadSp_wf (s : State) (a1 : Nat) (a2 : List Host.Cell) (a3 : List Nat) (h : Memory.wf s.mem = true)
    : Memory.wf ((loadSp s a1 a2 a3)).mem = true := by
  unfold loadSp
  simp (contextual := true) [h]

@[simp] theorem execContextSave_wf (a0 : CoreNum) (s : State) (h : Memory.wf s.mem = true) : OutWf (execContextSave a0 s) := by
  unfold execContextSave
  dsimp only
  (repeat' split) <;> simp [h]

@[simp] theorem execContextRestore_wf (a0 : CoreNum) (s : State) (h : Memory.wf s.mem = true)
    : OutWf (execContextRestore a0 s) := by
  unfold execContextRestore
  dsimp only
  (repeat' split) <;> simp [h]

@[simp] theorem execTrapEntry_wf (a0 : CoreNum) (s : State) (h : Memory.wf s.mem = true) : OutWf (execTrapEntry a0 s) := by
  unfold execTrapEntry
  dsimp only
  split <;> simp [h]

@[simp] theorem execWatchdog_wf (a0 : CoreNum) (s : State) (h : Memory.wf s.mem = true) : OutWf (execWatchdog a0 s) := by
  unfold execWatchdog
  simp [h]

end Sys2Proof.Machine
end

