-- ==== Sys2Proof/Laws/KeepDevice.lean ====
section
/-! SUPPORT. The memory keeps its canonical form: episode cores, host port, links, firmware, package and tick. -/

namespace Sys2Proof.Machine

/-! ### Machine/RiscVOps.lean -/

/-- What an instruction of a context comes to keeps the memory's form. -/
def EpWf : EpRes → Prop
  | .done s => Memory.wf s.mem = true
  | .wait s => Memory.wf s.mem = true
  | .exc _ _ => True

@[simp] theorem epWf_done (s : State) : EpWf (.done s) ↔ Memory.wf s.mem = true := Iff.rfl
@[simp] theorem epWf_wait (s : State) : EpWf (.wait s) ↔ Memory.wf s.mem = true := Iff.rfl
@[simp] theorem epWf_exc (c : Nat) (v : Word) : EpWf (.exc c v) := trivial

/-- The same of a fetch. -/
def FetchWf {α : Type} : Except EpRes α → Prop
  | .error r => EpWf r
  | .ok _ => True

@[simp] theorem sramPut_mem (s : State) (i off : Nat) (bs : List Byte) : (sramPut s i off bs).mem = s.mem := by
  induction bs generalizing s off with
  | nil => rfl
  | cons b bs ih => unfold sramPut; rw [ih]; simp

@[simp] theorem epPut_wf (s : State) (a1 : Nat) (a2 : Nat) (a3 : List Byte) (h : Memory.wf s.mem = true)
    : Memory.wf ((epPut s a1 a2 a3)).mem = true := by
  unfold epPut
  simp [h]

@[simp] theorem takeAction_wf (s : State) (a1 : Nat) (a2 : Nat) (a3 : Nat) (h : Memory.wf s.mem = true) (t)
    (ht : takeAction s a1 a2 a3 = some t) : Memory.wf t.mem = true := by
  revert ht
  unfold takeAction
  (try dsimp only)
  (repeat' split) <;> (intro ht; first | contradiction | (cases ht; first | exact h | (simp [h]; done)) | (simp_all (maxDischargeDepth := 40); done))

@[simp] theorem ringBell_wf (s : State) (a1 : Nat) (a2 : Bool) (a3 : Word) (a4 : Nat) (h : Memory.wf s.mem = true) (t)
    (ht : ringBell s a1 a2 a3 a4 = some t) : Memory.wf t.mem = true := by
  revert ht
  unfold ringBell
  (try dsimp only)
  (repeat' split) <;> (intro ht; first | contradiction | (cases ht; first | exact h | (simp [h]; done)) | (simp_all (maxDischargeDepth := 40); done))

@[simp] theorem epCsrOp_wf (s : State) (a1 : Nat) (a2 : RvWord) (h : Memory.wf s.mem = true) (t)
    (ht : epCsrOp s a1 a2 = some t) : Memory.wf t.mem = true := by
  revert ht
  unfold epCsrOp
  (try dsimp only)
  (repeat' split) <;> (intro ht; first | contradiction | (cases ht; first | exact h | (simp [h]; done)) | (simp_all (maxDischargeDepth := 40); done))

@[simp] theorem suspend_mem (s : State) (a1 : Nat) (a2 : Nat) (a3 : Word) : ((suspend s a1 a2 a3)).mem = s.mem := by
  rfl

theorem takeAction_keeps {s t : State} {n rd len : Nat} (h : takeAction s n rd len = some t) : t.mem = s.mem := by
  unfold takeAction at h
  dsimp only at h
  split at h
  · split at h
    · cases h; simp
    · contradiction
  · contradiction

theorem ringBell_keeps {s t : State} {n : Nat} {rew : Bool} {v : Word} {len : Nat} (h : ringBell s n rew v len = some t) :
    t.mem = s.mem := by
  unfold ringBell at h
  dsimp only at h
  generalize (if rew = true then (getCtx s n).rewBox else (getCtx s n).obsBox).length = k at h
  by_cases hk : 7 ≤ k
  · rw [if_pos hk] at h; contradiction
  · rw [if_neg hk] at h; cases h; simp

theorem epYields_wf (s : State) (n : Nat) (w : CWait) (h : Memory.wf s.mem = true) : EpWf (epYields s n w) := by
  unfold epYields
  simpa using h

theorem epWaits_wf (s : State) (n a len : Nat) (h : Memory.wf s.mem = true) : EpWf (epWaits s n a len) := by
  unfold epWaits
  simpa using h

theorem epReturns_wf (s : State) (n a len : Nat) (lr : Bool) (h : Memory.wf s.mem = true) : EpWf (epReturns s n a len lr) := by
  unfold epReturns
  split <;> simp [h]

theorem epLoad_wf (s : State) (n a len ilen rd : Nat) (k : Nat → State → State)
    (hk : ∀ v t, Memory.wf t.mem = true → Memory.wf (k v t).mem = true) (h : Memory.wf s.mem = true) :
    EpWf (epLoad s n a len ilen rd k) := by
  unfold epLoad
  dsimp only
  (repeat' split) <;>
    first
    | trivial
    | exact h
    | exact epWaits_wf _ _ _ _ h
    | exact epYields_wf _ _ _ h
    | (simpa using hk _ _ h; done)
    | exact epReturns_wf _ _ _ _ _ (hk _ _ h)
    | (rename_i t ht; rw [epWf_wait, takeAction_keeps ht]; exact h)
    | (simp [h]; done)

theorem epStore_wf (s : State) (n a len ilen v : Nat) (h : Memory.wf s.mem = true) : EpWf (epStore s n a len ilen v) := by
  unfold epStore
  dsimp only
  (repeat' split) <;>
    first
    | trivial
    | exact h
    | exact epWaits_wf _ _ _ _ h
    | exact epYields_wf _ _ _ h
    | (rename_i t ht; rw [epWf_wait, ringBell_keeps ht]; exact h)
    | (simp [h]; done)

theorem epAtomic_wf (s : State) (n a len f5 rs2 rd : Nat) (h : Memory.wf s.mem = true) : EpWf (epAtomic s n a len f5 rs2 rd) := by
  unfold epAtomic
  dsimp only
  (repeat' split) <;>
    first
    | trivial
    | exact h
    | exact epWaits_wf _ _ _ _ h
    | exact epReturns_wf _ _ _ _ _ (by simp [h])
    | (simp [h]; done)

theorem epCsrOp_keeps {s t : State} {n : Nat} {w : RvWord} (h : epCsrOp s n w = some t) : t.mem = s.mem := by
  unfold epCsrOp at h
  dsimp only at h
  split at h
  · contradiction
  · split at h
    · contradiction
    · cases h; simp

theorem epPure_wf (s : State) (n : Nat) (x : Option Ctx) (h : Memory.wf s.mem = true) : EpWf (epPure s n x) := by
  unfold epPure
  split
  · simp [h]
  · simp

theorem epExec_wf (s : State) (n : Nat) (w : RvWord) (ilen : Nat) (h : Memory.wf s.mem = true) : EpWf (epExec s n w ilen) := by
  unfold epExec
  dsimp only
  (repeat' split) <;>
    first
    | trivial
    | exact h
    | exact epPure_wf _ _ _ h
    | exact epStore_wf _ _ _ _ _ _ h
    | exact epAtomic_wf _ _ _ _ _ _ _ h
    | exact epLoad_wf _ _ _ _ _ _ _ (fun v t ht => by simpa using ht) h
    | (rename_i t ht; rw [epWf_done, epCsrOp_keeps ht]; exact h)

theorem epParcel_wf (s : State) (n : Nat) (a : Word) (h : Memory.wf s.mem = true) : FetchWf (epParcel s n a) := by
  unfold epParcel
  dsimp only
  (repeat' split) <;> first | trivial | exact h

theorem epFetch_wf (s : State) (n : Nat) (h : Memory.wf s.mem = true) : FetchWf (epFetch s n) := by
  unfold epFetch
  dsimp only
  have h1 := epParcel_wf s n (getCtx s n).pc h
  have h2 := epParcel_wf s n ((getCtx s n).pc + 2) h
  split
  · rename_i he; rw [he] at h1; exact h1
  · split
    · split <;> trivial
    · split
      · rename_i he; rw [he] at h2; exact h2
      · split <;> trivial

theorem epNext_wf (s : State) (n : Nat) (h : Memory.wf s.mem = true) : EpWf (epNext s n) := by
  unfold epNext
  have h1 := epFetch_wf s n h
  split
  · rename_i he; rw [he] at h1; exact h1
  · rename_i w len he
    have h2 := epExec_wf s n w len h
    split
    · rename_i t ht; rw [ht] at h2; simpa using h2
    · exact h2

/-! ### Machine/EpisodeEvents.lean -/

@[simp] theorem noteResident_mem (s : State) (n : Nat) : (noteResident s n).mem = s.mem := by
  unfold noteResident
  split <;> rfl

@[simp] theorem takeCore_mem (s : State) (k h : Nat) : (takeCore s k h).mem = s.mem := by
  unfold takeCore
  simp

@[simp] theorem switchNow_mem (s : State) (k : Nat) : (switchNow s k).mem = s.mem := by
  unfold switchNow
  (repeat' split) <;> simp

@[simp] theorem execEpisodeCoreInstruction_wf (i : BitVec 6) (s : State) (h : Memory.wf s.mem = true) :
    OutWf (execEpisodeCoreInstruction i s) := by
  unfold execEpisodeCoreInstruction
  dsimp only
  rw [outWf_next]
  have h1 := epNext_wf (noteResident (switchNow s i.toNat) (residentCtx (switchNow s i.toNat) i.toNat))
    (residentCtx (switchNow s i.toNat) i.toNat) (by simpa using h)
  split
  · simpa using h
  · rw [switchNow_mem]
    split
    · rename_i he; rw [he] at h1; exact h1
    · rename_i he; rw [he] at h1; exact h1
    · simp [h]

@[simp] theorem execContextException_wf (a0 : CtxNum) (s : State) (h : Memory.wf s.mem = true)
    : OutWf (execContextException a0 s) := by
  unfold execContextException
  dsimp only
  (repeat' split) <;> simp [h]

theorem getD_wf {x : Option State} {s : State} (hx : ∀ t, x = some t → Memory.wf t.mem = true) (h : Memory.wf s.mem = true) :
    Memory.wf (x.getD s).mem = true := by
  cases x with
  | none => exact h
  | some t => exact hx t rfl

@[simp] theorem execActTake_wf (x : CtxNum) (s : State) (h : Memory.wf s.mem = true) : OutWf (execActTake x s) := by
  unfold execActTake
  dsimp only
  rw [outWf_next]
  split
  · split
    · rw [switchNow_mem]
      exact getD_wf (fun t ht => by rw [takeAction_keeps ht]; exact h) h
    · exact h
  · exact h

@[simp] theorem bellEvent_wf (s : State) (n : Nat) (which : Bool) (h : Memory.wf s.mem = true) :
    Memory.wf (bellEvent s n which).mem = true := by
  unfold bellEvent
  split
  · split
    · rw [switchNow_mem]
      exact getD_wf (fun t ht => by rw [ringBell_keeps ht]; exact h) h
    · exact h
  · exact h

@[simp] theorem execObsBell_wf (x : CtxNum) (s : State) (h : Memory.wf s.mem = true) : OutWf (execObsBell x s) :=
  bellEvent_wf _ _ _ h

@[simp] theorem execRewBell_wf (x : CtxNum) (s : State) (h : Memory.wf s.mem = true) : OutWf (execRewBell x s) :=
  bellEvent_wf _ _ _ h

@[simp] theorem execActionExamination_wf (a0 : CtxNum) (s : State) (h : Memory.wf s.mem = true)
    : OutWf (execActionExamination a0 s) := by
  unfold execActionExamination
  simp [h]

@[simp] theorem execStepWatchdog_wf (a0 : CtxNum) (s : State) (h : Memory.wf s.mem = true) : OutWf (execStepWatchdog a0 s) := by
  unfold execStepWatchdog
  simp [h]

@[simp] theorem execEpisodeBudget_wf (a0 : CtxNum) (s : State) (h : Memory.wf s.mem = true) : OutWf (execEpisodeBudget a0 s) := by
  unfold execEpisodeBudget
  simp [h]

@[simp] theorem execSuspendedContextEnd_wf (a0 : CtxNum) (s : State) (h : Memory.wf s.mem = true)
    : OutWf (execSuspendedContextEnd a0 s) := by
  unfold execSuspendedContextEnd
  dsimp only
  (repeat' split) <;> exact h

@[simp] theorem scrubWindow_wf (s : State) (n : Nat) (k : Window) (h : Memory.wf s.mem = true) :
    Memory.wf (scrubWindow s n k).mem = true := by
  unfold scrubWindow
  dsimp only
  split
  · simpa using h
  · exact writeBytes_wf _ _ h

@[simp] theorem execScrub_wf (x : CtxNum) (s : State) (h : Memory.wf s.mem = true) : OutWf (execScrub x s) := by
  unfold execScrub
  dsimp only
  rw [outWf_next]
  have h1 := foldl_wf (fun s k => scrubWindow s x.toNat k) (fun t k ht => scrubWindow_wf t x.toNat k ht)
    (scrubbed (getCtx s x.toNat)) h
  split
  · exact h
  · split <;> simpa using h1

@[simp] theorem execContextSwitch_wf (a0 : BitVec 6) (s : State) (h : Memory.wf s.mem = true)
    : OutWf (execContextSwitch a0 s) := by
  unfold execContextSwitch
  simp [h]

/-! ### Machine/HostPort.lean -/

@[simp] theorem modHost_mem (s : State) (a1 : HostPort → HostPort) : ((modHost s a1)).mem = s.mem := by
  rfl

@[simp] theorem winPut_mem (s : State) (a1 : Nat) (a2 : Byte) : ((winPut s a1 a2)).mem = s.mem := by
  rfl

@[simp] theorem winBytes_mem (s : State) (a1 : Nat) (a2 : List Byte) : ((winBytes s a1 a2)).mem = s.mem := by
  unfold winBytes
  simp

@[simp] theorem countWrite_mem (s : State) (a1 : Bool) (a2 : HostPort → HostPort) : ((countWrite s a1 a2)).mem = s.mem := by
  rfl

@[simp] theorem lqTailPut_mem (s : State) (a1 : BitVec 32) : ((lqTailPut s a1)).mem = s.mem := by
  rfl

@[simp] theorem cqHeadPut_mem (s : State) (a1 : BitVec 32) : ((cqHeadPut s a1)).mem = s.mem := by
  rfl

@[simp] theorem sqTailPut_mem (s : State) (a1 : BitVec 32) : ((sqTailPut s a1)).mem = s.mem := by
  rfl

@[simp] theorem srHeadPut_mem (s : State) (a1 : BitVec 32) : ((srHeadPut s a1)).mem = s.mem := by
  rfl

@[simp] theorem bootLenPut_mem (s : State) (a1 : BitVec 32) : ((bootLenPut s a1)).mem = s.mem := by
  unfold bootLenPut
  simp

@[simp] theorem ctrlPut_mem (s : State) (a1 : Nat) (a2 : BitVec 32) : ((ctrlPut s a1 a2)).mem = s.mem := by
  unfold ctrlPut
  split <;> simp

@[simp] theorem ctrlBytes_mem (s : State) (a1 : Nat) (a2 : List (Option Byte)) : ((ctrlBytes s a1 a2)).mem = s.mem := by
  unfold ctrlBytes
  simp

@[simp] theorem hostPut_wf (s : State) (off : Nat) (bs : List (Option Byte)) (h : Memory.wf s.mem = true) :
    Memory.wf (hostPut s off bs).mem = true := by
  unfold hostPut
  split
  · exact h
  · dsimp only
    rw [ctrlBytes_mem]
    refine foldl_wf _ (fun t r ht => ?_) _ h
    refine foldl_wf _ (fun u b hu => ?_) _ (writeBytes_wf _ _ ht)
    split
    · simpa using hu
    · exact hu

@[simp] theorem execRead_wf (a0 : BitVec 28) (a1 : Nat) (s : State) (h : Memory.wf s.mem = true) : OutWf (execRead a0 a1 s) := by
  unfold execRead
  simp [h]

@[simp] theorem execWrite_wf (off : BitVec 28) (bytes : List Byte) (s : State) (h : Memory.wf s.mem = true) :
    OutWf (execWrite off bytes s) := hostPut_wf _ _ _ h

@[simp] theorem execWriteWithByteMask_wf (off : BitVec 28) (bytes : List (Option Byte)) (s : State)
    (h : Memory.wf s.mem = true) : OutWf (execWriteWithByteMask off bytes s) := hostPut_wf _ _ _ h

@[simp] theorem ctrlEvent_wf (s t : State) (h : Memory.wf s.mem = true) (ht : Memory.wf t.mem = true)
    : OutWf (ctrlEvent s t) := by
  unfold ctrlEvent
  rw [outWf_next]
  split <;> assumption

@[simp] theorem execLqTailWrite_wf (a0 : BitVec 32) (s : State) (h : Memory.wf s.mem = true) : OutWf (execLqTailWrite a0 s) := by
  unfold execLqTailWrite
  simp [h]

@[simp] theorem execCqHeadWrite_wf (a0 : BitVec 32) (s : State) (h : Memory.wf s.mem = true) : OutWf (execCqHeadWrite a0 s) := by
  unfold execCqHeadWrite
  simp [h]

@[simp] theorem execSqTailWrite_wf (a0 : BitVec 32) (s : State) (h : Memory.wf s.mem = true) : OutWf (execSqTailWrite a0 s) := by
  unfold execSqTailWrite
  simp [h]

@[simp] theorem execSrHeadWrite_wf (a0 : BitVec 32) (s : State) (h : Memory.wf s.mem = true) : OutWf (execSrHeadWrite a0 s) := by
  unfold execSrHeadWrite
  simp [h]

@[simp] theorem execBootLenWrite_wf (a0 : BitVec 32) (s : State) (h : Memory.wf s.mem = true)
    : OutWf (execBootLenWrite a0 s) := by
  unfold execBootLenWrite
  simp [h]

@[simp] theorem execActivate_wf (a0 : BitVec 2) (s : State) (h : Memory.wf s.mem = true) : OutWf (execActivate a0 s) := by
  unfold execActivate
  simp [h]

@[simp] theorem execPrecharge_wf (a0 : BitVec 2) (s : State) (h : Memory.wf s.mem = true) : OutWf (execPrecharge a0 s) := by
  unfold execPrecharge
  simp [h]

@[simp] theorem hostNop_wf (s : State) (h : Memory.wf s.mem = true) : OutWf (hostNop s) := by
  unfold hostNop
  simp [h]

@[simp] theorem execRefresh_wf (a0 : BitVec 2) (s : State) (h : Memory.wf s.mem = true) : OutWf (execRefresh a0 s) := by
  unfold execRefresh
  simp [h]

@[simp] theorem execSelfRefresh_wf (a0 : BitVec 2) (s : State) (h : Memory.wf s.mem = true) : OutWf (execSelfRefresh a0 s) := by
  unfold execSelfRefresh
  simp [h]

@[simp] theorem execPowerDownEntry_wf (a0 : BitVec 2) (s : State) (h : Memory.wf s.mem = true)
    : OutWf (execPowerDownEntry a0 s) := by
  unfold execPowerDownEntry
  simp [h]

@[simp] theorem execPowerDownExit_wf (a0 : BitVec 2) (s : State) (h : Memory.wf s.mem = true)
    : OutWf (execPowerDownExit a0 s) := by
  unfold execPowerDownExit
  simp [h]

@[simp] theorem execTrainingSequence_wf (a0 : BitVec 2) (s : State) (h : Memory.wf s.mem = true)
    : OutWf (execTrainingSequence a0 s) := by
  unfold execTrainingSequence
  simp [h]

@[simp] theorem execModeRegisterRead_wf (a0 : BitVec 2) (a1 : ModeReg) (s : State) (h : Memory.wf s.mem = true)
    : OutWf (execModeRegisterRead a0 a1 s) := by
  unfold execModeRegisterRead
  simp [h]

@[simp] theorem execModeRegisterWrite_wf (a0 : BitVec 2) (a1 : ModeReg) (a2 : BitVec 8) (s : State)
    (h : Memory.wf s.mem = true) : OutWf (execModeRegisterWrite a0 a1 a2 s) := by
  unfold execModeRegisterWrite
  (repeat' split) <;> exact h

@[simp] theorem execCompletionEntryWrite_wf (s : State) (h : Memory.wf s.mem = true) : OutWf (execCompletionEntryWrite s) := by
  unfold execCompletionEntryWrite
  dsimp only
  split
  · exact h
  · split
    · exact h
    · simp [h]

/-! ### Machine/Links.lean -/

@[simp] theorem acceptSent_mem (s : State) (a1 : Flit) : ((acceptSent s a1)).mem = s.mem := by
  unfold acceptSent
  split <;> rfl

@[simp] theorem respond_mem (s : State) (a1 : Flit) (a2 : BitVec 4) (a3 : Acf × Bool × Option FlitFault) (a4 : List PByte)
    : ((respond s a1 a2 a3 a4)).mem = s.mem := by
  unfold respond
  simp

@[simp] theorem refuse_mem (s : State) (a1 : Flit) (a2 : BitVec 4) (a3 : FlitFault) : ((refuse s a1 a2 a3)).mem = s.mem := by
  unfold refuse
  simp

@[simp] theorem linkRead_mem (s : State) (a1 : Flit) : ((linkRead s a1)).mem = s.mem := by
  unfold linkRead
  dsimp only
  (repeat' split) <;> simp

@[simp] theorem linkWrite_wf (s : State) (f : Flit) (bs : List PByte) (h : Memory.wf s.mem = true) :
    Memory.wf (linkWrite s f bs).mem = true := by
  unfold linkWrite
  dsimp only
  (repeat' split) <;> first | exact h | (simp [h]; done) |
    (rw [respond_mem]; exact foldl_wf _ (fun t r ht => by simp [ht]) _ h)

@[simp] theorem linkAtomic_wf (s : State) (f : Flit) (h : Memory.wf s.mem = true) : Memory.wf (linkAtomic s f).mem = true := by
  unfold linkAtomic
  dsimp only
  (repeat' split) <;> simp [h]

@[simp] theorem answered_mem (s : State) (a1 : Transit) : ((answered s a1)).mem = s.mem := by
  unfold answered
  dsimp only
  (repeat' split) <;> simp

@[simp] theorem pieceBack_mem (s : State) (a1 : Nat) (a2 : Transit) (a3 : Nat) (a4 : Flit) (a5 : List PByte)
    : ((pieceBack s a1 a2 a3 a4 a5)).mem = s.mem := by
  unfold pieceBack
  dsimp only
  (repeat' split) <;> simp

@[simp] theorem linkReply_wf (s : State) (f : Flit) (bs : List PByte) (h : Memory.wf s.mem = true) :
    Memory.wf (linkReply s f bs).mem = true := by
  unfold linkReply
  (repeat' split) <;> simp [h]

@[simp] theorem linkHere_wf (s : State) (f : Flit) (bs : List PByte) (h : Memory.wf s.mem = true) :
    Memory.wf (linkHere s f bs).mem = true := by
  unfold linkHere
  split
  · simpa using h
  · exact linkWrite_wf _ _ _ h
  · exact linkAtomic_wf _ _ h
  · exact linkReply_wf _ _ _ h
  · exact linkReply_wf _ _ _ h
  · exact linkReply_wf _ _ _ h
  · exact h

@[simp] theorem execFlitReceive_wf (port : BitVec 4) (f : Flit) (s : State) (h : Memory.wf s.mem = true) :
    OutWf (execFlitReceive port f s) := by
  unfold execFlitReceive
  dsimp only
  rw [outWf_next]
  have h1 : Memory.wf (acceptSent (noteRx s port.toNat f (flitData s port.toNat f)) f).mem = true := by simpa using h
  split
  · exact h
  · split
    · simpa using h
    · split
      · exact h
      · split
        · exact linkHere_wf _ _ _ h1
        · rw [sendTo_mem]; exact h1

@[simp] theorem resendAll_mem (s : State) (a1 a2 : Nat) : ((resendAll s a1 a2)).mem = s.mem := by
  unfold resendAll
  split <;> simp

@[simp] theorem execFlitRetransmit_wf (a0 : BitVec 4) (s : State) (h : Memory.wf s.mem = true)
    : OutWf (execFlitRetransmit a0 s) := by
  unfold execFlitRetransmit
  simp [h]

@[simp] theorem execPortTraining_wf (a0 : BitVec 4) (a1 : List (Nat × List (BitVec 4))) (s : State)
    (h : Memory.wf s.mem = true) : OutWf (execPortTraining a0 a1 s) := by
  unfold execPortTraining
  simp [h]

@[simp] theorem loseAccess_mem (s : State) (a1 : Transit) : ((loseAccess s a1)).mem = s.mem := by
  unfold loseAccess
  simp

@[simp] theorem execPortRemoval_wf (a0 : BitVec 4) (s : State) (h : Memory.wf s.mem = true) : OutWf (execPortRemoval a0 s) := by
  unfold execPortRemoval
  simp [h]

/-! ### Machine/Admission.lean -/

theorem readTab_wf {s : State} {asid : BitVec 12} {lid : BitVec 16} {a : Word} {n : Nat} {bs : List Byte} {u : State}
    (hu : readTab s asid lid a n = .ok bs u) (h : Memory.wf s.mem = true) : Memory.wf u.mem = true := by
  unfold readTab at hu
  split at hu
  · split at hu
    · contradiction
    · split at hu
      · contradiction
      · contradiction
      · dsimp only at hu
        split at hu
        · contradiction
        · cases hu
          exact hotParts_wf _ _ h
  · contradiction

theorem readTabs_wf {s : State} {lid : BitVec 16} {hd : Header} {t : Tables} {u : State} (hu : readTabs s lid hd = .ok t u)
    (h : Memory.wf s.mem = true) : Memory.wf u.mem = true := by
  unfold readTabs at hu
  dsimp only at hu
  split at hu
  · contradiction
  · contradiction
  · rename_i h1
    have h := readTab_wf h1 h
    split at hu
    · contradiction
    · contradiction
    · rename_i h2
      have h := readTab_wf h2 h
      split at hu
      · cases hu; exact h
      · split at hu
        · contradiction
        · contradiction
        · rename_i h3
          have h := readTab_wf h3 h
          split at hu
          · cases hu; exact h
          · split at hu
            · contradiction
            · contradiction
            · rename_i h4
              cases hu; exact readTab_wf h4 h

@[simp] theorem rejectWith_mem (s : State) (a1 : Word) (a2 : BitVec 16) (a3 : Reject)
    : ((rejectWith s a1 a2 a3)).mem = s.mem := by
  rfl

@[simp] theorem admitLaunch_mem (s : State) (a1 : Launch) : ((admitLaunch s a1)).mem = s.mem := by
  unfold admitLaunch
  simp

@[simp] theorem goOn_wf (s : State) (a : Admit) (h : Memory.wf s.mem = true) : Memory.wf (goOn s a).mem = true := by
  unfold goOn
  dsimp only
  split
  · simpa using h
  · split
    · simpa using h
    · split
      · simpa using h
      · split
        · exact h
        · simp [h]
        · rename_i he
          split <;> simp [readTabs_wf he h]

@[simp] theorem takeEntry_mem (s : State) : ((takeEntry s)).mem = s.mem := by
  rfl

@[simp] theorem execAdmission_wf (s : State) (h : Memory.wf s.mem = true) : OutWf (execAdmission s) := by
  unfold execAdmission
  rw [outWf_next]
  have h1 : Memory.wf (takeEntry s).mem = true := by simpa using h
  split
  · exact h
  · split
    · split
      · simpa using h
      · exact goOn_wf _ _ h
      · exact h
    · split
      · exact h
      · dsimp only
        split
        · exact goOn_wf _ _ h1
        · exact h1

/-! ### Machine/Diag.lean -/

@[simp] theorem secPut_mem (s : State) (a1 : Word) : ((secPut s a1)).mem = s.mem := by
  rfl

@[simp] theorem clearTag_mem (s : State) (a1 : Nat) : ((clearTag s a1)).mem = s.mem := by
  rfl

@[simp] theorem diagPut_mem (s : State) (a1 : Nat) (a2 : Word) : ((diagPut s a1 a2)).mem = s.mem := by
  unfold diagPut
  (repeat' split) <;> rfl

/-! ### Machine/Service.lean -/

@[simp] theorem respondCmd_wf (s : State) (a1 : Resp) (h : Memory.wf s.mem = true)
    : Memory.wf ((respondCmd s a1)).mem = true := by
  unfold respondCmd
  simp [h]

theorem winBytes_keeps (s : State) (o : Nat) (bs : List Byte) : (winBytes s o bs).mem = s.mem := by simp

@[simp] theorem respondCmd_mem (s : State) (r : Resp) : (respondCmd s r).mem = s.mem := by
  unfold respondCmd
  dsimp only
  rw [winBytes_keeps]

theorem command_wf (op : Nat) (body : Nat → Nat → Nat → State → Resp × State) (s : State)
    (hb : ∀ a b c t, Memory.wf t.mem = true → Memory.wf (body a b c t).2.mem = true) (h : Memory.wf s.mem = true) :
    OutWf (command op body s) := by
  unfold command
  rw [outWf_next]
  split
  · exact h
  · split
    · rw [respondCmd_mem]; exact h
    · dsimp only; rw [respondCmd_mem]; exact hb _ _ _ s h

@[simp] theorem doneWith_mem (s : State) : ((doneWith s).2).mem = s.mem := by
  rfl

@[simp] theorem killCmd_wf (s : State) (lid : BitVec 16) (h : Memory.wf s.mem = true) : Memory.wf (killCmd s lid).mem = true := by
  unfold killCmd
  dsimp only
  (repeat' split) <;> simp [h]

@[simp] theorem execKill_wf (s : State) (h : Memory.wf s.mem = true) : OutWf (execKill s) := by
  unfold execKill
  rw [outWf_next]
  (repeat' split) <;> simp [h]

@[simp] theorem execBind_wf (s : State) (h : Memory.wf s.mem = true) : OutWf (execBind s) := by
  refine command_wf _ _ _ (fun d1 d2 _ t ht => ?_) h
  split
  · exact ht
  · split
    · exact ht
    · split
      · exact ht
      · simpa using ht

@[simp] theorem execStop_wf (s : State) (h : Memory.wf s.mem = true) : OutWf (execStop s) := by
  refine command_wf _ _ _ (fun d1 _ _ t ht => ?_) h
  split
  · exact ht
  · dsimp only
    split
    · exact ht
    · exact ht
    · exact ht
    · simpa using ht
    · simpa using ht

@[simp] theorem execStart_wf (s : State) (h : Memory.wf s.mem = true) : OutWf (execStart s) := by
  unfold execStart
  split
  · exact h
  · refine command_wf _ _ _ (fun n a _ t ht => ?_) h
    dsimp only
    split
    · exact ht
    · split
      · exact ht
      · simpa using ht

@[simp] theorem execEpread_wf (s : State) (h : Memory.wf s.mem = true) : OutWf (execEpread s) := by
  refine command_wf _ _ _ (fun n _ _ t ht => ?_) h
  split <;> exact ht

@[simp] theorem writeLock_mem (s : State) (a1 : Nat) (a2 : BitVec 4) : ((writeLock s a1 a2)).mem = s.mem := by
  rfl

@[simp] theorem execTagset_wf (s : State) (h : Memory.wf s.mem = true) : OutWf (execTagset s) := by
  refine command_wf _ _ _ (fun a n l t ht => ?_) h
  split
  · exact ht
  · rw [doneWith_mem]
    exact forUp_wf _ _ (fun i u hu => by simpa using hu) ht

@[simp] theorem execOvfset_wf (s : State) (h : Memory.wf s.mem = true) : OutWf (execOvfset s) := by
  refine command_wf _ _ _ (fun l a n t ht => ?_) h
  split
  · exact ht
  · split
    · exact ht
    · simpa using ht

@[simp] theorem killHolders_wf (s : State) (l : Nat) (h : Memory.wf s.mem = true) : Memory.wf (killHolders s l).mem = true := by
  unfold killHolders
  exact foldl_wf _ (fun t k ht => killLaunch_wf _ _ _ ht) _ (foldl_wf _ (fun t k ht => killLaunch_wf _ _ _ ht) _ h)

@[simp] theorem mapOut_wf (s : State) (l : Nat) (v : Bool) (h : Memory.wf s.mem = true)
    : Memory.wf (mapOut s l v).mem = true := by
  unfold mapOut
  have h1 := killHolders_wf s l h
  dsimp only
  split
  · simpa using h1
  · exact h1

@[simp] theorem hostBufPut_wf (s : State) (off : Nat) (bs : List Byte) (h : Memory.wf s.mem = true) :
    Memory.wf (hostBufPut s off bs).mem = true := writeBytes_wf _ _ h

@[simp] theorem execMapout_wf (s : State) (h : Memory.wf s.mem = true) : OutWf (execMapout s) := by
  refine command_wf _ _ _ (fun l v off t ht => ?_) h
  split
  · exact ht
  · split
    · exact ht
    · exact hostBufPut_wf _ _ _ (mapOut_wf _ _ _ ht)

@[simp] theorem resetCore_wf (s : State) (l : Nat) (h : Memory.wf s.mem = true) : Memory.wf (resetCore s l).mem = true := by
  unfold resetCore
  rw [modCore_mem]
  exact clearSp_wf _ (by simpa using h)

@[simp] theorem execRestart_wf (s : State) (h : Memory.wf s.mem = true) : OutWf (execRestart s) := by
  refine command_wf _ _ _ (fun l _ _ t ht => ?_) h
  split
  · exact ht
  · split
    · exact ht
    · rw [doneWith_mem]
      apply resetCore_wf
      split
      · exact killLaunch_wf _ _ _ ht
      · exact ht

@[simp] theorem execAttest_wf (s : State) (h : Memory.wf s.mem = true) : OutWf (execAttest s) := by
  refine command_wf _ _ _ (fun d1 d2 off t ht => ?_) h
  split
  · exact ht
  · exact hostBufPut_wf _ _ _ ht

@[simp] theorem execIdkey_wf (s : State) (h : Memory.wf s.mem = true) : OutWf (execIdkey s) := by
  refine command_wf _ _ _ (fun _ _ off t ht => ?_) h
  split
  · exact ht
  · exact hostBufPut_wf _ _ _ ht

@[simp] theorem execDread_wf (s : State) (h : Memory.wf s.mem = true) : OutWf (execDread s) := by
  refine command_wf _ _ _ (fun a _ _ t ht => ?_) h
  split <;> exact ht

@[simp] theorem setPart_mem (s : State) (a1 : Nat) (a2 : Partition) : ((setPart s a1 a2)).mem = s.mem := by
  rfl

@[simp] theorem execPartitionCreate_wf (a0 : BitVec 3) (a1 : List CoreNum) (a2 : List (BitVec 12)) (s : State)
    (h : Memory.wf s.mem = true) : OutWf (execPartitionCreate a0 a1 a2 s) := by
  unfold execPartitionCreate
  simp [h]

@[simp] theorem execPartitionHalt_wf (a0 : BitVec 3) (s : State) (h : Memory.wf s.mem = true)
    : OutWf (execPartitionHalt a0 s) := by
  unfold execPartitionHalt
  dsimp only
  rw [outWf_next]
  split
  · exact h
  · exact foldl_wf _ (fun t l ht => haltDone_wf _ _ (by simpa using ht)) _ (by simpa using h)

@[simp] theorem saveCore_wf (s : State) (l : Nat) (h : Memory.wf s.mem = true) : Memory.wf (saveCore s l).2.mem = true := by
  unfold saveCore
  dsimp only
  rw [modCore_mem]
  exact clearSp_wf _ h

@[simp] theorem execPartitionSave_wf (p : BitVec 3) (s : State) (h : Memory.wf s.mem = true) : OutWf (execPartitionSave p s) := by
  unfold execPartitionSave
  dsimp only
  rw [outWf_next]
  split
  · exact h
  · rw [setPart_mem]
    exact foldl_inv (fun a : List (Nat × Core × List Host.Cell × List Nat) × State => Memory.wf a.2.mem = true) _
      (fun a l ha => saveCore_wf _ _ ha) _ _ h

@[simp] theorem loadCore_wf (s : State) (v : Nat × Core × List Host.Cell × List Nat) (h : Memory.wf s.mem = true) :
    Memory.wf (loadCore s v).mem = true := by
  unfold loadCore
  rw [modCore_mem]
  exact loadSp_wf _ _ _ _ h

@[simp] theorem resumeCore_mem (s : State) (l : Nat) : (resumeCore s l).mem = s.mem := by
  unfold resumeCore
  dsimp only
  split <;> simp

@[simp] theorem dropVacant_wf (s : State) (p : Nat) (k : Partition) (h : Memory.wf s.mem = true) :
    Memory.wf (dropVacant s p k).mem = true := by
  unfold dropVacant
  dsimp only
  rw [setPart_mem]
  exact foldl_wf _ (fun t i ht => killLaunch_wf _ _ _ ht) _ h

@[simp] theorem execPartitionRestore_wf (p : BitVec 3) (s : State) (h : Memory.wf s.mem = true) :
    OutWf (execPartitionRestore p s) := by
  unfold execPartitionRestore
  dsimp only
  rw [outWf_next]
  split
  · exact h
  · split
    · exact dropVacant_wf _ _ _ h
    · split
      · exact foldl_wf _ (fun t l ht => by simpa using ht) _ (by simpa using h)
      · split
        · exact h
        · rw [setPart_mem]
          exact foldl_wf _ (fun t v ht => loadCore_wf _ _ ht) _ h

@[simp] theorem execPartitionDestroy_wf (p : BitVec 3) (s : State) (h : Memory.wf s.mem = true) :
    OutWf (execPartitionDestroy p s) := by
  unfold execPartitionDestroy
  dsimp only
  rw [outWf_next]
  split
  · exact h
  · rw [setPart_mem]
    have h1 := foldl_wf (fun s i => killLaunch s i 0x07) (fun t i ht => killLaunch_wf t i 0x07 ht)
      ((s.launches.filter fun la => (getPart s p.toNat).asids.contains la.asid && la.st != .ended).map (·.lid)) h
    split
    · exact foldl_wf _ (fun t l ht => by simpa using ht) _ h1
    · exact h1

@[simp] theorem takeFault_mem (s : State) (a1 : Nat) : ((takeFault s a1)).mem = s.mem := by
  unfold takeFault
  dsimp only
  (repeat' split) <;> rfl

@[simp] theorem unknownCmd_mem (s : State) : (unknownCmd s).mem = s.mem := by
  unfold unknownCmd
  dsimp only
  split
  · rw [respondCmd_mem]
  · rfl

/-- What an instruction of a service core comes to keeps the memory's form. -/
def SvcWf : SvcRes → Prop
  | .done t => Memory.wf t.mem = true
  | _ => True

@[simp] theorem getSvc_modSvc (s : State) {k : Nat} (h : k < 4) (f : SvcCore → SvcCore) :
    getSvc (modSvc s k f) k = f (getSvc s k) := by
  simp [getSvc, modSvc, vget, vset, h]

@[simp] theorem getSvc_modSvc_ne (s : State) {k m : Nat} (h : k ≠ m) (f : SvcCore → SvcCore) :
    getSvc (modSvc s k f) m = getSvc s m := by
  simp [getSvc, modSvc, vget, vset, h]

@[simp] theorem modSvc_mem (s : State) (k : Nat) (f : SvcCore → SvcCore) : (modSvc s k f).mem = s.mem := rfl
@[simp] theorem modHart_mem (s : State) (k : Nat) (f : Ctx → Ctx) : (modHart s k f).mem = s.mem := rfl
@[simp] theorem startSvc_mem (s : State) : (startSvc s).mem = s.mem := rfl

theorem svcLoad_wf (s : State) (k a len : Nat) (put : Nat → Ctx → Ctx) (h : Memory.wf s.mem = true) :
    SvcWf (svcLoad s k a len put) := by
  unfold svcLoad
  (repeat' split) <;> first | trivial | simpa [SvcWf] using h

theorem svcStore_wf (s : State) (a len v : Nat) (h : Memory.wf s.mem = true) : SvcWf (svcStore s a len v) := by
  unfold svcStore
  (repeat' split) <;> first | trivial | simp [SvcWf, h]

theorem svcAtomic_wf (s : State) (k a len f5 rs2 rd : Nat) (h : Memory.wf s.mem = true) :
    SvcWf (svcAtomic s k a len f5 rs2 rd) := by
  unfold svcAtomic
  dsimp only
  (repeat' split) <;> first | trivial | simp [SvcWf, h]

theorem svcCsrOp_keeps {s t : State} {k : Nat} {w : RvWord} (h : svcCsrOp s k w = some t) : t.mem = s.mem := by
  unfold svcCsrOp at h
  dsimp only at h
  split at h
  · contradiction
  · split at h
    · contradiction
    · cases h
      rw [modHart_mem]
      split <;> rfl

theorem svcExec_wf (s : State) (k : Nat) (w : RvWord) (ilen : Nat) (h : Memory.wf s.mem = true) : SvcWf (svcExec s k w ilen) := by
  unfold svcExec
  dsimp only
  (repeat' split) <;>
    first
    | trivial
    | exact h
    | exact svcLoad_wf _ _ _ _ _ h
    | exact svcStore_wf _ _ _ _ h
    | exact svcAtomic_wf _ _ _ _ _ _ _ h
    | (rename_i t ht; simpa [SvcWf, svcCsrOp_keeps ht] using h)

theorem svcParcel_res (s : State) (a : Word) : ∀ r, svcParcel s a = .error r → SvcWf r := by
  intro r hr
  unfold svcParcel at hr
  (repeat' split at hr) <;> first | contradiction | (cases hr; trivial)

theorem svcFetch_res (s : State) (k : Nat) : ∀ r, svcFetch s k = .error r → SvcWf r := by
  intro r hr
  unfold svcFetch at hr
  dsimp only at hr
  split at hr
  · rename_i he; cases hr; exact svcParcel_res _ _ _ he
  · split at hr
    · split at hr <;> first | contradiction | (cases hr; trivial)
    · split at hr
      · rename_i he; cases hr; exact svcParcel_res _ _ _ he
      · contradiction

@[simp] theorem svcStep_wf (s : State) (k : Nat) (h : Memory.wf s.mem = true) : Memory.wf (svcStep s k).mem = true := by
  have hn : SvcWf (svcNext s k) := by
    unfold svcNext
    split
    · rename_i he; exact svcFetch_res _ _ _ he
    · exact svcExec_wf _ _ _ _ h
  unfold svcStep
  split
  · rename_i t ht; rw [ht] at hn; exact hn
  · exact h
  · exact h

@[simp] theorem execServiceCoreInstruction_wf (a : FirmwareAction) (s : State) (h : Memory.wf s.mem = true) :
    OutWf (execServiceCoreInstruction a s) := by
  unfold execServiceCoreInstruction
  rw [outWf_next]
  split
  · exact h
  · cases a <;> dsimp only
    case writeMem pa bytes => split <;> simp [h]
    case copyMem src dst len => split <;> simp [h]
    case setShadow l n => split <;> simpa using h
    case mapOut l v =>
      split
      · exact h
      · exact mapOut_wf _ _ _ h
    case hart k => exact svcStep_wf _ _ h
    all_goals simpa using h

/-! ### Machine/Package.lean -/

@[simp] theorem execDeviceReset_wf (s : State) (h : Memory.wf s.mem = true) : OutWf (execDeviceReset s) := by
  unfold execDeviceReset
  rw [outWf_next]
  exact filter_wf _ h

@[simp] theorem execResetRelease_wf (s : State) (h : Memory.wf s.mem = true) : OutWf (execResetRelease s) := by
  unfold execResetRelease
  simp [h]

@[simp] theorem execImageVerification_wf (s : State) (h : Memory.wf s.mem = true) : OutWf (execImageVerification s) := by
  unfold execImageVerification
  simp [h]

@[simp] theorem execVacancyMapWrite_wf (a0 : BitVec 192) (s : State) (h : Memory.wf s.mem = true)
    : OutWf (execVacancyMapWrite a0 s) := by
  unfold execVacancyMapWrite
  simp [h]

@[simp] theorem execBypass_wf (s : State) (h : Memory.wf s.mem = true) : OutWf (execBypass s) := by
  unfold execBypass
  simp [h]

@[simp] theorem execIdcode_wf (s : State) (h : Memory.wf s.mem = true) : OutWf (execIdcode s) := by
  unfold execIdcode
  simp [h]

@[simp] theorem execSamplePreload_wf (s : State) (h : Memory.wf s.mem = true) : OutWf (execSamplePreload s) := by
  unfold execSamplePreload
  simp [h]

@[simp] theorem execExtest_wf (s : State) (h : Memory.wf s.mem = true) : OutWf (execExtest s) := by
  unfold execExtest
  simp [h]

@[simp] theorem execFastScanRead_wf (a0 : ScanAddr) (s : State) (h : Memory.wf s.mem = true) : OutWf (execFastScanRead a0 s) := by
  unfold execFastScanRead
  (repeat' split) <;> exact h

@[simp] theorem alarmRecords_mem (s : State) : ((alarmRecords s)).mem = s.mem := by
  unfold alarmRecords
  simp

@[simp] theorem execSensorTrip_wf (a0 : BitVec 2) (s : State) (h : Memory.wf s.mem = true) : OutWf (execSensorTrip a0 s) := by
  unfold execSensorTrip
  dsimp only
  split <;> simp [h]

@[simp] theorem execTaghistClear_wf (a0 : Bool) (s : State) (h : Memory.wf s.mem = true) : OutWf (execTaghistClear a0 s) := by
  unfold execTaghistClear
  simp [h]

@[simp] theorem execDutySet_wf (a0 : BitVec 7) (a1 : BitVec 16) (s : State) (h : Memory.wf s.mem = true)
    : OutWf (execDutySet a0 a1 s) := by
  unfold execDutySet
  simp [h]

@[simp] theorem gateNow_wf (s : State) (b : Nat) (h : Memory.wf s.mem = true) : Memory.wf (gateNow s b).mem = true := by
  unfold gateNow
  dsimp only
  rw [modBlock_mem]
  exact foldl_wf _ (fun t l ht => resetCore_wf _ _ ht) _ (by simpa using h)

@[simp] theorem execBlockGating_wf (b : BitVec 5) (s : State) (h : Memory.wf s.mem = true) : OutWf (execBlockGating b s) := by
  unfold execBlockGating
  dsimp only
  rw [outWf_next]
  split
  · exact h
  · split
    · simpa using h
    · split
      · exact gateNow_wf _ _ h
      · simpa using h

@[simp] theorem gateLimit_wf (s : State) (n : Nat) (h : Memory.wf s.mem = true) : Memory.wf (gateLimit s n).mem = true := by
  unfold gateLimit
  (repeat' split) <;> simp [h]

@[simp] theorem execGatingTimeout_wf (b : BitVec 5) (s : State) (h : Memory.wf s.mem = true) : OutWf (execGatingTimeout b s) :=
  gateLimit_wf s _ h

@[simp] theorem execBlockPowerUp_wf (a0 : BitVec 5) (s : State) (h : Memory.wf s.mem = true) : OutWf (execBlockPowerUp a0 s) := by
  unfold execBlockPowerUp
  simp [h]

@[simp] theorem traceDrain_wf (s : State) (b : Nat) (h : Memory.wf s.mem = true) : Memory.wf (traceDrain s b).mem = true := by
  unfold traceDrain
  dsimp only
  (repeat' split) <;> simp [h]

@[simp] theorem execRegisterWrite_wf (a0 : RegAddr) (a1 : Word) (s : State) (h : Memory.wf s.mem = true)
    : OutWf (execRegisterWrite a0 a1 s) := by
  unfold execRegisterWrite
  split <;> simp [h]

/-! ### Machine/Tick.lean -/

@[simp] theorem countClasses_mem (s : State) (a1 : Nat) : ((countClasses s a1)).mem = s.mem := by
  unfold countClasses
  split <;> simp

@[simp] theorem samples_mem (s : State) : (samples s).mem = s.mem := by
  unfold samples
  rw [forUp_mem]
  intro l t
  simp

@[simp] theorem execTraceSample_wf (s : State) (h : Memory.wf s.mem = true) : OutWf (execTraceSample s) := by
  unfold execTraceSample
  rw [outWf_next]
  split
  · simpa using h
  · exact h

@[simp] theorem endCore_wf (s : State) (l : Nat) (h : Memory.wf s.mem = true) : Memory.wf (endCore s l).mem = true := by
  unfold endCore
  split
  · exact h
  · dsimp only
    rw [modCore_mem]
    apply haltDone_wf
    split
    · exact forUp_wf _ _ (fun i t ht => tryStart_wf _ _ _ ht) h
    · exact forUp_wf _ _ (fun i t ht => tryStart_wf _ _ _ ht) (drainAp_wf _ _ h)

@[simp] theorem examineAll_mem (s : State) (a1 : Nat) : ((examineAll s a1)).mem = s.mem := by
  unfold examineAll
  simp

@[simp] theorem endCtx_mem (s : State) (a1 : Nat) : ((endCtx s a1)).mem = s.mem := by
  unfold endCtx
  split <;> simp

@[simp] theorem beginCtx_mem (s : State) (a1 : Nat) : ((beginCtx s a1)).mem = s.mem := by
  unfold beginCtx
  simp

@[simp] theorem epCycle_mem (s : State) (a1 : Nat) : ((epCycle s a1)).mem = s.mem := by
  unfold epCycle
  dsimp only
  split <;> simp

@[simp] theorem beginEp_mem (s : State) (a1 : Nat) : ((beginEp s a1)).mem = s.mem := by
  unfold beginEp
  dsimp only
  (repeat' split) <;> simp

@[simp] theorem endTick_wf (s : State) (h : Memory.wf s.mem = true) : Memory.wf (endTick s).mem = true := by
  unfold endTick
  split
  · exact h
  · have h1 := foldl_wf endCore (fun t l ht => endCore_wf t l ht) (s.cores.map (·.1)) h
    have h2 : ∀ s : State, Memory.wf s.mem = true →
        Memory.wf (forUp 192 s fun l s => countClasses (if clrDue s l then clearCls s l else s) l).mem = true := fun s hs =>
      forUp_wf _ _ (fun l t ht => by rw [countClasses_mem]; split <;> simp [ht]) hs
    have h3 : ∀ s : State, Memory.wf s.mem = true → Memory.wf ((s.blocks.map (·.1)).foldl gateLimit s).mem = true := fun s hs =>
      foldl_wf gateLimit (fun t l ht => gateLimit_wf t l ht) _ hs
    have h4 := h3 _ (h2 _ h1)
    dsimp only
    split <;> simpa using h4

@[simp] theorem landDue_wf (s : State) (l : Nat) (c2 : Bool) (h : Memory.wf s.mem = true)
    : Memory.wf (landDue s l c2).mem = true := by
  unfold landDue
  refine iter_wf _ (fun t ht => ?_) _ h
  split
  · exact landFlight_wf _ _ _ ht
  · exact ht

@[simp] theorem beginCore_wf (s : State) (l : Nat) (h : Memory.wf s.mem = true) : Memory.wf (beginCore s l).mem = true := by
  unfold beginCore
  dsimp only
  rw [modCore_mem]
  split <;> simp [h]

@[simp] theorem beginTick_wf (s : State) (h : Memory.wf s.mem = true) : Memory.wf (beginTick s).mem = true := by
  unfold beginTick
  dsimp only
  rw [foldl_mem _ (fun t a => hotClose_mem t a), foldl_mem _ (fun t a => beginEp_mem t a)]
  exact foldl_wf _ (fun t l ht => beginCore_wf t l ht) _ h

@[simp] theorem freezeNow_wf (s : State) (h : Memory.wf s.mem = true) : Memory.wf (freezeNow s).mem = true := endTick_wf s h

@[simp] theorem execFreeze_wf (s : State) (h : Memory.wf s.mem = true) : OutWf (execFreeze s) := by
  unfold execFreeze
  rw [outWf_next]
  split
  · exact h
  · exact freezeNow_wf s h

@[simp] theorem execFreezeAtTick_wf (s : State) (h : Memory.wf s.mem = true) : OutWf (execFreezeAtTick s) := by
  unfold execFreezeAtTick
  rw [outWf_next]
  split
  · exact h
  · exact freezeNow_wf s h

@[simp] theorem advanceTick_wf (s : State) (h : Memory.wf s.mem = true) : Memory.wf (advanceTick s).mem = true := by
  unfold advanceTick
  split
  · exact freezeNow_wf s h
  · exact beginTick_wf _ (endTick_wf s h)

@[simp] theorem eccError_mem (s : State) (a1 : Nat) (a2 : Bool) : ((eccError s a1 a2)).mem = s.mem := by
  unfold eccError
  (repeat' split) <;> rfl

@[simp] theorem ceNextPage_mem (s : State) (l : Nat) (d : Bool) : (ceNextPage s l d).mem = s.mem := by
  unfold ceNextPage
  dsimp only
  (repeat' split) <;> rfl

@[simp] theorem otherMove_wf (m : Move) (s : State) (h : Memory.wf s.mem = true) : Memory.wf (otherMove m s).mem = true := by
  unfold otherMove
  split
  · exact h
  · cases m <;> dsimp only
    case tick => exact advanceTick_wf s h
    case depart l i =>
      split
      · exact departEnt_wf _ _ _ h
      · exact h
    case prefetch l n => split <;> simp [h]
    case unit l => simp [h]
    case traceDrain b => exact traceDrain_wf _ _ h
    all_goals simp [h]

/-- Every move of a list keeps the memory's form. -/
def MovesWf (fs : List (State → MoveOut)) : Prop := ∀ f ∈ fs, ∀ t, Memory.wf t.mem = true → OutWf (f t)

@[simp] theorem movesWf_nil : MovesWf [] := by intro f hf; cases hf

@[simp] theorem movesWf_cons (f : State → MoveOut) (fs : List (State → MoveOut)) :
    MovesWf (f :: fs) ↔ (∀ t, Memory.wf t.mem = true → OutWf (f t)) ∧ MovesWf fs := by
  simp [MovesWf]

@[simp] theorem movesWf_append (fs gs : List (State → MoveOut)) : MovesWf (fs ++ gs) ↔ MovesWf fs ∧ MovesWf gs := by
  simp only [MovesWf, List.mem_append]
  exact ⟨fun h => ⟨fun f hf => h f (.inl hf), fun f hf => h f (.inr hf)⟩, fun h f hf => hf.elim (h.1 f) (h.2 f)⟩

theorem movesWf_flatMap {α : Type} (xs : List α) (g : α → List (State → MoveOut)) (h : ∀ a, MovesWf (g a)) :
    MovesWf (xs.flatMap g) := by
  intro f hf
  obtain ⟨a, _, ha⟩ := List.mem_flatMap.mp hf
  exact h a f ha

theorem movesWf_map {α : Type} (xs : List α) (g : α → State → MoveOut) (h : ∀ a t, Memory.wf t.mem = true → OutWf (g a t)) :
    MovesWf (xs.map g) := by
  intro f hf
  obtain ⟨a, _, ha⟩ := List.mem_map.mp hf
  exact ha ▸ h a

theorem movesWf_replicate (n : Nat) (g : State → MoveOut) (h : ∀ t, Memory.wf t.mem = true → OutWf (g t)) :
    MovesWf (List.replicate n g) := by
  intro f hf
  obtain ⟨_, rfl⟩ := List.mem_replicate.mp hf
  exact h

@[simp] theorem agentMoves_wf (s : State) (a : Agent) : MovesWf (agentMoves s a) := by
  unfold agentMoves
  split <;> simp (contextual := true)

@[simp] theorem streamMoves_wf (s : State) (l n : Nat) : MovesWf (streamMoves s l n) := by
  unfold streamMoves
  dsimp only
  split <;> simp (contextual := true)

@[simp] theorem coreMoves_wf (issue : Nat → Eng → State → MoveOut)
    (hi : ∀ l e t, Memory.wf t.mem = true → OutWf (issue l e t)) (s : State) (l : Nat) : MovesWf (coreMoves issue s l) := by
  unfold coreMoves
  dsimp only
  simp only [movesWf_append]
  repeat' apply And.intro
  all_goals first
    | exact agentMoves_wf _ _
    | exact movesWf_replicate _ _ (by simp (contextual := true))
    | exact movesWf_flatMap _ _ (fun n => streamMoves_wf _ _ n)
    | exact movesWf_map _ _ (by simp (contextual := true))
    | (refine movesWf_flatMap _ _ fun w => ?_; split <;> simp (contextual := true); done)
    | (split <;> simp (contextual := true); done)
    | (simp (contextual := true) [hi]; done)

@[simp] theorem deviceMoves_wf (s : State) : MovesWf (deviceMoves s) := by
  unfold deviceMoves
  simp only [movesWf_append]
  repeat' apply And.intro
  all_goals first
    | exact agentMoves_wf _ _
    | exact movesWf_replicate _ _ (by simp (contextual := true))
    | exact movesWf_map _ _ (by simp (contextual := true))
    | (refine movesWf_flatMap _ _ fun w => ?_; simp (contextual := true); done)
    | (simp (contextual := true); done)

@[simp] theorem barrierMoves_wf (s : State) : MovesWf (barrierMoves s) := by
  unfold barrierMoves
  simp only [movesWf_append]
  exact ⟨movesWf_replicate _ _ fun t ht => by split <;> simp [ht], movesWf_replicate _ _ fun t ht => by split <;> simp [ht]⟩

@[simp] theorem ctxMoves_wf (p : Nat × Ctx) : MovesWf (ctxMoves p) := by
  unfold ctxMoves
  dsimp only
  split <;> (try split) <;> simp (contextual := true)

@[simp] theorem epMoves_wf (i : Nat) : MovesWf (epMoves i) := by
  unfold epMoves
  simp (contextual := true)

@[simp] theorem rootMoves_wf (s : State) : MovesWf (rootMoves s) := movesWf_map _ _ fun _ t ht => execRootRecordPush_wf _ t ht

theorem agenda_wf (issue : Nat → Eng → State → MoveOut) (hi : ∀ l e t, Memory.wf t.mem = true → OutWf (issue l e t))
    (s : State) : MovesWf (agenda issue s) := by
  unfold agenda
  split
  · simp
  · simp only [movesWf_append]
    exact ⟨⟨⟨⟨⟨⟨deviceMoves_wf s, movesWf_flatMap _ _ fun c => coreMoves_wf issue hi s c.1⟩, rootMoves_wf s⟩, barrierMoves_wf s⟩,
      movesWf_flatMap _ _ ctxMoves_wf⟩, movesWf_flatMap _ _ epMoves_wf⟩, movesWf_map _ _ fun b t ht => traceDrain_wf _ _ ht⟩

theorem defaultStep_wf (issue : Nat → Eng → State → MoveOut) (hi : ∀ l e t, Memory.wf t.mem = true → OutWf (issue l e t))
    (s : State) (h : Memory.wf s.mem = true) : OutWf (defaultStep issue s) := by
  unfold defaultStep
  split
  · simp [h]
  · split
    · rename_i f hf
      exact agenda_wf issue hi s f (List.mem_of_getElem? hf) _ h
    · exact advanceTick_wf s h

end Sys2Proof.Machine
end

