-- ==== Sys2Proof/Tests/Slice0.lean ====
section
/-! SUPPORT. Tests: ill-formed terms that the checks refuse, words written out from the encoding tables, single steps whose
results stand in the manual, and for each statement a state and operands that meet its hypotheses. -/

namespace Sys2Proof.Tests

open Sys2Proof.Machine Sys2Proof.Safety Sys2Proof.Claims

set_option maxRecDepth 20000
set_option exponentiation.threshold 4096

/-! ### States -/

/-- The machine after reset with an engine of core 0 about to run a word. -/
def at0 (e : Eng) : State := { State.reset with current := ⟨0, e, 0⟩ }

/-- Core 0 changed. -/
def withCore (e : Eng) (f : Core → Core) : State := modCore (at0 e) 0 f

/-- The saved part of core 0 changed. -/
def withX (e : Eng) (f : Ctxt → Ctxt) : State := modX (at0 e) 0 f

/-- Core 0 in handler mode. -/
def inHandler (e : Eng) : State := withX e fun x => { x with handlerMode := true }

/-- Core 0 with some registers of the AP set. -/
def regs (l : List (Nat × Word)) : State :=
  withX .ap fun x => { x with apRegs := l.foldl (fun v p => vset v p.1 p.2) x.apRegs }

/-- A record whose clusters have code from address 0. -/
def aRun : Running := { img := Rec.zero, lid := 1, code := Vector.replicate 5 ⟨0, 0x1800⟩, eprio := 0, ended := none, epIssued := false, inTake := false, retired := false }

/-- A word guarded by k0 has its effect where its engine may run it, nothing is queued and no region is open. -/
theorem goes_of {es : List Eng} {rs : List Reg} {h x : Bool} {s : State} (he : s.current.eng ∈ es)
    (hf : s.current.eng = .c0 → ∀ r ∈ rs, r.toNat < 16) (hm : (cx s s.current.core).handlerMode = true → h = true)
    (hq : (getCore s s.current.core).apq = [])
    (hr : (c0InRegion s s.current.core || mustMeet s s.current.core s.current.eng) = false) : Goes es 0 rs h x s := by
  obtain ⟨hr, hn⟩ := Bool.or_eq_false_iff.1 hr
  refine ⟨he, hf, hm, hn, ?_, rfl, fun _ c => absurd (hr.symm.trans c) Bool.false_ne_true⟩
  intro r _
  simp [regPending, hq]

/-! ### Hypotheses met -/

theorem test_hyps_ScalarResultWords :
    (∃ f, aluResult (.sub 0 3 4 5) = some (0, 3, 4, 5, f)) ∧ Goes [.ap, .c0] 0 [3, 4, 5] true true (at0 .ap) ∧
    (∃ f, aluUnResult (.clz 0 3 4) = some (0, 3, 4, f)) ∧ Goes [.ap, .c0] 0 [0, 4] true true (at0 .c0) :=
  ⟨⟨_, rfl⟩, goes_of (by decide) (by decide) (by decide) (by decide) (by decide), ⟨_, rfl⟩, goes_of (by decide) (by decide) (by decide) (by decide) (by decide)⟩

theorem test_hyps_ConstantAndPredicateWords :
    (∃ f, constResult (.lui 0 3 4) = some (0, 3, f)) ∧
    (∃ f, predResult (.kcmpLt 0 3 4 5) = some (0, 3, [4, 5], f)) ∧ wf (.kcmpLt 0 3 4 5) = true ∧
    Goes [.ap, .c0] 0 [3, 4, 5] true false (at0 .c0) :=
  ⟨⟨_, rfl⟩, ⟨_, rfl⟩, by decide, goes_of (by decide) (by decide) (by decide) (by decide) (by decide)⟩

theorem test_hyps_BranchWords :
    (∃ c, branchOf (.bccLt 0 3 4 5) = some (0, [3, 4], 5, c)) ∧ Goes [.ap, .c0] 0 [3, 4] true false (at0 .ap) :=
  ⟨⟨_, rfl⟩, goes_of (by decide) (by decide) (by decide) (by decide) (by decide)⟩

theorem test_hyps_JumpAndLoopWords :
    (∃ f, jumpOf (.jalr 0 1 2 8) = some (0, 1, [2], f)) ∧ Goes [.ap, .c0] 0 [1, 2] true true (at0 .c0) ∧
    LoopStops (inHandler .ap) ∧ ¬LoopStops (at0 .ap) ∧ Goes [.ap] 0 [4] false false (at0 .ap) ∧
    Goes [.c0] 0 [] false false (at0 .c0) ∧ Goes [.c0] 0 [] false true (at0 .c0) :=
  ⟨⟨_, rfl⟩, goes_of (by decide) (by decide) (by decide) (by decide) (by decide), .inr (.inl (by decide)),
    fun h => by rcases h with h | h | ⟨h, _⟩ <;> exact absurd h (by decide),
    goes_of (by decide) (by decide) (by decide) (by decide) (by decide),
    goes_of (by decide) (by decide) (by decide) (by decide) (by decide),
    goes_of (by decide) (by decide) (by decide) (by decide) (by decide)⟩

/-- A full queue from the AP to C1 but for one entry, and one entry from C1 to the AP; a token from C1. -/
def withQueues : State := { withX .ap fun x => { x with boq := [(11, List.replicate 15 (true, 3)), (25, [(true, 4)])], fifo := [(25, 1)] } with tick := 5 }

theorem test_hyps_QueueAndTokenWords :
    ¬boqPeer .ap 6 ∧ boqPeer .ap 3 ∧ Goes [.ap, .c0] 0 [] false false withQueues ∧
    (tget [] (cx withQueues 0).boq (8 * engCode .ap + 3)).length < 16 ∧
    (∃ p, tget [] (cx withQueues 0).boq (8 * 3 + engCode .ap) = (true, 4) :: p) ∧ 4 < now withQueues ∧
    ¬((1 : Reg).toNat ≠ engCode .ap) ∧ (3 : Reg).toNat ≠ engCode .ap ∧ (cx withQueues 0).handlerMode = false ∧
    Goes [.ap, .c0] 0 [] true false withQueues ∧ (tokens withQueues 0 1 3).1 + (tokens withQueues 0 1 3).2 < 8 ∧
    (getCore withQueues 0).apq = [] ∧ 0 < (tokens withQueues 0 3 1).1 := by
  refine ⟨?_, ?_, goes_of (by decide) (by decide) (by decide) (by decide) (by decide), by decide, ⟨[], by decide⟩, by decide,
    by decide, by decide, by decide, goes_of (by decide) (by decide) (by decide) (by decide) (by decide), ?_, by decide, ?_⟩
  · simp [boqPeer]
  · simp [boqPeer]
  · decide
  · decide

/-- Every cluster of the mask waits at an S-word. -/
def atSync : State := withX .c0 fun x => { x with engs := Vector.replicate 5 { EngSt.reset with atS := true }, run := some aRun }

theorem test_hyps_LockstepWords :
    Goes [.c0] 0 [] false false (at0 .c0) ∧ (getEng (at0 .c0) 0 .c0).atS = false ∧ (15 : BitVec 4).getLsbD 0 = true ∧
    (14 : BitVec 4).getLsbD 0 = false ∧
    (cx atSync 0).handlerMode = false ∧ regionMembers atSync 0 = [] ∧ members (installed atSync 0) 0 ≠ [] ∧
    (∀ e ∈ members (installed atSync 0) 0, (getEng (c0Out atSync 0) 0 e).atS = true ∧ (getEng (c0Out atSync 0) 0 e).inRegion = false) ∧
    (getEng atSync 0 .c0).pos = 0 ∧ Goes [.c0] 0 [] false false atSync ∧ (getEng atSync 0 .c0).atS = true :=
  ⟨goes_of (by decide) (by decide) (by decide) (by decide) (by decide), by decide, by decide, by decide, by decide, by decide,
    by decide, by decide, by decide, goes_of (by decide) (by decide) (by decide) (by decide) (by decide), by decide⟩

theorem alone_of {s : State} {l who : Nat} {rs : List (Nat × Nat)} (h1 : (getCore s l).tk.banks = []) (h2 : (getCore s l).bankQ = []) :
    Alone s l who rs :=
  by intro b _; rw [h1, h2]; exact ⟨fun _ h => (nomatch h), fun _ h => (nomatch h)⟩

theorem clear_of {s : State} {l : Nat} (h1 : (getCore s l).apq = []) (h2 : (getCore s l).defer = false)
    (h3 : (getCore s l).apFlt = .clear) (h4 : s.transit = []) : Clear s l :=
  ⟨h1, h2, h3, fun t ht => by rw [h4] at ht; cases ht⟩

/-- A store of 8 bytes to the last bytes of the scratchpad. -/
def memW (i : Instr) : MemW := (memOf i).getD ⟨0, [], fun _ _ => .st, fun _ _ => 0, 0, fun _ _ => 0, 0⟩

/-- g7 holds the address of the last doubleword of the scratchpad. -/
def lastWord : State := regs [(7, 0xFFFF8)]

theorem test_hyps_ScratchpadAccessWords :
    memOf (.amoD 0 5 7 6 2 0) = some (memW (.amoD 0 5 7 6 2 0)) ∧
    (let m := memW (.amoD 0 5 7 6 2 0)
     MemOk lastWord ∧ Goes [.ap] m.k m.regs true false lastWord ∧ Clear lastWord 0 ∧ Acked lastWord 0 (m.kind lastWord 0) ∧
      (m.ea lastWord 0).toNat = 0xFFFF8 ∧
      0xFFFF8 + m.n ≤ 0x100000 ∧ 0xFFFF8 % m.n = 0 ∧ ¬InBarrier lastWord 0 0xFFFF8 m.n ∧
      Alone lastWord 0 (apWho 0 1) [(0xFFFF8, m.n)] ∧ ∀ j, j < m.n → readPsn lastWord (spBase 0 + 0xFFFF8 + j) = false) :=
  ⟨rfl, by show Memory.wf _ = true; decide, goes_of (by decide) (by decide) (by decide) (by decide) (by decide),
    clear_of (by decide) (by decide) (by decide) (by decide), fun _ => by decide, by decide, by decide, by decide,
    fun h => absurd h.1 (by decide), alone_of (by decide) (by decide), by decide⟩

/-- A readable, writable identity page in the AP's TLB, and g7 in it. -/
def withPage : State := modCore { regs [(7, 0x408010)] with mem := (List.range 8).map fun i => (0x400010 + i, 1) } 0 fun c => { c with apTlb := [⟨0, 0x408010 / 0x8000, 0, placePte, 0⟩] }

theorem test_hyps_TranslatedAccessWords :
    let m := memW (.ld 0 5 7 0 3)
    let r := checkVa (queued withPage 0 m) (some (dieOf 0)) (getCore withPage 0).walkCache (getCore withPage 0).apTlb 64 (cx withPage 0).asid (runLid withPage 0)
      0x408010 m.n 0 .read
    memOf (.ld 0 5 7 0 3) = some m ∧ MemOk withPage ∧ Goes [.ap] m.k m.regs true false withPage ∧ Clear withPage 0 ∧
    Acked withPage 0 (m.kind withPage 0) ∧
    classify (m.ea withPage 0) = .virt 0x408010 0 ∧ 0x408010 + m.n ≤ 2 ^ 48 ∧ accKind (m.kind withPage 0) = some .read ∧
    (m.ea withPage 0).toNat % m.n = 0 ∧
    ∃ ps tlb, r = (.ok ps, tlb) ∧ partsNear ps (dieOf 0) = true ∧ (∀ r ∈ spOf ps, Alone withPage r.1 (apWho 0 1) r.2) ∧
      NoPoison (useParts (hotParts (touchReads (modCore (queued withPage 0 m) 0 fun c => { c with apTlb := tlb }) .read ps) ps) (apWho 0 1) ps) ps
        (m.kind withPage 0) :=
  ⟨rfl, by show Memory.wf _ = true; decide, goes_of (by decide) (by decide) (by decide) (by decide) (by decide),
    clear_of (by decide) (by decide) (by decide) (by decide), fun _ => by decide, by decide, by decide, by decide, by decide,
    _, _, rfl, by decide, fun r hr => absurd hr (show r ∉ ([] : List (Nat × List (Nat × Nat))) from List.not_mem_nil), by show ∀ b ∈ _, _; decide⟩

/-- g7 one byte further. -/
def oddPage : State := modX withPage 0 fun x => { x with apRegs := vset x.apRegs 7 0x408011 }

theorem part_of {s : State} {l who va key n i : Nat} {k : QKind} {ak : AKind} {qs : List (Trans × Nat × Nat)} {tlb : List TlbEnt}
    (h : checkVa s (some (dieOf l)) (getCore s l).walkCache (getCore s l).apTlb 64 (cx s l).asid (runLid s l) (va + i)
      (min (n - i) (0x8000 - (va + i) % 0x8000)) key ak = (.ok qs, tlb)) (hi : (qs.all fun p => gaugeOf p.1.pte == .ident) = true)
    (hn : partsNear (qs.map fun p => (p.1, p.2.1, 1)) (dieOf l) = true)
    (ha : spOf (qs.map fun p => (p.1, p.2.1, 1)) = [])
    (hc : NoPoison (useParts (hotParts (touchReads (modCore s l fun c => { c with apTlb := tlb }) ak (qs.map fun p => (p.1, p.2.1, 1)))
      (qs.map fun p => (p.1, p.2.1, 1))) who (qs.map fun p => (p.1, p.2.1, 1))) (qs.map fun p => (p.1, p.2.1, 1)) k) :
    PartOk s l who va key n i k ak (qs.map fun p => (p.1, p.2.1, 1)) 1
      (useParts (hotParts (touchReads (modCore s l fun c => { c with apTlb := tlb }) ak (qs.map fun p => (p.1, p.2.1, 1)))
        (qs.map fun p => (p.1, p.2.1, 1))) who (qs.map fun p => (p.1, p.2.1, 1))) :=
  ⟨⟨qs, tlb, h, by rw [if_pos hi]; exact ⟨rfl, rfl⟩, rfl⟩, hn, fun r hr => absurd (ha ▸ hr) List.not_mem_nil, hc⟩

/-- A misaligned load of two bytes of an identity page is made of two parts. -/
theorem test_hyps_TranslatedAccessWords_misaligned :
    let m := memW (.ld 0 5 7 0 1)
    classify (rreg oddPage 0 .ap 7) = .virt 0x408011 0 ∧ (0x408011 : Nat) % m.n ≠ 0 ∧ mustAlign (m.kind oddPage 0) = false ∧
    ∃ t g, Made 0 0x408011 0 m.n (.ld false) .read 0 ⟨(cx oddPage 0).nextWord + 1, .ld false, m.ea oddPage 0, m.n, 0, 5, false, 0, 0, 0⟩
      (queued oddPage 0 m) 0 0 t g := by
  refine ⟨by decide, by decide, by decide, _, _, .more _ _ _ _ 1 _ _ _ (part_of rfl ?_ ?_ ?_ ?_) (by decide)
    (.last _ _ _ _ 1 _ (part_of rfl ?_ ?_ ?_ ?_) (by decide))⟩
  all_goals first | decide | (show ∀ b ∈ _, _; decide)

/-- Core 0 whose accesses do not depart by themselves, with a barrier region at 0x1000. -/
def deferring : State := modCore (modX (regs [(7, 0x1000)]) 0 fun x => { x with rgnend := 1, baren := true }) 0 fun c => { c with defer := true }

theorem test_hyps_MemoryWordsEnterTheirQueues :
    let m := memW (.stl 0 5 6 1 3)
    memOf (.stl 0 5 6 1 3) = some m ∧ Goes [.ap] m.k m.regs true false deferring ∧ (getCore deferring 0).defer = true ∧
    ((getCore deferring 0).apq.filter fun q => inLq q.kind).length < 16 ∧
    ((getCore deferring 0).apq.filter fun q => inSq q.kind).length < 16 ∧ ¬InBarrier deferring 0 (m.ea deferring 0).toNat m.n :=
  ⟨rfl, goes_of (by decide) (by decide) (by decide) (by decide) (by decide), by decide, by decide, by decide,
    fun h => absurd h.2.2 (by decide)⟩

theorem test_hyps_BarrierRegionAndFenceWords :
    let m := memW (.st 0 5 7 0 3)
    memOf (.st 0 5 7 0 3) = some m ∧ Goes [.ap] m.k m.regs true false deferring ∧ (cx deferring 0).handlerMode = false ∧
    isStore (m.kind deferring 0) = true ∧ (m.ea deferring 0).toNat < 0x100000 ∧
    InBarrier deferring 0 (m.ea deferring 0).toNat m.n ∧ Goes [.ap] 0 [] true false (at0 .ap) ∧ Clear (at0 .ap) 0 :=
  ⟨rfl, goes_of (by decide) (by decide) (by decide) (by decide) (by decide), by decide, by decide, by decide,
    ⟨by decide, by decide, by decide⟩, goes_of (by decide) (by decide) (by decide) (by decide) (by decide),
    clear_of (by decide) (by decide) (by decide) (by decide)⟩

/-- A store of core 0 to host memory on its way, and another that has been performed. -/
def aStore (done : Bool) (since : Nat) : Transit :=
  { id := 1, tag := 1, core := 0, lid := 1, asid := 0, eng := .ap, strm := 0, kind := .st, ea := 0x408010, n := 8, off := 0, data := 7,
    dst := 0, bytes := [], acf := 0, parts := [(placePte, 0, 0x408010, 8)], key := 0, remote := false, left := [], performed := done,
    fmt := 0xF, got := [], rmw := 0, since := since, val := 0 }

/-- Both of them, long ago. -/
def carrying : State := { at0 .ap with transit := [aStore false 0, aStore true 0], tick := 5000 }

/-- A load of core 0 of `n` bytes whose value is on its way. -/
def returning (n : Nat) : State :=
  { modCore (at0 .ap) 0 fun c => { c with apq := [⟨1, .ld true, 0x408010, 8, 0, 5, true, 8, 0, 0⟩] } with
    transit := [{ aStore true 0 with kind := .ld true, n := n, dst := 5, val := 7 }], tick := 5000 }

theorem test_hyps_AccessEvents :
    carrying.transit[0]? = some (aStore false 0) ∧ (aStore false 0).since + transitLeg (aStore false 0) ≤ now carrying ∧
    transitBehind carrying 0 (aStore false 0) = false ∧
    (∀ p ∈ transitParts (aStore false 0), refreshPart carrying p.1 p.2.1 p.2.2 = false ∧
      homeFault carrying none p.1 p.2.1 p.2.2 0 = none) ∧
    (let ps := transitParts (aStore false 0)
     let u := useParts (touchReads carrying .write ps) (apWho 0 1) ps
     partsTurn carrying (apWho 0 1) ps = true ∧ NoPoison u ps .st ∧ (readParts u ps).1.length = 8) ∧
    carrying.transit.findIdx? (fun t => t.core == 0 && t.performed && decide (t.since + transitLeg t ≤ now carrying)) = some 1 ∧
    carrying.transit[1]? = some (aStore true 0) ∧ accKind (aStore true 0).kind ≠ none ∧ owes (aStore true 0).kind = false ∧
    (∀ n, n = 4 ∨ n = 8 → ∃ x q, (returning n).transit.findIdx?
        (fun t => t.core == 0 && t.performed && decide (t.since + transitLeg t ≤ now (returning n))) = some 0 ∧
      (returning n).transit[0]? = some x ∧ accKind x.kind ≠ none ∧ owes x.kind = true ∧ x.eng = .ap ∧ x.id ≠ 0 ∧
      (getCore (returning n) 0).apq.find? (fun q => q.id == x.id) = some q ∧
      (if n = 4 then q.back + x.n < q.n
        else q.n ≤ q.back + x.n ∧ q.got + x.val.toNat * 2 ^ (8 * x.off) < 2 ^ (8 * q.n) ∧
          gives q.kind q.n (q.got + x.val.toNat * 2 ^ (8 * x.off)) = some 7)) := by
  refine ⟨by decide, by decide, by decide, by decide, ⟨by decide, by show ∀ p ∈ _, _; decide, by decide⟩, by decide, by decide, by decide,
    by decide, ?_⟩
  rintro n (rfl | rfl) <;> exact ⟨_, _, by decide, rfl, by decide, by decide, by decide, by decide, rfl, by decide⟩

/-- The AP of core 0 in handler mode with what a write that clears HMM waits for. -/
theorem test_hyps_CsrWrites :
    (0x080 ≤ (0x087 : BitVec 12).toNat ∧ (0x087 : BitVec 12).toNat ≤ 0x087) ∧ ¬UserCsr 0x0C5 ∧ UserCsr 0x13F ∧
    Goes [.ap, .c0] 0 [4] true true (at0 .ap) ∧ Goes [.ap, .c0] 0 [4] true true (inHandler .ap) ∧ C3Quiet (inHandler .ap) 0 ∧
    c0InRegion (at0 .c0) 0 = false ∧ (0x100 : Nat) ≠ 0x101 ∧ (5 : Word).toNat % 32 ≤ 16 := by
  refine ⟨by decide, ?_, .inr (.inr (by decide)), goes_of (by decide) (by decide) (by decide) (by decide) (by decide),
    goes_of (by decide) (by decide) (by decide) (by decide) (by decide), fun f hf => ?_, by decide, by decide, by decide⟩
  · simp [UserCsr]
  · have : (getCore (inHandler .ap) 0).c3 = [] := by decide
    rw [this] at hf; cases hf

/-- Core 0 in user mode with trap vectors, and a word of the AP at address 0x40. -/
def vectored (e : Eng) : State := withX e fun x => { x with tvecAp := 0x100, tvecC0 := 0x200, engs := Vector.replicate 5 { EngSt.reset with pc := 0x40 } }

theorem settled_of {s : State} {l : Nat} {e : Eng} (h1 : (cx s l).handlerMode = false) (h2 : (getCore s l).trap = none)
    (h3 : atBoundary s l (some e) = true) (h4 : lowestRaiser s l e = true) (h5 : (getCore s l).vfl = []) (h6 : (getCore s l).c3 = []) :
    Settled s l e := ⟨h1, h2, h3, h4, h5, h6⟩

/-- Core 0 away from a bundle boundary: C1 is in the middle of its repeats. -/
def midWord : State := withX .ap fun x => { x with engs := vset x.engs 2 { EngSt.reset with rep := 1 }, run := some aRun }

/-- A core on which a trap of C1 waits since this tick. -/
def trapped : State := modCore midWord 0 fun c => { c with trap := some ⟨0x01, .c1, 0, 0x40, 0, 0x40, 0⟩ }

theorem test_hyps_Traps :
    Settled (vectored .ap) 0 .ap ∧ (cx (vectored .ap) 0).tvecAp ≠ 0 ∧ (cx (vectored .ap) 0).tvecC0 ≠ 0 ∧ Settled (at0 .ap) 0 .ap ∧
    (cx (at0 .ap) 0).tvecAp = 0 ∧ (cx (inHandler .ap) 0).handlerMode = true ∧ runLid midWord 0 ≠ 0 ∧ midWord.killPend = [] ∧
    (cx midWord 0).handlerMode = false ∧ (getCore midWord 0).trap = none ∧ atBoundary midWord 0 (some .ap) = false ∧
    (∃ u, (cx trapped 0).handlerMode = false ∧ (getCore trapped 0).trap = some u ∧ u.tick = now trapped ∧
      engCode .ap < engCode u.eng ∧ ¬engCode .c2 < engCode u.eng) ∧
    Goes [.ap, .c0] 0 [] true false (vectored .c0) ∧ Settled (vectored .c0) 0 .c0 ∧ (cx (vectored .c0) 0).tvecAp ≠ 0 :=
  ⟨settled_of (by decide) (by decide) (by decide) (by decide) (by decide) (by decide), by decide, by decide,
    settled_of (by decide) (by decide) (by decide) (by decide) (by decide) (by decide), by decide, by decide, by decide, by decide,
    by decide, by decide, by decide, ⟨_, by decide, rfl, by decide, by decide, by decide⟩,
    goes_of (by decide) (by decide) (by decide) (by decide) (by decide),
    settled_of (by decide) (by decide) (by decide) (by decide) (by decide) (by decide), by decide⟩

theorem test_hyps_ReturnHaltAndPrivilegedWords :
    Goes [.ap, .c0] 0 [] true false (inHandler .c0) ∧ (cx (inHandler .c0) 0).handlerMode = true ∧ C3Quiet (inHandler .c0) 0 ∧
    Goes [.ap] 0 [] true false (inHandler .ap) ∧ (getCore (inHandler .ap) 0).apq = [] ∧ (getCore (inHandler .ap) 0).vfl = [] ∧
    (getCore (inHandler .ap) 0).c3 = [] ∧ (∀ e ∈ clusters, (getEng (inHandler .ap) 0 e).rep = 0) ∧
    (cx (at0 .ap) 0).handlerMode = false ∧ Goes [.ap] 0 [5] true false (at0 .ap) ∧ c0InRegion (at0 .c0) 0 = false ∧
    Goes [.ap, .c0] 0 [] true false (at0 .c0) := by
  have q : ∀ e, (getCore (inHandler e) 0).c3 = [] := by intro e; cases e <;> decide
  refine ⟨goes_of (by decide) (by decide) (by decide) (by decide) (by decide), by decide, fun f hf => ?_,
    goes_of (by decide) (by decide) (by decide) (by decide) (by decide), by decide, by decide, by decide, by decide, by decide,
    goes_of (by decide) (by decide) (by decide) (by decide) (by decide), by decide,
    goes_of (by decide) (by decide) (by decide) (by decide) (by decide)⟩
  rw [q] at hf; cases hf

/-- An ASID being retired, its launch ended. -/
def retiring : State := { at0 .ap with retBusy := true, retAsid := 3 }

/-- A barrier region, a barrier of which a core waits on. -/
def waitedOn : State := modCore (modX (regs [(5, 0x10)]) 0 fun x => { x with baren := true }) 0 fun c => { c with waiters := [⟨5, true, 63, 0, true, 0⟩] }

theorem test_hyps_InvalidationAndPartitionWords :
    Goes [.ap] 0 [5] true false (inHandler .ap) ∧ (cx (inHandler .ap) 0).handlerMode = true ∧ apPerformed (inHandler .ap) 0 3 = true ∧
    (inHandler .ap).retBusy = false ∧ retiring.retBusy = true ∧ retiring.launches = [] ∧ retiring.transit = [] ∧
    SpcfgBad (regs [(5, 0x400)]) 0 (rreg (regs [(5, 0x400)]) 0 .ap 5) ∧ SpcfgBad waitedOn 0 (rreg waitedOn 0 .ap 5) ∧
    (rreg (regs [(5, 0x210)]) 0 .ap 5).toNat = 0x210 ∧
    (∀ r ∈ (cx (regs [(5, 0x210)]) 0).rings.toList, r.n = 0) ∧ (∀ t ∈ (cx (regs [(5, 0x210)]) 0).streams.toList, t.st = .closed) ∧
    (getCore (regs [(5, 0x210)]) 0).waiters = [] ∧ (getCore (regs [(5, 0x210)]) 0).apq = [] ∧ Goes [.ap] 0 [5] true false waitedOn :=
  ⟨goes_of (by decide) (by decide) (by decide) (by decide) (by decide), by decide, by decide, by decide, by decide, by decide,
    by decide, .inl (by decide), .inr (.inr (.inr (.inr ⟨⟨_, .head _, rfl⟩, by decide, .inr (by decide)⟩))), by decide, by decide,
    by decide, by decide, by decide, goes_of (by decide) (by decide) (by decide) (by decide) (by decide)⟩

/-- Stream 2 is DONE, and ring 5 holds one full slot. -/
def streaming : State := modRing (modStream (at0 .ap) 0 2 fun t => { t with st := .done }) 0 5 fun r => { r with z := 1, n := 4, fe := 1 }

/-- A state that meets what a table asks of a word. -/
def Meets (table : Instr → Option ActW) (i : Instr) (s : State) : Prop :=
  ∃ w, table i = some w ∧ Goes [.ap] w.k w.regs (!w.user) false s ∧ w.ready s 0 ∧ ¬w.fault s 0 ∧ w.go s 0

/-- A state in which a word of a table is a fault. -/
def Faults (table : Instr → Option ActW) (i : Instr) (s : State) : Prop :=
  ∃ w, table i = some w ∧ s.eccBad = [] ∧ s.eccSoft = [] ∧ Goes [.ap] w.k w.regs (!w.user) false s ∧ w.ready s 0 ∧ w.fault s 0

theorem test_hyps_StreamWords :
    Meets streamOf (.swait 0 2 0) streaming ∧ Meets copyStreamOf (.sforkT 0 2 1) (at0 .ap) ∧
    Faults copyStreamOf (.sforkT 0 2 0) (at0 .ap) ∧ Faults streamOf (.seos 0 2) (at0 .ap) ∧ Faults ringOf (.rpop 0 4 5) (at0 .ap) := by
  have c : (getStream streaming 0 2).st = .done := by decide
  have z : (getStream (at0 .ap) 0 2).st = .closed := by decide
  have d : dDir (getStream (at0 .ap) 0 2).desc = 0 := by decide
  have r : dRing (getStream (at0 .ap) 0 2).desc = 0 := by decide
  have n : (getRing (at0 .ap) 0 4).n = 0 := by decide
  refine ⟨⟨_, rfl, goes_of (by decide) (by decide) (by decide) (by decide) (by decide), trivial, ?_, ?_⟩,
    ⟨_, rfl, goes_of (by decide) (by decide) (by decide) (by decide) (by decide), trivial, ?_, trivial⟩,
    ⟨_, rfl, by decide, by decide, goes_of (by decide) (by decide) (by decide) (by decide) (by decide), trivial, ?_⟩,
    ⟨_, rfl, by decide, by decide, goes_of (by decide) (by decide) (by decide) (by decide) (by decide), trivial, ?_⟩,
    ⟨_, rfl, by decide, by decide, goes_of (by decide) (by decide) (by decide) (by decide) (by decide), trivial, ?_⟩⟩
  · simp [c]
  · simp [c]
  · simp [z, Filling, d, r]
  · simp [z, Filling, d, r]
  · simp [z]
  · simp [n]

theorem test_hyps_RingWordsAndSlots :
    Meets ringOf (.rpop 0 5 6) streaming ∧
    ∃ r : Ring, 0 < r.n ∧ r.n ≤ 256 ∧ 0 < r.z ∧ r.head < r.n ∧ r.tail < r.n * r.z ∧ r.tail % r.z = 0 := by
  have n : (getRing streaming 0 5).n = 4 := by decide
  have h : (getRing streaming 0 5).head = 0 := by decide
  have f : (getRing streaming 0 5).fe = 1 := by decide
  have k : (getRing streaming 0 5).kept = [] := by decide
  have q : (getCore streaming 0).apq = [] := by decide
  have d : streamDrains streaming 0 5 = false := by decide
  refine ⟨⟨_, rfl, goes_of (by decide) (by decide) (by decide) (by decide) (by decide), trivial, ?_, ?_⟩,
    { Ring.reset with n := 256, z := 256, head := 255, tail := 255 * 256 }, by decide⟩
  · simp [n, d]
  · simp [Idle, q, h, f, k]
/-- A launch of one record that runs on core 0, with list 0 of capacity 16. -/
def aLaunch : Launch :=
  { lid := 1, tag := 9, args := 0, asid := 0, prio := 0, wsl := false, ptrap := false, count := 1, skew := 0, lbase := 0, lcnt := 1,
    lcap := 4, widths := [1], nsel := 1, code := List.replicate 5 ⟨0, 0x1800⟩, place := [0, 1], gang := none, order := 0, st := .running,
    items := 0, live := 1, term := false, items1 := 0, live1 := 0, term1 := false, lease := false, killed := 0, discarded := 0,
    replan := false, finished := [] }

/-- Core 0 runs a record of the launch, with some registers of the AP set. -/
def launched (l : List (Nat × Word)) : State := { modX (regs l) 0 fun x => { x with run := some aRun } with launches := [aLaunch] }

theorem still_of {s : State} {l : Nat} (h1 : (getCore s l).apq = []) (h2 : s.transit = []) : Still s l :=
  ⟨h1, fun t ht => by rw [h2] at ht; cases ht⟩

theorem test_hyps_RecordAndCopyWords :
    Meets recordOf (.exit 0) (launched []) ∧ Faults recordOf (.spawn 0 3 5) (launched [(5, 0x44)]) := by
  refine ⟨⟨_, rfl, goes_of (by decide) (by decide) (by decide) (by decide) (by decide), still_of (by decide) (by decide), fun h => h, trivial⟩,
    ⟨_, rfl, by decide, by decide, goes_of (by decide) (by decide) (by decide) (by decide) (by decide), still_of (by decide) (by decide),
      .inl fun h => absurd h.2.1 (by decide)⟩⟩

theorem test_hyps_CopyAndWaitWords :
    (let s := launched [(5, 0x40)]
     Goes [.ap] 0 [3, 5] true false s ∧ apFree s 0 ∧ Idle s 0 ∧ ObjAt s 0 0x40 32 ∧ CleanAt s 0 0x40 32 ∧ ¬copyBad (objVal s 0 0x40 32) ∧
      (getCore s 0).ce.length < 4) ∧
    (let s := modCore (launched []) 0 fun c => { c with apWait := .copyw }
     Goes [.ap] 0 [3, 5] true false s ∧ (getCore s 0).apWait = .copyw ∧ (getCore s 0).ce = []) ∧
    (let s := modCore (launched [(5, 0x40), (6, 7)]) 0 fun c => { c with apWait := .polling 63 }
     Goes [.ap] 0 [3, 5, 6] false false s ∧ Idle s 0 ∧ (getCore s 0).apFlt = .clear ∧ (0x40 : Word).toNat % 8 = 0 ∧ mayPark s 0 = true ∧
      ∃ p u x w, apSpot s 0 0x40 8 .read = .ok p u ∧ spotNat u 0 0x40 p = .ok x w ∧ x < 7 ∧ mayPark w 0 = true ∧
        (getCore w 0).apWatch = none) ∧
    (let s := modCore (launched [(5, 0x40), (6, 7)]) 0 fun c => { c with apWait := .polling 64, apWatch := some (0x40, false) }
     ∃ p u x w, apSpot s 0 0x40 8 .read = .ok p u ∧ spotNat u 0 0x40 p = .ok x w ∧ x < 7 ∧ (getCore w 0).apWatch = some (0x40, false)) := by
  refine ⟨⟨goes_of (by decide) (by decide) (by decide) (by decide) (by decide), by show _ = _; decide, by show _ = _; decide,
      ⟨by decide, by decide, by decide⟩, ⟨alone_of (by decide) (by decide), fun j hj => ?_⟩, ?_, by decide⟩,
    ⟨goes_of (by decide) (by decide) (by decide) (by decide) (by decide), by decide, by decide⟩,
    ⟨goes_of (by decide) (by decide) (by decide) (by decide) (by decide), by show _ = _; decide, by decide, by decide, by decide,
      _, _, _, _, rfl, rfl, by decide, by decide, by decide⟩, _, _, _, _, rfl, rfl, by decide, by decide⟩
  · have : ∀ j, j < 32 → readPsn (launched [(5, 0x40)]) (spBase 0 + (0x40 : Word).toNat + j) = false := by decide
    exact this j hj
  · have : objVal (launched [(5, 0x40)]) 0 0x40 32 = 0 := by decide
    rw [this]; simp [copyBad]

theorem test_hyps_ListWords :
    let s := { launched [(5, 0)] with dies := vset State.reset.dies 0 { Die.reset with lists := [(0, [7, 8])] } }
    Goes [.ap] 0 [5, 3, 6] false false s ∧ Names s 0 0 aLaunch ∧ Still s 0 ∧ Goes [.ap] 0 [5, 3] false false s ∧
    items s 0 = [7, 8] ∧ waiting s 0 = [] ∧ items (launched []) 0 = [] ∧
    (detSeen { aLaunch with term := true } (dieOf 0)).2 = true :=
  ⟨goes_of (by decide) (by decide) (by decide) (by decide) (by decide), ⟨by decide, by decide, by decide, by decide⟩,
    still_of (by decide) (by decide), goes_of (by decide) (by decide) (by decide) (by decide) (by decide), by decide, by decide, by decide,
    by decide⟩

/-- Core 0 with a barrier region, an object of which holds some words. -/
def barrier (ws : List (Nat × Nat)) : State :=
  let s := modX (at0 .ap) 0 fun x => { x with baren := true }
  ws.foldl (fun s w => writeNat s (barAddr s 0 63 + 4 * w.1) 4 w.2) s

theorem test_hyps_BarrierWords :
    let s := barrier []
    barOf (.barstat 0 3 5) = some (3, 0, 3, 5, 0) ∧ Goes [.ap] 0 [3, 5, 0] true false s ∧ apFree s 0 ∧ (rreg s 0 .ap 5).toNat < 64 ∧
    isVacant s 0 = false ∧ Still s 0 ∧ homeTurn s 0 0 1 = true ∧ (∃ u v, barDoes s 0 3 0 0 = some (u, v)) ∧
    (getCore (modCore s 0 fun c => { c with apWait := .got 1 }) 0).apWait = .got 1 ∧
    (getCore (modCore s 0 fun c => { c with apWait := .refused true }) 0).apWait = .refused true ∧
    (getCore (modCore s 0 fun c => { c with apWait := .refused false }) 0).apWait = .refused false :=
  ⟨rfl, goes_of (by decide) (by decide) (by decide) (by decide) (by decide), by show _ = _; decide, by decide, by decide,
    still_of (by decide) (by decide), by decide, ⟨_, _, rfl⟩, by decide, by decide, by decide⟩

theorem test_hyps_BarrierObjectsAndEvents :
    (∀ ws, ws = [(1, 2)] ∨ ws = [(1, 1)] → MemOk (barrier ws) ∧ (cx (barrier ws) 0).baren = true ∧ (cx (barrier ws) 0).rgnend < 256 ∧
      (getCore (barrier ws) 0).waiters = []) ∧
    (let w (ws : List (Nat × Nat)) (i : Nat) : BitVec 32 := barGet (barrier ws) 0 63 i
     (w [(1, 2)] 0 = 0 ∧ w [(1, 2)] 2 + 1 ≠ w [(1, 2)] 1) ∧ ((w [(1, 2)] 3).toNat < (w [(1, 2)] 1).toNat ∧ w [(1, 2)] 2 ≠ w [(1, 2)] 1) ∧
      (w [(1, 1)] 2 + 1 = w [(1, 1)] 1 ∧ w [(1, 1)] 3 ≠ w [(1, 1)] 1)) ∧
    (let m : BarMsg := .request 3 0 1 0 0 1 false
     let s := { modCore (at0 .ap) 0 fun c => { c with apWait := .remote } with barMsgs := [m] }
     s.barMsgs[0]? = some m ∧ msgBehind s 0 m = false ∧ homeTurn s 1 0 (3 + 0) = true ∧ isVacant s 1 = false ∧
      (getCore s 0).apWait = .remote) ∧
    (∀ p : BitVec 32, p = 0 ∨ p = 2 → let m : BarMsg := .arrive 1 1 0 63 0 0 p 0 0
     let s := { barrier [(1, 2)] with barMsgs := [m], tick := 1 }
     s.barMsgs[0]? = some m ∧ msgBehind s 0 m = false ∧ homeTurn s 0 63 (3 + 1) = true ∧ isVacant s 0 = false ∧ (cx s 0).baren = true ∧
      (arrive (takeTurn { s with barMsgs := [] } 0 63 (3 + 1)) 0 63 p 0).isSome = decide (p = 0)) ∧
    (let s := { modX (at0 .ap) 0 fun x => { x with run := some aRun } with barMsgs := [.refusal 0 1 0 0] }
     s.barMsgs[0]? = some (.refusal 0 1 0 0) ∧ (cx s 0).handlerMode = false ∧ ∃ r, (cx s 0).run = some r ∧ r.lid = 1) ∧
    (let w : Waiter := ⟨5, true, 63, 0, false, 0⟩
     let s := { modCore (barrier [(0, 1), (1, 1)]) 0 fun c => { c with waiters := [w] } with tick := 64 }
     s.cores.findSome? (fun c => ((c.2.waiters.find? fun w => w.core == 5 && w.c3 == true && !w.registered)).map fun w => (c.1, w)) =
       some (0, w) ∧ now s ≠ w.since ∧ (now s - w.since) % 64 = 0 ∧ phaseView s 0 w.obj w.phase = .ended 0) := by
  refine ⟨?_, by decide, by decide, ?_, ⟨by decide, by decide, _, rfl, by decide⟩, by decide⟩
  · rintro ws (rfl | rfl) <;> exact ⟨by show Memory.wf _ = true; decide, by decide, by decide, by decide⟩
  · rintro p (rfl | rfl) <;> decide

/-- Context 5 is bound to the launch that core 0 runs, with a message in its observation mailbox. -/
def boxed : State := modCtx (launched [(5, 5), (6, 0x100)]) 5 fun c => { c with st := .live, lid := 1, obsBox := [List.replicate 256 ⟨1, false⟩] }

theorem test_hyps_MailboxWords :
    Boxed boxed 0 5 5 0 ∧ Boxed boxed 0 0x205 5 1 ∧ Goes [.ap] 0 [5, 3, 6] true false boxed ∧ ObjAt boxed 0 (rreg boxed 0 .ap 6) 256 ∧
    Still boxed 0 ∧ mailTurn { boxed with tick := 1 } 0 5 ∧ (getCtx (testTimers boxed 5) 5).obsBox ≠ [] ∧ Goes [.ap] 0 [5, 3] true false boxed :=
  ⟨⟨by decide, by decide, by decide, by decide, by decide, by decide, by decide⟩,
    ⟨by decide, by decide, by decide, by decide, by decide, by decide, by decide⟩,
    goes_of (by decide) (by decide) (by decide) (by decide) (by decide), ⟨by decide, by decide, by decide⟩,
    still_of (by decide) (by decide), .inl (by decide), by decide, goes_of (by decide) (by decide) (by decide) (by decide) (by decide)⟩
/-- Core 0 with stream 2 open on a descriptor, as a change of its register says. -/
def su (d : Nat) (f : Stream → Stream) (rings : List (Nat × Ring)) : State :=
  let s := modX (launched []) 0 fun x => { x with fifo := [(14, 1), (15, 1)] }
  let s := modStream s 0 2 fun t => f { t with desc := BitVec.ofNat 1024 d, st := .opened, started := true }
  rings.foldl (fun s r => modRing s 0 r.1 fun _ => r.2) s

/-- A ring of four slots of 256 bytes. -/
def ring4 : Ring := { Ring.reset with z := 1, n := 4 }

/-- A transfer that has not started. -/
def aCopy : Xfer := { src := 0, dst := 0, len := 0, tkw := 1, tks := 0, off := 0x40, wsl := false, started := false, pos := 0, wpos := 0,
                      buf := [], acf := 0, cflt := 0, ended := false, ret := some 5, far := [] }

theorem test_hyps_StreamAndCopyEvents :
    (let s := su (2 ^ 33) (fun t => { t with started := false }) []
     suRuns s 0 = true ∧ (getStream s 0 2).st = .opened ∧ (getStream s 0 2).started = false ∧ 0 < (tokens s 0 (dTkw (getStream s 0 2).desc) 6).1) ∧
    (let s := modCore (su 0 id []) 0 fun c => { c with ce := [aCopy] }
     (getCore s 0).ce = [aCopy] ∧ suRuns s 0 = true ∧ aCopy.started = false ∧ 0 < (tokens s 0 aCopy.tkw 7).1) ∧
    (let x := { aCopy with started := true }
     let s := modCore (su 0 id []) 0 fun c => { c with ce := [x] }
     MemOk s ∧ (getCore s 0).ce.head? = some x ∧ suRuns s 0 = true ∧ x.started = true ∧ x.ended = false ∧
      (let u := iter (fun s => ceUnit s 0) ((x.len - x.pos + 63) / 64 + (x.len - x.wpos) / 8 + 2) s
       (getCore u 0).ce = [x] ∧ (getCore u 0).ceFlt = .clear ∧ x.len ≤ x.pos ∧ x.len ≤ x.wpos ∧ writesOut u 0 .ce 0 = false ∧ x.tks = 0)) := by
  refine ⟨by decide, by decide, by show Memory.wf _ = true; decide, by decide⟩

theorem test_hyps_SlotCommitEvents :
    (let a : Ahead := ⟨List.replicate 256 ⟨7, false⟩, vset (Vector.replicate 5 0) 0 1, true, 64, false, 0⟩
     let d := 5 * 2 ^ 10 + 2 ^ 128
     let s := su d (fun t => { t with ahead := [a] }) [(5, ring4)]
     MemOk s ∧ canWork s 0 2 = true ∧ Filling (getStream s 0 2).desc ∧ dFills (getStream s 0 2).desc = [5] ∧
      (getRing s 0 5).canPush = true ∧ slotTurn s 0 3 5 = true ∧ nextSlot s 0 2 = .ok (some a) s ∧ a.elems ≠ 0 ∧
      linOf d (getStream s 0 2).idx < dTotal d ∧ (dFills d).Nodup) ∧
    (let s := su (5 * 2 ^ 10) (fun t => { t with st := .done, eosp := true, boPend := true }) [(5, ring4)]
     let x := getStream s 0 2
     MemOk s ∧ suRuns s 0 = true ∧ x.owed = 0 ∧ spokenTo s 0 2 = false ∧ dFills x.desc = [5] ∧ (getRing s 0 5).canPush = true ∧
      slotTurn s 0 3 5 = true ∧ 0 < (getRing s 0 5).z ∧
      x.boFirst = false ∧ x.boPend = true ∧ x.doneTok = false) := by
  refine ⟨⟨by show Memory.wf _ = true; decide, by decide, .inl (by decide), by decide, by decide, by decide, rfl, by decide, by decide, by decide⟩,
    by show Memory.wf _ = true; decide, by decide⟩

theorem test_hyps_SlotDrainEvents :
    (let s := su (1 + 5 * 2 ^ 10 + 2 ^ 128) id [(5, { ring4 with fe := 1 })]
     let x := getStream s 0 2
     let r := getRing s 0 5
     canWork s 0 2 = true ∧ dDir x.desc = 1 ∧ dRing x.desc = 5 ∧ r.n ≠ 0 ∧ linOf x.desc x.idx < dTotal x.desc ∧
      r.fe.getLsbD r.head = true ∧ r.boff = false ∧
      x.wrote = none ∧ ∃ oob u, drainSlot 0 2 (slotBytes s 0 5 r.head)
        (min (slotCap (dFmt x.desc) (r.z * 256)) (dTotal x.desc - linOf x.desc x.idx)) (linOf x.desc x.idx) [] s = .ok (oob, false) u ∧
        writesOut (spTouch u 0 (r.slotOff r.head) (r.z * 256)) 0 .su 2 = false) ∧
    (let s := su (1 + 5 * 2 ^ 10 + 2 ^ 128) (fun t => { t with wrote := some false }) [(5, { ring4 with fe := 1 })]
     canWork s 0 2 = true ∧ (getStream s 0 2).wrote = some false ∧ writesOut s 0 .su 2 = false) ∧
    (let s := modRing (su (2 + 5 * 2 ^ 10 + 3 * 2 ^ 20 + 6 * 2 ^ 28 + 2 ^ 128) id [(5, { ring4 with fe := 1 })]) 3 6 fun _ => { ring4 with base := 8 }
     let x := getStream s 0 2
     let r := getRing s 0 5
     MemOk s ∧ canWork s 0 2 = true ∧ dDir x.desc = 2 ∧ dRcore x.desc = 3 ∧ dRring x.desc = 6 ∧ isVacant s 3 = false ∧ r.n ≠ 0 ∧
      linOf x.desc x.idx < dTotal x.desc ∧ r.fe.getLsbD r.head = true ∧ r.boff = false ∧ (getRing s 3 6).canPush = true ∧
      slotTurn s 3 3 6 = true ∧
      (getRing s 3 6).z = r.z) := by
  refine ⟨⟨by decide, by decide, by decide, by decide, by decide, by decide, by decide, by decide, _, _, rfl, by decide⟩, by decide,
    by show Memory.wf _ = true; decide, by decide⟩
/-- A vector word on v1 and v2 into v0 with landing bound 8. -/
def vw : VWord := ⟨false, false, 7, 0, .reg 0 0, .reg 1 0, .reg 2 0, .int8, 0, false, ⟨0, 0, 0, 0⟩, 0, 0⟩

/-- C1 of core 0 with ring 5 of four slots. -/
def vec : State := modRing (at0 .c1) 0 5 fun _ => ring4

theorem repeats_of {w : VWord} {sh : VShape} {ps : List Nat} {n : Nat} {s : State} (h1 : s.current.eng = .c1 ∨ s.current.eng = .c2)
    (h2 : (cx s s.current.core).handlerMode = false) (h3 : tokSelf s.current.eng w.tok = false)
    (h4 : tokWaits s s.current.core s.current.eng w.tok = []) (h5 : ringIllegal s s.current.core (portsOf w sh) ps = false)
    (h6 : w.s = false) (h7 : portWaits s s.current.core (portsOf w sh) = [])
    (h8 : ∀ q ∈ portsOf w sh ++ ps, ringTurn s s.current.core s.current.eng q = true)
    (h9 : stallHold s s.current.core s.current.eng
      ((if (bankFlags (s.current.eng == .c2) (vregsRead s s.current.core (s.current.eng == .c2) w sh
        (getEng s s.current.core s.current.eng).rep)).isEmpty then 0 else 1) + n) (fun _ => []) = none)
    (h11 : (getCore s s.current.core).tk.banks.isEmpty && (getCore s s.current.core).bankQ.isEmpty)
    (h10 : c0Behind s s.current.core s.current.eng (effPos s s.current.core s.current.eng) = false) : Repeats w sh ps n s :=
  ⟨h1, h2, h3, fun _ => ⟨h4, h5, fun h => absurd (h6.symm.trans h) Bool.false_ne_true⟩, h7,
    alone_of (List.isEmpty_iff.1 (Bool.and_eq_true _ _ ▸ h11).1) (List.isEmpty_iff.1 (Bool.and_eq_true _ _ ▸ h11).2), h8, h9, fun _ => h10⟩

theorem test_hyps_VectorElementWords : ∃ v, vecOf (.vadd vw) = some v ∧ wf (.vadd vw) = true ∧ Repeats v.w v.sh [] 0 vec :=
  ⟨_, rfl, by decide, repeats_of (by decide) (by decide) (by decide) (by decide) (by decide) (by decide) (by decide) (by decide)
    (by decide) (by decide) (by decide)⟩

theorem test_hyps_VectorReductionAndPredicateWords :
    (∃ w wd r, reduceOf (.vredmax { vw with b := .reg 0 0 }) = some (w, wd, r) ∧ wf (.vredmax { vw with b := .reg 0 0 }) = true ∧
      Repeats w (shA (w.mod.getLsbD 0)) [] 0 vec) ∧
    (∃ w sh b, predOf2 (.vcmp { vw with d := .reg 1 0 }) = some (w, sh, b) ∧ wf (.vcmp { vw with d := .reg 1 0 }) = true ∧ Repeats w sh [] 0 vec) :=
  ⟨⟨_, _, _, rfl, by decide, repeats_of (by decide) (by decide) (by decide) (by decide) (by decide) (by decide) (by decide) (by decide)
    (by decide) (by decide) (by decide)⟩, _, _, _, rfl, by decide, repeats_of (by decide) (by decide) (by decide) (by decide) (by decide) (by decide)
    (by decide) (by decide) (by decide) (by decide) (by decide)⟩

theorem test_hyps_BlockAndPartitionWords :
    (let w := { vw with ty := .fp32, b := .reg 0 0 }
     wf (.vmxq w) = true ∧ Repeats w (shA false) [] 0 vec) ∧
    (wf (.vpart vw) = true ∧ Repeats vw (shA false) [] 0 vec ∧
      ∀ j, j ≤ vw.rep.toNat → vphysOf vec 0 false vw.b j ≠ vphysOf vec 0 false vw.d j) :=
  ⟨⟨by decide, repeats_of (by decide) (by decide) (by decide) (by decide) (by decide) (by decide) (by decide) (by decide)
    (by decide) (by decide) (by decide)⟩, by decide, repeats_of (by decide) (by decide) (by decide) (by decide) (by decide) (by decide)
    (by decide) (by decide) (by decide) (by decide) (by decide), by decide⟩

theorem test_hyps_VectorGatherAndScatter :
    let w := { vw with b := .bc 3, ty := .int32 }
    wf (.vgath w) = true ∧ Repeats w ⟨true, false, false, false, true, true, true⟩ [] (gatherBank w vec 0 false 0).1 vec ∧
    wf (.vscat w) = true ∧ Repeats w ⟨false, false, false, true, false, true, true⟩ [] 0 vec :=
  ⟨by decide, repeats_of (by decide) (by decide) (by decide) (by decide) (by decide) (by decide) (by decide) (by decide)
    (by decide) (by decide) (by decide), by decide, repeats_of (by decide) (by decide) (by decide) (by decide) (by decide) (by decide)
    (by decide) (by decide) (by decide) (by decide) (by decide)⟩

/-- Repeats of C1 issued on tick 0, and the tick after. -/
def inFlight (ws : List (List VWrite × BitVec 3)) : State :=
  { modCore vec 0 fun c => { c with
      vfl := ws.map fun w => { c2 := false, word := 1, issued := 0, due := 8, writes := w.1, acf := 0, oob := false, tok := w.2, pos := none } }
    with tick := 1 }

theorem test_hyps_VectorPushesAndLanding :
    (let w := { vw with d := .port 5, b := .reg 0 0 }
     (getRing vec 0 5).canPush = true ∧ Repeats w ⟨false, false, false, false, false, true, false⟩ [5] 0 vec ∧ wf (.vpush w) = true ∧
      wf (.vpushBoff { w with mod := 1 }) = true ∧ (getRing vec 0 5).tail % (getRing vec 0 5).z = 0) ∧
    (∀ ws : List VWrite, ws = [.vreg 63 VReg.zero 1] ∨ ws = [.pred 15 0 1] ∨ ws = [.cells [(4095, ⟨7, false⟩)]] ∨
        ws = [.unit 5 (3 + 65536 * 3) 0 VReg.zero] ∨ ws = [.boff 5 3 0 256 256 9] ∨ ws = [.scat [(0xFFFFF, ⟨7, false⟩)]] →
      let s := inFlight [(ws, 0)]
      let fs := (getCore s 0).vfl
      flightAt fs false 0 = some 0 ∧ ∃ f, fs[0]? = some f ∧ mayLand s 0 f = true ∧ f.c2 = false ∧ f.writes = ws ∧ f.tok = 0) ∧
    (getRing (inFlight []) 0 5).gen = 0 ∧ (getRing (inFlight []) 0 5).z ≠ 0 ∧ MemOk (inFlight []) ∧
    ((getCore (inFlight []) 0).c2Land.1 ≠ now (inFlight [])) ∧
    (let s := inFlight [([.cells [(1, ⟨7, false⟩)]], 0), ([.vreg 0 VReg.zero 1], 2)]
     let fs := (getCore s 0).vfl
     flightAt fs false 1 = some 1 ∧ flightAt fs false 0 = some 0 ∧ ∃ f g, fs[1]? = some f ∧ fs[0]? = some g ∧ mayLand s 0 f = true ∧
      mayLand s 0 g = true ∧ f.tok ≠ 0 ∧ g.tok = 0 ∧ (∃ x ∈ g.writes, x.shared = true) ∧
      ∀ o ∈ fs.take 0, o.c2 = false → ∀ x ∈ o.writes, x.shared = false) := by
  refine ⟨⟨by decide, repeats_of (by decide) (by decide) (by decide) (by decide) (by decide) (by decide) (by decide) (by decide)
    (by decide) (by decide) (by decide), by decide, by decide, by decide⟩, ?_, by decide, by decide, by show Memory.wf _ = true; decide, by decide,
    by decide, by decide, _, _, rfl, rfl, by decide, by decide, by decide, by decide, ⟨_, .head _, rfl⟩, by decide⟩
  rintro ws (rfl | rfl | rfl | rfl | rfl | rfl) <;> exact ⟨by decide, _, rfl, by decide, rfl, rfl, rfl⟩

theorem test_hyps_TileWords :
    let z := VOp.reg 0 0
    (let w := { vw with b := z, ty := .int32, imm := 63 }
     wf (.twrow w) = true ∧ Repeats w ⟨false, false, false, false, false, true, false⟩ [] 0 vec ∧ tileWriteWait vec 0 .c1 0 = []) ∧
    (let w := { vw with a := z, b := z }
     wf (.tclr w) = true ∧ Repeats w ⟨false, false, false, false, false, false, false⟩ [] 0 vec) ∧
    (let w := { vw with a := z, b := z, ty := .int32, imm := 63 }
     wf (.trcol w) = true ∧ Repeats w ⟨true, false, false, false, true, false, false⟩ [] 0 vec ∧ tileReadWait vec 0 .c1 0 = []) :=
  ⟨⟨by decide, repeats_of (by decide) (by decide) (by decide) (by decide) (by decide) (by decide) (by decide) (by decide)
    (by decide) (by decide) (by decide), by decide⟩, ⟨by decide, repeats_of (by decide) (by decide) (by decide) (by decide) (by decide) (by decide)
    (by decide) (by decide) (by decide) (by decide) (by decide)⟩, by decide, repeats_of (by decide) (by decide) (by decide) (by decide) (by decide)
    (by decide) (by decide) (by decide) (by decide) (by decide) (by decide), by decide⟩

/-- A branch of C1. -/
def vb : VWord := ⟨false, false, 0, 0, .reg 0 0, .reg 0 0, .reg 0 0, .int8, 0, false, ⟨0, 0, 0, 0⟩, 0, 5⟩

theorem test_hyps_VectorBranches :
    let s := { modX vec 0 fun x => { x with boq := [(11, [(true, 4)])] } with tick := 5 }
    Branches vb false s ∧ wf (.vjmp vb) = true ∧ wf (.vbrq vb) = true ∧ tget [] (cx s 0).boq (8 + engCode .c1) = [(true, 4)] ∧ 4 < now s ∧
    (let w := { vb with mod := 4, a := .reg 0 9 }
     wf (.vbrp w) = true ∧ Branches w (decide (8 ≤ opAt w.a 0)) s) ∧ (tget [] (cx s 0).boq (8 * engCode .c1 + 1)).length < 16 :=
  ⟨⟨by decide, by decide, by decide, by decide, by decide, by decide, fun h => absurd rfl h⟩, by decide, by decide, by decide, by decide,
    ⟨by decide, by decide, by decide, by decide, by decide, by decide, by decide, fun h => absurd rfl h⟩, by decide⟩
/-- A matrix word on the whole of tile a0, with APORT q6, BPORT q7 and CPORT q5. -/
def mw : MWord := ⟨false, false, false, 0, 6, 7, 0, 0, 0, false, false, 0, 0, false, ⟨0, 0, 0, 0⟩, 0, 0, false, 0, 0, 0, 0⟩

/-- A word that uses no port. -/
def mq : MWord := { mw with aport := 0, bport := 0 }

/-- C3 of core 0 with three rings, whose formats are INT8 in q6 and q7. -/
def mat : State :=
  let s := modX (at0 .c3) 0 fun x => { x with mpfmt := vset (vset x.mpfmt 6 Fmt.int8.code) 7 Fmt.int8.code, boq := [(13, [(true, 4)])] }
  { modRing (modRing (modRing s 0 5 fun _ => ring4) 0 6 fun _ => { ring4 with fe := 1 }) 0 7 fun _ => { ring4 with fe := 1 } with tick := 5 }

theorem matGoes_of {w : MWord} {op : Nat} {h : Bool} {s : State} (h1 : s.current.eng = .c3) (h2 : tokSelf .c3 w.tok = false)
    (h3 : modeBad s s.current.core w (portsRead op w ++ portsWritten op w ++ portsNamed op w) (tilesRead op w ++ tilesWritten op w) h = false)
    (h4 : ringIllegal s s.current.core (portsRead op w) (portsWritten op w) = false) (h5 : tokWaits s s.current.core .c3 w.tok = [])
    (h6 : pinWaits s s.current.core = false) (h7 : w.s = false) (h8 : w.lb = false) : MatGoes w op h s :=
  ⟨h1, h2, h3, h4, h5, h6, fun c => absurd (h7.symm.trans c) Bool.false_ne_true, fun c => absurd (h8.symm.trans c) Bool.false_ne_true⟩

theorem test_hyps_MatrixConfigAndBufferWords :
    (wf (.mcfg { mq with imm := 0x1FF % 448 }) = true ∧ MatGoes { mq with imm := 0x1FF % 448 } 8 true mat ∧ (getCore mat 0).c3 = []) ∧
    (wf (.mjmp mq) = true ∧ MatGoes mq 0xD true mat ∧ wf (.mbrq mq) = true ∧ MatGoes mq 0xE false mat ∧
      tget [] (cx mat 0).boq (8 * 1 + 5) = [(true, 4)] ∧ 4 < now mat) ∧
    (wf (.mma mw) = true ∧ MatGoes mw 1 true mat ∧
      ((getCore mat 0).c3.filter fun f => f.op == 1 && !f.started).length ≤ (vget 0 (cx mat 0).ease 4).toNat ∧
      ∃ p, pairOf (vget 0 (cx mat 0).mpfmt mw.aport.toNat) (vget 0 (cx mat 0).mpfmt mw.bport.toNat) = some p ∧ 1 ≤ p.gmax ∧ p.mx = false ∧
        p.n * 1 ≤ zOf mat 0 mw.aport ∧ p.n * 1 ≤ zOf mat 0 mw.bport) ∧
    (wf (.mtok mq) = true ∧ MatGoes mq 0xB true mat) :=
  ⟨⟨by decide, matGoes_of (by decide) (by decide) (by decide) (by decide) (by decide) (by decide) (by decide) (by decide), by decide⟩,
    ⟨by decide, matGoes_of (by decide) (by decide) (by decide) (by decide) (by decide) (by decide) (by decide) (by decide), by decide,
      matGoes_of (by decide) (by decide) (by decide) (by decide) (by decide) (by decide) (by decide) (by decide), by decide, by decide⟩,
    ⟨by decide, matGoes_of (by decide) (by decide) (by decide) (by decide) (by decide) (by decide) (by decide) (by decide), by decide,
      _, rfl, by decide, by decide, by decide, by decide⟩,
    by decide, matGoes_of (by decide) (by decide) (by decide) (by decide) (by decide) (by decide) (by decide) (by decide)⟩

theorem test_hyps_MatrixStartAndWaitWords :
    (∃ legal, startOf (.mzero mq) = some (mq, 2, legal) ∧ legal mat 0) ∧ wf (.mzero mq) = true ∧ MatGoes mq 2 true mat ∧
    startHold mat 0 2 mq (getCore mat 0).c3 = none ∧ mq.pin = false ∧
    wf (.mwait { mq with imm := 63 }) = true ∧ MatGoes { mq with imm := 63 } 0xA false mat ∧ (getCore mat 0).c3 = [] ∧
    arrivalsOut mat 0 = false ∧ (getCore (modCore mat 0 fun c => { c with c3Wait := .got 1 }) 0).c3Wait = .got 1 ∧
    (getCore mat 0).c3Wait = .none ∧
    (let s := modX mat 0 fun x => { x with mbph := [(63, BitVec.ofNat 41 (2 ^ 40 + 3 * 2 ^ 32 + 5))] }
     let m := tget 0 (cx s 0).mbph 63
     m.getLsbD 40 = true ∧ (m.extractLsb' 32 8).toNat = 3 ∧ isVacant s 3 = false) :=
  ⟨⟨_, rfl, trivial⟩, by decide, matGoes_of (by decide) (by decide) (by decide) (by decide) (by decide) (by decide) (by decide) (by decide),
    by decide, by decide, by decide, matGoes_of (by decide) (by decide) (by decide) (by decide) (by decide) (by decide) (by decide)
    (by decide), by decide, by decide, by decide, by decide, by decide⟩

/-- An MMA in the array buffer, and a fill of zeros that is due. -/
def buffered : State := modCore mat 0 fun c => { c with c3 := [fresh mat 1 mw, { fresh mat 2 mq with started := true, due := 5 }] }

theorem test_hyps_MatrixWordEvents :
    (let f := fresh mat 1 mw
     (getCore buffered 0).c3[0]? = some f ∧ f.started = false ∧ f.slots = [] ∧ f.keep = [] ∧ f.bof = false ∧ f.op = 1 ∧
      (portsRead f.op f.w).Nodup ∧ startHold buffered 0 f.op f.w ((getCore buffered 0).c3.take 0) = none ∧ f.w.pin = false) ∧
    (let f := { fresh mat 2 mq with started := true, due := 5 }
     (getCore buffered 0).c3[1]? = some f ∧ f.due ≤ now buffered ∧ f.out = none ∧ f.slots = [] ∧ portsRead f.op f.w = []) := by decide
/-- A fault record of core 0's AP. -/
def aFault (code : Nat) : FaultRec :=
  { fcode := code, core := 0, agent := .ap, adm := false, stream := 0, lvl := 0, write := false, fetch := false, asid := 0, lid := 1,
    va := 0x408000, pa := 0, tick := 0, key := 0, lock := 0, seq := 7 }

/-- Core 0's AP in a state of its fault, firmware having taken the record; and an ASID table whose entry names a table of one leaf. -/
def faulting (f : AgentFault) (root : Nat) : State :=
  { modCore (launched []) 0 fun c => { c with apFlt := f } with
    fltTaken := [aFault 1], asidBase := 0x400000, mem := [(0x400000, BitVec.ofNat 8 root)] ++ (List.range 7).map fun i => (0x400001 + i, 0) }

theorem taken_of {s : State} {r : FaultRec} (h : s.fltTaken = [r]) : TakenAs s r.seq r :=
  ⟨by rw [h]; simp, rfl, fun k hk _ => by rw [h] at hk; simpa using hk⟩

theorem test_hyps_FaultRecordsAndAnswers :
    (∀ code, code = 1 ∨ code = 0x15 → let s := { at0 .ap with fltPend := [aFault code] }
      s.fltPend = [] ++ aFault code :: [] ∧ recIsOf (aFault code) (.ap 0) = true ∧
      (vget Die.reset s.dies (agentDie (.ap 0))).fq.length < 1024) ∧
    (TakenAs (faulting (.sent 7) 0) 7 (aFault 1) ∧ fltOf (faulting (.sent 7) 0) (agentOf (aFault 1)) = .sent 7 ∧
      fltOf (faulting .clear 0) (agentOf (aFault 1)) ≠ .sent 7) ∧
    (fltOf (faulting (.again 7) 0) (.ap 0) = .again 7 ∧
      ∃ f, walk (unasked (faulting (.again 7) 0) 7) [] (aFault 1).asid ((aFault 1).va.toNat % 2 ^ 48) = .error f) ∧
    (let leaf := [(0x410000, (0x1F : Byte))] ++ (List.range 15).map fun i => (0x410001 + i, (0 : Byte))
     let root := [(0x400000, (1 : Byte)), (0x400001, 0), (0x400002, 0x41)] ++ (List.range 5).map fun i => (0x400003 + i, (0 : Byte))
     let s := { faulting (.again 7) 1 with mem := root ++ leaf }
     ∃ x, walk (unasked s 7) [] 0 0 = .ok x) := by
  refine ⟨?_, ⟨taken_of (by decide), by decide, by decide⟩, ⟨by decide, _, rfl⟩, _, rfl⟩
  rintro c (rfl | rfl) <;> decide

theorem test_hyps_RefreshWindowsAndHotLists :
    (∀ i, i = 383 ∨ i = 384 → let s := { at0 .ap with tick := BitVec.ofNat 64 (4096 + i) }
     now s = s.refbase.toNat + 4096 * 1 + i ∧ i < 4096) ∧
    (let s := { at0 .ap with refbase := 1 }
     now s < s.refbase.toNat) ∧
    (let s := { at0 .ap with tick := 2 ^ 20 }
     (tget Stack.reset s.hbm 3).done < now s / 2 ^ 20) ∧ now (at0 .ap) / 2 ^ 20 ≤ (tget Stack.reset (at0 .ap).hbm 3).done := by
  refine ⟨?_, by decide, by decide, by decide⟩
  rintro i (rfl | rfl) <;> decide

/-- A record of the launch in a queue. -/
def qrec (seq : Nat) : QRec := ⟨Rec.zero, 1, 0, none, false, false, false, false, seq, 0⟩

/-- Core 0 free, with records in its queues. -/
def queueing (f : Core → Core) : State := { modCore (at0 .ap) 0 f with launches := [aLaunch] }

theorem test_hyps_RecordSelectionAndExamination :
    (let s := queueing fun c => { c with sram := [{ qrec 1 with examined := true }] }
     coreFree s 0 = true ∧ candidates s 0 ≠ []) ∧
    (let s := queueing fun c => { c with back := [qrec 2] }
     (getCore s 0).sram = [] ∧ (getCore s 0).back = [qrec 2] ∧ (qrec 2).examined = false ∧ eligible s 0 (qrec 2) = true) ∧
    (let q := { qrec 2 with watch := some 0x400000 }
     let s := queueing fun c => { c with back := [q] }
     eligible s 0 q = false ∧ (getCore s 0).waits.length < 32) ∧
    (let q := { qrec 2 with watch := some 0x400000 }
     let s := queueing fun c => { c with back := [q], waits := List.replicate 32 (qrec 3), ovfSize := 1 }
     eligible s 0 q = false ∧ 32 ≤ (getCore s 0).waits.length ∧ (getCore s 0).ovf.length < (getCore s 0).ovfSize) ∧
    (let q := { qrec 2 with watch := some 0x400000 }
     let s := queueing fun c => { c with back := [q], waits := List.replicate 32 (qrec 3) }
     eligible s 0 q = false ∧ 32 ≤ (getCore s 0).waits.length ∧ (getCore s 0).ovfSize ≤ (getCore s 0).ovf.length ∧ q.held = false) := by
  decide

/-- Core 0 whose record has ended in one way, all its clusters having no code. -/
def retired (k : EndKind) : State :=
  { modX (at0 .ap) 0 fun x => { x with run := some { aRun with code := Vector.replicate 5 ⟨0, 0⟩, ended := some k } } with launches := [aLaunch] }

/-- A record with its join object, whose COUNT is `n`, at 0x408000, and one that has ended with it. -/
def joining (k : EndKind) (n : Byte) : State :=
  let s := modX (retired k) 0 fun x => { x with run := x.run.map fun r => { r with img := { Rec.zero with jaddr := 0x408000 }, retired := true } }
  { modCore s 0 fun c => { c with apTlb := [⟨0, 0x408000 / 0x8000, 0, placePte, 0⟩] } with
    mem := (0x400000, n) :: (List.range 127).map fun i => (0x400001 + i, (0 : Byte)) }

theorem test_hyps_RecordRetirementAndPushes_joins :
    (∀ n : Byte, n = 0 ∨ n = 1 ∨ n = 2 → ∃ c v, joinAmo (joining .exit n) 0 0x408000 (-1) = .ok c v ∧ c = n.toNat - (1 : Int)) ∧
    ((∃ r, (cx (joining .cont 1) 0).run = some r ∧ r.ended = some .cont ∧ r.img.jaddr = 0x408000) ∧
      ∃ p u, apSpot (joining .cont 1) 0 (0x408000 + 0x40) 64 .read = .ok p u ∧ joinPage p = true ∧
        (match spotNat u 0 (0x408000 + 0x40) p with
          | .ok x v => imgOk aLaunch x && !isVacant v (placeCore aLaunch (recOf x).wid)
          | _ => false) = true) ∧
    (let s := joining (.join 0x408000 Rec.zero) 1
     joinFault 0x408000 = none ∧ ∃ p u, apSpot s 0 (0x408000 + 0x40) 64 .write = .ok (.parts p) u ∧ joinPage (.parts p) = true ∧
      joinPages u 0 0x408000 = none ∧ crosses u 0 p = false ∧ ackRoom u 0 (awayParts 0 p) = true) ∧
    (let s := joining (.joined 0x408000 Rec.zero) 1
     writesOut s 0 .ap 0 = false ∧ ∃ c v, joinAmo s 0 0x408000 (-1) = .ok c v ∧
      isVacant v (placeCore aLaunch Rec.zero.wid) = false) := by
  refine ⟨?_, ⟨⟨_, rfl, rfl, rfl⟩, _, _, rfl, by decide, by decide⟩,
    ⟨by decide, _, _, rfl, by decide, by decide, by decide, by decide⟩, by decide, _, _, rfl, by decide⟩
  rintro n (rfl | rfl | rfl) <;> exact ⟨_, _, rfl, by decide⟩

theorem test_hyps_RecordRetirementAndPushes :
    (∀ k, k = EndKind.exit ∨ k = .park Rec.zero ∨ k = .waitf 0x400000 true →
      (cx (retired k) 0).run = some { aRun with code := Vector.replicate 5 ⟨0, 0⟩, ended := some k } ∧
      getLaunch (retired k) 1 = some aLaunch ∧ mayRetire (retired k) 0 = true ∧ dying (retired k) 1 = false ∧
      (getCore (retired k) 0).waits.length < 32 ∧ (getCore (retired k) 0).apFlt = .clear) ∧
    (let s := { modCore (queueing fun c => { c with conts := [(Rec.zero, 1, 1)] }) 1 fun c => { c with back := [qrec 1] } with tick := 5 }
     (getCore s 0).conts = [(Rec.zero, 1, 1)] ∧ isVacant s 1 = false ∧ queueRoom s 1 = true ∧
      (∀ q ∈ (getCore s 1).sram ++ (getCore s 1).back, q.entry ≠ now s) ∧ (getCore s 1).back ≠ []) ∧
    (let la := { aLaunch with st := .rooting 0 }
     let s := { at0 .ap with launches := [la] }
     getLaunch s 1 = some la ∧ la.st = .rooting 0 ∧ dying s 1 = false ∧ partHeld s la.asid = false ∧ 0 < la.count ∧
      (let c := placeCore la 0
       isVacant s c = false ∧ queueRoom s c = true ∧ pushesDone s c = true ∧ (getCore s c).back = [] ∧ (getCore s c).sram = [])) ∧
    (let la := { aLaunch with st := .rooting 1 }
     getLaunch { at0 .ap with launches := [la] } 1 = some la ∧ la.st = .rooting 1 ∧ la.count ≤ 1) := by
  refine ⟨?_, by decide, by decide, by decide⟩
  rintro k (rfl | rfl | rfl) <;> decide

/-- A gang of two cores whose turn it is. -/
def aGang : Launch := { aLaunch with count := 0, live := 0, gang := some ([⟨0, 2, 0, 0, false⟩], []), st := .gangHead, place := [4, 5] }

/-- A launch entry at the head of the queue, for a header at address 1 of no row. -/
def arriving : State :=
  { at0 .ap with host := { State.reset.host with lqTail := 1, ready := true,
                                                  win := [(0x4000000, 1)] } }

/-- The device takes an entry whose header breaks no rule of R378: NF 1, NSEL 1. -/
def goodHeader : Header := ⟨0, 0, 0, 0, 2 ^ 42 + 2 ^ 48, 2 ^ 16, 0, 0⟩

theorem test_hyps_Admission :
    (arriving.secHalt = false ∧ arriving.admitting = none ∧ arriving.host.lqHead ≠ arriving.host.lqTail ∧ arriving.host.ready = true ∧
      entryBad (winNat arriving 0x4000000 8) = true) ∧
    headerBad goodHeader = false ∧ entryBad 0x20000000000 = false ∧
    (let s := { at0 .ap with launches := [aGang] }
     headGang s = some aGang ∧ dying s 1 = false ∧ partHeld s aGang.asid = false ∧ (∀ c ∈ gangCores aGang, freeFor s aGang c = true) ∧
      (∀ c ∈ gangCores aGang, isVacant s c = false) ∧ (∃ c ∈ gangCores aGang, isVacant { s with vacant := [4] } c = true) ∧
      (∀ c ∈ gangCores aGang, freeFor { s with vacant := [4] } aGang c = true) ∧ (gangCores aGang).Nodup ∧ (∀ k ∈ s.launches, k.st = .gangHead → k = aGang) ∧ (∀ k ∈ s.launches, k.st ≠ .gangWaiting) ∧ getLaunch s 1 = some aGang) := by decide
theorem test_hyps_DetectorLaunchEndAndKill :
    (let s := { launched [] with detUpd := [⟨1, 2, 1, false, 0⟩], tick := 6 }
     s.detUpd = [⟨1, 2, 1, false, 0⟩] ∧ 0 + 6 ≤ now s) ∧
    (let s := modCore (at0 .ap) 0 fun c => { c with waits := [{ qrec 1 with woken := true }] }
     (getCore s 0).waits[0]? = some { qrec 1 with woken := true }) ∧
    (let la := { aLaunch with skew := 10, finished := [(1, 5)] }
     let s := { modX (at0 .ap) 0 fun x => { x with run := some aRun } with launches := [la], tick := 100 }
     getLaunch s 1 = some la ∧ liveGroups s la ≠ [] ∧ 1 ∉ liveGroups s la ∧ la.skew < now s - (5 - 1) ∧ la.replan = false ∧ la.st ≠ .ended) ∧
    (let s := { at0 .ap with launches := [aLaunch] }
     getLaunch s 1 = some aLaunch ∧ aLaunch.st = .running ∧ dying s 1 = false ∧ noRecords s 1 = true ∧ writesDone s 1 = true) ∧
    (let s := { launched [] with killPend := [(1, 7)] }
     s.killPend = [(1, 7)] ∧ getLaunch s 1 = some aLaunch ∧ aLaunch.killed = 0 ∧ (cx s 0).run = some aRun ∧ aRun.lid = 1 ∧
      (getCore s 0).saved = [] ∧ putBy s = []) := by decide

/-- Core 0 runs launch 1 while a record of a launch of higher priority waits there. -/
def outranked : State :=
  { modCore (modX (at0 .ap) 0 fun x => { x with run := some aRun, residentLid := 1 }) 0 fun c =>
      { c with sram := [{ qrec 1 with lid := 2, examined := true }], shadowSlots := 3 } with
    launches := [aLaunch, { aLaunch with lid := 2, prio := 3, lcnt := 0 }] }

/-- A context saved from core 0. -/
def aContext : Saved := { ctx := Ctxt.reset, lid := 1, prio := 0, sp := [(5, 7)], spPsn := [], wdog := 3 }

theorem test_hyps_PreemptionAndContexts :
    preempts outranked 0 = true ∧
    (let s := { modCore (modX (at0 .ap) 0 fun x => { x with handlerMode := true }) 0 fun c => { c with stop := .preempt 0 } with tick := 2 ^ 20 }
     (getCore s 0).stop = .preempt 0 ∧ (cx s 0).handlerMode = true ∧ 0 + 2 ^ 20 ≤ now s ∧ (cx s 0).han.entered + 2 ^ 20 ≤ now s) ∧
    (let s := modCore (at0 .ap) 0 fun c => { c with stop := .preempt 0 }
     saveDue s 0 = true ∧ Machine.drained s 0 = true ∧ (getCore s 0).vfl = [] ∧ (getCore s 0).c3 = [] ∧ Memory.wf s.mem = true) ∧
    (let s := queueing fun c => { c with saved := [aContext] }
     savedTop s 0 = some aContext ∧ coreFree s 0 = true ∧ residentBusy s 0 = false ∧ starters s 0 = [] ∧
      (aContext.sp.map Prod.fst).Nodup ∧ ∀ c ∈ aContext.sp, c.1 < 0x100000) := by decide

theorem test_hyps_TrapEntryAndHandlerEvents :
    (∀ cause, cause = 1 ∨ cause = 7 → let t : Trap := ⟨cause, .ap, 0, 0, 0, 0, 0⟩
     let s := modCore (at0 .ap) 0 fun c => { c with trap := some t }
     (getCore s 0).trap = some t ∧ (cx s 0).handlerMode = false ∧ atBoundary s 0 (some .ap) = true ∧ lowestRaiser s 0 .ap = true) ∧
    (let s := modCore (launched []) 0 fun c => { c with wdogLimit := 1, wdogCnt := 65536 }
     (getCore s 0).wdogLimit ≠ 0 ∧ (getCore s 0).wdogLimit.toNat * 65536 ≤ (getCore s 0).wdogCnt ∧ (cx s 0).handlerMode = false ∧
      (cx s 0).run ≠ none ∧ (getCore s 0).trap = none ∧ dying s (runLid s 0) = false) ∧
    (let s := withX .c3 fun x => { x with handlerMode := true, hmm := true, han := { x.han with start := true } }
     (cx s 0).han.start = true ∧ (cx s 0).handlerMode = true ∧ (cx s 0).hmm = true) ∧
    (∀ n, n = 4 ∨ n = 5 → let s := { withX .ap fun x => { x with clsClr := some 4 } with tick := BitVec.ofNat 64 n }
     (cx s 0).clsClr = some 4 ∧ (4 < now s ↔ n = 5)) := by
  refine ⟨?_, by decide, by decide, by rintro n (rfl | rfl) <;> decide⟩
  rintro c (rfl | rfl) <;> decide

/-- Firmware runs, and a command whose bytes are given waits. -/
def cmd (bytes : List (Nat × Byte)) (s : State) : State :=
  { s with host := { s.host with bootState := 2, sqTail := 1, win := bytes.map fun b => (0x4003000 + b.1, b.2) } }

/-- A command waits. -/
theorem waits_of {s : State} {op : Nat} (h1 : s.host.bootState = 2) (h2 : s.secHalt = false) (h3 : s.host.sqHead ≠ s.host.sqTail)
    (h4 : (s.host.srTail - s.host.srHead).toNat < 16) (h5 : argOf s 0 = op) : Waits s op := ⟨h1, h2, h3, h4, h5⟩

theorem test_hyps_HostPortEvents :
    (at0 .ap).secHalt = false ∧ Memory.wf (at0 .ap).mem = true ∧ (0x3FFFFFF : BitVec 28).toNat + 1 ≤ 0x4000000 := by decide

theorem test_hyps_HostRings :
    (let s := onHost (at0 .ap) fun h => { h with cq := [(1, 2, 3, 4)], cqTail := 127 }
     s.secHalt = false ∧ s.host.cq = [(1, 2, 3, 4)] ∧ (s.host.cqTail - s.host.cqHead).toNat < 128 ∧ risingFrom 0 s.host.win = true) ∧
    (let r : Resp := ⟨0, 2 ^ 64 - 1, 0⟩
     r.v2 < 2 ^ 64 ∧ r.v3 < 2 ^ 64 ∧ r.status < 2 ^ 64) := by decide

theorem test_hyps_ServiceAndEpisodeCommands :
    (let s := cmd [(0, 1), (8, 1)] (launched [])
     Waits s 1 ∧ argOf s 1 < 65536 ∧ s.host.begun = false ∧ LiveLaunch s (BitVec.ofNat 16 (argOf s 1)) aLaunch ∧ MemOk s) ∧
    (let s := onHost (cmd [(0, 1), (8, 1)] (launched [])) fun h => { h with begun := true }
     Waits s 1 ∧ argOf s 1 < 65536 ∧ s.host.begun = true) ∧
    (let s := cmd [(0, 5), (16, 32), (24, 15)] (at0 .ap)
     Waits s 5 ∧ argOf s 1 % 32 = 0 ∧ argOf s 2 = 32 ∧ argOf s 3 < 16 ∧ lockable (argOf s 1) (argOf s 2) = true) ∧
    (let s := cmd [(0, 7), (8, 191), (16, 1)] (at0 .ap)
     Waits s 7 ∧ argOf s 1 < 192 ∧ argOf s 2 ≤ 1 ∧ argOf s 3 + 512 ≤ 0x4000000 ∧ isVacant s (argOf s 1) = false) ∧
    (let s := cmd [(0, 8)] (modCore (at0 .ap) 0 fun c => { c with halted := true })
     Waits s 8 ∧ argOf s 1 < 192 ∧ (getCore s (argOf s 1)).halted = true) ∧
    (let s := cmd [(0, 9), (24, 64)] (at0 .ap)
     Waits s 9 ∧ argOf s 3 % 64 = 0 ∧ argOf s 3 + 512 ≤ 0x4000000) ∧
    Waits (cmd [(0, 10)] (at0 .ap)) 10 ∧ Waits (cmd [(0, 11), (8, 0x20)] (at0 .ap)) 11 ∧
    (let s := cmd [(0, 12), (16, 64), (24, 1)] (at0 .ap)
     Waits s 12 ∧ argOf s 1 < 192 ∧ argOf s 3 = 1 ∧ argOf s 2 = 64 ∧ isVacant s 0 = false ∧ (getCore s 0).ovf = []) ∧
    (let s := cmd [(0, 2), (8, 5), (16, 1)] (launched [])
     Waits s 2 ∧ argOf s 1 = 5 ∧ argOf s 2 = 1 ∧ LiveLaunch s 1 aLaunch ∧ (getCtx s 5).st = .unbound) ∧
    (let s := modCtx (cmd [(0, 3), (8, 5), (21, 2)] (at0 .ap)) 5 fun c => { c with st := .bound }
     let d (i : Nat) : Nat := readNat s (argOf s 2 + 8 * i) 8
     Waits s 3 ∧ argOf s 1 = 5 ∧ descAddrOk (argOf s 2) = true ∧ refreshIn s (argOf s 2) 256 = false ∧ mayStart (getCtx s 5) = true ∧ descBad d = false ∧
      (List.range 8).all fun i => d (8 + 2 * i) = 0 ∧ d (9 + 2 * i) = 0) ∧
    (let s := modCtx (cmd [(0, 4), (8, 5)] (at0 .ap)) 5 fun c => { c with st := .live }
     Waits s 4 ∧ argOf s 1 = 5 ∧ (getCtx s 5).st = .live) ∧ Waits (cmd [(0, 6)] (at0 .ap)) 6 := by
  have w : ∀ {s : State} {op : Nat}, _ → _ → _ → _ → _ → Waits s op := @waits_of
  refine ⟨⟨w (by decide) (by decide) (by decide) (by decide) (by decide), by decide, by decide, ⟨by decide, by decide⟩,
      by show Memory.wf _ = true; decide⟩,
    ⟨w (by decide) (by decide) (by decide) (by decide) (by decide), by decide, by decide⟩,
    ⟨w (by decide) (by decide) (by decide) (by decide) (by decide), by decide⟩,
    ⟨w (by decide) (by decide) (by decide) (by decide) (by decide), by decide⟩,
    ⟨w (by decide) (by decide) (by decide) (by decide) (by decide), by decide⟩,
    ⟨w (by decide) (by decide) (by decide) (by decide) (by decide), by decide⟩,
    w (by decide) (by decide) (by decide) (by decide) (by decide), w (by decide) (by decide) (by decide) (by decide) (by decide),
    ⟨w (by decide) (by decide) (by decide) (by decide) (by decide), by decide⟩,
    ⟨w (by decide) (by decide) (by decide) (by decide) (by decide), by decide, by decide, ⟨by decide, by decide⟩, by decide⟩,
    ⟨w (by decide) (by decide) (by decide) (by decide) (by decide), by decide⟩,
    ⟨w (by decide) (by decide) (by decide) (by decide) (by decide), by decide⟩,
    w (by decide) (by decide) (by decide) (by decide) (by decide)⟩

theorem test_hyps_PartitionAndFirmwareEvents :
    (let s := cmd [] (at0 .ap)
     Runs s ∧ (tget Partition.reset s.parts 7).st = .free ∧ coresTaken s 7 [191] = false) ∧
    (∀ st, st = PState.running ∨ st = .halted ∨ st = .saved →
      let s := cmd [] { at0 .ap with parts := [(7, { Partition.reset with st := st, cores := [3] })] }
      Runs s ∧ (tget Partition.reset s.parts 7).st = st ∧ isVacant s 3 = false ∧ coresTaken s 7 [3] = false ∧
        (getCore s 3).vfl = []) ∧
    (let s := cmd [] { modCore (at0 .ap) 3 fun c => { c with stop := .stopped } with
       parts := [(7, { Partition.reset with st := .halted, cores := [3] })] }
     Runs s ∧ (tget Partition.reset s.parts 7).st = .halted ∧ (∀ l ∈ [3], (getCore s l).stop = .stopped)) ∧
    (let s := cmd [] { at0 .ap with dies := vset State.reset.dies 1 { Die.reset with fq := [aFault 1] } }
     (vget Die.reset s.dies (true : Bool).toNat).fq = [aFault 1] ∧ Memory.wf s.mem = true ∧ (42 : BitVec 8).toNat ≤ 42) ∧
    (∀ a, a = 0x400000 ∨ a = 0x10C00000000 → OffVaults a 64 ∧ refreshIn (cmd [] (at0 .ap)) a 64 = false) ∧ ¬OffVaults 0x10BFFFFFFFF 1 := by
  refine ⟨⟨⟨by decide, by decide⟩, by decide⟩, ?_, ⟨⟨by decide, by decide⟩, by decide⟩, by decide, ?_, by unfold OffVaults; decide⟩
  · rintro st (rfl | rfl | rfl) <;> exact ⟨⟨by decide, by decide⟩, by decide⟩
  · rintro a (rfl | rfl) <;> exact ⟨by unfold OffVaults; decide, by decide⟩

theorem test_hyps_ResetBootAndScan :
    State.reset.inReset = true ∧
    (let s := onHost (at0 .ap) fun h => { h with bootState := 1 }
     s.host.bootState = 1 ∧ s.secHalt = false) ∧
    Runs (cmd [] (at0 .ap)) ∧ (cmd [] (at0 .ap)).host.ready = false ∧ scanMem 0x400000 = true ∧ refreshIn (cmd [] (at0 .ap)) 0x400000 8 = false ∧
    (let s := { at0 .ap with inReset := false, frzArm := true }
     s.frozen = false ∧ s.inReset = false ∧ s.frzArm = true ∧ s.frzTick = s.tick) ∧
    (let s := { at0 .ap with frozen := true, tape := [.tick, .event .freeze] }
     s.frozen = true ∧ s.tape = .tick :: [.event .freeze] ∧ Move.tick ≠ .event .deviceReset) :=
  ⟨by decide, by decide, ⟨by decide, by decide⟩, by decide, by decide, by decide, by decide, by decide⟩

theorem test_hyps_PowerSensorsAndRegisters :
    (0x56 : BitVec 8).toNat / 4 ^ (0 : BitVec 2).toNat % 4 = 2 ∧ Runs (cmd [] (at0 .ap)) ∧
    (let s := cmd [] (at0 .ap)
     (getBlock s 23).gated = false ∧ (∀ l ∈ blockCores 23, coreIdle s l = true) ∧ (getBlock s 23).buf = []) ∧
    (let s := { modBlock (at0 .ap) 23 fun k => { k with gating := some 0 } with tick := 22000 }
     (getBlock s 23).gating = some 0 ∧ 0 + 22000 ≤ now s ∧ ∀ l ∈ blockCores 23, coreIdle s l = true) ∧
    (getBlock (modBlock (at0 .ap) 23 fun k => { k with gated := true }) 23).gated = true ∧
    (let s := { at0 .ap with sampLog := 1, kindEn := 0x80, tick := 2 }
     sampleDue s = true ∧ s.cores = []) :=
  ⟨by decide, ⟨by decide, by decide⟩, by decide, by decide, by decide, by decide⟩

/-- Context 5 live on core 0, with bytes of its SRAM from address 0 and a window over the whole of it. -/
def episode (bytes : List Byte) (f : Ctx → Ctx) : State :=
  let w : Window := ⟨0, 0x40000, true, true, true, true, true, 0⟩
  let s := modCtx (at0 .ap) 5 fun c => f { c with st := .live, windows := [w], eid := 0, pc := 0 }
  modEp s 0 fun e => { e with cur := 5, sram := (List.range bytes.length).zip bytes }

/-- A word stands at the program counter of the resident context. -/
theorem at_word {s : State} {n : Nat} {w : RvWord} (h1 : runsNow s n = true) (h2 : (epFetch s n).toOption = some (w, 4))
    (h3 : (mayCredit s n && decide ((getEp s (coreOfCtx n)).ran < 4096)) = true) : AtWord s n w := by
  rw [Bool.and_eq_true, decide_eq_true_iff] at h3
  refine ⟨h1, h3.1, ?_, .inl h3.2⟩
  cases h : epFetch s n with
  | error e => rw [h] at h2; cases h2
  | ok v => rw [h] at h2; exact congrArg _ (Option.some.inj h2)

theorem test_hyps_EpisodeCoreWords :
    AtWord (episode (toLE 4 0xFFF10093) id) 5 (wAddi 1 2 0xFFF) ∧ AtWord (episode (toLE 4 0x003100B3) id) 5 (wAdd false 1 2 3) ∧
    AtWord (episode (toLE 4 0x403100B3) id) 5 (wAdd true 1 2 3) ∧ AtWord (episode (toLE 4 0x800000B7) id) 5 (wLui 1 0x80000) ∧
    AtWord (episode (toLE 4 0x73) id) 5 0x73#32 ∧ residentCtx (episode [] id) 0 = 5 :=
  ⟨at_word (by decide) (by decide) (by decide), at_word (by decide) (by decide) (by decide), at_word (by decide) (by decide) (by decide),
    at_word (by decide) (by decide) (by decide), at_word (by decide) (by decide) (by decide), by decide⟩

/-- Service core 0 at some bytes of code, once firmware runs. -/
def service (bytes : List Byte) : State := modSvc (putBytes (cmd [] (at0 .ap)) 0x400000 bytes) 0 fun h => { h with pc := 0x400000 }

/-- A word stands at the program counter of a service core. -/
theorem svc_word {s : State} {k : Nat} {w : RvWord} (h : (svcFetch s k).toOption = some (w, 4)) : svcFetch s k = .ok (w, 4) := by
  cases hf : svcFetch s k with
  | error e => rw [hf] at h; cases h
  | ok v => rw [hf] at h; exact congrArg _ (Option.some.inj h)

theorem test_hyps_PartitionAndFirmwareEvents_service :
    Runs (service []) ∧ svcFetch (service (toLE 4 0xFFF10093)) (0 : BitVec 2).toNat = .ok (wAddi 1 2 0xFFF, 4) ∧
    svcFetch (service (toLE 4 0x73)) (0 : BitVec 2).toNat = .ok (0x73#32, 4) :=
  ⟨⟨by decide, by decide⟩, svc_word (by decide), svc_word (by decide)⟩

/-- ADDI x1, x0, −1 on a service core (RISC-V: sign-extended immediate). -/
theorem test_service_addi :
    (let h := getSvc (svcStep (service (toLE 4 0xFFF00093)) 0) 0
     xr h.hart 1 = 0xFFFFFFFFFFFFFFFF ∧ h.pc = 0x400004 ∧ h.instret = 1) := by decide

/-- A message whose first bytes are given. -/
def message (h : Nat) (d : Bool) : Msg := ⟨(toLE 8 h).map fun b => ⟨b, false⟩, d⟩

theorem test_hyps_MailboxDoorbells :
    (let s := episode [] fun c => { c with wait := .actTake 3 4, actBox := [message 7 true] }
     let c := getCtx s 5
     c.st = .live ∧ InTurn s 5 1000 ∧ c.wait = .actTake 3 4 ∧ c.actBox = [message 7 true] ∧ (message 7 true).delivered = true) ∧
    ∀ rew, (let s := episode [] fun c => { c with wait := .bell rew 7 4, phase := (0, 1000) }
     let c := getCtx s 5
     c.st = .live ∧ InTurn s 5 1000 ∧ c.wait = .bell rew 7 4 ∧ (if rew then c.rewBox else c.obsBox).length < 7) := by
  unfold InTurn; decide

theorem test_hyps_EpisodeEndsAndScrub :
    (let s := episode [] fun c => { c with out := 1, stepWd := 9, stepTimer := 9, budgetMax := 3, budget := 3, phase := (0, 2000) }
     let c := getCtx s 5
     c.st = .live ∧ InTurn s 5 2000 ∧ c.out ≠ 0 ∧ c.stepWd ≤ c.stepTimer ∧ c.budgetMax ≠ 0 ∧ c.budgetMax ≤ c.budget) ∧
    (∀ f g : Bool, let s := episode [] fun c => { c with actBox := [message (3 + 2 ^ 32 * 9) false], checker := g, follow := f, lag := 2, g0 := 5 }
     let c := getCtx s 5
     c.st = .live ∧ stepExpired c = false ∧ budgetExpired c = false ∧ c.actBox = [message (3 + 2 ^ 32 * 9) false] ∧ c.checker = g ∧
      c.delivered = false ∧ c.lag.toNat < (9 - c.g0).toNat ∧ c.follow = f) ∧
    (let s := episode [] fun c => { c with actBox := [message 3 false], delivered := true, lstep := 3, lag := 65535 }
     let c := getCtx s 5
     stepExpired c = false ∧ budgetExpired c = false ∧ c.delivered = true ∧ c.lstep.toNat = 3 ∧ ¬c.lag.toNat < ((0 : BitVec 16) - c.g0).toNat) ∧
    (let s := episode [] fun c => { c with st := .suspended, excCode := 2 }
     let t := { s with dies := vset s.dies 0 { Die.reset with reports := [(5, 2, 0, 0)] } }
     (getCtx t 5).st = .suspended ∧ standing t (ctxDie 5) = [(5, 2, 0, 0)]) ∧
    (let s := episode [] fun c => { c with st := .ended, scrb := true, windows := [⟨0x8000000, 64, true, true, true, true, true, 0⟩] }
     Memory.wf s.mem = true ∧ (getCtx s 5).st = .ended ∧ (getCtx s 5).scrb = true ∧ (getCtx s 5).windows.length = 1 ∧
       refreshIn s 0x8000000 64 = false) ∧
    (let k : Window := ⟨0x1FFFC0, 64, true, true, true, true, true, 0⟩
     let s := episode [] fun c => { c with st := .ended, scrb := true, windows := [k] }
     (getCtx s 5).st = .ended ∧ (getCtx s 5).windows = [k] ∧ k.base < 0x200000 ∧ k.valid = true ∧ k.own = true) ∧
    (let s := modCtx (episode [] fun c => { c with wait := .actTake 0 4 }) 0 fun c => { c with st := .live }
     nextReady s 0 = some 0 ∧ residentCtx s 0 = 5 ∧ ctxReady (getCtx s 5) = false ∧ mayCredit s 0 = true) ∧
    (let s := modEp (modCtx (episode [] id) 0 fun c => { c with st := .live }) 0 fun e => { e with ran := 4096 }
     nextReady s 0 = some 0 ∧ 4096 ≤ (getEp s 0).ran ∧ mayCredit s 0 = true) := by
  unfold InTurn; decide

/-- A flit of a kind to or from device 3. -/
def aFlit (kind : BitVec 4) (ddev : BitVec 9) (ok : Bool) : Flit :=
  { kind := kind, ddev := ddev, sdev := 3, score := 0, fmt := 0xF, raw := true, len := 4, addr := 0x8000000, tag := 1, op := 0
    wide := false, opnd := 0, cmp := 0, mask := BitVec.allOnes 224, page := none, key := none, strict := false, marks := 0
    acf := 0, rmw := false, fault := none, payload := [], crcOk := ok }

/-- Port 1 trained. -/
def linked : State := modPort (at0 .ap) 1 fun q => { q with up := true }

theorem test_hyps_LinkEvents :
    (getPort linked 1).up = true ∧ (getPort linked 1).resend = false ∧ devNum linked = 0 ∧ Memory.wf linked.mem = true ∧
    flitHeld linked (aFlit 1 0 true) = false ∧ linkMay 0x8000000 4 false = true ∧
    flitHeld linked (aFlit 3 0 true) = false ∧ linkMay 0x8000000 (flitData linked 1 (aFlit 3 0 true)).length true = true ∧
    flitHeld linked (aFlit 1 9 true) = false ∧ flitHeld linked (aFlit 1 0 false) = false ∧
    (flitData linked 1 (aFlit 3 0 true)).length = 4 ∧ flitSound (aFlit 1 0 true) = true ∧ flitSound (aFlit 3 0 true) = true ∧
    flitSound (aFlit 9 0 true) = false ∧ flitHeld linked (aFlit 9 0 true) = false := by decide

/-- An access to another device whose only flit stands behind all that port 1 has seen accepted. -/
def losing : State :=
  let t : Transit := { aStore false 0 with remote := true, left := [0] }
  let f : Flit := { aFlit 3 3 true with sdev := 0, score := 0, tag := pieceTag t 0 }
  { modPort linked 1 fun q => { q with sent := List.replicate (Config.acceptedFlits 0 + 1) (f, q.tx) } with transit := [t] }

theorem test_hyps_LinkEvents_lost :
    ∃ x ∈ losing.transit, carriedBy (devNum losing) (((getPort losing 1).sent.drop (Config.acceptedFlits losing.nonce)).map Prod.fst) x = true ∧
      x.eng = .ap := by
  refine ⟨_, .head _, ?_, rfl⟩
  have h : (getPort losing 1).sent.drop (Config.acceptedFlits losing.nonce) =
      (List.replicate (Config.acceptedFlits 0 + 1) (_, _)).drop (Config.acceptedFlits 0) := rfl
  rw [h, List.drop_replicate, show Config.acceptedFlits 0 + 1 - Config.acceptedFlits 0 = 1 by omega]
  decide

theorem test_hyps_DecodeOfEncode :
    (wf (.add 3 4 4 5) = true ∧ encode (.add 3 4 4 5) = some (toLE 4 0x02421403) ∧ Eng.ap.wordBytes = (toLE 4 0x02421403).length) ∧
    (toLE 12 0x0897C014420C700000000000).length = Eng.c1.wordBytes ∧
    (decode .c1 (toLE 12 0x0897C014420C700000000000)).isSome = true := by decide

/-- The word ADD placed. -/
def placed : State := State.withFetchWord State.reset 32 0x02421403

/-- The try of that word. -/
def tried : State := beginTry { placed with tape := placed.tape.drop 1, nonce := placed.nonce + 1 } 0 .ap

theorem test_hyps_StepRunsTheDecodedWord :
    (∃ rest, placed.tape = .issue 0 .ap :: rest) ∧ canTry { placed with tape := placed.tape.drop 1, nonce := placed.nonce + 1 } 0 .ap = true ∧
    (match fetch tried 0 .ap with | .word w _ => w == 0x02421403 | _ => false) = true ∧ decodeFetched .ap 0x02421403 = some (.add 3 4 4 5) ∧
    (getEng tried 0 .ap).cur = none ∧ pcLegal tried 0 .ap (getPc tried 0 .ap) = true ∧ (getCore tried 0).apFlt = .clear ∧
    (match classify (getPc tried 0 .ap) with
      | .virt va key =>
        match (checkVa tried none (getCore tried 0).walkCache (getCore tried 0).apTlb 64 (cx tried 0).asid (runLid tried 0) va 4 key .fetch).1 with
        | .ok ps => let bs := (readParts (modCore tried 0 fun c => { c with apTlb := (checkVa tried none (getCore tried 0).walkCache (getCore tried 0).apTlb 64 (cx tried 0).asid
                        (runLid tried 0) va 4 key .fetch).2 }) ps).1
            !bs.any (·.psn) && decide (decode .ap (bs.map (·.b)) = some (.add 3 4 4 5))
        | _ => false
      | _ => false) = true ∧
    (match fetch (setPc tried 0 .ap 8) 0 .ap with | .outside => true | _ => false) = true := by
  refine ⟨⟨_, rfl⟩, by decide⟩

theorem test_hyps_EveryInstructionAnswers :
    (State.reset.frozen = false ∨ State.reset.tape ≠ []) ∧ { State.reset with frozen := true }.frozen = true ∧
    ({ State.reset with frozen := true } : State).tape = [] := by decide

theorem test_hyps_StepsKeepMemory : Memory.wf State.reset.mem = true ∧ Memory.wf placed.mem = true := by decide

theorem test_hyps_ConstantRegisters : (3 : Reg) ≠ 0 ∧ (15 : Reg).toNat < 16 ∧ (4 : Reg) ≠ 3 ∧ (.c0 = Eng.ap ∨ Eng.c0 = .c0) := by decide

theorem test_hyps_ResetFacts : isSp 0x30000000000 = true ∧ isSp 0x3000BFFFFFF = true ∧ isSp 0x3000C000000 = false ∧
    0x20000000000 ≤ 0x20003FFFFFF ∧ 0x20003FFFFFF < 0x20004000000 := by decide

theorem test_hyps_BarrierObjectsAndEvents_waits :
    (let w (i : Nat) : BitVec 32 := barGet (barrier [(1, 1), (3, 1)]) 0 63 i
     w 2 + 1 = w 1 ∧ w 3 = w 1 ∧ w 1 ≠ 0) ∧
    barGet (barrier [(0, 3)]) 0 63 0 = 3 := by decide

/-- Phases that BARWAIT may name, beside a PHASE of 3: how far they lie before it and after it. -/
theorem test_hyps_BarrierObjectsAndEvents_phases :
    (3 ≤ ((3 : BitVec 32) - 0).toNat ∧ ((3 : BitVec 32) - 0).toNat < 2147483648) ∧
    (0 < ((3 : BitVec 32) - 1).toNat ∧ ((3 : BitVec 32) - 1).toNat < 3) ∧ (0 < ((3 : BitVec 32) - 2).toNat ∧ ((3 : BitVec 32) - 2).toNat < 3) ∧
    ((3 : BitVec 32) - 3).toNat ≤ 1 ∧ ((4 : BitVec 32) - 3).toNat ≤ 1 ∧
    (1 < ((5 : BitVec 32) - 3).toNat ∧ ((5 : BitVec 32) - 3).toNat ≤ 2147483648) ∧
    (1 < ((2147483651 : BitVec 32) - 3).toNat ∧ ((2147483651 : BitVec 32) - 3).toNat ≤ 2147483648) := by decide

theorem test_hyps_MailboxWords_banks : Alone boxed 0 (apWho 0 0) [((rreg boxed 0 .ap 6).toNat, 256)] := alone_of (by decide) (by decide)

/-- A descriptor of two INT8 elements at 0x100 of the scratchpad, the second of which a limit of 1 puts out of bounds, with ring 5. -/
def padDesc (dir : Nat) : Nat := dir + 2 ^ 3 + Fmt.int8.code.toNat * 2 ^ 6 + 5 * 2 ^ 10 + 0x100 * 2 ^ 64 + 2 * 2 ^ 128 + 1 * 2 ^ 448 + 1 * 2 ^ 640

theorem test_hyps_SlotCommitEvents_elements :
    let s := su (padDesc 0) id [(5, ring4)]
    let d := (getStream s 0 2).desc
    dDir d = 0 ∧ (getStream s 0 2).ahead = [] ∧ InPad s 0 2 2 0 ∧ linOf d (getStream s 0 2).idx = 0 ∧
    2 = min (slotCap (dFmt d) ((getRing s 0 5).z * 256)) (dTotal d - 0) ∧ inBounds d 0 = true ∧ inBounds d 1 = false ∧
    Alone s 0 (suWho 0 2) (fillBytes s 0 d) :=
  ⟨by decide, by decide, ⟨by decide, by decide, by decide, by decide, alone_of (by decide) (by decide), by decide, by unfold InBarrier; decide⟩, by decide,
    by decide, by decide, by decide, alone_of (by decide) (by decide)⟩

theorem test_hyps_SlotDrainEvents_elements :
    let s := su (padDesc 1) id [(5, { ring4 with fe := 1 })]
    dDir (getStream s 0 2).desc = 1 ∧ (getStream s 0 2).sent = 0 ∧ InPad s 0 2 2 0 ∧ (getCore s 0).ackOut ≤ 65535 ∧ MemOk s ∧
    Alone s 0 (suWho 0 2) [(getRing s 0 5).headBytes] :=
  ⟨by decide, by decide, ⟨by decide, by decide, by decide, by decide, alone_of (by decide) (by decide), by decide, by unfold InBarrier; decide⟩, by decide,
    by show Memory.wf _ = true; decide, alone_of (by decide) (by decide)⟩

/-- The CE of core 0 with a transfer that is at its end. -/
def ending' (ended : Bool) (toks : List (Nat × Nat)) : State :=
  modX (modCore (su 0 id []) 0 fun c => { c with ce := [{ aCopy with started := true, ended := ended, tks := 3 }] }) 0 fun x => { x with fifo := toks }

theorem test_hyps_StreamAndCopyEvents_tokens :
    (getCore (ending' true []) 0).ce = [{ aCopy with started := true, ended := true, tks := 3 }] ∧ suRuns (ending' true []) 0 = true ∧
    TokenRoom (ending' true []) 0 7 3 1 ∧
    (let u := iter (fun s => ceUnit s 0) 2 (ending' false [(7 * 8 + 3, 8)])
     (getCore u 0).ce = [{ aCopy with started := true, tks := 3 }] ∧ writesOut u 0 .ce 0 = false ∧ ¬TokenRoom u 0 7 3 1 ∧
     Alone u 0 (ceWho 0) [(0x40 + 0x1C, 4)]) :=
  ⟨by decide, by decide, by unfold TokenRoom; decide, by decide, by decide, by unfold TokenRoom; decide, alone_of (by decide) (by decide)⟩

theorem test_hyps_VectorReductionAndPredicateWords_extremes :
    (∀ x ∈ [(0x80 : Nat), 0x7F], x < 2 ^ Fmt.int8.width) ∧ Fmt.isInt .int8 = true ∧
    (∀ x ∈ [(0x7FC00000 : Nat)], x < 2 ^ Fmt.fp32.width ∧ (decodeF (ffOf .fp32) x).isNan = true) ∧
    (∀ x ∈ [(0x80000000 : Nat), 0], (decodeF (ffOf .fp32) x).isNan = false) := by decide

theorem test_hyps_VectorPushesAndLanding_pair :
    let s := inFlight [([.vreg 0 VReg.zero 1, .vreg 63 VReg.zero 2], 3)]
    let fs := (getCore s 0).vfl
    flightAt fs false 0 = some 0 ∧ (∃ f, fs[0]? = some f ∧ mayLand s 0 f = true ∧ f.c2 = false ∧ f.tok = 3 ∧
      f.writes = [.vreg 0 VReg.zero 1, .vreg 63 VReg.zero 2]) ∧ (0 : Nat) ≠ 63 ∧ ∀ o ∈ fs.take 0, Unseen false o := by
  refine ⟨by decide, ⟨_, rfl, by decide, rfl, rfl, rfl⟩, by decide, fun o ho => nomatch ho⟩

theorem test_hyps_MatrixWordEvents_arrival :
    let f : C3Flight := { fresh mat 2 { mq with ben := true, bar := 63 } with started := true, due := 5 }
    let s := modCore (modX mat 0 fun x => { x with baren := true }) 0 fun c => { c with c3 := [f] }
    (getCore s 0).c3[0]? = some f ∧ f.due ≤ now s ∧ f.out = none ∧ f.slots = [] ∧ portsRead f.op f.w = [] ∧ f.w.ben = true ∧
    f.handler = false ∧ arrivalHeld s 0 63 = false ∧ (tget 0 (cx s 0).mbph 63).getLsbD 40 = false ∧ Memory.wf s.mem = true ∧
    isVacant s 0 = false ∧ (cx s 0).baren = true ∧ (cx s 0).rgnend < 256 ∧ barGet s 0 63 0 = (tget 0 (cx s 0).mbph 63).extractLsb' 0 32 ∧
    barGet s 0 63 2 + 1 ≠ barGet s 0 63 1 := by decide

theorem test_hyps_DetectorLaunchEndAndKill_term :
    let s := { modCore (modX (at0 .ap) 100 fun x => { x with run := some aRun }) 100 fun c => { c with apWait := .take } with
      launches := [aLaunch], detUpd := [⟨1, 0, 0, true, 0⟩], tick := 6 }
    s.detUpd = [⟨1, 0, 0, true, 0⟩] ∧ 0 + 6 ≤ now s ∧ (getCore s 100).apWait = .take ∧ dieOf 100 = 1 ∧ (cx s 100).run.map (·.lid) = some 1 := by
  decide

theorem test_hyps_LinkEvents_faults :
    (let f : Flit := { aFlit 1 0 true with key := some 3 }
     linkMay 0x8000000 4 false = true ∧ goneGran linked none [(0x8000000, 4)] = none ∧ lockOf linked (0x8000000 / 32 * 32) ≠ (3 : BitVec 4).toNat ∧
       f.page = none) ∧
    HomeAllows linked (aFlit 1 0 true) 4 ∧
    (let f : Flit := { aFlit 5 0 true with wide := true }
     (0x8000000 : Nat) % 8 = 0 ∧ linkMay 0x8000000 8 true = true ∧ HomeAllows linked f 8 ∧ flitSound f = true) := by
  refine ⟨by decide, ⟨rfl, by decide, fun k h => nomatch h⟩, by decide, by decide, ⟨rfl, by decide, fun k h => nomatch h⟩, by decide⟩

/-- The word ADD at an address whose page device 1 holds, with a port that leads there. -/
def afar : State :=
  { modPort (modCore tried 0 fun c =>
      { c with apTlb := [⟨0, placeAt / 0x8000, 0, BitVec.ofNat 128 (0x1F + (2 ^ 51 + 2 ^ 42) * 2 ^ 64), 0⟩] }) 1 fun q => { q with up := true } with
    routes := [(1, [1])] }

theorem test_hyps_StepRunsTheDecodedWord_far :
    (match checkVa afar none (getCore afar 0).walkCache (getCore afar 0).apTlb 64 (cx afar 0).asid (runLid afar 0) placeAt 4 0 .fetch with
      | (.ok ps, tlb) => ps.any (fun p => homeOf (dieOf 0) p == .remote) &&
          (readAway (modCore afar 0 fun c => { c with apTlb := tlb }) 0 .c0 0 0 0xF ps).2.isNone
      | _ => false) = true ∧ classify (getPc afar 0 .ap) = .virt placeAt 0 := by decide

/-! ### A word of every instruction, written from the layouts of R124, R133, R134 and R139 -/

/-- The words decode to the instructions beside them, and each is the word of its instruction. -/
def reads (e : Eng) (l : List (Nat × Instr)) : Bool :=
  l.all fun p => decide (decode e (toLE e.wordBytes p.1) = some p.2) && decide (encode p.2 = some (toLE e.wordBytes p.1)) && wf p.2

theorem test_decode_integer : reads .ap [
    (0x03B6D805, .add 5 27 13 22),
    (0x03B6D80D, .sub 5 27 13 22),
    (0x03B6D815, .and 5 27 13 22),
    (0x03B6D81D, .or 5 27 13 22),
    (0x03B6D825, .xor 5 27 13 22),
    (0x03B6D82D, .andn 5 27 13 22),
    (0x03B6D835, .shl 5 27 13 22),
    (0x03B6D83D, .shr 5 27 13 22),
    (0x03B6D845, .sra 5 27 13 22),
    (0x03B6D84D, .min 5 27 13 22),
    (0x03B6D855, .max 5 27 13 22),
    (0x03B6D85D, .minu 5 27 13 22),
    (0x03B6D865, .maxu 5 27 13 22),
    (0x03B6D86D, .slt 5 27 13 22),
    (0x03B6D875, .sltu 5 27 13 22),
    (0x03B6D87D, .seq 5 27 13 22),
    (0x03B6D885, .mul 5 27 13 22),
    (0x03B6D88D, .mulh 5 27 13 22),
    (0x03B6D895, .mulhu 5 27 13 22),
    (0x03B6D89D, .div 5 27 13 22),
    (0x03B6D8A5, .divu 5 27 13 22),
    (0x03B6D8AD, .rem 5 27 13 22),
    (0x03B6D8B5, .remu 5 27 13 22),
    (0x03B680BD, .clz 5 27 13),
    (0x03B680C5, .ctz 5 27 13),
    (0x03B680CD, .popc 5 27 13),
    (0x03B6D8D5, .bext 5 27 13 22),
    (0x03B6D8DD, .bins 5 27 13 22)] = true := by decide

theorem test_decode_predicates_and_immediates : reads .ap [
    (0x0466D805, .kcmpEq 5 6 13 22),
    (0x0466D80D, .kcmpNe 5 6 13 22),
    (0x0466D815, .kcmpLt 5 6 13 22),
    (0x0466D81D, .kcmpGe 5 6 13 22),
    (0x0466D825, .kcmpLtu 5 6 13 22),
    (0x0466D82D, .kcmpGeu 5 6 13 22),
    (0x04619045, .kand 5 6 3 4),
    (0x0461904D, .kor 5 6 3 4),
    (0x04618055, .knot 5 6 3),
    (0x09B6D1AD, .addi 5 27 13 2613),
    (0x0BB6D1AD, .andi 5 27 13 2613),
    (0x0DB6D1AD, .ori 5 27 13 2613),
    (0x0FB6D1AD, .xori 5 27 13 2613),
    (0x11B68155, .shli 5 27 13 42),
    (0x13B68155, .shri 5 27 13 42),
    (0x15B68155, .srai 5 27 13 42),
    (0x17B6D1AD, .slti 5 27 13 2613),
    (0x19B051AD, .lui 5 27 2613),
    (0x1BB051AD, .addpc 5 27 2613)] = true := by decide

theorem test_decode_memory : reads .ap [
    (0x21B6EB95, .ld 5 27 13 860 2),
    (0x23B6EB95, .ldu 5 27 13 860 2),
    (0x25B6EB95, .st 5 27 13 860 2),
    (0x27B6D835, .ldx 5 27 13 22 true 2),
    (0x29B6D815, .stx 5 27 13 22 2),
    (0x31B681B5, .lda 5 27 13 3 true 2),
    (0x33B68195, .stl 5 27 13 3 2),
    (0x35B6D9B5, .amoW 5 27 13 22 3 6),
    (0x37B6D9B5, .amoD 5 27 13 22 3 6),
    (0x39B6D985, .cas 5 27 13 22 3 false),
    (0x3A000185, .fence 5 3),
    (0x3C000005, .qalign 5)] = true := by decide

theorem test_decode_control : reads .ap [
    (0x41559AE5, .b 5 2798428),
    (0x43559AE1, .bk 1 2798428),
    (0x45B6D1AD, .bccEq 5 27 13 2613),
    (0x47B6D1AD, .bccNe 5 27 13 2613),
    (0x49B6D1AD, .bccLt 5 27 13 2613),
    (0x4BB6D1AD, .bccGe 5 27 13 2613),
    (0x4DB6D1AD, .bccLtu 5 27 13 2613),
    (0x4FB6D1AD, .bccGeu 5 27 13 2613),
    (0x51B051AD, .jal 5 27 2613),
    (0x53B6D1AD, .jalr 5 27 13 2613),
    (0x540691AD, .loop 5 13 565),
    (0x563051AD, .brq 5 3 2613),
    (0x58330005, .bqpush 5 3 6),
    (0x60600005, .tksig 5 6),
    (0x62600005, .tkwait 5 6)] = true := by decide

theorem test_decode_streams : reads .ap [
    (0x71406805, .scfg 5 10 13),
    (0x7140000D, .sopen 5 10),
    (0x71400015, .sclose 5 10),
    (0x7140001D, .seos 5 10),
    (0x71406825, .smark 5 10 13),
    (0x7140002D, .srewind 5 10),
    (0x71594835, .sforkG 5 10 25 9),
    (0x7159003D, .sforkT 5 10 25),
    (0x71406845, .sstat 5 10 13),
    (0x7140684D, .ssave 5 10 13),
    (0x71406855, .srest 5 10 13),
    (0x7140185D, .swait 5 10 3),
    (0x71406865, .sbase 5 10 13),
    (0x72196805, .rcfg 5 25 13),
    (0x7219680D, .rhead 5 25 13),
    (0x72196815, .rtail 5 25 13),
    (0x7219681D, .rpop 5 25 13),
    (0x72196825, .rpush 5 25 13),
    (0x7219182D, .rwait 5 25 3)] = true := by decide

theorem test_decode_tasks : reads .ap [
    (0x78068005, .copy 5 13),
    (0x79B6800D, .copyw 5 27 13),
    (0x78068015, .wsload 5 13),
    (0x81B68005, .spawn 5 27 13),
    (0x8000000D, .exit 5),
    (0x8006D815, .join 5 13 22),
    (0x8006801D, .park 5 13),
    (0x81B6D825, .waitf 5 27 13 22),
    (0x81B6D82D, .append 5 27 13 22),
    (0x81B68035, .take 5 27 13),
    (0x81B0003D, .quiet 5 27),
    (0x8806D805, .barinit 5 13 22),
    (0x89B6D80D, .bararr 5 27 13 22),
    (0x89B6D815, .barwait 5 27 13 22),
    (0x89B6801D, .barstat 5 27 13),
    (0x91B6D805, .mbput 5 27 13 22),
    (0x91B6D80D, .mbget 5 27 13 22),
    (0x91B68015, .mbpeek 5 27 13)] = true := by decide

theorem test_decode_system : reads .ap [
    (0xA1B0C305, .csrr 5 27 195),
    (0xA1B0C30D, .csrw 5 27 195),
    (0xA1B0C315, .csrx 5 27 195),
    (0xA2000305, .trap 5 3),
    (0xA200000D, .tret 5),
    (0xA2000015, .halt 5),
    (0xA3B0001D, .tick 5 27),
    (0xA3B9C325, .tlbinv 5 27 2499),
    (0xA3B0002D, .asidret 5 27),
    (0xA3B00035, .spcfg 5 27),
    (0xB0005B15, .syncg 5 2 182),
    (0xB20011AD, .loopc 5 565),
    (0xB4000015, .rotclr 5 2),
    (0xB63005B5, .ease 5 3 182)] = true := by decide

theorem test_decode_vector_integer : reads .c1 [
    (0x806489615E180BA360010000, .vadd ⟨true, false, 9, 2, .reg 37 2, .reg 21 3, .bc 6, .int8, 11, true, ⟨2, 1, 5, 4⟩, 1, 0⟩),
    (0x80A4896533001BA36001B3A7, .vsub ⟨true, false, 9, 2, .reg 37 2, .port 19, .imm, .uint8, 11, true, ⟨2, 1, 5, 4⟩, 1, 45991⟩),
    (0x80E48968D0C92BA360010000, .vmul ⟨true, false, 9, 2, .reg 37 2, .bc 13, .reg 50 1, .int16, 11, true, ⟨2, 1, 5, 4⟩, 1, 0⟩),
    (0x812489615E183BA360000000, .vmulh ⟨true, false, 9, 2, .reg 37 2, .reg 21 3, .bc 6, .int32, 11, true, ⟨2, 1, 5, 4⟩, 0, 0⟩),
    (0x8164896533004BA36001B3A7, .vmac ⟨true, false, 9, 2, .reg 37 2, .port 19, .imm, .int64, 11, true, ⟨2, 1, 5, 4⟩, 1, 45991⟩),
    (0x81A48968D0C90BA360000000, .vmin ⟨true, false, 9, 2, .reg 37 2, .bc 13, .reg 50 1, .int8, 11, true, ⟨2, 1, 5, 4⟩, 0, 0⟩),
    (0x81E489615E181BA360000000, .vmax ⟨true, false, 9, 2, .reg 37 2, .reg 21 3, .bc 6, .uint8, 11, true, ⟨2, 1, 5, 4⟩, 0, 0⟩),
    (0x82248965E0002BA360010000, .vabs ⟨true, false, 9, 2, .reg 37 2, .port 30, .reg 0 0, .int16, 11, true, ⟨2, 1, 5, 4⟩, 1, 0⟩),
    (0x82648963C4004BA360000000, .vneg ⟨true, false, 9, 2, .reg 37 2, .reg 60 1, .reg 0 0, .int64, 11, true, ⟨2, 1, 5, 4⟩, 0, 0⟩),
    (0x82A4896533002BA36000B3A7, .vand ⟨true, false, 9, 2, .reg 37 2, .port 19, .imm, .int16, 11, true, ⟨2, 1, 5, 4⟩, 0, 45991⟩),
    (0x82E48968D0C93BA360000000, .vor ⟨true, false, 9, 2, .reg 37 2, .bc 13, .reg 50 1, .int32, 11, true, ⟨2, 1, 5, 4⟩, 0, 0⟩),
    (0x832489615E184BA360000000, .vxor ⟨true, false, 9, 2, .reg 37 2, .reg 21 3, .bc 6, .int64, 11, true, ⟨2, 1, 5, 4⟩, 0, 0⟩),
    (0x8364896533000BA36001B3A7, .vshl ⟨true, false, 9, 2, .reg 37 2, .port 19, .imm, .int8, 11, true, ⟨2, 1, 5, 4⟩, 1, 45991⟩),
    (0x83A48968D0C91BA360000000, .vshr ⟨true, false, 9, 2, .reg 37 2, .bc 13, .reg 50 1, .uint8, 11, true, ⟨2, 1, 5, 4⟩, 0, 0⟩),
    (0x83E489615E182BA360000000, .vsra ⟨true, false, 9, 2, .reg 37 2, .reg 21 3, .bc 6, .int16, 11, true, ⟨2, 1, 5, 4⟩, 0, 0⟩),
    (0x842489609B003BA360820011, .vqshr ⟨true, false, 9, 2, .reg 37 2, .reg 9 2, .imm, .int32, 11, true, ⟨2, 1, 5, 4⟩, 130, 17⟩),
    (0x84648960823C3BA360000000, .vqmul ⟨true, false, 9, 2, .reg 37 2, .reg 8 0, .bc 15, .int32, 11, true, ⟨2, 1, 5, 4⟩, 0, 0⟩),
    (0x84A4896070003BA360020000, .vsat ⟨true, false, 9, 2, .reg 37 2, .reg 7 0, .reg 0 0, .int32, 11, true, ⟨2, 1, 5, 4⟩, 2, 0⟩)] = true := by decide

theorem test_decode_vector_float : reads .c1 [
    (0x8824896055745BA360000000, .vfadd ⟨true, false, 9, 2, .reg 37 2, .reg 5 1, .port 29, .fp32, 11, true, ⟨2, 1, 5, 4⟩, 0, 0⟩),
    (0x8864896055746BA360010000, .vfsub ⟨true, false, 9, 2, .reg 37 2, .reg 5 1, .port 29, .fp16, 11, true, ⟨2, 1, 5, 4⟩, 1, 0⟩),
    (0x88A4896055747BA360020000, .vfmul ⟨true, false, 9, 2, .reg 37 2, .reg 5 1, .port 29, .bf16, 11, true, ⟨2, 1, 5, 4⟩, 2, 0⟩),
    (0x88E4896055745BA360030000, .vfma ⟨true, false, 9, 2, .reg 37 2, .reg 5 1, .port 29, .fp32, 11, true, ⟨2, 1, 5, 4⟩, 3, 0⟩),
    (0x8924896055746BA360000000, .vfms ⟨true, false, 9, 2, .reg 37 2, .reg 5 1, .port 29, .fp16, 11, true, ⟨2, 1, 5, 4⟩, 0, 0⟩),
    (0x8964896053006BA360003C01, .vfmin ⟨true, false, 9, 2, .reg 37 2, .reg 5 0, .imm, .fp16, 11, true, ⟨2, 1, 5, 4⟩, 0, 15361⟩),
    (0x89A48960520C5BA360000000, .vfmax ⟨true, false, 9, 2, .reg 37 2, .reg 5 0, .bc 3, .fp32, 11, true, ⟨2, 1, 5, 4⟩, 0, 0⟩),
    (0x89E48962C0005BA360030000, .vfrcp ⟨true, false, 9, 2, .reg 37 2, .reg 44 0, .reg 0 0, .fp32, 11, true, ⟨2, 1, 5, 4⟩, 3, 0⟩),
    (0x8A248962C0006BA360020000, .vfrsq ⟨true, false, 9, 2, .reg 37 2, .reg 44 0, .reg 0 0, .fp16, 11, true, ⟨2, 1, 5, 4⟩, 2, 0⟩),
    (0x8A648962C0007BA360010000, .vfexp2 ⟨true, false, 9, 2, .reg 37 2, .reg 44 0, .reg 0 0, .bf16, 11, true, ⟨2, 1, 5, 4⟩, 1, 0⟩),
    (0x8AA48962C0005BA360000000, .vflog2 ⟨true, false, 9, 2, .reg 37 2, .reg 44 0, .reg 0 0, .fp32, 11, true, ⟨2, 1, 5, 4⟩, 0, 0⟩),
    (0x8AE48962C0007BA360000000, .vfabs ⟨true, false, 9, 2, .reg 37 2, .reg 44 0, .reg 0 0, .bf16, 11, true, ⟨2, 1, 5, 4⟩, 0, 0⟩),
    (0x8B24896410005BA360000000, .vfneg ⟨true, false, 9, 2, .reg 37 2, .port 1, .reg 0 0, .fp32, 11, true, ⟨2, 1, 5, 4⟩, 0, 0⟩),
    (0x8C24825042242BA360050000, .vcmp ⟨true, false, 9, 2, .reg 9 1, .reg 4 0, .bc 9, .int16, 11, true, ⟨2, 1, 5, 4⟩, 5, 0⟩),
    (0x8C6480E041245BA360060000, .vfcmp ⟨true, false, 9, 2, .reg 3 2, .reg 4 0, .port 9, .fp32, 11, true, ⟨2, 1, 5, 4⟩, 6, 0⟩)] = true := by decide

theorem test_decode_vector_movement : reads .c1 [
    (0x8E24896010081B2360000000, .vsel ⟨true, false, 9, 2, .reg 37 2, .reg 1 0, .reg 2 0, .uint8, 11, false, ⟨2, 1, 5, 4⟩, 0, 0⟩),
    (0x8E648968E0004BA360000000, .vmov ⟨true, false, 9, 2, .reg 37 2, .bc 14, .reg 0 0, .int64, 11, true, ⟨2, 1, 5, 4⟩, 0, 0⟩),
    (0x8EA4896210003BA36000003F, .vbcast ⟨true, false, 9, 2, .reg 37 2, .reg 33 0, .reg 0 0, .int32, 11, true, ⟨2, 1, 5, 4⟩, 0, 63⟩),
    (0x8EE48964600C7BA360000000, .vperm ⟨true, false, 9, 2, .reg 37 2, .port 6, .reg 3 0, .bf16, 11, true, ⟨2, 1, 5, 4⟩, 0, 0⟩),
    (0x8F248960610C0BA360030000, .vshuf ⟨true, false, 9, 2, .reg 37 2, .reg 6 0, .port 3, .int8, 11, true, ⟨2, 1, 5, 4⟩, 3, 0⟩),
    (0x8F64896060302BA360000080, .vslide ⟨true, false, 9, 2, .reg 37 2, .reg 6 0, .reg 12 0, .int16, 11, true, ⟨2, 1, 5, 4⟩, 0, 128⟩),
    (0x8FA4896060303BA360030000, .vpack ⟨true, false, 9, 2, .reg 37 2, .reg 6 0, .reg 12 0, .int32, 11, true, ⟨2, 1, 5, 4⟩, 3, 0⟩),
    (0x8FE4896060004BA360820000, .vunpk ⟨true, false, 9, 2, .reg 37 2, .reg 6 0, .reg 0 0, .int64, 11, true, ⟨2, 1, 5, 4⟩, 130, 0⟩),
    (0x9024896060003B2360030000, .vredadd ⟨true, false, 9, 2, .reg 37 2, .reg 6 0, .reg 0 0, .int32, 11, false, ⟨2, 1, 5, 4⟩, 3, 0⟩),
    (0x9064896060006B2360010000, .vredmax ⟨true, false, 9, 2, .reg 37 2, .reg 6 0, .reg 0 0, .fp16, 11, false, ⟨2, 1, 5, 4⟩, 1, 0⟩),
    (0x90A4896460001B2360000000, .vredmin ⟨true, false, 9, 2, .reg 37 2, .port 6, .reg 0 0, .uint8, 11, false, ⟨2, 1, 5, 4⟩, 0, 0⟩),
    (0x90E4896060007B2360010000, .vfredadd ⟨true, false, 9, 2, .reg 37 2, .reg 6 0, .reg 0 0, .bf16, 11, false, ⟨2, 1, 5, 4⟩, 1, 0⟩),
    (0x9124896062302B2360020000, .vscan ⟨true, false, 9, 2, .reg 37 2, .reg 6 0, .bc 12, .int16, 11, false, ⟨2, 1, 5, 4⟩, 2, 0⟩)] = true := by decide

theorem test_decode_vector_conversion : reads .c1 [
    (0x9224896060006BA360A50000, .vcvt ⟨true, false, 9, 2, .reg 37 2, .reg 6 0, .reg 0 0, .fp16, 11, true, ⟨2, 1, 5, 4⟩, 165, 0⟩),
    (0x92648960607C7BA360810000, .vxpand ⟨true, false, 9, 2, .reg 37 2, .reg 6 0, .reg 31 0, .bf16, 11, true, ⟨2, 1, 5, 4⟩, 129, 0⟩),
    (0x92A489606000502361860000, .vmxq ⟨true, false, 9, 2, .reg 37 2, .reg 6 0, .reg 0 0, .fp32, 0, false, ⟨2, 1, 5, 4⟩, 390, 0⟩),
    (0x92E4896460007BA360C20000, .vmxd ⟨true, false, 9, 2, .reg 37 2, .port 6, .reg 0 0, .bf16, 11, true, ⟨2, 1, 5, 4⟩, 194, 0⟩),
    (0x9424896060402B23600B0000, .vpart ⟨true, false, 9, 2, .reg 37 2, .reg 6 0, .reg 16 0, .int16, 11, false, ⟨2, 1, 5, 4⟩, 11, 0⟩),
    (0x9464896060008BA360000000, .vcomp ⟨true, false, 9, 2, .reg 37 2, .reg 6 0, .reg 0 0, .e4m3, 11, true, ⟨2, 1, 5, 4⟩, 0, 0⟩),
    (0x94A4896060009BA360000000, .vexpd ⟨true, false, 9, 2, .reg 37 2, .reg 6 0, .reg 0 0, .e5m2, 11, true, ⟨2, 1, 5, 4⟩, 0, 0⟩),
    (0x96248960622C0BA361801234, .vgath ⟨true, false, 9, 2, .reg 37 2, .reg 6 0, .bc 11, .int8, 11, true, ⟨2, 1, 5, 4⟩, 384, 4660⟩),
    (0x96648960622C2B2360800000, .vscat ⟨true, false, 9, 2, .reg 37 2, .reg 6 0, .bc 11, .int16, 11, false, ⟨2, 1, 5, 4⟩, 128, 0⟩),
    (0x96A4958064003BA360000000, .vpush ⟨true, false, 9, 2, .port 22, .reg 6 1, .reg 0 0, .int32, 11, true, ⟨2, 1, 5, 4⟩, 0, 0⟩),
    (0x96A415806400302360010000, .vpushBoff ⟨true, false, 9, 0, .port 22, .reg 6 1, .reg 0 0, .int32, 0, false, ⟨2, 1, 5, 4⟩, 1, 0⟩)] = true := by decide

theorem test_decode_vector_predicates_and_tiles : reads .c1 [
    (0x982481D0281002A360000000, .pand ⟨true, false, 9, 2, .reg 7 1, .reg 2 2, .reg 4 0, .int8, 2, true, ⟨2, 1, 5, 4⟩, 0, 0⟩),
    (0x98648210281003A360000000, .por ⟨true, false, 9, 2, .reg 8 1, .reg 2 2, .reg 4 0, .int8, 3, true, ⟨2, 1, 5, 4⟩, 0, 0⟩),
    (0x98A48250281004A360000000, .pxor ⟨true, false, 9, 2, .reg 9 1, .reg 2 2, .reg 4 0, .int8, 4, true, ⟨2, 1, 5, 4⟩, 0, 0⟩),
    (0x98E481D028000BA360000000, .pnot ⟨true, false, 9, 2, .reg 7 1, .reg 2 2, .reg 0 0, .int8, 11, true, ⟨2, 1, 5, 4⟩, 0, 0⟩),
    (0x99248960C0001B2360000000, .pcnt ⟨true, false, 9, 2, .reg 37 2, .reg 12 0, .reg 0 0, .uint8, 11, false, ⟨2, 1, 5, 4⟩, 0, 0⟩),
    (0x9964830094004B2360000000, .pfirst ⟨true, false, 9, 2, .reg 12 0, .reg 9 1, .reg 0 0, .int64, 11, false, ⟨2, 1, 5, 4⟩, 0, 0⟩),
    (0x9A24800064002BA36083003C, .twrow ⟨true, false, 9, 2, .reg 0 0, .reg 6 1, .reg 0 0, .int16, 11, true, ⟨2, 1, 5, 4⟩, 131, 60⟩),
    (0x9A64896000000BA361820021, .trcol ⟨true, false, 9, 2, .reg 37 2, .reg 0 0, .reg 0 0, .int8, 11, true, ⟨2, 1, 5, 4⟩, 386, 33⟩),
    (0x9AA400000000002360020000, .tclr ⟨true, false, 9, 0, .reg 0 0, .reg 0 0, .reg 0 0, .int8, 0, false, ⟨2, 1, 5, 4⟩, 2, 0⟩),
    (0xDC000000000000236001FFF4, .vjmp ⟨true, true, 0, 0, .reg 0 0, .reg 0 0, .reg 0 0, .int8, 0, false, ⟨2, 1, 5, 4⟩, 1, 65524⟩),
    (0xDC4000000000002360000123, .vbrq ⟨true, true, 0, 0, .reg 0 0, .reg 0 0, .reg 0 0, .int8, 0, false, ⟨2, 1, 5, 4⟩, 0, 291⟩),
    (0xDC800000D000202360068001, .vbrp ⟨true, true, 0, 0, .reg 0 0, .reg 13 0, .reg 0 0, .int16, 0, false, ⟨2, 1, 5, 4⟩, 6, 32769⟩)] = true := by decide

theorem test_decode_matrix : reads .c3 [
    (0x80713579BDF556F40EABB2A000314E800000000000000000, .mma ⟨true, false, true, 2309737967, 21, 10, 27, 13, 3, true, false, 2, 43, true, ⟨3, 1, 2, 4⟩, 0, 0, false, 0, 197, 58, 0⟩),
    (0xC0B13579BDE00024002BB2A000314E800000000000000000, .mzero ⟨true, true, true, 2309737967, 0, 0, 0, 9, 0, false, false, 0, 43, true, ⟨3, 1, 2, 4⟩, 0, 0, false, 0, 197, 58, 0⟩),
    (0x80F13579BDF30018002BB2A000314E800000000000000000, .mfill ⟨true, false, true, 2309737967, 19, 0, 0, 6, 0, false, false, 0, 43, true, ⟨3, 1, 2, 4⟩, 0, 0, false, 0, 197, 58, 0⟩),
    (0x81313579BDE00794022BB2A2D0314E800000000000000000, .mdrain ⟨true, false, true, 2309737967, 0, 0, 30, 5, 0, true, false, 0, 43, true, ⟨3, 1, 2, 4⟩, 5, 2, true, 0, 197, 58, 0⟩),
    (0x81713579BDF30018002BB2A000314E800000000000000000, .madd ⟨true, false, true, 2309737967, 19, 0, 0, 6, 0, false, false, 0, 43, true, ⟨3, 1, 2, 4⟩, 0, 0, false, 0, 197, 58, 0⟩),
    (0x81B13579BDF30018002BB2A000314E800040000000000000, .mscale ⟨true, false, true, 2309737967, 19, 0, 0, 6, 0, false, false, 0, 43, true, ⟨3, 1, 2, 4⟩, 0, 0, false, 0, 197, 58, 1⟩),
    (0x81F13579BDE0002C022BB2A000314E800180000000000000, .mcopy ⟨true, false, true, 2309737967, 0, 0, 0, 11, 0, true, false, 0, 43, true, ⟨3, 1, 2, 4⟩, 0, 0, false, 0, 197, 58, 6⟩),
    (0x8200000000000000000032A0000000006940000000000000, .mcfg ⟨true, false, false, 0, 0, 0, 0, 0, 0, false, false, 0, 0, false, ⟨3, 1, 2, 4⟩, 0, 0, false, 0, 0, 0, 421⟩),
    (0x82400000000005C0000032A0000000000040000000000000, .mstat ⟨true, false, false, 0, 0, 0, 23, 0, 0, false, false, 0, 0, false, ⟨3, 1, 2, 4⟩, 0, 0, false, 0, 0, 0, 1⟩),
    (0x8280000000000000000032A0000000000B40000000000000, .mwait ⟨true, false, false, 0, 0, 0, 0, 0, 0, false, false, 0, 0, false, ⟨3, 1, 2, 4⟩, 0, 0, false, 0, 0, 0, 45⟩),
    (0x82E0000000E00000000032A0000000000000000000000000, .mtok ⟨true, false, true, 7, 0, 0, 0, 0, 0, false, false, 0, 0, false, ⟨3, 1, 2, 4⟩, 0, 0, false, 0, 0, 0, 0⟩),
    (0x83313579BDE00000002BB2A00000002FBBC0000000000000, .mbar ⟨true, false, true, 2309737967, 0, 0, 0, 0, 0, false, false, 0, 43, true, ⟨3, 1, 2, 4⟩, 0, 0, false, 0, 0, 0, 48879⟩),
    (0xC400000000000000014032A00000003FFF80000000000000, .mjmp ⟨true, true, false, 0, 0, 0, 0, 0, 0, false, true, 1, 0, false, ⟨3, 1, 2, 4⟩, 0, 0, false, 0, 0, 0, 65534⟩),
    (0x8440000000000000000032A00000001FC0C0000000000000, .mbrq ⟨true, false, false, 0, 0, 0, 0, 0, 0, false, false, 0, 0, false, ⟨3, 1, 2, 4⟩, 0, 0, false, 0, 0, 0, 32515⟩)] = true := by decide

/-! ### Words that the checks refuse -/

/-- A vector word with the fields given. -/
def vword (d a b : VOp) (ty : Fmt) (mod : BitVec 11) (imm : BitVec 16) : VWord :=
  ⟨false, false, 9, 0, d, a, b, ty, 0, false, ⟨0, 0, 0, 0⟩, mod, imm⟩

/-- A vector word of two register sources, and of one. -/
def bin (ty : Fmt) (mod : BitVec 11) : VWord := vword (.reg 1 0) (.reg 2 0) (.reg 3 0) ty mod 0
def un (ty : Fmt) (mod : BitVec 11) : VWord := vword (.reg 1 0) (.reg 2 0) (.reg 0 0) ty mod 0

/-- A matrix word with every field 0, and one that lays out rows and columns. -/
def m0 : MWord := ⟨false, false, false, 0, 0, 0, 0, 0, 0, false, false, 0, 0, false, ⟨0, 0, 0, 0⟩, 0, 0, false, 0, 0, 0, 0⟩

/-- Every word is ill formed. -/
def bad (l : List Instr) : Bool := l.all fun i => !wf i

/-- A field that names a predicate, a scope, an engine, a CSR or a buffer keeps its range (R123, R126, R130, R192, R503). -/
theorem test_wf_scalar : bad [
    .kcmpEq 0 8 1 2, .kand 0 1 8 2, .kand 0 1 2 8, .knot 0 9 1, .knot 0 1 9, .lda 0 1 2 5 false 0, .stl 0 1 2 7 0, .cas 0 1 2 3 6 true,
    .fence 0 5, .amoW 0 1 2 3 5 0, .amoD 0 1 2 3 0 9, .bk 0 1, .loop 0 1 0, .loop 0 1 0x800, .brq 0 0 1, .brq 0 6 1, .bqpush 0 6 1,
    .bqpush 0 1 8, .tksig 0 0, .tkwait 0 8, .sforkG 0 3 1 16, .sforkG 0 3 1 3, .csrr 0 1 0x00F, .csrw 0 1 0x3D4, .csrx 0 1 0xFFF,
    .ease 0 5 0] = true := by decide

/-- An operand kind, an index over the repeats, a type, a modifier bit, an immediate or a bound that the word does not have
(R134, R136, R276 to R282). -/
theorem test_wf_vector_operands : bad [
    .vadd { bin .int8 0 with d := .port 1 }, .vadd { bin .int8 0 with rep := 15, d := .reg 49 1 }, .vadd { bin .int8 0 with rep := 1, a := .reg 60 3 },
    .vadd (bin .fp32 0), .vadd (bin .int8 2), .vadd { bin .int8 0 with imm := 1 }, .vadd { bin .int8 0 with lat := 0 },
    .vmul { bin .int8 0 with lat := 2 }, .vmulh (bin .int8 1), .vabs { un .int8 0 with b := .reg 1 0 }, .vqmul (bin .int16 0),
    .vqshr (bin .int32 3), .vqshr (bin .int32 0x102), .vsat (un .int16 3), .vsat (un .int32 4), .vfadd { bin .fp32 0 with lat := 2 },
    .vfadd (bin .e4m3 0), .vfrcp { un .fp32 0 with lat := 4 }, .vfexp2 { un .fp32 0 with lat := 6 }, .vcmp { bin .int8 0 with d := .reg 0 0 },
    .vcmp { bin .int8 0 with d := .reg 16 0 }, .vcmp (bin .int8 6), .vfcmp (bin .int8 0), .vsel { bin .int8 0 with zm := true },
    .vbcast { un .int32 0 with imm := 64 }, .vperm { bin .int8 0 with a := .bc 1 }, .vshuf (bin .int8 6), .vshuf (bin .int8 4),
    .vslide { bin .int16 0 with imm := 129 }, .vpack (bin .int8 0), .vpack (bin .int16 2), .vunpk (un .int16 0x100)] = true := by decide

/-- The same of reductions, conversions, gathers, pushes, predicates, tiles and branches (R285 to R313). -/
theorem test_wf_vector_others : bad [
    .vredadd { un .int8 0 with zm := true }, .vredadd { un .int8 0 with lat := 4 }, .vfredadd { un .fp32 0 with lat := 6 }, .vscan (bin .fp32 0),
    .vcvt (un .fp32 5), .vcvt (un .fp16 0x105), .vcvt (un .fp16 14), .vxpand (bin .fp32 0), .vxpand (bin .e4m3 0x101),
    .vmxq { un .fp32 0 with pg := 1 }, .vmxq (un .fp32 0x381), .vmxd (un .e4m3 1), .vpart (bin .int64 0), .vcomp { un .int8 0 with lat := 2 },
    .vgath (bin .int8 0), .vgath { bin .int8 0x200 with b := .bc 1 }, .vscat { bin .int8 0 with b := .bc 1, zm := true }, .vpush (un .int8 0),
    .vpushBoff { un .int8 1 with d := .port 1, rep := 1 }, .vpushBoff { un .int8 1 with d := .port 1, pg := 1 }, .pand { bin .int8 0 with d := .reg 0 0 },
    .pand (bin .int16 0), .pand { bin .int8 0 with b := .reg 16 0 }, .pcnt { un .int8 0 with a := .reg 16 0 }, .pfirst { un .int8 0 with zm := true },
    .twrow { un .int64 0 with d := .reg 0 0 }, .twrow { un .int32 0x80 with d := .reg 0 0 }, .trcol { un .int8 0 with a := .reg 0 0, imm := 64 },
    .trcol { un .int8 0 with a := .reg 0 0, rep := 1, imm := 63 }, .tclr { un .int8 0 with d := .reg 0 0, a := .reg 0 0, rep := 1 },
    .tclr { un .int8 0 with d := .reg 0 0, a := .reg 0 0, pg := 1 }, .tclr { un .int8 0 with d := .reg 0 0, a := .reg 0 0, zm := true },
    .vjmp { vword (.reg 0 0) (.reg 0 0) (.reg 0 0) .int8 1 0 with lat := 0 }, .vjmp { vword (.reg 0 0) (.reg 0 0) (.reg 0 0) .int8 3 0 with lat := 0 },
    .vbrq (vword (.reg 0 0) (.reg 0 0) (.reg 0 0) .int8 0 0), .vbrp { vword (.reg 0 0) (.reg 1 0) (.reg 0 0) .int8 12 1 with lat := 0 },
    .vbrp { vword (.reg 0 0) (.reg 1 0) (.reg 0 0) .int8 8 0 with lat := 0 }] = true := by decide

/-- A field that a matrix word does not use, or a limit of one it uses (R139, R327 to R350). -/
theorem test_wf_matrix : bad [
    .mma { m0 with stamp := 1 }, .mma { m0 with bar := 1 }, .mma { m0 with kgrp := 4 }, .mma { m0 with amode := 3 }, .mma { m0 with cport := 1 },
    .mma { m0 with ofmt := 1 }, .mzero { m0 with ta := true }, .mzero { m0 with aport := 1 }, .mfill { m0 with bport := 1 },
    .mdrain { m0 with ofmt := 4 }, .mdrain { m0 with ofmt := 14 }, .mdrain { m0 with osat := true }, .mdrain { m0 with imm := 1, ornd := 1 },
    .mdrain { m0 with ofmt := 10, next := 30 }, .mdrain { m0 with imm := 2 }, .mscale { m0 with imm := 2 }, .mcopy { m0 with imm := 16 },
    .mcfg { m0 with imm := 512 }, .mcfg { m0 with imm := 14 * 32 }, .mcfg { m0 with pin := true }, .mstat { m0 with imm := 2 }, .mwait { m0 with imm := 64 },
    .mtok { m0 with ben := true }, .mbar m0, .mjmp { m0 with amode := 1 }, .mjmp { m0 with ta := true }, .mbrq { m0 with mext := 1 }] = true := by
  decide

/-- Unallocated opcodes, a reserved bit, and an unused operand or immediate decode to nothing
(R121, R124, R136, R138, R139, R140). -/
theorem test_decode_refuses :
    ([0x00000000, 0xFFFFFFFF, 0x06000000, 0x02000200, 0x020000E0, 0x02421407, 0x70600808, 0x72000030].map fun w =>
      (decode .ap (toLE 4 w)).isSome) = [false, false, false, false, false, true, false, false] ∧
    (decode .c1 (toLE 12 0)).isNone = true ∧ (decode .c1 (toLE 12 0x3FC000000000000000000000)).isNone = true ∧
    (decode .c1 (toLE 12 0x0897C014420C710000000001)).isNone = true ∧
    (decode .c3 (toLE 24 0x004000000006380004001000003FFFC00000000000000001)).isNone = true ∧
    (decode .c3 (toLE 24 (0x0D * 2 ^ 182))).isNone = true := by decide

/-! ### Conversions worked in spec/04_formats_notes.md -/

/-- An FP32 pattern as a number. -/
def fp32 (x : Nat) : FNum := decodeF .fp32 x

/-- "Ties under four rounding modes": 0.25, 0.75, 2.5, 5, −3.5, −5 and 7 to E2M1 under RNE, RTZ, RUP and RDN. -/
theorem test_ties :
    ([.rne, .rtz, .rup, .rdn].map fun rm => [0x3E800000, 0x3F400000, 0x40200000, 0x40A00000, 0xC0600000, 0xC0A00000, 0x40E00000].map fun x =>
      (roundF (fp32 x) .e2m1 rm false).1) =
    [[0, 2, 4, 6, 0xE, 0xE, 7], [0, 1, 4, 6, 0xD, 0xE, 7], [1, 2, 5, 7, 0xD, 0xE, 7], [0, 1, 4, 6, 0xE, 0xF, 7]] ∧
    (roundF (fp32 0x40E00000) .e2m1 .rne false).2 = fSAT ∧ (roundF (fp32 0x40E00000) .e2m1 .rtz false).2 = 0 := by decide

/-- "FP8 at the edges". -/
theorem test_fp8_edges :
    roundF (fp32 0x3E99999A) .e4m3 .rne false = (0x2A, 0) ∧ roundF (fp32 0xBE99999A) .e5m2 .rne false = (0xB5, 0) ∧
    roundF (fp32 0x3B200000) .e4m3 .rne false = (0x01, 0) ∧ roundF (.ofInt 460) .e4m3 .rne false = (0x7E, 0) ∧
    roundF (.ofInt 500) .e4m3 .rne false = (0x7F, fOVF) ∧ roundF (.ofInt 500) .e4m3 .rne true = (0x7E, fSAT) ∧
    roundF (.ofInt 70000) .e5m2 .rne false = (0x7C, fOVF) ∧ roundF (.ofInt 70000) .e5m2 .rtz false = (0x7B, fOVF) ∧
    roundF (.ofInt 70000) .e5m2 .rne true = (0x7B, fSAT) ∧ roundF (fp32 0x7F800000) .e4m3 .rne false = (0x7F, fOVF) ∧
    roundF (fp32 0x7F800000) .e5m2 .rne false = (0x7C, 0) := by decide

/-- "One MXFP4 block, there and back": the inputs times 4. -/
def blockIn : List FNum := (List.range 32).map fun i => (FNum.ofInt ((3 * (i % 8 : Nat) - 9 : Int) * (2 ^ (i / 8) : Nat))).scale (-2)

theorem test_mxfp4_block :
    mxQuant blockIn .e2m1 .rne = (0x81, [9, 9, 8, 0, 0, 1, 1, 2, 0xA, 0xA, 9, 0, 1, 2, 2, 3, 0xC, 0xB, 0xA, 0, 2, 3, 4, 5, 0xE, 0xD, 0xB, 0, 3, 5, 6, 7], 0) ∧
    (mxDequant 0x81 [7, 0xE, 2, 8] .e2m1 .bf16 .rne false).1 = [0x41C0, 0xC180, 0x4080, 0x8000] := by decide

/-- "Blocks that hold no ordinary values": a NaN, and one −2^−140. -/
theorem test_mx_special :
    (mxQuant ((List.range 32).map fun (i : Nat) => if i == 9 then FNum.nan else FNum.ofInt i) .e2m1 .rne) = (0xFF, List.replicate 32 0, fNANS) ∧
    (mxDequant 0xFF [0, 0] .e2m1 .bf16 .rne false) = ([0x7FC0, 0x7FC0], fNANS) ∧
    (mxQuant ((List.range 32).map fun i => if i == 5 then (FNum.ofInt (-1)).scale (-140) else FNum.zero) .e2m1 .rne) =
      (0, (List.range 32).map fun i => if i == 5 then 8 else 0, 0) := by decide

/-- "A 3-bit codebook": the codes of the bytes 0x88, 0xC6 and 0xFA (R44). -/
theorem test_code3 : (List.range 8).map (unpackCode 0xFAC688 3) = [0, 1, 2, 3, 4, 5, 6, 7] := by decide

/-- "Pushing an accumulator over the top": the four group sums, and the two integer ones. -/
theorem test_accumulator :
    accAdd 0x7F7FFFFF ((FNum.ofInt 1).scale 102) = (0x7F7FFFFF, 0) ∧ accAdd 0x7F7FFFFF ((FNum.ofInt 1).scale 103) = (0x7F800000, fOVF) ∧
    (accAdd 0x7F800000 ((FNum.ofInt (-1)).scale 127)).1 = 0x7F800000 ∧ accAdd 0x7F800000 .zero = (0x7F800000, 0) ∧
    accAddInt 0x7FFFFF9C 300 = (0x7FFFFFFF, fSAT) ∧ accAddInt 0x7FFFFFFF (-50) = (0x7FFFFFCD, 0) := by decide

/-! ### Single steps -/

/-- The state that an instruction answers. -/
def next (i : Instr) (s : State) : State := match exec i s with | .next t => t | _ => s

/-- A register of the AP of core 0 after a word. -/
def after (i : Instr) (l : List (Nat × Word)) (r : Reg) : Word := rreg (next i (regs l)) 0 .ap r

/-- R170, R171: the sum wraps, and the corners of division by 0 and of −2^63 by −1. -/
theorem test_arithmetic_corners :
    after (.add 0 3 4 5) [(4, 0xFFFFFFFFFFFFFFFF), (5, 2)] 3 = 1 ∧ after (.div 0 3 4 5) [(4, 7)] 3 = 0xFFFFFFFFFFFFFFFF ∧
    after (.rem 0 3 4 5) [(4, 7)] 3 = 7 ∧ after (.div 0 3 4 5) [(4, 0x8000000000000000), (5, 0xFFFFFFFFFFFFFFFF)] 3 = 0x8000000000000000 ∧
    after (.rem 0 3 4 5) [(4, 0x8000000000000000), (5, 0xFFFFFFFFFFFFFFFF)] 3 = 0 ∧
    after (.mulh 0 4 4 5) [(4, 0xFFFFFFFFFFFFFFFF), (5, 2)] 4 = 0xFFFFFFFFFFFFFFFF := by decide

/-- R172: BEXT and BINS with position in B[5:0] and width in B[14:8]. -/
theorem test_bit_fields :
    after (.bext 0 3 4 5) [(4, 0xABCD), (5, 0x0804)] 3 = 0xBC ∧
    after (.bins 0 3 4 5) [(3, 0xFFFF), (4, 0x12), (5, 0x0804)] 3 = 0xF12F := by decide

/-- R173, R174: immediates are sign-extended, and ADDPC adds to the word's own address. -/
theorem test_immediates :
    after (.addi 0 3 4 0xFFF) [(4, 5)] 3 = 4 ∧ after (.andi 0 3 4 0x800) [(4, 0xFFFFFFFFFFFFFFFF)] 3 = 0xFFFFFFFFFFFFF800 ∧
    after (.lui 0 3 0x1FFFF) [] 3 = 0xFFFFFFFFFFFFF000 := by decide

/-- R190: a taken branch goes OFF12 words from its own address; one not taken goes on. -/
theorem test_branch :
    getPc (next (.bccLt 0 4 5 0xFFE) (setPc (regs [(4, 0xFFFFFFFFFFFFFFFF)]) 0 .ap 0x40)) 0 .ap = 0x38 ∧
    getPc (next (.bccLtu 0 4 5 0xFFE) (setPc (regs [(4, 0xFFFFFFFFFFFFFFFF)]) 0 .ap 0x40)) 0 .ap = 0x44 := by decide

/-- R206, R210, R211, R435: TRAP by the AP is cause 5 with engine code 1 and its own code; TPC is its address, EPC_AP the next
word's, and the AP goes on at its vector. -/
theorem test_trap :
    let s := modX (setPc (regs []) 0 .ap 0x40) 0 fun x => { x with tvecAp := 0x1000, tvecC0 := 0x2000 }
    let t := next (.trap 0 0x9C3) s
    (cx t 0).tcause = 0x9C3105 ∧ (cx t 0).tpc = 0x40 ∧ vget 0 (cx t 0).epc 0 = 0x44 ∧ getPc t 0 .ap = 0x1000 ∧ getPc t 0 .c0 = 0x2000 ∧
      (cx t 0).handlerMode = true := by decide

/-- R418, R420: the walk cache takes the ASID table entry, then the table pointer below it, and a walk of an address of the same
table goes on from there although the pointer in memory has changed. -/
theorem test_walk_cache :
    let b (a : Nat) (l : List Byte) : List Host.Cell := (List.range l.length).map (a + ·) |>.zip l
    let tables := b 0x1000 (toLE 8 0x8001) ++ b 0x8000 (toLE 16 (1 + 0x10000 * 2 ^ 64)) ++ b 0x10000 (toLE 16 (0x1F + 0x20000 * 2 ^ 64)) ++
      b 0x18000 (toLE 16 3)
    let s : State := { State.reset with mem := tables, asidBase := 0x1000 }
    let e : WalkEnt := ⟨0, 3, 0, 0x8000⟩
    let f : WalkEnt := ⟨0, 2, 0, 0x10000⟩
    walkNext s [] 0 0 = some e ∧ walkNext s [e] 0 0 = some f ∧ walkNext s [f, e] 0 0 = none ∧
      (match walk { s with mem := b 0x18000 (toLE 16 3) } [⟨0, 1, 0, 0x18000⟩, f, e] 0 0 with | .ok x => x.at' == 0x18000 | .error _ => false) = true := by
  decide
end Sys2Proof.Tests
end

section
/-! Every step keeps memory in its canonical form (O60): the arms of `exec`, the try of an engine, the moves, the step. -/

namespace Sys2Proof.Machine

/-- Every instruction and every event keeps memory in its canonical form: an arm of `exec` is one meaning, and each meaning has
its own `_wf` lemma in the simp set. -/
theorem exec_wf (i : Instr) (s : State) (h : Memory.wf s.mem = true) : OutWf (exec i s) := by
  cases i <;> dsimp only [exec] <;> simp [h]

/-- The try of an engine: whatever the fetch comes to, the word that follows runs in a canonical state. -/
theorem stepWord_wf (l : Nat) (e : Eng) (s : State) (h : Memory.wf s.mem = true) : OutWf (stepWord s l e) := by
  have hb : Memory.wf (beginTry s l e).mem = true := by simpa using h
  have hf : FetchedWf (fetch (beginTry s l e) l e) := fetch_wf _ l e hb
  unfold stepWord
  split
  · split
    · exact illegal_wf _ hb
    · rename_i t ht
      simpa [ht, FetchedWf] using hf
    · rename_i w t ht
      have hw : Memory.wf (withWord t w).mem = true := by simpa [ht, FetchedWf] using hf
      split
      · exact illegal_wf _ hw
      · exact exec_wf _ _ hw
  · exact h

theorem stepMove_wf (m : Move) (s : State) (h : Memory.wf s.mem = true) : OutWf (stepMove m s) := by
  unfold stepMove
  split
  · exact stepWord_wf _ _ s h
  · split
    · exact exec_wf _ s h
    · exact h
  · exact otherMove_wf m s h

/-- One step, from the head of the schedule or by the fixed round; the counter of free values is no part of memory. -/
theorem step_wf (s : State) (h : Memory.wf s.mem = true) : OutWf (step s) := by
  unfold step
  split
  · exact stepMove_wf _ _ h
  · split
    · exact outWf_fault _
    · exact defaultStep_wf _ (fun l e t ht => stepWord_wf l e t ht) _ h

/-- An answer in canonical form, read as a statement about its next state. -/
theorem OutWf.memOk {o : Host.Outcome State Fault Refusal} {t : State} (h : OutWf o) (ho : o = .next t) : Safety.MemOk t := by
  subst ho
  exact h

/-- Settles O60: `exec` and `step` answer canonical states from canonical states. -/
theorem stepsKeepMemory : Obligations.StepsKeepMemory :=
  ⟨fun i s _ h ho => (exec_wf i s h).memOk ho, fun s _ h ho => (step_wf s h).memOk ho⟩

end Sys2Proof.Machine
end

section
/-! Decoding and encoding agree (O55): the bytes of a word, the fields of its format, and for each width that the decoder accepts
exactly the words of the well-formed instructions. -/

namespace Sys2Proof

/-! ### Little-endian bytes (R4) -/

@[simp] theorem length_toLE (n x : Nat) : (toLE n x).length = n := by
  induction n generalizing x with
  | zero => rfl
  | succ n ih => simp [toLE, ih]

theorem ofLE_toLE {n x : Nat} (h : x < 2 ^ (8 * n)) : ofLE (toLE n x) = x := by
  induction n generalizing x with
  | zero => simp [toLE, ofLE]; omega
  | succ n ih =>
    have hx : x / 256 < 2 ^ (8 * n) := by
      rw [Nat.mul_succ, Nat.pow_add] at h
      omega
    simp only [toLE, ofLE, ih hx, BitVec.toNat_ofNat]
    omega

theorem ofLE_lt (bs : List Byte) : ofLE bs < 2 ^ (8 * bs.length) := by
  induction bs with
  | nil => simp [ofLE]
  | cons b bs ih =>
    have hb := b.isLt
    rw [List.length_cons, Nat.mul_succ, Nat.pow_add, ofLE]
    omega

theorem toLE_ofLE (bs : List Byte) : toLE bs.length (ofLE bs) = bs := by
  induction bs with
  | nil => rfl
  | cons b bs ih =>
    have hb := b.isLt
    have hd : (b.toNat + 256 * ofLE bs) / 256 = ofLE bs := by omega
    have hm : BitVec.ofNat 8 (b.toNat + 256 * ofLE bs) = b := by
      apply BitVec.eq_of_toNat_eq
      simp only [BitVec.toNat_ofNat]
      omega
    simp only [List.length_cons, ofLE, toLE, hd, hm, ih]

/-- Bytes are those of a word exactly when the word is their number. -/
theorem eq_toLE_iff {n w : Nat} (hw : w = 8 * n) {bs : List Byte} (hl : bs.length = n) (x : BitVec w) :
    bs = toLE n x.toNat ↔ x = BitVec.ofNat w (ofLE bs) := by
  subst hw
  constructor
  · intro h
    rw [h, ofLE_toLE x.isLt, BitVec.ofNat_toNat, BitVec.setWidth_eq]
  · intro h
    subst hl
    rw [h, BitVec.toNat_ofNat, Nat.mod_eq_of_lt (ofLE_lt bs), toLE_ofLE]

/-! ### Fields of the scalar formats (R124) -/

@[simp] theorem fields_encSR (op : BitVec 7) (d a b : Reg) (fn : BitVec 7) (k : Guard) :
    let w := encSR op d a b fn k
    w.extractLsb' 25 7 = op ∧ w.extractLsb' 20 5 = d ∧ w.extractLsb' 15 5 = a ∧ w.extractLsb' 10 5 = b ∧ w.extractLsb' 3 7 = fn ∧
      w.extractLsb' 0 3 = k := by
  simp (disch := decide) only [encSR, BitVec.extractLsb'_append_eq_of_le, BitVec.extractLsb'_append_eq_of_add_le,
    BitVec.extractLsb'_eq_self, Nat.reduceSub, and_self]

@[simp] theorem fields_encSI (op : BitVec 7) (d a : Reg) (imm : BitVec 12) (k : Guard) :
    let w := encSI op d a imm k
    w.extractLsb' 25 7 = op ∧ w.extractLsb' 20 5 = d ∧ w.extractLsb' 15 5 = a ∧ w.extractLsb' 3 12 = imm ∧ w.extractLsb' 0 3 = k := by
  simp (disch := decide) only [encSI, BitVec.extractLsb'_append_eq_of_le, BitVec.extractLsb'_append_eq_of_add_le,
    BitVec.extractLsb'_eq_self, Nat.reduceSub, and_self]

@[simp] theorem fields_encSM (op : BitVec 7) (d a : Reg) (off : BitVec 10) (size : BitVec 2) (k : Guard) :
    let w := encSM op d a off size k
    w.extractLsb' 25 7 = op ∧ w.extractLsb' 20 5 = d ∧ w.extractLsb' 15 5 = a ∧ w.extractLsb' 5 10 = off ∧
      w.extractLsb' 3 2 = size ∧ w.extractLsb' 0 3 = k := by
  simp (disch := decide) only [encSM, BitVec.extractLsb'_append_eq_of_le, BitVec.extractLsb'_append_eq_of_add_le,
    BitVec.extractLsb'_eq_self, Nat.reduceSub, and_self]

@[simp] theorem fields_encSA (op : BitVec 7) (d a b : Reg) (sc : BitVec 3) (fn : BitVec 4) (k : Guard) :
    let w := encSA op d a b sc fn k
    w.extractLsb' 25 7 = op ∧ w.extractLsb' 20 5 = d ∧ w.extractLsb' 15 5 = a ∧ w.extractLsb' 10 5 = b ∧ w.extractLsb' 7 3 = sc ∧
      w.extractLsb' 3 4 = fn ∧ w.extractLsb' 0 3 = k := by
  simp (disch := decide) only [encSA, BitVec.extractLsb'_append_eq_of_le, BitVec.extractLsb'_append_eq_of_add_le,
    BitVec.extractLsb'_eq_self, Nat.reduceSub, and_self]

@[simp] theorem fields_encSB (op : BitVec 7) (off : BitVec 22) (k : Guard) :
    let w := encSB op off k
    w.extractLsb' 25 7 = op ∧ w.extractLsb' 3 22 = off ∧ w.extractLsb' 0 3 = k := by
  simp (disch := decide) only [encSB, BitVec.extractLsb'_append_eq_of_le, BitVec.extractLsb'_append_eq_of_add_le,
    BitVec.extractLsb'_eq_self, Nat.reduceSub, and_self]

@[simp] theorem fields_encSU (op : BitVec 7) (d : Reg) (imm : BitVec 17) (k : Guard) :
    let w := encSU op d imm k
    w.extractLsb' 25 7 = op ∧ w.extractLsb' 20 5 = d ∧ w.extractLsb' 3 17 = imm ∧ w.extractLsb' 0 3 = k := by
  simp (disch := decide) only [encSU, BitVec.extractLsb'_append_eq_of_le, BitVec.extractLsb'_append_eq_of_add_le,
    BitVec.extractLsb'_eq_self, Nat.reduceSub, and_self]

@[simp] theorem fields_encSS (op : BitVec 7) (n : BitVec 4) (q : Port) (a : Reg) (fn : BitVec 8) (k : Guard) :
    let w := encSS op n q a fn k
    w.extractLsb' 25 7 = op ∧ w.extractLsb' 21 4 = n ∧ w.extractLsb' 16 5 = q ∧ w.extractLsb' 11 5 = a ∧ w.extractLsb' 3 8 = fn ∧
      w.extractLsb' 0 3 = k := by
  simp (disch := decide) only [encSS, BitVec.extractLsb'_append_eq_of_le, BitVec.extractLsb'_append_eq_of_add_le,
    BitVec.extractLsb'_eq_self, Nat.reduceSub, and_self]

@[simp] theorem fields_encSX (op : BitVec 7) (d : Reg) (n : BitVec 12) (fn : BitVec 5) (k : Guard) :
    let w := encSX op d n fn k
    w.extractLsb' 25 7 = op ∧ w.extractLsb' 20 5 = d ∧ w.extractLsb' 8 12 = n ∧ w.extractLsb' 3 5 = fn ∧ w.extractLsb' 0 3 = k := by
  simp (disch := decide) only [encSX, BitVec.extractLsb'_append_eq_of_le, BitVec.extractLsb'_append_eq_of_add_le,
    BitVec.extractLsb'_eq_self, Nat.reduceSub, and_self]

/-! ### Scalar words (R129 to R132) -/

/-- OP of a scalar word (R124). -/
def opcode (x : BitVec 32) : Nat := (x.extractLsb' 25 7).toNat

/-! The parser reads a word back, by its opcode: register and immediate words below 0x10, accesses and control flow below 0x38,
streams and rings below 0x3C, copies to rotation control above. -/

theorem parseScalar_encodeScalar_arithmetic {i : Instr} {x : BitVec 32} (h : encodeScalar i = some x) (hx : opcode x < 0x10) :
    parseScalar x = some i := by
  cases i <;> cases h <;> simp [opcode] at hx <;>
    simp only [parseScalar, fields_encSR, fields_encSI, fields_encSU, BitVec.reduceToNat]
  case shli | shri | srai =>
    simp (disch := decide) only [encSI, BitVec.extractLsb'_append_eq_of_le, BitVec.extractLsb'_append_eq_of_add_le,
      BitVec.extractLsb'_eq_self, Nat.reduceSub]

theorem parseScalar_encodeScalar_access {i : Instr} {x : BitVec 32} (h : encodeScalar i = some x) (hlo : 0x10 ≤ opcode x)
    (hhi : opcode x < 0x38) : parseScalar x = some i := by
  cases i <;> cases h <;> simp [opcode] at hlo hhi <;>
    simp only [parseScalar, fields_encSR, fields_encSI, fields_encSM, fields_encSA, fields_encSB, fields_encSU, BitVec.reduceToNat]
  case ldx | stx | lda | stl | cas =>
    simp (disch := decide) only [encSR, encSA, BitVec.extractLsb'_append_eq_of_le, BitVec.extractLsb'_append_eq_of_add_le,
      BitVec.extractLsb'_eq_self, Nat.reduceSub, BitVec.getLsbD_append, if_pos, if_neg, BitVec.getLsbD_ofBool, Bool.true_and,
      decide_true]

theorem parseScalar_encodeScalar_stream {i : Instr} {x : BitVec 32} (h : encodeScalar i = some x) (hlo : 0x38 ≤ opcode x)
    (hhi : opcode x < 0x3C) : parseScalar x = some i := by
  cases i <;> cases h <;> simp [opcode] at hlo hhi <;> simp only [parseScalar, fields_encSS, BitVec.reduceToNat]
  case swait | rwait =>
    simp (disch := decide) only [encSS, BitVec.extractLsb'_append_eq_of_le, BitVec.extractLsb'_append_eq_of_add_le,
      BitVec.extractLsb'_eq_self, Nat.reduceSub]

theorem parseScalar_encodeScalar_system {i : Instr} {x : BitVec 32} (h : encodeScalar i = some x) (hlo : 0x3C ≤ opcode x) :
    parseScalar x = some i := by
  cases i <;> cases h <;> simp [opcode] at hlo <;>
    simp only [parseScalar, fields_encSR, fields_encSI, fields_encSB, fields_encSX, BitVec.reduceToNat]
  case syncg | rotclr | ease =>
    simp (disch := decide) only [encSI, BitVec.extractLsb'_append_eq_of_le, BitVec.extractLsb'_append_eq_of_add_le,
      BitVec.extractLsb'_eq_self, Nat.reduceSub]

/-- The parser reads every scalar word back. -/
theorem parseScalar_encodeScalar {i : Instr} {x : BitVec 32} (h : encodeScalar i = some x) : parseScalar x = some i := by
  by_cases h1 : opcode x < 0x10
  · exact parseScalar_encodeScalar_arithmetic h h1
  by_cases h2 : opcode x < 0x38
  · exact parseScalar_encodeScalar_access h (by omega) h2
  by_cases h3 : opcode x < 0x3C
  · exact parseScalar_encodeScalar_stream h (by omega) h3
  · exact parseScalar_encodeScalar_system h (by omega)

/-- An instruction that passes the check of a decoder is well formed and has the word that was read. -/
theorem wf_encode_of_accepted {n : Nat} {enc : Instr → Option (BitVec n)} {x : BitVec n} {i j : Instr}
    (h : (if wf j && enc j == some x then some j else none) = some i) : wf i = true ∧ enc i = some x := by
  split at h
  · rename_i hj
    cases h
    simpa using hj
  · cases h

/-- The scalar decoder accepts exactly the words of the well-formed scalar instructions. -/
theorem decodeScalar_eq_some_iff {x : BitVec 32} {i : Instr} :
    decodeScalar x = some i ↔ wf i = true ∧ encodeScalar i = some x := by
  constructor
  · intro h
    unfold decodeScalar at h
    split at h
    · exact wf_encode_of_accepted h
    · cases h
  · rintro ⟨hw, he⟩
    simp [decodeScalar, parseScalar_encodeScalar he, hw, he]

/-! ### Vector words (R133, R134, R138, R141) -/

@[simp] theorem ofCode_code (t : Fmt) : Fmt.ofCode t.code = some t := by cases t <;> rfl

@[simp] theorem parseVOp_encodeVOp (o : VOp) : parseVOp (encodeVOp o) = o := by
  cases o <;> simp (disch := decide) only [encodeVOp, parseVOp, BitVec.extractLsb'_append_eq_of_le,
    BitVec.extractLsb'_append_eq_of_add_le, BitVec.extractLsb'_eq_self, Nat.reduceSub, BitVec.reduceToNat]

@[simp] theorem parseTok_encodeTok (t : Tok) : parseTok (encodeTok t) = t := by
  simp (disch := decide) only [encodeTok, parseTok, BitVec.extractLsb'_append_eq_of_le, BitVec.extractLsb'_append_eq_of_add_le,
    BitVec.extractLsb'_eq_self, Nat.reduceSub]

@[simp] theorem opcode_packV (op : BitVec 8) (w : VWord) : (packV op w).extractLsb' 86 8 = op := by
  simp (disch := decide) only [packV, BitVec.extractLsb'_append_eq_of_le, BitVec.extractLsb'_append_eq_of_add_le,
    BitVec.extractLsb'_eq_self, Nat.reduceSub]

@[simp] theorem unpackV_packV (op : BitVec 8) (w : VWord) : unpackV (packV op w) = some w := by
  simp (disch := decide) only [unpackV, packV, BitVec.extractLsb'_append_eq_of_le, BitVec.extractLsb'_append_eq_of_add_le,
    BitVec.extractLsb'_eq_self, Nat.reduceSub, ofCode_code, parseVOp_encodeVOp, parseTok_encodeTok, BitVec.getLsbD_append, if_pos,
    if_neg, BitVec.getLsbD_ofBool, Bool.true_and, decide_true]

theorem mod_of_wf_vpush {w : VWord} (h : wf (.vpush w) = true) : w.mod = 0 := by
  dsimp only [wf] at h
  simp only [Bool.and_eq_true, beq_iff_eq] at h
  obtain ⟨⟨⟨_, hm⟩, _⟩, _⟩ := h
  exact hm

theorem mod_of_wf_vpushBoff {w : VWord} (h : wf (.vpushBoff w) = true) : w.mod = 1 := by
  dsimp only [wf] at h
  simp only [Bool.and_eq_true, beq_iff_eq] at h
  obtain ⟨⟨⟨⟨⟨⟨_, hm⟩, _⟩, _⟩, _⟩, _⟩, _⟩ := h
  exact hm

/-- The word of a vector instruction packs its fields under the opcode that selects it; the pushes share one, and MOD[0] tells them
apart (R303). -/
theorem vectorOf_of_encodeVector {i : Instr} {x : BitVec 96} (h : encodeVector i = some x) (hw : wf i = true) :
    ∃ op w, x = packV op w ∧ vectorOf op.toNat w = some i := by
  cases i <;> cases h <;> refine ⟨_, _, rfl, ?_⟩
  case vpush => simp [vectorOf, mod_of_wf_vpush hw]
  case vpushBoff => simp [vectorOf, mod_of_wf_vpushBoff hw]
  all_goals rfl

/-- The vector decoder accepts exactly the words of the well-formed vector instructions. -/
theorem decodeVector_eq_some_iff {x : BitVec 96} {i : Instr} :
    decodeVector x = some i ↔ wf i = true ∧ encodeVector i = some x := by
  constructor
  · intro h
    unfold decodeVector at h
    split at h
    · cases h
    · split at h
      · exact wf_encode_of_accepted h
      · cases h
  · rintro ⟨hw, he⟩
    obtain ⟨op, w, rfl, ho⟩ := vectorOf_of_encodeVector he hw
    simp [decodeVector, ho, hw, he]

/-! ### Matrix words (R139, R140) -/

@[simp] theorem opcode_packM (op : BitVec 8) (w : MWord) : (packM op w).extractLsb' 182 8 = op := by
  simp (disch := decide) only [packM, BitVec.extractLsb'_append_eq_of_le, BitVec.extractLsb'_append_eq_of_add_le,
    BitVec.extractLsb'_eq_self, Nat.reduceSub]

@[simp] theorem unpackM_packM (op : BitVec 8) (w : MWord) : unpackM (packM op w) = w := by
  simp (disch := decide) only [unpackM, packM, BitVec.extractLsb'_append_eq_of_le, BitVec.extractLsb'_append_eq_of_add_le,
    BitVec.extractLsb'_eq_self, Nat.reduceSub, parseTok_encodeTok, BitVec.getLsbD_append, if_pos, if_neg, BitVec.getLsbD_ofBool,
    Bool.true_and, decide_true]

/-- The word of a matrix instruction packs its fields under the opcode that selects it. -/
theorem matrixOf_of_encodeMatrix {i : Instr} {x : BitVec 192} (h : encodeMatrix i = some x) :
    ∃ op w, x = packM op w ∧ matrixOf op.toNat w = some i := by
  cases i <;> cases h <;> exact ⟨_, _, rfl, rfl⟩

/-- The matrix decoder accepts exactly the words of the well-formed matrix instructions. -/
theorem decodeMatrix_eq_some_iff {x : BitVec 192} {i : Instr} :
    decodeMatrix x = some i ↔ wf i = true ∧ encodeMatrix i = some x := by
  constructor
  · intro h
    unfold decodeMatrix at h
    split at h
    · exact wf_encode_of_accepted h
    · cases h
  · rintro ⟨hw, he⟩
    obtain ⟨op, w, rfl, ho⟩ := matrixOf_of_encodeMatrix he
    simp [decodeMatrix, ho, hw, he]

/-! ### The bytes of a word in memory (R120) -/

theorem encodeScalar_of_encodeVector {i : Instr} {x : BitVec 96} (h : encodeVector i = some x) : encodeScalar i = none := by
  cases i <;> cases h <;> rfl

theorem encodeScalar_of_encodeMatrix {i : Instr} {x : BitVec 192} (h : encodeMatrix i = some x) : encodeScalar i = none := by
  cases i <;> cases h <;> rfl

theorem encodeVector_of_encodeMatrix {i : Instr} {x : BitVec 192} (h : encodeMatrix i = some x) : encodeVector i = none := by
  cases i <;> cases h <;> rfl

/-- The bytes of an instruction are those of its one word. -/
theorem encode_eq_some_iff {i : Instr} {bs : List Byte} :
    encode i = some bs ↔
      (∃ x, encodeScalar i = some x ∧ bs = toLE 4 x.toNat) ∨ (∃ x, encodeVector i = some x ∧ bs = toLE 12 x.toNat) ∨
      ∃ x, encodeMatrix i = some x ∧ bs = toLE 24 x.toNat := by
  constructor
  · intro h
    unfold encode at h
    split at h
    · rename_i x hx
      exact .inl ⟨x, hx, (Option.some.inj h).symm⟩
    · rename_i x _ hx
      exact .inr (.inl ⟨x, hx, (Option.some.inj h).symm⟩)
    · rename_i x _ _ hx
      exact .inr (.inr ⟨x, hx, (Option.some.inj h).symm⟩)
    · cases h
  · rintro (⟨x, hx, rfl⟩ | ⟨x, hx, rfl⟩ | ⟨x, hx, rfl⟩)
    · simp [encode, hx]
    · simp [encode, hx, encodeScalar_of_encodeVector hx]
    · simp [encode, hx, encodeScalar_of_encodeMatrix hx, encodeVector_of_encodeMatrix hx]

theorem encode_eq_some_iff_scalar {i : Instr} {bs : List Byte} (hl : bs.length = 4) :
    encode i = some bs ↔ encodeScalar i = some (BitVec.ofNat 32 (ofLE bs)) := by
  rw [encode_eq_some_iff]
  constructor
  · rintro (⟨x, hx, hb⟩ | ⟨x, _, rfl⟩ | ⟨x, _, rfl⟩)
    · rwa [← (eq_toLE_iff rfl hl x).mp hb]
    · simp at hl
    · simp at hl
  · exact fun h => .inl ⟨_, h, (eq_toLE_iff rfl hl _).mpr rfl⟩

theorem encode_eq_some_iff_vector {i : Instr} {bs : List Byte} (hl : bs.length = 12) :
    encode i = some bs ↔ encodeVector i = some (BitVec.ofNat 96 (ofLE bs)) := by
  rw [encode_eq_some_iff]
  constructor
  · rintro (⟨x, _, rfl⟩ | ⟨x, hx, hb⟩ | ⟨x, _, rfl⟩)
    · simp at hl
    · rwa [← (eq_toLE_iff rfl hl x).mp hb]
    · simp at hl
  · exact fun h => .inr (.inl ⟨_, h, (eq_toLE_iff rfl hl _).mpr rfl⟩)

theorem encode_eq_some_iff_matrix {i : Instr} {bs : List Byte} (hl : bs.length = 24) :
    encode i = some bs ↔ encodeMatrix i = some (BitVec.ofNat 192 (ofLE bs)) := by
  rw [encode_eq_some_iff]
  constructor
  · rintro (⟨x, _, rfl⟩ | ⟨x, _, rfl⟩ | ⟨x, hx, hb⟩)
    · simp at hl
    · simp at hl
    · rwa [← (eq_toLE_iff rfl hl x).mp hb]
  · exact fun h => .inr (.inr ⟨_, h, (eq_toLE_iff rfl hl _).mpr rfl⟩)

theorem encode_ne_nil (i : Instr) : encode i ≠ some [] := by
  rw [Ne, encode_eq_some_iff]
  rintro (⟨x, _, hb⟩ | ⟨x, _, hb⟩ | ⟨x, _, hb⟩) <;> simpa using congrArg List.length hb

/-- An engine accepts, of the bytes of one of its words, exactly those of a well-formed instruction. -/
theorem decode_eq_some_iff {e : Eng} {bs : List Byte} {i : Instr} (hl : bs.length = e.wordBytes) :
    decode e bs = some i ↔ wf i = true ∧ encode i = some bs := by
  cases e
  case ap | c0 => rw [encode_eq_some_iff_scalar hl]; exact decodeScalar_eq_some_iff
  case c1 | c2 => rw [encode_eq_some_iff_vector hl]; exact decodeVector_eq_some_iff
  case c3 => rw [encode_eq_some_iff_matrix hl]; exact decodeMatrix_eq_some_iff
  case su | ce =>
    obtain rfl := List.length_eq_zero_iff.mp hl
    simp [decode, encode_ne_nil]

/-- Settles O55, in both directions from what an engine accepts. -/
theorem decodeOfEncode : Obligations.DecodeOfEncode :=
  ⟨fun _ _ _ hw he hl => (decode_eq_some_iff hl.symm).mpr ⟨hw, he⟩, fun _ _ _ hl h => (decode_eq_some_iff hl).mp h⟩

end Sys2Proof
end

section
/-! The registers that read as a constant (O59), and the machine after a device reset (O58). -/

namespace Sys2Proof.Machine

open Sys2Proof.Safety Sys2Proof.Claims

/-! ### Scalar registers and predicates (R23, R169) -/

theorem wreg_ap_zero (s : State) (l : Nat) (v : Word) : wreg s l .ap 0 v = s := rfl

theorem wk_zero (s : State) (l : Nat) (e : Eng) (v : Bool) : wk s l e 0 v = s := rfl

theorem constantReads (s : State) (l : Nat) : ConstantReads s l where
  g0 := rfl
  k0 _ := rfl
  p0 _ := rfl

theorem rreg_wreg_ap_same (s : State) (l : Nat) {r : Reg} (v : Word) (hr : r ≠ 0) : rreg (wreg s l .ap r v) l .ap r = v := by
  rw [rreg_wreg s l (.inl rfl) nofun, withReg, if_pos ⟨rfl, fun h => hr h.2⟩]

theorem rreg_wreg_ap_ne (s : State) (l : Nat) {r q : Reg} (v : Word) (h : q ≠ r) :
    rreg (wreg s l .ap r v) l .ap q = rreg s l .ap q := by
  simp [rreg_wreg s l (.inl rfl) nofun, withReg, h]

theorem rreg_wreg_c0_same (s : State) (l : Nat) {r : Reg} (v : Word) (hr : r.toNat < 16) : rreg (wreg s l .c0 r v) l .c0 r = v := by
  simp [rreg_wreg s l (.inr rfl) fun _ => hr, withReg]

theorem rk_wk_same (s : State) (l : Nat) {e : Eng} {k : Nat} (v : Bool) (he : e = .ap ∨ e = .c0) (h0 : 0 < k) (h8 : k < 8) :
    rk (wk s l e k v) l e k = v := by
  have hk : (BitVec.ofNat 5 k).toNat = k := by
    rw [BitVec.toNat_ofNat]
    omega
  have hd : BitVec.ofNat 5 k ≠ 0 := fun h => by
    rw [h] at hk
    exact Nat.ne_of_lt h0 hk
  have := rk_wk s l he (d := BitVec.ofNat 5 k) (by omega) v k
  rwa [hk, withPred, if_pos ⟨hk.symm, hd⟩] at this

/-- Settles O59: the constants by what a read gives, the other registers by the law of each register file. -/
theorem constantRegisters : Obligations.ConstantRegisters :=
  ⟨constantReads, wreg_ap_zero, wk_zero, fun s l _ v => rreg_wreg_ap_same s l v, fun s l _ v => rreg_wreg_c0_same s l v,
    fun s l _ _ v => rk_wk_same s l v, fun s l _ _ v => rreg_wreg_ap_ne s l v⟩

/-! ### A core at reset (R23) -/

@[simp] theorem vget_replicate {α : Type} (n : Nat) (x : α) (i : Nat) : vget x (Vector.replicate n x) i = x := by
  simp only [vget, Vector.getElem?_replicate]
  split <;> rfl

theorem getEng_reset (l : Nat) (e : Eng) : getEng State.reset l e = EngSt.reset := vget_replicate ..

theorem rreg_reset (l : Nat) (e : Eng) (r : Reg) : rreg State.reset l e r = 0 := by
  cases e
  case ap =>
    simp only [rreg]
    split
    · rfl
    · exact vget_replicate ..
  all_goals exact vget_replicate ..

theorem rk_reset (l : Nat) (e : Eng) {k : Nat} (h : 0 < k) : rk State.reset l e k = false := by
  simp only [rk, if_neg (Nat.ne_of_gt h)]
  cases e <;> exact vget_replicate ..

theorem getPc_reset (l : Nat) (e : Eng) : getPc State.reset l e = 0 := by
  have h : getPc State.reset l e = (getEng State.reset l e).pc := by cases e <;> rfl
  rw [h, getEng_reset]
  rfl

theorem rv_reset (l : Nat) (c2 : Bool) (n : Nat) : rv State.reset l c2 n = VReg.zero := by
  cases c2 <;> exact vget_replicate ..

theorem rp_reset (l : Nat) (c2 : Bool) {n : Nat} (h : 0 < n) : rp State.reset l c2 n = 0 := by
  rw [rp, if_neg (Nat.ne_of_gt h)]
  cases c2 <;> exact vget_replicate ..

theorem getStream_reset (l i : Nat) : getStream State.reset l i = Stream.reset := vget_replicate ..

theorem getRing_reset (l q : Nat) : getRing State.reset l q = Ring.reset := vget_replicate ..

theorem coreAtReset (l : Nat) : CoreAtReset State.reset l where
  regs := rreg_reset l
  preds e _ := rk_reset l e
  pcs := getPc_reset l
  vregs := rv_reset l
  vpreds c2 _ := rp_reset l c2
  mode := rfl
  asid := rfl
  streams i := by rw [getStream_reset]; rfl
  rings q := by rw [getRing_reset]; rfl
  mask := rfl
  tiles := ⟨rfl, rfl⟩
  limit := rfl
  matrixMode := rfl
  idle := rfl
  counter := rfl
  queues := ⟨rfl, rfl, rfl, rfl⟩

/-! ### Memory at reset (R23, R24) -/

theorem memDefault_of_isSp {a : Nat} (h : isSp a = true) : memDefault a = some 0 := by
  simp only [isSp] at h
  simp only [memDefault]
  split at h
  · rename_i hr
    rw [hr]
  · cases h

theorem rowOf_host {a : Nat} (hlo : 0x20000000000 ≤ a) (hhi : a < 0x20004000000) : rowOf a = some .host := by
  rw [rowOf, if_neg (by omega), if_neg (by omega), if_pos ⟨hlo, hhi⟩]

theorem memDefault_host {a : Nat} (hlo : 0x20000000000 ≤ a) (hhi : a < 0x20004000000) : memDefault a = some 0 := by
  rw [memDefault, rowOf_host hlo hhi]

/-- A byte that no cell lists, in a memory that reset fills, reads as reset leaves it. -/
theorem readByte_unlisted {s : State} {a : Nat} {b : Byte} (hc : cellGet s.mem a = none) (hd : memDefault a = some b) :
    readByte s a = b := by
  rw [readByte, hc, hd]

/-- Settles O58: each core by `coreAtReset`, memory by what an unlisted byte reads as. -/
theorem resetFacts : Obligations.ResetFacts :=
  ⟨coreAtReset, rfl, rfl, rfl, rfl, rfl, reset_wf, rfl, fun _ => rfl,
    fun _ h => readByte_unlisted rfl (memDefault_of_isSp h), fun _ hlo hhi => readByte_unlisted rfl (memDefault_host hlo hhi)⟩

end Sys2Proof.Machine
end

section
/-! Reset, boot, scan-out and the freeze (O49). -/

namespace Sys2Proof.Machine

open Sys2Proof.Safety Sys2Proof.Claims

/-! ### Reset and boot (R23, R24, R27, R500) -/

theorem isSp_spBase {l a : Nat} (hl : l < 192) (ha : a < 0x100000) : isSp (spBase l + a) = true := by
  have hr : ∃ k, rowOf (spBase l + a) = some (.sp k) := by
    rw [spBase, rowOf, if_neg (by omega), if_neg (by omega), if_neg (by omega), if_pos (by omega)]
    exact ⟨_, rfl⟩
  obtain ⟨k, hk⟩ := hr
  rw [isSp, hk]

theorem cellGet_filter_eq_none {p : Host.Cell → Bool} {a : Nat} (h : ∀ b, p (a, b) = false) (m : List Host.Cell) :
    cellGet (m.filter p) a = none := by
  induction m with
  | nil => rfl
  | cons c t ih =>
    obtain ⟨k, v⟩ := c
    by_cases hp : p (k, v) = true
    · have hk : k ≠ a := by
        rintro rfl
        simp [h] at hp
      rw [List.filter_cons_of_pos hp, cellGet, if_neg hk, ih]
    · rw [List.filter_cons_of_neg hp, ih]

/-- A device reset keeps only the cells of other devices' memory, so no scratchpad byte is listed after it. -/
theorem readByte_deviceReset_sp {s t : State} (h : execDeviceReset s = .next t) {l a : Nat} (hl : l < 192) (ha : a < 0x100000) :
    readByte t (spBase l + a) = 0 := by
  cases h
  refine readByte_unlisted (cellGet_filter_eq_none (fun _ => ?_) _) (memDefault_of_isSp (isSp_spBase hl ha))
  rw [spBase, decide_eq_false_iff_not]
  omega

theorem getSvc_allSvc (s : State) (f : SvcCore → SvcCore) {k : Nat} (hk : k < 4) : getSvc (allSvc s f) k = f (getSvc s k) := by
  simp only [getSvc, allSvc, List.range, List.range.loop, List.foldl_cons, List.foldl_nil, vget_vset]
  obtain rfl | rfl | rfl | rfl : k = 0 ∨ k = 1 ∨ k = 2 ∨ k = 3 := by omega
  all_goals simp

theorem getSvc_startSvc_pc (s : State) {k : Nat} (hk : k < 4) : (getSvc (startSvc s) k).pc = 0x20000000328 := by
  rw [startSvc, getSvc_allSvc s _ hk]
  rfl

theorem deviceReset_resets (s : State) :
    ∃ t, exec .deviceReset s = .next t ∧ t.inReset = true ∧ t.tick = 0 ∧ t.cores = State.reset.cores ∧ t.launches = [] ∧
      t.host = State.reset.host ∧ t.frozen = false ∧ (∀ l a, l < 192 → a < 0x100000 → readByte t (spBase l + a) = 0) ∧
      t.dies = State.reset.dies ∧ t.ctxs = State.reset.ctxs ∧ t.parts = State.reset.parts :=
  ⟨_, rfl, rfl, rfl, rfl, rfl, rfl, rfl, fun _ _ => readByte_deviceReset_sp rfl, rfl, rfl, rfl⟩

theorem resetRelease_begins {s : State} (h : s.inReset = true) :
    ∃ t, exec .resetRelease s = .next t ∧ t.inReset = false ∧ t.tick = 1 ∧ t.cores = s.cores ∧ t.mem = s.mem :=
  ⟨_, congrArg Host.Outcome.next (if_pos h), rfl, rfl, rfl, rfl⟩

/-- An accepted image starts the service cores, and its body's hash is kept. -/
theorem imageVerification_accepts {s : State} (hb : s.host.bootState = 1) (hh : s.secHalt = false)
    (hi : imageOk s s.host.bootLen.toNat = true) :
    exec .imageVerification s =
      .next { startSvc s with host := { s.host with bootState := 2 }, bodyHash := BitVec.ofNat 256 (ofBE (imageBytes s 8 32)) } :=
  congrArg Host.Outcome.next ((if_neg (by simp [hb, hh])).trans (if_pos hi))

/-- A refused image changes nothing but the state of the boot. -/
theorem imageVerification_refuses {s : State} (hb : s.host.bootState = 1) (hh : s.secHalt = false)
    (hi : ¬imageOk s s.host.bootLen.toNat = true) :
    exec .imageVerification s = .next { s with host := { s.host with bootState := 3 } } :=
  congrArg Host.Outcome.next ((if_neg (by simp [hb, hh])).trans (if_neg hi))

theorem imageVerification_decides {s : State} (hb : s.host.bootState = 1) (hh : s.secHalt = false) :
    ∃ t, exec .imageVerification s = .next t ∧
      t.host.bootState = (if imageOk s s.host.bootLen.toNat then 2 else 3) ∧ t.mem = s.mem ∧ t.cores = s.cores ∧
      ∀ k, k < 4 → (getSvc t k).pc = if imageOk s s.host.bootLen.toNat then 0x20000000328 else (getSvc s k).pc := by
  by_cases hi : imageOk s s.host.bootLen.toNat = true
  · simp only [if_pos hi]
    exact ⟨_, imageVerification_accepts hb hh hi, rfl, startSvc_mem s, rfl, fun _ hk => getSvc_startSvc_pc s hk⟩
  · simp only [if_neg hi]
    exact ⟨_, imageVerification_refuses hb hh hi, rfl, rfl, rfl, fun _ _ => rfl⟩

theorem vacancyMapWrite_readies {s : State} (hr : Runs s) (hh : s.host.ready = false) (map : BitVec 192) :
    ∃ t, exec (.vacancyMapWrite map) s = .next t ∧ t.host.ready = true ∧ t.cores = s.cores ∧ t.mem = s.mem ∧
      ∀ l, l < 192 → (isVacant t l = true ↔ map.getLsbD l = true) := by
  obtain ⟨hb, hs⟩ := hr
  have hw : (!fwRuns s || s.host.ready) = false := by simp [fwRuns, hb, hs, hh]
  refine ⟨_, congrArg Host.Outcome.next (if_neg (by simp [hw])), rfl, rfl, rfl, fun l hl => ?_⟩
  simp [isVacant, modHost, hl]

theorem resetAndBootPart : ResetAndBootPart := fun s =>
  ⟨deviceReset_resets s, resetRelease_begins, imageVerification_decides, vacancyMapWrite_readies⟩

/-! ### Scan-out (R493) -/

theorem ofLE_div_mod (bs : List Byte) {i : Nat} (hi : i < bs.length) : ofLE bs / 2 ^ (8 * i) % 256 = bs[i].toNat := by
  induction bs generalizing i with
  | nil => cases hi
  | cons b bs ih =>
    have hb := b.isLt
    cases i with
    | zero =>
      simp only [ofLE, List.getElem_cons_zero]
      omega
    | succ i =>
      have hd : (b.toNat + 256 * ofLE bs) / 256 = ofLE bs := by omega
      rw [ofLE, Nat.mul_succ, Nat.add_comm (8 * i), Nat.pow_add, ← Nat.div_div_eq_div_mul, hd]
      exact ih (Nat.lt_of_succ_lt_succ hi)

/-- Byte `i` of a little-endian number (R4). -/
theorem extractLsb'_ofLE {bs : List Byte} {i : Nat} (hi : i < bs.length) :
    (BitVec.ofNat (8 * bs.length) (ofLE bs)).extractLsb' (8 * i) 8 = bs[i] := by
  apply BitVec.eq_of_toNat_eq
  rw [BitVec.extractLsb'_toNat, BitVec.toNat_ofNat, Nat.mod_eq_of_lt (ofLE_lt bs), Nat.shiftRight_eq_div_pow]
  exact ofLE_div_mod bs hi

theorem readWord_byte (s : State) (a : Nat) {i : Nat} (hi : i < 8) : (readWord s a).extractLsb' (8 * i) 8 = readByte s (a + i) := by
  have hl : (readBytes s a 8).length = 8 := by simp [readBytes]
  calc (readWord s a).extractLsb' (8 * i) 8 = (readBytes s a 8)[i]'(hl.symm ▸ hi) := extractLsb'_ofLE _
    _ = readByte s (a + i) := by simp [readBytes]

theorem fastScanRead_mem {s : State} {pa : Nat} (hm : scanMem pa = true) (hw : refreshIn s pa 8 = false) :
    exec (.fastScanRead (.mem pa)) s = .next { s with scanData := readWord s pa } :=
  congrArg Host.Outcome.next (if_pos (by simp [hm, hw]))

/-! ### The freeze (R493) -/

theorem freeze_freezes {s : State} (hf : s.frozen = false) (hr : s.inReset = false) :
    exec .freeze s = .next (freezeNow s) :=
  congrArg Host.Outcome.next (if_neg (by simp [hf, hr]))

theorem freezeDue_iff (s : State) : freezeDue s = true ↔ s.frzArm = true ∧ s.frzTick = s.tick := by
  simp [freezeDue]

theorem freezeAtTick_due {s : State} (hf : s.frozen = false) (hr : s.inReset = false) (ha : s.frzArm = true)
    (ht : s.frzTick = s.tick) : exec .freezeAtTick s = .next (freezeNow s) :=
  congrArg Host.Outcome.next (if_neg (by simp [hf, hr, (freezeDue_iff s).mpr ⟨ha, ht⟩]))

theorem freezeAtTick_not_due {s : State} (h : s.frzArm = false ∨ s.frzTick ≠ s.tick) : exec .freezeAtTick s = .next s := by
  have hd : freezeDue s = false := by
    rw [← Bool.not_eq_true, freezeDue_iff]
    rintro ⟨ha, ht⟩
    rcases h with h | h
    · simp [h] at ha
    · exact h ht
  exact congrArg Host.Outcome.next (if_pos (by simp [hd]))

/-! ### A frozen package (R493) -/

/-- An outcome that differs from `s` in the two registers of scan-out alone. -/
def OnlyScans (s : State) (o : Host.Outcome State Fault Refusal) : Prop :=
  ∃ k d, o = .next { s with tap := k, scanData := d }

theorem onlyScans_next (s : State) : OnlyScans s (.next s) := ⟨s.tap, s.scanData, rfl⟩

theorem stepWord_of_frozen {s : State} (h : s.frozen = true) (l : Nat) (e : Eng) : stepWord s l e = .next s := by
  have ht : canTry s l e = false := by
    unfold canTry
    simp [h]
  rw [stepWord, if_neg (by simp [ht])]

theorem otherMove_of_frozen {s : State} (h : s.frozen = true) (m : Move) : otherMove m s = s := by
  unfold otherMove
  exact if_pos (by simp [h])

theorem onlyScans_fastScanRead (a : ScanAddr) (s : State) : OnlyScans s (exec (.fastScanRead a) s) := by
  cases a with
  | mem pa =>
    simp only [exec, execFastScanRead]
    split
    · exact ⟨_, _, rfl⟩
    · exact onlyScans_next s
  | diag a => exact ⟨_, _, rfl⟩
  | csr l n => exact ⟨_, _, rfl⟩

/-- The events that a frozen package takes, but for a device reset, are those of scan-out. -/
theorem onlyScans_of_frozenTakes {i : Instr} (h : frozenTakes i = true) (hr : i ≠ .deviceReset) (s : State) :
    OnlyScans s (exec i s) := by
  unfold frozenTakes at h
  split at h
  case h_1 => exact absurd rfl hr
  case h_2 => exact onlyScans_fastScanRead _ s
  case h_7 => cases h
  all_goals exact ⟨_, _, rfl⟩

theorem frozenTakes_of_eventOk {s : State} (h : s.frozen = true) {i : Instr} (he : eventOk s i = true) : frozenTakes i = true := by
  simp only [eventOk, h, Bool.and_eq_true] at he
  obtain ⟨⟨⟨-, hf⟩, -⟩, -⟩ := he
  simpa using hf

theorem onlyScans_stepMove {s : State} (h : s.frozen = true) {m : Move} (hm : m ≠ .event .deviceReset) : OnlyScans s (stepMove m s) := by
  unfold stepMove
  split
  · rw [stepWord_of_frozen h]
    exact onlyScans_next s
  · rename_i i
    split
    · rename_i he
      exact onlyScans_of_frozenTakes (frozenTakes_of_eventOk h he) (fun hi => hm (hi ▸ rfl)) s
    · exact onlyScans_next s
  · rw [otherMove_of_frozen h]
    exact onlyScans_next s

theorem step_frozen_nil {s : State} (h : s.frozen = true) (ht : s.tape = []) : step s = .fault .frozen := by
  simp only [step, ht, h, if_true]

theorem step_frozen_cons {s : State} (h : s.frozen = true) {m : Move} {rest : List Move} (ht : s.tape = m :: rest)
    (hm : m ≠ .event .deviceReset) : OnlyScans { s with tape := rest, nonce := s.nonce + 1 } (step s) := by
  simp only [step, ht]
  exact onlyScans_stepMove (s := { s with tape := rest, nonce := s.nonce + 1 }) h hm

theorem freeze_of_frozen {s : State} (h : s.frozen = true) : exec .freeze s = .next s :=
  congrArg Host.Outcome.next (if_pos (by simp [h]))

theorem freezeAtTick_of_frozen {s : State} (h : s.frozen = true) : exec .freezeAtTick s = .next s :=
  congrArg Host.Outcome.next (if_pos (by simp [h]))

theorem scanAndFreezePart : ScanAndFreezePart := fun s =>
  ⟨rfl, rfl, rfl, ⟨_, rfl⟩,
    fun pa hm hw => ⟨_, fastScanRead_mem hm hw, fun _ => readWord_byte s pa⟩,
    fun _ => rfl, fun _ _ => rfl,
    fun hf hr => ⟨⟨_, freeze_freezes hf hr, rfl, rfl⟩, fun ha ht => ⟨_, freezeAtTick_due hf hr ha ht, rfl, rfl⟩, freezeAtTick_not_due⟩,
    fun h => ⟨freeze_of_frozen h, freezeAtTick_of_frozen h, step_frozen_nil h, fun _ _ => step_frozen_cons h⟩⟩

/-- Settles O49: each event by its own meaning, and the frozen package by the moves that can still act in it. -/
theorem resetBootAndScan : Obligations.ResetBootAndScan := ⟨resetAndBootPart, scanAndFreezePart⟩

end Sys2Proof.Machine
end

section
/-! Every instruction, every event and every step answers a next state, but the step of a frozen package whose schedule is empty
(O57). -/

namespace Sys2Proof.Machine

/-- An outcome that is a next state. -/
def Answers (o : Host.Outcome State Fault Refusal) : Prop := ∃ t, o = .next t

theorem answers_next (t : State) : Answers (.next t) := ⟨t, rfl⟩

theorem answers_ite {p : Prop} [Decidable p] {a b : Host.Outcome State Fault Refusal} (ha : Answers a) (hb : Answers b) :
    Answers (if p then a else b) := by
  split
  · exact ha
  · exact hb

/-! ### Instructions and events -/

theorem csrWord_answers (k : Guard) (d : Reg) (n : BitVec 12) (old : Bool) (s : State) : Answers (csrWord k d n old s) :=
  answers_ite (answers_next _) (answers_next _)

/-- MWAIT in each state of its wait: its home has answered, has refused, or is still to be asked (R341). -/
theorem execMwait_answers (w : MWord) (s : State) : Answers (execMwait w s) := by
  unfold execMwait
  dsimp only
  split
  · exact answers_next _
  · exact answers_next _
  · exact answers_next _

/-- Most meanings are one next state, their cases inside it; the others choose first between meanings that are. -/
theorem exec_answers (i : Instr) (s : State) : Answers (exec i s) := by
  cases i
  case loop | brq | bqpush | tksig | tkwait | copyw | start => exact answers_ite (answers_next _) (answers_next _)
  case csrw | csrx => exact csrWord_answers ..
  case vcvt => exact answers_ite (answers_next _) (answers_ite (answers_next _) (answers_next _))
  case mwait => exact execMwait_answers ..
  all_goals exact answers_next _

/-! ### The default schedule -/

/-- Every move of a list answers in every state. -/
def MovesAnswer (fs : List (State → MoveOut)) : Prop := ∀ f ∈ fs, ∀ t, Answers (f t)

theorem movesAnswer_nil : MovesAnswer [] := fun _ h => nomatch h

theorem movesAnswer_exec (is : List Instr) : MovesAnswer (is.map exec) :=
  List.forall_mem_map.mpr fun i _ => exec_answers i

theorem MovesAnswer.append {fs gs : List (State → MoveOut)} (hf : MovesAnswer fs) (hg : MovesAnswer gs) : MovesAnswer (fs ++ gs) :=
  List.forall_mem_append.mpr ⟨hf, hg⟩

theorem movesAnswer_map {α : Type} (xs : List α) (g : α → State → MoveOut) (h : ∀ a t, Answers (g a t)) : MovesAnswer (xs.map g) :=
  List.forall_mem_map.mpr fun a _ => h a

theorem movesAnswer_replicate (n : Nat) (g : State → MoveOut) (h : ∀ t, Answers (g t)) : MovesAnswer (List.replicate n g) :=
  fun _ hf => List.eq_of_mem_replicate hf ▸ h

theorem movesAnswer_flatMap {α : Type} (xs : List α) (g : α → List (State → MoveOut)) (h : ∀ a, MovesAnswer (g a)) :
    MovesAnswer (xs.flatMap g) :=
  List.forall_mem_flatMap.mpr fun a _ => h a

theorem agentMoves_answer (s : State) (a : Agent) : MovesAnswer (agentMoves s a) := by
  unfold agentMoves
  split
  · exact movesAnswer_nil
  · exact movesAnswer_nil
  · exact movesAnswer_nil
  · exact movesAnswer_exec [.pageWalk a]

theorem streamMoves_answer (s : State) (l n : Nat) : MovesAnswer (streamMoves s l n) := by
  let c : CoreNum := BitVec.ofNat 8 l
  let j : BitVec 4 := BitVec.ofNat 4 n
  unfold streamMoves
  dsimp only
  split
  · exact movesAnswer_nil
  · have hevents :=
      movesAnswer_exec [.streamStart c j, .streamSlotCommit c j, .bindOffCommit c j, .streamSlotDrain c j, .remoteSlotTransfer c j]
    exact hevents.append (agentMoves_answer s _)

section
variable {issue : Nat → Eng → State → MoveOut} (hi : ∀ l e t, Answers (issue l e t))
include hi

/-- The moves of a core are events of its own, tries of its engines, and retries of its agents. -/
theorem coreMoves_answer (s : State) (l : Nat) : MovesAnswer (coreMoves issue s l) := by
  let c : CoreNum := BitVec.ofNat 8 l
  have hevents := movesAnswer_exec [.trapEntry c, .clsClear c, .recordRetirement c, .continuationPush c, .preemptionStop c,
    .handlerStopLimit c, .contextSave c, .contextRestore c, .recordExamine c, .recordSelection c, .watchdog c, .hpcC3Write c,
    .lockstepRendezvous c]
  have hstreams := movesAnswer_flatMap (List.range 16) (streamMoves s l) fun n => streamMoves_answer s l n
  have hengs := movesAnswer_map [.c0, .c1, .c2, .c3, .ap] (issue l) (hi l)
  have hstarts := movesAnswer_map (List.range (getCore s l).c3.length) _ fun n => exec_answers (.matrixWordStart c n)
  have hretires := movesAnswer_replicate (getCore s l).c3.length _ (exec_answers (.matrixWordRetirement c 0))
  have hcopies : MovesAnswer (if (getCore s l).ce.isEmpty then [] else [execCopyTransferStart c, execCopyTransferComplete c]) := by
    split
    · exact movesAnswer_nil
    · exact movesAnswer_exec [.copyTransferStart c, .copyTransferComplete c]
  refine hevents.append hstreams |>.append hengs |>.append hengs |>.append hstarts |>.append hretires |>.append hcopies
    |>.append ?wakes |>.append ?acks |>.append (agentMoves_answer s _) |>.append (agentMoves_answer s _) |>.append ?polls
  case wakes => exact movesAnswer_map _ _ fun q => exec_answers (.watchWake c q.2)
  case acks => exact movesAnswer_replicate _ _ (exec_answers (.acknowledgement c))
  case polls =>
    refine movesAnswer_flatMap _ _ fun w => ?_
    split
    · exact movesAnswer_nil
    · exact movesAnswer_exec [.barwaitRepoll _ w.c3]

end

theorem deviceMoves_answer (s : State) : MovesAnswer (deviceMoves s) := by
  have hevents := movesAnswer_exec [.taskKill, .completionEntryWrite, .admission, .gangAdmission, .detectorCopyUpdate, .asidRetirement]
  refine hevents.append ?faults |>.append (agentMoves_answer s _) |>.append ?launches |>.append ?accesses
  case faults => exact movesAnswer_map _ _ fun r => exec_answers (.faultRecordWrite (agentOf r))
  case launches => exact movesAnswer_flatMap _ _ fun k => movesAnswer_exec [.replanEvent k.lid, .launchEnd k.lid]
  case accesses => exact movesAnswer_map _ _ fun n => exec_answers (.accessPerform n)

theorem rootMoves_answer (s : State) : MovesAnswer (rootMoves s) := movesAnswer_map _ _ fun k => exec_answers (.rootRecordPush k.lid)

theorem barrierMoves_answer (s : State) : MovesAnswer (barrierMoves s) := by
  refine (movesAnswer_replicate _ _ fun t => ?_).append (movesAnswer_replicate _ _ fun t => ?_)
  · split
    · exact exec_answers (.barrierRequestAtHome _) t
    · exact answers_next t
  · split
    · exact exec_answers (.barrierPhaseReply _) t
    · exact answers_next t

theorem ctxMoves_answer (p : Nat × Ctx) : MovesAnswer (ctxMoves p) := by
  let x : CtxNum := BitVec.ofNat 9 p.1
  unfold ctxMoves
  dsimp only
  split
  · exact movesAnswer_exec [.actTake x, .obsBell x, .rewBell x]
  · exact movesAnswer_exec [.suspendedContextEnd x]
  · split
    · exact movesAnswer_exec [.scrub x]
    · exact movesAnswer_nil
  · exact movesAnswer_nil

theorem epMoves_answer (n : Nat) : MovesAnswer (epMoves n) :=
  let k : BitVec 6 := BitVec.ofNat 6 n
  movesAnswer_exec [.contextSwitch k, .episodeCoreInstruction k, .episodeCoreInstruction k]

section
variable {issue : Nat → Eng → State → MoveOut} (hi : ∀ l e t, Answers (issue l e t))
include hi

theorem agenda_answers (s : State) : MovesAnswer (agenda issue s) := by
  unfold agenda
  split
  · exact movesAnswer_nil
  · have hcores := movesAnswer_flatMap s.cores (fun c => coreMoves issue s c.1) fun c => coreMoves_answer hi s c.1
    have hctxs := movesAnswer_flatMap s.ctxs ctxMoves ctxMoves_answer
    have heps := movesAnswer_flatMap (epsUsed s) epMoves epMoves_answer
    exact (deviceMoves_answer s).append hcores |>.append (rootMoves_answer s) |>.append (barrierMoves_answer s) |>.append hctxs
      |>.append heps |>.append (movesAnswer_map _ _ fun _ _ => answers_next _)

theorem defaultStep_answers (s : State) : Answers (defaultStep issue s) := by
  unfold defaultStep
  split
  · exact exec_answers .resetRelease s
  · split
    · rename_i f hf
      exact agenda_answers hi s f (List.mem_of_getElem? hf) _
    · exact answers_next _

end

/-! ### The step -/

theorem stepWord_answers (s : State) (l : Nat) (e : Eng) : Answers (stepWord s l e) := by
  unfold stepWord
  refine answers_ite ?_ (answers_next s)
  split
  · exact answers_next _
  · exact answers_next _
  · split
    · exact answers_next _
    · exact exec_answers _ _

theorem stepMove_answers (m : Move) (s : State) : Answers (stepMove m s) := by
  unfold stepMove
  split
  · exact stepWord_answers s _ _
  · exact answers_ite (exec_answers _ s) (answers_next s)
  · exact answers_next _

theorem step_answers {s : State} (h : s.frozen = false ∨ s.tape ≠ []) : Answers (step s) := by
  unfold step
  split
  · exact stepMove_answers _ _
  · rename_i ht
    have hf : s.frozen = false := h.resolve_right (not_not_intro ht)
    rw [if_neg (by simp [hf])]
    exact defaultStep_answers (fun l e t => stepWord_answers t l e) _

/-- Settles O57: every arm of `exec` answers, and so do the moves of the schedule, which run it. -/
theorem everyInstructionAnswers : Obligations.EveryInstructionAnswers :=
  ⟨exec_answers, fun _ => step_answers, fun _ => step_frozen_nil⟩

end Sys2Proof.Machine
end

section
/-! Words written out from the tables decode to their instructions (O54), and a step of an engine executes the word at its program
counter (O56). -/

namespace Sys2Proof

/-! ### The bytes of a word (R4, R120) -/

theorem ofLE_toLE_mod (n x : Nat) : ofLE (toLE n x) = x % 2 ^ (8 * n) := by
  induction n generalizing x with
  | zero => exact (Nat.mod_one x).symm
  | succ n ih => rw [toLE, ofLE, ih, BitVec.toNat_ofNat, Nat.mul_succ, Nat.pow_add, Nat.mul_comm (2 ^ (8 * n)), Nat.mod_mul]

/-- The bytes of a fetched number give back as much of it as a word of their width holds. -/
theorem ofNat_ofLE_toLE {n w : Nat} (hw : w = 8 * n) (hn : w ≤ 192) (x : Nat) :
    BitVec.ofNat w (ofLE (toLE n (BitVec.ofNat 192 x).toNat)) = BitVec.ofNat w x := by
  subst hw
  apply BitVec.eq_of_toNat_eq
  simp only [BitVec.toNat_ofNat, ofLE_toLE_mod, Nat.mod_mod, Nat.mod_mod_of_dvd x (Nat.pow_dvd_pow 2 hn)]

/-- A word of the tables that is the word of a well-formed instruction decodes to it. -/
theorem decode_toLE {e : Eng} {x : Nat} {i : Instr} (h : wf i = true ∧ encode i = some (toLE e.wordBytes x)) :
    decode e (toLE e.wordBytes x) = some i :=
  (decode_eq_some_iff (length_toLE _ x)).mpr h

/-- Settles O54: each word is that of a well-formed instruction, and the word of zeros is none. -/
theorem decodeWords : Obligations.DecodeWords :=
  ⟨decode_toLE (by decide), decode_toLE (by decide), decode_toLE (by decide), decode_toLE (by decide),
    decode_toLE (by decide), decode_toLE (by decide), decode_toLE (by decide), decode_toLE (by decide), by decide,
    decode_toLE (by decide), decode_toLE (by decide)⟩

namespace Machine

theorem decodeFetched_ofLE (e : Eng) (bs : List Byte) : decodeFetched e (BitVec.ofNat 192 (ofLE bs)) = decode e bs := by
  unfold decodeFetched
  cases e
  case ap | c0 => exact congrArg decodeScalar (ofNat_ofLE_toLE rfl (by decide) _)
  case c1 | c2 => exact congrArg decodeVector (ofNat_ofLE_toLE rfl (by decide) _)
  case c3 => exact congrArg decodeMatrix (ofNat_ofLE_toLE rfl (by decide) _)
  case su | ce => rfl

/-! ### A read counted in ECC_STAT (R498) -/

/-- States that differ at most in the cores and in the granules with a single-bit error. -/
def ReadsAlike (s t : State) : Prop := ∃ cores soft, t = { s with cores := cores, eccSoft := soft }

theorem spTouch_readsAlike {s t : State} (h : ReadsAlike s t) (l off n : Nat) : ReadsAlike s (spTouch t l off n) := by
  obtain ⟨_, _, rfl⟩ := h
  unfold spTouch
  split
  · exact ⟨_, _, rfl⟩
  · exact ⟨_, _, rfl⟩

theorem touchParts_readsAlike (s : State) (ps : List (Trans × Nat × Nat)) : ReadsAlike s (touchParts s ps) := by
  have hs : ReadsAlike s s := ⟨_, _, rfl⟩
  unfold touchParts
  split
  · exact hs
  · refine foldl_inv _ _ (fun t p ht => foldl_inv _ _ (fun u r hu => ?_) _ _ ht) _ _ hs
    split
    · exact spTouch_readsAlike hu _ _ _
    · exact hu

theorem readParts_touchParts (s : State) (ps qs : List (Trans × Nat × Nat)) : readParts (touchParts s ps) qs = readParts s qs := by
  obtain ⟨_, _, h⟩ := touchParts_readsAlike s ps
  rw [h]
  rfl

/-! ### What a fetch gives (R120, R419, R478) -/

/-- The fetch of an engine that has no word in hand, at an address of its code whose page its core may read from. -/
structure FetchGranted (s : State) (l : Nat) (e : Eng) (key : Nat) (ps : List (Trans × Nat × Nat)) (tlb : List TlbEnt) : Prop where
  cur : (getEng s l e).cur = none
  legal : pcLegal s l e (getPc s l e) = true
  clear : (getCore s l).apFlt = .clear
  page : ∃ va, classify (getPc s l e) = .virt va key ∧
    checkVa s none (getCore s l).walkCache (getCore s l).apTlb 64 (cx s l).asid (runLid s l) va e.wordBytes key .fetch = (.ok ps, tlb)

theorem FetchGranted.fetch_here {s : State} {l : Nat} {e : Eng} {key : Nat} {ps : List (Trans × Nat × Nat)} {tlb : List TlbEnt}
    (h : FetchGranted s l e key ps tlb) (hps : ∀ p ∈ ps, homeOf (dieOf l) p ≠ .remote) :
    let v := touchParts (modCore s l fun c => { c with apTlb := tlb }) ps
    (readParts v ps).1.any (·.psn) = false →
      fetch s l e = .word (BitVec.ofNat 192 (ofLE ((readParts v ps).1.map (·.b)))) (hotParts v ps) := by
  obtain ⟨hcur, hpc, hflt, va, hva, hck⟩ := h
  intro v hpsn
  simp only [v, readParts_touchParts] at hpsn ⊢
  have hhere : (ps.all fun p => homeOf (dieOf l) p != .remote) = true := by simpa using hps
  unfold cx at hck
  simp only [fetch, hcur, hpc, hflt, hva, hck, hhere, hpsn, bne_self_eq_false, Bool.not_true, Bool.false_and, Bool.false_eq_true,
    if_true, if_false]

theorem FetchGranted.fetch_away {s x : State} {l : Nat} {e : Eng} {key : Nat} {ps : List (Trans × Nat × Nat)} {tlb : List TlbEnt}
    (h : FetchGranted s l e key ps tlb) (hps : ∃ p ∈ ps, homeOf (dieOf l) p = .remote)
    (hx : readAway (modCore s l fun c => { c with apTlb := tlb }) l .c0 0 key 0xF ps = (x, none)) : fetch s l e = .wait x := by
  obtain ⟨hcur, hpc, hflt, va, hva, hck⟩ := h
  have haway : (ps.all fun p => homeOf (dieOf l) p != .remote) = false := by simpa using hps
  unfold cx at hck
  simp only [fetch, hcur, hpc, hflt, hva, hck, haway, hx, bne_self_eq_false, Bool.not_true, Bool.false_and, Bool.false_eq_true, if_false]

/-! ### The try of an engine -/

theorem stepWord_of_not_canTry {s : State} {l : Nat} {e : Eng} (h : canTry s l e = false) : stepWord s l e = .next s :=
  if_neg (by simp [h])

section
variable {s : State} {l : Nat} {e : Eng} (hc : canTry s l e = true)
include hc

theorem stepWord_outside (hf : fetch (beginTry s l e) l e = .outside) : stepWord s l e = .next (illegal (beginTry s l e)) := by
  simp only [stepWord, hc, hf, if_true]

theorem stepWord_wait {t : State} (hf : fetch (beginTry s l e) l e = .wait t) : stepWord s l e = .next (fetchPending t) := by
  simp only [stepWord, hc, hf, if_true]

theorem stepWord_word {w : BitVec 192} {t : State} {i : Instr} (hf : fetch (beginTry s l e) l e = .word w t)
    (hi : decodeFetched e w = some i) : stepWord s l e = exec i (withWord t w) := by
  simp only [stepWord, hc, hf, hi, if_true]

theorem stepWord_no_word {w : BitVec 192} {t : State} (hf : fetch (beginTry s l e) l e = .word w t)
    (hi : decodeFetched e w = none) : stepWord s l e = .next (illegal (withWord t w)) := by
  simp only [stepWord, hc, hf, hi, if_true]

end

/-! ### The step -/

theorem step_cons {s : State} {m : Move} {rest : List Move} (h : s.tape = m :: rest) :
    step s = stepMove m { s with tape := rest, nonce := s.nonce + 1 } := by
  simp only [step, h]

theorem step_issue {s : State} {c : CoreNum} {e : Eng} {rest : List Move} (h : s.tape = .issue c e :: rest) :
    step s = stepWord { s with tape := rest, nonce := s.nonce + 1 } c.toNat e := step_cons h

/-- Settles O56: a step at an engine's move is its try, which goes as its fetch does. -/
theorem stepRunsTheDecodedWord : Obligations.StepRunsTheDecodedWord := by
  refine ⟨fun s c e rest ht => ?_, fun s i rest ht => step_cons ht⟩
  intro l s0 u
  rw [step_issue ht]
  refine ⟨stepWord_of_not_canTry, fun hc => ⟨fun w t hf => ⟨fun i => stepWord_word hc hf, stepWord_no_word hc hf⟩, stepWord_outside hc,
    fun hcur hpc hflt va key ps tlb hva hck => ?_⟩⟩
  have hg : FetchGranted u l e key ps tlb := ⟨hcur, hpc, hflt, va, hva, hck⟩
  refine ⟨fun hps hpsn i hi => ?_, fun hps x hx => stepWord_wait hc (hg.fetch_away hps hx)⟩
  exact stepWord_word hc (hg.fetch_here hps hpsn) ((decodeFetched_ofLE e _).trans hi)

end Machine
end Sys2Proof
end
